-- ==== Sys2Proof/Word.lean ====
section
/-! DEFINITION. The word types of the part: 32-bit words, bytes, sectors of 1024 words, and the index types of bays,
tags and plan slots. -/

namespace Sys2Proof

/-- A 32-bit word (00_scope, Conventions). -/
abbrev Word := BitVec 32

/-- A byte. -/
abbrev Byte := BitVec 8

/-- A logical sector of 4096 bytes, held as its 1024 words (00_scope, Conventions: Sectors and words). -/
abbrev Sector := Vector Word 1024

/-- A bay, 0 to 7. -/
abbrev BayIx := Fin 8

/-- A link tag, 0 to 31 (R1). -/
abbrev Tag := Fin 32

/-- A plan slot, 0 to 95 (R116). -/
abbrev SlotIx := Fin 96

/-- Largest value of a 32-bit saturating count. -/
def max32 : Nat := 4294967295

/-- Largest value of a 48-bit saturating count. -/
def max48 : Nat := 281474976710655

/-- One more, held at `top` (00_scope, Conventions: Saturating and held). -/
def satInc (top n : Nat) : Nat := if n < top then n + 1 else n

/-- One more on a 32-bit saturating count. -/
def inc32 (n : Nat) : Nat := satInc max32 n

end Sys2Proof
end

