-- ==== Sys2Proof/Config.lean ====
section
/-! DEFINITION. The constants of the part. The manual leaves no result of a command open: what it leaves to the outside
(how many sectors a drive takes at one DATA REQUEST, the level of the AUX pin) is an operand of the command or a field of
State that every statement quantifies over, so no free value stands here (log entries 4 and 5). -/

namespace Sys2Proof

/-- The annex holds 256 sectors (R5). -/
def annexSize : Nat := 256

/-- Host tags are below 24, part tags are 24 to 31 (R3). -/
def hostTags : Nat := 24

/-- The stamp signature (R44). -/
def stampSignature : Word := 0x454B5438#32

/-- The directive signature (R164). -/
def directiveSignature : Word := 0x454B4438#32

/-- The ship marker (R144). -/
def shipMarker : Word := 0x454B5338#32

/-- The presence debounce in ms (R148). -/
def debounceMs : Nat := 500

/-- The length of an ACTIVITY lamp pulse in ms (R161). -/
def pulseMs : Nat := 50

/-- The number of zones a Zone Map has records for (R62). -/
def zoneCount : Nat := 4096

/-- The most zones a rescan queue holds (R75). -/
def rescanQueueMax : Nat := 8

/-- The most ranges an unsettled-write list holds (R38). -/
def unsettledMax : Nat := 16

/-- The highest pass number (R85). -/
def maxPass : Nat := 65535

/-- Arrivals one event can make: a valid chain of at most 96 slots whose loops, one at a time, run a body at most 256
times (R121, R129) makes fewer (log entry 21). -/
def arrivalFuel : Nat := 25000

end Sys2Proof
end

