-- ==== Sys2Proof/Syntax.lean ====
section
/-! DEFINITION. The commands of the part: one constructor of `Instr` for each row of spec/opcode_table.json, with the
operands the row's rule names. Bytes of a directive are operands as the mailbox sector carries them (R174), so that the
value checks of the rules have something to refuse. -/

namespace Sys2Proof

/-- The kinds of an upstream COMMAND (R1). -/
inductive CmdKind where
  | read | write | flush | capacity | other
  deriving DecidableEq, Repr

/-- A capacity answer: capacity in sectors, sector size in bytes, queue depth (section 1.1). -/
structure CapacityAnswer where
  capacity : Nat
  sectorSize : Nat
  queueDepth : Nat
  deriving DecidableEq, Repr

/-- The statuses a drive gives in a COMPLETION (R1): GOOD, with the capacity answer of a CAPACITY; MEDIA-ERROR with the
failing LBA; OTHER-ERROR. -/
inductive DriveStatus where
  | good (answer : Option CapacityAnswer)
  | mediaError (lba : Nat)
  | otherError
  deriving DecidableEq, Repr

/-- The fields of SET-BAY (R167), as bytes and words of the sector (R174). -/
structure SetBayArg where
  seed : Word
  overlay : Byte
  checking : Byte
  tolerance : Byte
  rescans : Byte
  w : Word
  tw : Word
  deriving DecidableEq, Repr

/-- The fields of SET-RACK (R159, R174). -/
structure SetRackArg where
  budget : Word
  spin : Word
  run : Word
  spinTimeout : Word
  hold : Word
  limit : Byte
  faultBin : Byte
  deriving DecidableEq, Repr

/-- The fields of a SWEEP slot record as loaded (R82, R175). -/
structure SweepArg where
  op : Byte
  order : Byte
  pacing : Byte
  trigger : Byte
  start : BitVec 48
  length : BitVec 48
  chunk : BitVec 16
  block : Byte
  maxInFlight : Byte
  passes : Byte
  tolerance : Byte
  rescans : Byte
  interval : Word
  limit : Word
  deriving DecidableEq, Repr

/-- A slot record's kind with the fields of that kind (R117, R175); `unknown` carries a kind byte that has no code. -/
inductive SlotArg where
  | empty
  | sweep (f : SweepArg)
  | dwell (d : Word)
  | powerCycle (off : Word)
  | powerOff
  | loop (target count : Byte)
  | grade (bin other : Byte)
  | stamp (lba : BitVec 48)
  | unknown (kind : Byte)
  deriving DecidableEq, Repr

/-- A rule record as loaded (R137, R175). -/
structure RuleArg where
  enable : Byte
  selector : Byte
  argument : Byte
  comparison : Byte
  threshold : Word
  target : Byte
  stop : Byte
  deriving DecidableEq, Repr

/-- A bin record as loaded (R138, R175). -/
structure BinArg where
  shippable : Byte
  pattern : Byte
  name : Byte
  deriving DecidableEq, Repr

/-- The commands, in the table's order. `b` is the bay; `seq` is a directive's sequence number (word 2 of its sector). -/
inductive Instr where
  /-- PART_RESET (R22): the RESET input. -/
  | partReset
  /-- COMMAND_READ (R5): a READ arrives upstream. -/
  | commandRead (b : BayIx) (tag : Tag) (lba count : Nat)
  /-- COMMAND_WRITE (R6). -/
  | commandWrite (b : BayIx) (tag : Tag) (lba count : Nat)
  /-- COMMAND_FLUSH (R6). -/
  | commandFlush (b : BayIx) (tag : Tag)
  /-- COMMAND_CAPACITY (R11). -/
  | commandCapacity (b : BayIx) (tag : Tag)
  /-- COMMAND_OTHER (R4): a command of unrecognized kind, with the body it carries. -/
  | commandOther (b : BayIx) (tag : Tag) (body : List Byte)
  /-- BAY_REPORT_LATCH (R168): a READ of `count` sectors that begins at annex offset 2. -/
  | bayReportLatch (b : BayIx) (tag : Tag) (count : Nat)
  /-- WRITE_DATA (R48): host payload of whole sectors. -/
  | writeData (b : BayIx) (tag : Tag) (payload : List Sector)
  /-- SET_BAY (R167). -/
  | setBay (b : BayIx) (seq : Word) (f : SetBayArg)
  /-- SET_RACK (R159). -/
  | setRack (b : BayIx) (seq : Word) (f : SetRackArg)
  /-- LOAD_SLOT (R118). -/
  | loadSlot (b : BayIx) (seq : Word) (slot nxt : Byte) (f : SlotArg)
  /-- LOAD_RULE (R137). -/
  | loadRule (b : BayIx) (seq : Word) (rule : Byte) (f : RuleArg)
  /-- LOAD_BIN (R138). -/
  | loadBin (b : BayIx) (seq : Word) (bin : Byte) (f : BinArg)
  /-- START_PLAN (R122). -/
  | startPlan (b : BayIx) (seq : Word) (slot atEnd : Byte)
  /-- ABORT_PLAN (R132). -/
  | abortPlan (b : BayIx) (seq : Word) (choice : Byte)
  /-- POWER_ON (R158). -/
  | powerOn (b : BayIx) (seq : Word)
  /-- POWER_OFF (R158). -/
  | powerOff (b : BayIx) (seq : Word)
  /-- ZONE_MARK_TEST (R79). -/
  | zoneMarkTest (b : BayIx) (seq : Word) (zone : BitVec 16)
  /-- ZONE_MARK_SET (R79). -/
  | zoneMarkSet (b : BayIx) (seq : Word) (zone : BitVec 16)
  /-- ZONE_MARK_CLEAR (R79). -/
  | zoneMarkClear (b : BayIx) (seq : Word) (zone : BitVec 16)
  /-- ZONE_MARK_TOGGLE (R79). -/
  | zoneMarkToggle (b : BayIx) (seq : Word) (zone : BitVec 16)
  /-- CLEAR_SESSION (R160). -/
  | clearSession (b : BayIx) (seq : Word)
  /-- SET_LINE (R162). -/
  | setLine (b : BayIx) (seq : Word) (lampFn auxFn lampLatch auxLatch : Byte)
  /-- ACK_NOTICE (R171). -/
  | ackNotice (b : BayIx) (seq : Word) (clear mask : Byte)
  /-- BAD_CODE (R164): a signed mailbox sector whose code is unknown. -/
  | badCode (b : BayIx) (seq : Word) (code : Word)
  /-- MAILBOX_COLLISION (R165): a signed mailbox sector while the mailbox is busy. -/
  | mailboxCollision (b : BayIx)
  /-- ANNEX_MISUSE (R164): an annex write to a non-mailbox offset, or an unsigned mailbox sector. -/
  | annexMisuse (b : BayIx)
  /-- DATA_REQUEST (R48): the drive is ready for the next `n` sectors of a payload (log entry 4). -/
  | dataRequest (b : BayIx) (tag : Tag) (n : Nat)
  /-- READ_DATA (R25): the drive delivers whole sectors. -/
  | readData (b : BayIx) (tag : Tag) (payload : List Sector)
  /-- COMPLETION (R26): the drive completes a command. -/
  | completion (b : BayIx) (tag : Tag) (status : DriveStatus)
  /-- SETTLE_FLUSH_ISSUE (R156). -/
  | settleFlushIssue (b : BayIx)
  /-- SETTLED_OFF (R156). -/
  | settledOff (b : BayIx)
  /-- PART_TAG_ASSIGN (R24). -/
  | partTagAssign (b : BayIx)
  /-- VISIT_START (R92). -/
  | visitStart (b : BayIx)
  /-- VISIT_READ_ISSUE (R93). -/
  | visitReadIssue (b : BayIx)
  /-- RESCAN_START (R106). -/
  | rescanStart (b : BayIx)
  /-- RESCAN_CHUNK_ISSUE (R108). -/
  | rescanChunkIssue (b : BayIx)
  /-- GRANT (R152): the head of the grant queue. -/
  | grant
  /-- LINK_RESET (R19). -/
  | linkReset (b : BayIx)
  /-- UPSTREAM_LINK_DOWN (R2). -/
  | upstreamLinkDown (b : BayIx)
  /-- UPSTREAM_LINK_UP (R2). -/
  | upstreamLinkUp (b : BayIx)
  /-- DOWNSTREAM_LINK_UP (R2). -/
  | downstreamLinkUp (b : BayIx)
  /-- DOWNSTREAM_LINK_DOWN (R2). -/
  | downstreamLinkDown (b : BayIx)
  /-- PRESENT_ASSERT (R148). -/
  | presentAssert (b : BayIx)
  /-- INSERTION_RECOGNIZED (R148): the presence debounce expires. -/
  | insertionRecognized (b : BayIx)
  /-- PRESENT_DEASSERT (R149). -/
  | presentDeassert (b : BayIx)
  /-- WIPE_ZONE_RESET (R80). -/
  | wipeZoneReset (b : BayIx)
  /-- HOLD_TIMEOUT (R17). -/
  | holdTimeout (b : BayIx)
  /-- IDLE_TIMER_EXPIRY (R33). -/
  | idleTimerExpiry (b : BayIx)
  /-- TIMEOUT_EVENT (R34). -/
  | timeoutEvent (b : BayIx)
  /-- SPINUP_TIMER_EXPIRY (R154). -/
  | spinupTimerExpiry (b : BayIx)
  /-- DWELL_TIMER_EXPIRY (R125). -/
  | dwellTimerExpiry (b : BayIx)
  /-- OFF_TIME_EXPIRY (R126). -/
  | offTimeExpiry (b : BayIx)
  /-- INTERVAL_TIMER_EXPIRY (R96). -/
  | intervalTimerExpiry (b : BayIx)
  /-- TIME_LIMIT_EXPIRY (R100). -/
  | timeLimitExpiry (b : BayIx)
  /-- ACTIVITY_PULSE_END (R161). -/
  | activityPulseEnd (b : BayIx)
  /-- LAMP_BLINK_TOGGLE (R146). -/
  | lampBlinkToggle (b : BayIx)
  deriving DecidableEq, Repr

end Sys2Proof
end

