-- ==== Sys2Proof/Machine/State.lean ====
section
/-! DEFINITION. The state of the part: for each bay the state of the blocks repeated per bay, then the state the rack
shares, the time base and the queue of waiting commands. All plain data. `State.reset` is the part right after part
reset. -/

namespace Sys2Proof.Machine

/-- Why a step stops with a fault: never. Every command of the part has an effect in every state (NOTES.md, Stops). -/
inductive Fault where
  deriving DecidableEq, Repr

/-- Why a step is refused. -/
inductive Refusal where
  /-- The command has no meaning yet; raised by exec's own arms alone, and by none of them now. Safe. -/
  | notModelled (mnemonic : String)
  deriving DecidableEq, Repr

/-! ### Lane Unit (chapter 1) -/

/-- The statuses a COMPLETION carries upstream (R1, R8, R9, R11, R30). -/
inductive UpStatus where
  | good
  | capacity (a : CapacityAnswer)
  | mediaError (lba : Nat)
  | otherError
  | tagRefused | tagBusy | range | notReady | timeout | aborted
  deriving DecidableEq, Repr

/-- A frame the part sends upstream (R1). -/
inductive UpFrame where
  | completion (tag : Tag) (st : UpStatus)
  | readData (tag : Tag) (payload : List Sector)
  | dataRequest (tag : Tag)
  deriving DecidableEq, Repr

/-- A frame the part sends downstream (R1). -/
inductive DownFrame where
  | command (tag : Tag) (kind : CmdKind) (lba count : Nat) (body : List Byte)
  | writeData (tag : Tag) (payload : List Sector)
  | linkReset
  deriving DecidableEq, Repr

/-- An entry of the hold list (R15). -/
structure Held where
  tag : Tag
  kind : CmdKind
  lba : Nat
  count : Nat
  arrival : Word
  deriving DecidableEq, Repr

/-- An annex command in service (R7): its offset from the Rc of its arrival, and how many sectors it has handed over. -/
structure AnnexCmd where
  tag : Tag
  isWrite : Bool
  offset : Nat
  count : Nat
  done : Nat
  deriving DecidableEq, Repr

/-- The Lane Unit of a bay (head of chapter 1), with the frames it has sent (log entry 8) and those that wait for the
downstream link (R2). -/
structure Lane where
  upUp : Bool
  upRisen : Bool
  downUp : Bool
  rc : Nat
  held : List Held
  annexSvc : List AnnexCmd
  retired : List Tag
  downWait : List DownFrame
  upSent : List UpFrame
  downSent : List DownFrame
  linkResets : Nat
  deriving DecidableEq, Repr

/-! ### Command Tracker (chapter 2) -/

/-- The origin of a record (R23). -/
inductive Origin where
  | host | sweep | rescan | settle | ship | learn
  deriving DecidableEq, Repr

/-- An open command record (R23), and a request for one (R24). `sent` counts the payload sectors sent down (R48); `ship`
is the ship record built at the issue (R144); `gen` names the phase, rescan or plan that made it (log entry 9). -/
structure Rec where
  origin : Origin
  kind : CmdKind
  lba : Nat
  count : Nat
  issue : Word
  pass : Option Nat
  judged : Bool
  tol : Nat
  delivered : Nat
  flushMark : Option (BitVec 64)
  visit : Option Nat
  rescans : Nat
  sent : Nat
  ship : Option Sector
  gen : Nat
  deriving DecidableEq, Repr

/-- One latency class: its 12 bins and its worst latency in µs (R32). -/
structure Hist where
  bins : Vector Nat 12
  worst : Nat
  deriving DecidableEq, Repr

/-- An entry of the unsettled-write list: first LBA, last LBA, sequence (R37). -/
structure URange where
  lo : Nat
  hi : Nat
  seq : BitVec 64
  deriving DecidableEq, Repr

/-- The unsettled-write list: ranges, or the one whole-drive entry of an overflow (R38). The overflow flag is set exactly
in the second form. -/
inductive Unsettled where
  | ranges (l : List URange)
  | whole (seq : BitVec 64)
  deriving DecidableEq, Repr

/-- The Command Tracker of a bay (head of chapter 2). Times in ms; `idle` is none when the timer is stopped. -/
structure Tracker where
  recs : Vector (Option Rec) 32
  waiting : List Rec
  histRead : Hist
  histWrite : Hist
  histFlush : Hist
  w : Nat
  tw : Nat
  idle : Option Nat
  timeouts : Nat
  seq : BitVec 64
  unsettled : Unsettled
  deriving DecidableEq, Repr

/-! ### Stamp Engine (chapter 3) -/

/-- The settings SET-BAY writes, with W and Tw in the Command Tracker (R42, R72). -/
structure Settings where
  seed : Word
  overlay : Bool
  checking : Bool
  tolerance : Nat
  rescans : Nat
  deriving DecidableEq, Repr

/-- The outcomes of a sector (R58). -/
inductive Verdict where
  | good | soft | corrupt | misplaced | stale | ahead | blank | foreign | headerCorrupt | lostWrite | unreadable
  | writeFault | unchecked
  deriving DecidableEq, Repr

/-- The outcome counters of a bay (R60). -/
structure Counters where
  verified : Nat
  soft : Nat
  corrupt : Nat
  misplaced : Nat
  stale : Nat
  blank : Nat
  foreign : Nat
  headerCorrupt : Nat
  unreadable : Nat
  writeFault : Nat
  ahead : Nat
  lostWrite : Nat
  deriving DecidableEq, Repr

/-! ### Zone Map (chapter 4) -/

/-- What a zone is expected to hold (R63); lo and hi are present when STAMPED or MIXED. -/
inductive ZKind where
  | unwritten
  | stamped (lo hi : Nat)
  | erased
  | mixed (lo hi : Nat)
  deriving DecidableEq, Repr

/-- A zone's defect history (R63). -/
inductive ZClass where
  | none | unconfirmed | confirmed | healed
  deriving DecidableEq, Repr

/-- A zone record (R63). The mark is set exactly when the class is UNCONFIRMED or CONFIRMED, so it is read off the class
(`ZoneRec.mark`). -/
structure ZoneRec where
  kind : ZKind
  suspect : Bool
  cls : ZClass
  hits : Nat
  deriving DecidableEq, Repr

/-- A zone record's initial value (R63). -/
def ZoneRec.init : ZoneRec := { kind := .unwritten, suspect := false, cls := .none, hits := 0 }

/-- An entry of the rescan queue (R75). -/
structure QEntry where
  zone : Nat
  r : Nat
  deriving DecidableEq, Repr

/-- The Zone Map of a bay (head of chapter 4). `zones` lists, by rising zone number, the records that differ from
`ZoneRec.init`; an unlisted zone reads as `ZoneRec.init`. -/
structure ZoneMap where
  z : Option Nat
  used : Nat
  zones : List (Nat × ZoneRec)
  distinct : Nat
  confirmed : Nat
  healed : Nat
  dropped : Nat
  rehits : Nat
  queue : List QEntry
  deriving DecidableEq, Repr

/-! ### Sweep Engine (chapters 5 and 6) -/

/-- The op of a sweep (R82). -/
inductive SweepOp where
  | write | verify | writeVerify | erase
  deriving DecidableEq, Repr

/-- The visiting order of a sweep (R88). -/
inductive SweepOrder where
  | ascendRestart | ascendContinue | descend | butterfly | fixed
  deriving DecidableEq, Repr

/-- The pacing of a sweep (R95). -/
inductive Pacing where
  | single | block | successive
  deriving DecidableEq, Repr

/-- The trigger of a sweep (R96). -/
inductive Trigger where
  | immediate | idle | interval
  deriving DecidableEq, Repr

/-- The fields of a SWEEP slot (R82). -/
structure SweepCfg where
  op : SweepOp
  order : SweepOrder
  pacing : Pacing
  trigger : Trigger
  start : Nat
  length : Nat
  chunk : Nat
  block : Nat
  maxInFlight : Nat
  passes : Nat
  tolerance : Nat
  rescans : Nat
  interval : Nat
  limit : Nat
  deriving DecidableEq, Repr

/-- The state of a visit or of a rescan chunk (R91, R104). -/
inductive VisitState where
  | notStarted | issued | writing | written | reading | complete
  deriving DecidableEq, Repr

/-- The credit of a sweep (R95). -/
inductive Credit where
  | count (n : Nat)
  | unbounded
  deriving DecidableEq, Repr

/-- Why a sweep phase ended (R103). -/
inductive EndReason where
  | passesDone | timeLimit | empty | stopped
  deriving DecidableEq, Repr

/-- The sweep status (R84). -/
inductive SweepStatus where
  | none | active | suspended | draining | ended
  deriving DecidableEq, Repr

/-- The active sweep (R84). `lo` and `hi` are the range [first, end); `cfg` is the slot's contents, which cannot change
while the phase runs (R82). The next visit and in flight are read off the window. -/
structure Active where
  slot : SlotIx
  cfg : SweepCfg
  lo : Nat
  hi : Nat
  clipped : Bool
  empty : Bool
  n : Nat
  passIx : Nat
  p : Option Nat
  firstVisit : Nat
  frontier : Nat
  window : Vector VisitState 8
  credit : Credit
  yielding : Bool
  missed : Nat
  timeLeft : Option Nat
  endReason : Option EndReason
  gen : Nat
  deriving DecidableEq, Repr

/-- The resume cursor (R101). -/
structure Resume where
  slot : SlotIx
  passIx : Nat
  frontier : Nat
  deriving DecidableEq, Repr

/-- The rescan record (R104). `chunks` lists, by rising number, the chunks of the current pass that are not NOT-STARTED.
`awaitLink` holds a rewound pass until the downstream link is up (R113). -/
structure Rescan where
  zone : Nat
  r : Nat
  done : Nat
  p : Nat
  tol : Nat
  limit : Nat
  m : Nat
  chunks : List (Nat × VisitState)
  awaitLink : Bool
  gen : Nat
  deriving DecidableEq, Repr

/-- The saved context (R104): which phase is suspended (the back-link too), and its two marks. The position of a suspended
sweep has its one home in `active`, the dwell timer in the plan record (log entry 10). -/
structure Saved where
  isSweep : Bool
  slot : SlotIx
  passClosed : Bool
  timeExpired : Bool
  deriving DecidableEq, Repr

/-- The Sweep Engine of a bay (heads of chapters 5 and 6). -/
structure Sweep where
  passCounter : Nat
  status : SweepStatus
  active : Option Active
  resume : Option Resume
  rescan : Option Rescan
  saved : Option Saved
  intervalTimer : Option Nat
  gen : Nat
  deriving DecidableEq, Repr

/-! ### Plan Sequencer (chapter 7) -/

/-- The kind of a slot with the fields of that kind (R116, R117). A slot number that is none stands for END. -/
inductive SlotBody where
  | empty
  | sweep (c : SweepCfg)
  | dwell (d : Nat)
  | powerCycle (off : Nat)
  | powerOff
  | loop (target : SlotIx) (count : Nat)
  | grade (bin : Fin 16) (other : Option SlotIx)
  | stamp (lba : Nat)
  deriving DecidableEq, Repr

/-- A slot of the plan table (R116). -/
structure Slot where
  body : SlotBody
  nxt : Option SlotIx
  deriving DecidableEq, Repr

/-- The plan state (R119). -/
inductive PlanState where
  | none | running | ended
  deriving DecidableEq, Repr

/-- KEEP or OFF (R120, R132). -/
inductive Choice where
  | keep | off
  deriving DecidableEq, Repr

/-- The phase step (R119). -/
inductive PhaseStep where
  | none | waitingForOn | running | timing | expired | settling | offTime | poweringUp | writing
  deriving DecidableEq, Repr

/-- The outcome of a plan (R119). -/
inductive PlanOutcome where
  | completed | aborted | faulted | removed | stampRefused | planError
  deriving DecidableEq, Repr

/-- A fault cause (R119, R147). -/
inductive FaultCause where
  | spinupFailed | timeoutLimit | capacityChanged | unsupported
  deriving DecidableEq, Repr

/-- The plan record of a bay (R119). `endSlot` is present in ENDED; inside it, none stands for END. `gen` numbers the plan
(log entry 9). -/
structure Plan where
  state : PlanState
  firstSlot : Option SlotIx
  atEnd : Option Choice
  reach : Vector Bool 96
  cursor : Option SlotIx
  step : PhaseStep
  phaseStart : Option Word
  timer : Option Nat
  loopReg : Option (SlotIx × Nat)
  outcome : Option PlanOutcome
  fault : Option FaultCause
  endSlot : Option (Option SlotIx)
  endTime : Option Word
  gen : Nat
  deriving DecidableEq, Repr

/-! ### Grading Unit (chapter 8) -/

/-- The comparison of a rule (R137). -/
inductive Comparison where
  | above | atLeast | below | atMost | equal | notEqual
  deriving DecidableEq, Repr

/-- A rule of the rule table (R137). -/
structure Rule where
  enable : Bool
  selector : Nat
  argument : Nat
  comparison : Comparison
  threshold : Nat
  target : Fin 16
  stop : Bool
  deriving DecidableEq, Repr

/-- A lamp pattern (R138). -/
inductive LampPattern where
  | off | on | slow | fast
  deriving DecidableEq, Repr

/-- A bin of the bin table (R138). -/
structure Bin where
  shippable : Bool
  pattern : LampPattern
  name : Nat
  deriving DecidableEq, Repr

/-- A grade record that is not empty (R139); `rules` is true for source RULES, false for FAULT. -/
structure Grade where
  bin : Fin 16
  rules : Bool
  rule : Option (Fin 24)
  time : Word
  deriving DecidableEq, Repr

/-- The ship state's name (R145). -/
inductive ShipName where
  | none | writing | written | failed
  deriving DecidableEq, Repr

/-- The ship state with the fitted LBA and the clipped mark (R145). `reissue` holds a discarded write until the downstream
link is next UP. -/
structure Ship where
  name : ShipName
  lba : Option Nat
  clipped : Bool
  reissue : Bool
  deriving DecidableEq, Repr

/-! ### Power Arbiter and Line Controller (chapter 9) -/

/-- The power state (R147). -/
inductive PowerState where
  | empty | off | queued | spinningUp | on | settling
  deriving DecidableEq, Repr

/-- The session state (R147). -/
inductive SessionState where
  | none | active | abandoned
  deriving DecidableEq, Repr

/-- The Power Arbiter's state of a bay (R147, R152). `learnWait` is a LEARN query to be asked when the link is next UP. -/
structure Power where
  state : PowerState
  session : SessionState
  unsupported : Bool
  cap : Option Nat
  spinTimer : Option Nat
  grantTime : Word
  learnWait : Bool
  cycles : Nat
  longest : Nat
  settleFails : Nat
  forcedRemovals : Nat
  lastFault : Option (FaultCause × Word)
  deriving DecidableEq, Repr

/-- The LAMP functions (R161). -/
inductive LampFn where
  | sort | activity | latch
  deriving DecidableEq, Repr

/-- The AUX functions (R161). -/
inductive AuxFn where
  | input | latch | faultOut | lock
  deriving DecidableEq, Repr

/-- The Line Controller of a bay (R146, R148, R161, R162). `present` and `auxPin` are the levels at the input pins. -/
structure Lines where
  lampFn : LampFn
  auxFn : AuxFn
  lampLatch : Bool
  auxLatch : Bool
  present : Bool
  auxPin : Bool
  debounce : Option Nat
  pulse : Option Nat
  pattern : LampPattern
  blinkLit : Bool
  blink : Option Nat
  deriving DecidableEq, Repr

/-! ### Annex Interface (chapter 10) -/

/-- The mailbox state (R164, R165). -/
inductive MailboxState where
  | idle | busyDirective | busyWipe
  deriving DecidableEq, Repr

/-- The state of the result sector (R166). -/
inductive ResultState where
  | none | busy | complete
  deriving DecidableEq, Repr

/-- The reasons of a refusal (R166). -/
inductive Reason where
  | badCode | badValue | wrongState | inUse | planInvalid | noDrive | unsupportedDrive
  deriving DecidableEq, Repr

/-- The result of a directive (R166). -/
inductive DirResult where
  | done | clamped
  | refused (r : Reason)
  deriving DecidableEq, Repr

/-- The result sector's own fields (R166); its two counts are the bay's. -/
structure ResultSector where
  state : ResultState
  code : Word
  seq : Word
  result : DirResult
  ret : Word
  deriving DecidableEq, Repr

/-- The five notices (R170). -/
inductive Notice where
  | inserted | removed | capacity | planEnded | fault
  deriving DecidableEq, Repr

/-- The Annex Interface of a bay (head of chapter 10). A set of notices holds notice k of R172 at index k. `wipe` is the
zone a running session wipe resets next (R80). -/
structure Annex where
  mailbox : MailboxState
  result : ResultSector
  snapshot : Option (Sector × Sector)
  snapshotNo : Word
  collisions : Nat
  misuse : Nat
  flags : Vector Bool 5
  mask : Vector Bool 5
  raises : Vector Nat 5
  wipe : Option Nat
  deriving DecidableEq, Repr

/-! ### The bay, the rack, the part -/

/-- The state of one bay, block by block. -/
structure Bay where
  lane : Lane
  tracker : Tracker
  settings : Settings
  counters : Counters
  zm : ZoneMap
  sweep : Sweep
  plan : Plan
  grade : Option Grade
  ship : Ship
  power : Power
  lines : Lines
  annex : Annex
  deriving DecidableEq, Repr

/-- The state the rack shares: the power configuration (R150), the hold timeout (R17), the timeout limit (R36), the fault
bin (R139), the grant queue (R151), the plan, rule and bin tables with the use counts (R116, R137, R138), and the time
base: the µs timestamp, the ms count, and the µs elapsed within the current ms (log entry 2). -/
structure Rack where
  budget : Nat
  spin : Nat
  run : Nat
  spinTimeout : Nat
  hold : Nat
  limit : Nat
  faultBin : Fin 16
  queue : List BayIx
  slots : Vector Slot 96
  useCounts : Vector Nat 96
  rules : Vector Rule 24
  bins : Vector Bin 16
  us : Word
  ms : Word
  sub : Nat
  deriving DecidableEq, Repr

/-- The part: eight bays, the rack, and the commands that wait, first in first out. -/
structure State where
  bays : Vector Bay 8
  rack : Rack
  pending : List Instr
  deriving DecidableEq, Repr

/-! ### Reset -/

/-- A latency class after part reset (R32). -/
def Hist.init : Hist := { bins := Vector.replicate 12 0, worst := 0 }

/-- The Lane Unit after part reset (R22). -/
def Lane.init : Lane :=
  { upUp := false, upRisen := false, downUp := false, rc := 0, held := [], annexSvc := [], retired := [],
    downWait := [], upSent := [], downSent := [], linkResets := 0 }

/-- The Command Tracker after part reset (R41). -/
def Tracker.init : Tracker :=
  { recs := Vector.replicate 32 none, waiting := [], histRead := Hist.init, histWrite := Hist.init,
    histFlush := Hist.init, w := 50, tw := 10000, idle := some 50, timeouts := 0, seq := 0#64, unsettled := .ranges [] }

/-- The bay settings after part reset (R42, R72). -/
def Settings.init : Settings := { seed := 0#32, overlay := false, checking := false, tolerance := 0, rescans := 0 }

/-- The outcome counters after part reset (R60). -/
def Counters.init : Counters :=
  { verified := 0, soft := 0, corrupt := 0, misplaced := 0, stale := 0, blank := 0, foreign := 0, headerCorrupt := 0,
    unreadable := 0, writeFault := 0, ahead := 0, lostWrite := 0 }

/-- The Zone Map after part reset (R81). -/
def ZoneMap.init : ZoneMap :=
  { z := none, used := 0, zones := [], distinct := 0, confirmed := 0, healed := 0, dropped := 0, rehits := 0, queue := [] }

/-- The Sweep Engine after part reset (head of chapter 5, R104). -/
def Sweep.init : Sweep :=
  { passCounter := 0, status := .none, active := none, resume := none, rescan := none, saved := none,
    intervalTimer := none, gen := 0 }

/-- The plan record after part reset (R119). -/
def Plan.init : Plan :=
  { state := .none, firstSlot := none, atEnd := none, reach := Vector.replicate 96 false, cursor := none, step := .none,
    phaseStart := none, timer := none, loopReg := none, outcome := none, fault := none, endSlot := none, endTime := none,
    gen := 0 }

/-- The ship state after part reset (R145). -/
def Ship.init : Ship := { name := .none, lba := none, clipped := false, reissue := false }

/-- The Power Arbiter's state of a bay after part reset (R147). The grant time is the model's choice (log entry 7). -/
def Power.init : Power :=
  { state := .empty, session := .none, unsupported := false, cap := none, spinTimer := none, grantTime := 0#32,
    learnWait := false, cycles := 0, longest := 0, settleFails := 0, forcedRemovals := 0, lastFault := none }

/-- The Line Controller after part reset (R162, R148): LAMP has SORT in an EMPTY bay, so the pattern is OFF. The levels of
the input pins are the model's choice (log entry 5). -/
def Lines.init : Lines :=
  { lampFn := .sort, auxFn := .input, lampLatch := false, auxLatch := false, present := false, auxPin := false,
    debounce := none, pulse := none, pattern := .off, blinkLit := false, blink := none }

/-- The Annex Interface after part reset (head of chapter 10). -/
def Annex.init : Annex :=
  { mailbox := .idle, result := { state := .none, code := 0#32, seq := 0#32, result := .done, ret := 0#32 },
    snapshot := none, snapshotNo := 0#32, collisions := 0, misuse := 0, flags := Vector.replicate 5 false,
    mask := Vector.replicate 5 true, raises := Vector.replicate 5 0, wipe := none }

/-- A bay after part reset. -/
def Bay.init : Bay :=
  { lane := Lane.init, tracker := Tracker.init, settings := Settings.init, counters := Counters.init, zm := ZoneMap.init,
    sweep := Sweep.init, plan := Plan.init, grade := none, ship := Ship.init, power := Power.init, lines := Lines.init,
    annex := Annex.init }

/-- A rule after part reset (R137). -/
def Rule.init : Rule :=
  { enable := false, selector := 0, argument := 0, comparison := .above, threshold := 0, target := 0, stop := false }

/-- Bin k after part reset (R138). -/
def Bin.init (k : Nat) : Bin :=
  { shippable := decide (k = 0), pattern := if k = 0 then .on else .fast, name := k }

/-- An EMPTY slot with next END (R116). -/
def Slot.init : Slot := { body := .empty, nxt := none }

/-- The bin table after part reset (R138). -/
def binsInit : Vector Bin 16 :=
  #v[Bin.init 0, Bin.init 1, Bin.init 2, Bin.init 3, Bin.init 4, Bin.init 5, Bin.init 6, Bin.init 7, Bin.init 8,
     Bin.init 9, Bin.init 10, Bin.init 11, Bin.init 12, Bin.init 13, Bin.init 14, Bin.init 15]

/-- The rack after part reset (R169, R116, R137, R138). The time base is the model's choice (log entry 2). -/
def Rack.init : Rack :=
  { budget := 12000, spin := 2000, run := 800, spinTimeout := 30000, hold := 20000, limit := 3, faultBin := 15,
    queue := [], slots := Vector.replicate 96 Slot.init, useCounts := Vector.replicate 96 0,
    rules := Vector.replicate 24 Rule.init, bins := binsInit, us := 0#32, ms := 0#32, sub := 0 }

/-- The part right after part reset (R22, R41, R81, R147, R169). -/
def State.reset : State := { bays := Vector.replicate 8 Bay.init, rack := Rack.init, pending := [] }

end Sys2Proof.Machine
end

