-- ==== Sys2Proof/Machine/Ops.lean ====
section
/-! DEFINITION. The named operations every block uses: reading and replacing a bay, sorted tables, the frames sent up and
down a lane, the charges and the committed tally, the command record table, the passage of time, and the layout of bytes
in a sector. -/

namespace Sys2Proof.Machine

/-! ### Bays -/

/-- The state of bay `b`. -/
def State.bay (s : State) (b : BayIx) : Bay := s.bays[b]

/-- Apply `f` to every entry. -/
def mapVec {α β : Type} {n : Nat} (f : α → β) (v : Vector α n) : Vector β n := Vector.ofFn (fun i => f v[i])

/-- Replace the state of bay `b`. -/
def State.setBay (s : State) (b : BayIx) (x : Bay) : State := { s with bays := s.bays.set b x }

/-- Change the state of bay `b` by `f`. -/
def State.modBay (s : State) (b : BayIx) (f : Bay → Bay) : State := s.setBay b (f (s.bay b))

/-- Change the rack's state by `f`. -/
def State.modRack (s : State) (f : Rack → Rack) : State := { s with rack := f s.rack }

def Bay.modLane (x : Bay) (f : Lane → Lane) : Bay := { x with lane := f x.lane }
def Bay.modTracker (x : Bay) (f : Tracker → Tracker) : Bay := { x with tracker := f x.tracker }
def Bay.modZm (x : Bay) (f : ZoneMap → ZoneMap) : Bay := { x with zm := f x.zm }
def Bay.modSweep (x : Bay) (f : Sweep → Sweep) : Bay := { x with sweep := f x.sweep }
def Bay.modPlan (x : Bay) (f : Plan → Plan) : Bay := { x with plan := f x.plan }
def Bay.modPower (x : Bay) (f : Power → Power) : Bay := { x with power := f x.power }
def Bay.modLines (x : Bay) (f : Lines → Lines) : Bay := { x with lines := f x.lines }
def Bay.modAnnex (x : Bay) (f : Annex → Annex) : Bay := { x with annex := f x.annex }
def Bay.modShip (x : Bay) (f : Ship → Ship) : Bay := { x with ship := f x.ship }

/-- The eight bays in rising order. -/
def allBays : List BayIx := [0, 1, 2, 3, 4, 5, 6, 7]

/-! ### Sorted tables: rising keys, and no entry equal to what an unlisted key reads as -/

/-- The value at key `n`; an unlisted key reads as `d`. -/
def tblGet {α : Type} (d : α) : List (Nat × α) → Nat → α
  | [], _ => d
  | (k, v) :: t, n => if k = n then v else tblGet d t n

/-- Take the entry at key `n` out. -/
def tblErase {α : Type} (n : Nat) : List (Nat × α) → List (Nat × α)
  | [] => []
  | (k, v) :: t => if k = n then t else (k, v) :: tblErase n t

/-- Put an entry at key `n`, in place of the one there. -/
def tblPut {α : Type} (n : Nat) (v : α) : List (Nat × α) → List (Nat × α)
  | [] => [(n, v)]
  | (k, w) :: t => if n < k then (n, v) :: (k, w) :: t else if n = k then (n, v) :: t else (k, w) :: tblPut n v t

/-- Write `v` at key `n`, keeping the canonical form. -/
def tblSet {α : Type} [DecidableEq α] (d : α) (n : Nat) (v : α) (l : List (Nat × α)) : List (Nat × α) :=
  if v = d then tblErase n l else tblPut n v l

/-- The canonical form of a table: keys strictly rising, no entry equal to `d`. -/
def tblWf {α : Type} [DecidableEq α] (d : α) : List (Nat × α) → Bool
  | [] => true
  | (k, v) :: t => decide (v ≠ d) && t.all (fun e => decide (k < e.1)) && tblWf d t

/-! ### Frames (R1, R2) -/

/-- Send a frame upstream; while the upstream link is DOWN it is discarded (R2). -/
def Lane.sendUp (f : UpFrame) (l : Lane) : Lane := if l.upUp then { l with upSent := l.upSent ++ [f] } else l

/-- Send a frame downstream; while the downstream link is DOWN it waits in order (R2). -/
def Lane.sendDown (f : DownFrame) (l : Lane) : Lane :=
  if l.downUp then { l with downSent := l.downSent ++ [f] } else { l with downWait := l.downWait ++ [f] }

/-- The downstream link falls: the waiting frames' records are gone with it where the caller discards them; the retired
set is emptied (R10). -/
def Lane.dropDown (l : Lane) : Lane := { l with downUp := false, retired := [], downWait := [] }

/-- The part resets the downstream link: the drive abandons everything, the retired set is emptied and the link is DOWN
until the drive brings it up (R19 step 1, R34 step 1). The LINK RESET goes down at once, on a link that is DOWN too (log entry
43). -/
def Lane.resetDown (l : Lane) : Lane := { l.dropDown with downSent := l.downSent ++ [.linkReset] }

def sendUp (b : BayIx) (f : UpFrame) (s : State) : State := s.modBay b (·.modLane (·.sendUp f))
def sendDown (b : BayIx) (f : DownFrame) (s : State) : State := s.modBay b (·.modLane (·.sendDown f))

/-- Complete a command upstream with a status (R8). -/
def complete (b : BayIx) (tag : Tag) (st : UpStatus) (s : State) : State := sendUp b (.completion tag st) s

/-! ### Power: charges and the tally (R147, R150) -/

/-- The charge of a power state under the rack's configuration (R150). -/
def chargeOf (r : Rack) : PowerState → Nat
  | .spinningUp => r.spin
  | .on | .settling => r.run
  | .empty | .off | .queued => 0

/-- The charge of bay `b` (R147). -/
def State.charge (s : State) (b : BayIx) : Nat := chargeOf s.rack (s.bay b).power.state

/-- The committed tally: the sum of all eight bays' charges (R150). -/
def State.tally (s : State) : Nat := (allBays.map s.charge).sum

/-- PWR12 and PWR5 are on only in SPINNING-UP, ON and SETTLING (R147). -/
def PowerState.powered : PowerState → Bool
  | .spinningUp | .on | .settling => true
  | .empty | .off | .queued => false

/-! ### The record table (R23, R24) -/

/-- The record open on a tag. -/
def Tracker.rec? (t : Tracker) (tag : Tag) : Option Rec := t.recs[tag]

/-- Set or free a tag's record. -/
def Tracker.setRec (tag : Tag) (r : Option Rec) (t : Tracker) : Tracker := { t with recs := t.recs.set tag r }

/-- All tags in rising order. -/
def allTags : List Tag := List.finRange 32

/-- The part tags in rising order (R3). -/
def partTags : List Tag := [24, 25, 26, 27, 28, 29, 30, 31]

/-- Some record that satisfies `p` is open. -/
def Tracker.anyRec (t : Tracker) (p : Rec → Bool) : Bool :=
  allTags.any (fun g => match t.rec? g with | some r => p r | none => false)

/-- A HOST record is open (R33). -/
def Tracker.hostOpen (t : Tracker) : Bool := t.anyRec (fun r => r.origin = .host)

/-- A WRITE record is open (R156). -/
def Tracker.writeOpen (t : Tracker) : Bool := t.anyRec (fun r => r.kind = .write)

/-- Some record is open. -/
def Tracker.someOpen (t : Tracker) : Bool := t.anyRec (fun _ => true)

/-- The lowest part tag that is free and not retired (R24). -/
def Bay.freePartTag (x : Bay) : Option Tag :=
  partTags.find? (fun g => (x.tracker.rec? g).isNone && !x.lane.retired.contains g)

/-- An empty record to fill in. -/
def Rec.blank : Rec :=
  { origin := .host, kind := .other, lba := 0, count := 0, issue := 0#32, pass := none, judged := false, tol := 0,
    delivered := 0, flushMark := none, visit := none, rescans := 0, sent := 0, ship := none, gen := 0 }

/-- The idle timer starts, loaded with W, when no HOST record is open any more (R33). -/
def Tracker.startIdle (t : Tracker) : Tracker := if t.hostOpen then t else { t with idle := some t.w }

/-- A plan is RUNNING on the bay. -/
def Bay.running (x : Bay) : Bool := decide (x.plan.state = .running)

/-- No session wipe is in progress when this is false (R50 step 1). -/
def Bay.wiping (x : Bay) : Bool := x.annex.wipe.isSome

/-- The slot the plan cursor stands on. -/
def State.cursorSlot (s : State) (b : BayIx) : Slot :=
  match (s.bay b).plan.cursor with
  | some k => s.rack.slots[k]
  | none => Slot.init

/-! ### Time (log entries 2 and 3) -/

/-- A running ms timer after `k` ms, held at 0 until its expiry is taken. -/
def tickDown (k : Nat) (t : Option Nat) : Option Nat := t.map (· - k)

/-- The phase timer runs in TIMING and OFF-TIME of a RUNNING plan (R119, R125, R126). -/
def Plan.elapse (k : Nat) (p : Plan) : Plan :=
  if p.state = .running ∧ (p.step = .timing ∨ p.step = .offTime) then { p with timer := tickDown k p.timer } else p

/-- The time limit runs through ACTIVE, SUSPENDED and DRAINING, the INTERVAL timer while it is started (R96, R100). -/
def Sweep.elapse (k : Nat) (w : Sweep) : Sweep :=
  { w with
    intervalTimer := tickDown k w.intervalTimer
    active :=
      if w.status = .active ∨ w.status = .suspended ∨ w.status = .draining then
        w.active.map (fun a => { a with timeLeft := tickDown k a.timeLeft })
      else w.active }

/-- `k` ms pass for a bay. -/
def Bay.elapse (k : Nat) (x : Bay) : Bay :=
  { x with
    tracker := { x.tracker with idle := tickDown k x.tracker.idle }
    plan := x.plan.elapse k
    sweep := x.sweep.elapse k
    power := { x.power with spinTimer := tickDown k x.power.spinTimer }
    lines := { x.lines with
      debounce := tickDown k x.lines.debounce, pulse := tickDown k x.lines.pulse, blink := tickDown k x.lines.blink } }

/-- `n` µs pass: the µs timestamp, the ms count and every running timer. -/
def advance (n : Nat) (s : State) : State :=
  let k := (s.rack.sub + n) / 1000
  { s with
    bays := mapVec (Bay.elapse k) s.bays
    rack := { s.rack with
      us := s.rack.us + BitVec.ofNat 32 n, ms := s.rack.ms + BitVec.ofNat 32 k, sub := (s.rack.sub + n) % 1000 } }

/-- The µs until the ms count has risen `k` times. -/
def usUntil (s : State) (k : Nat) : Nat := k * 1000 - s.rack.sub

/-- Time passes until a timer with `k` ms left has run out; with none left, none passes. -/
def advanceMs (k : Nat) (s : State) : State := if k = 0 then s else advance (usUntil s k) s

/-! ### Bytes in a sector (R172) -/

/-- The sector whose bytes are those of `n`, least significant first. -/
def sectorOfNat (n : Nat) : Sector :=
  ⟨((List.range 1024).map (fun k => BitVec.ofNat 32 (n >>> (32 * k)))).toArray, by simp⟩

/-- A field of a layout: its first byte, its width in bytes, its value. -/
structure Field where
  pos : Nat
  width : Nat
  val : Nat
  deriving DecidableEq, Repr

/-- The bytes of a list of fields that do not overlap, as one number, least significant byte first. -/
def fieldsToNat : List Field → Nat
  | [] => 0
  | f :: t => ((f.val % 256 ^ f.width) <<< (8 * f.pos)) ||| fieldsToNat t

/-- The sector with the given fields; every byte that no field names is 0 (R172). -/
def sectorOf (fs : List Field) : Sector := sectorOfNat (fieldsToNat fs)

/-- The same fields, `k` bytes further on. -/
def shiftFields (k : Nat) (fs : List Field) : List Field := fs.map (fun f => { f with pos := f.pos + k })

/-- The sector of zeros. -/
def zeroSector : Sector := Vector.replicate 1024 0#32

/-- Word k of a sector; 0 beyond word 1023. -/
def wordOf (x : Sector) (k : Nat) : Word := x[k]?.getD 0#32

/-- Byte i of a sector (00_scope: least significant byte of each word first). -/
def byteOf (x : Sector) (i : Nat) : Byte := ((wordOf x (i / 4)) >>> (8 * (i % 4))).setWidth 8

/-- `w` bytes of a sector from byte i, least significant first, as a number. -/
def bytesOf (x : Sector) (i : Nat) : Nat → Nat
  | 0 => 0
  | w + 1 => (byteOf x i).toNat + 256 * bytesOf x (i + 1) w

end Sys2Proof.Machine
end

