-- ==== Sys2Proof/Machine/Stamp.lean ====
section
/-! DEFINITION. The Stamp Engine: the stamped sector (R44, R45), what a read sector shows (R46), the write payloads (R48),
the judging of a read sector (R50 to R57), and the outcome counters (R58 to R60). -/

namespace Sys2Proof.Machine

/-! ### The stamped sector -/

/-- Word 1 of the header: L modulo 2^32 (R44). -/
def stampWord1 (l : Nat) : Word := BitVec.ofNat 32 l

/-- Word 2 of the header: P × 65536 + floor(L / 2^32) (R44). -/
def stampWord2 (p l : Nat) : Word := BitVec.ofNat 32 (p * 65536 + l / 4294967296)

/-- Word 3 of the header: the header sum (R44). -/
def stampWord3 (seed : Word) (p l : Nat) : Word := stampSignature + stampWord1 l + stampWord2 p l + seed

/-- B of the body: (S XOR word 1) + P × 65537 (R45 steps 1 and 2). -/
def stampBase (seed : Word) (p l : Nat) : Word := (seed ^^^ stampWord1 l) + BitVec.ofNat 32 (p * 65537)

/-- Word k of the body (R45 steps 3 to 6). -/
def stampBody (seed : Word) (p l k : Nat) : Word :=
  let b := stampBase seed p l
  let raw := b + BitVec.ofNat 32 k * (2#32 * b + 1#32)
  let rot := raw.rotateLeft (k % 32)
  if p % 2 = 1 then ~~~rot else rot

/-- Word k of the stamped sector for S, P, L (R44, R45). -/
def stampWord (seed : Word) (p l k : Nat) : Word :=
  match k with
  | 0 => stampSignature
  | 1 => stampWord1 l
  | 2 => stampWord2 p l
  | 3 => stampWord3 seed p l
  | k => stampBody seed p l k

/-- The stamped sector for S, P, L (R44, R45). -/
def stampSector (seed : Word) (p l : Nat) : Sector := ⟨((List.range 1024).map (stampWord seed p l)).toArray, by simp⟩

/-- The `n` stamped sectors from LBA `l` on, rising. -/
def stampSectors (seed : Word) (p l n : Nat) : List Sector := (List.range n).map (fun i => stampSector seed p (l + i))

/-! ### Reading a sector back (R46) -/

/-- The sector bears the signature. -/
def bearsSignature (x : Sector) : Bool := decide (wordOf x 0 = stampSignature)

/-- The header sum holds. -/
def headerSumHolds (seed : Word) (x : Sector) : Bool :=
  decide (wordOf x 3 = wordOf x 0 + wordOf x 1 + wordOf x 2 + seed)

/-- The header LBA. -/
def headerLba (x : Sector) : Nat := (wordOf x 1).toNat + ((wordOf x 2).toNat % 65536) * 4294967296

/-- The header pass. -/
def headerPass (x : Sector) : Nat := (wordOf x 2).toNat / 65536

/-- All 1024 words are 0. -/
def allZero (x : Sector) : Bool := x.toList.all (fun w => decide (w = 0#32))

/-- The 1 bits of the lowest `k` bits of a number. -/
def bitCount : Nat → Nat → Nat
  | 0, _ => 0
  | k + 1, n => n % 2 + bitCount k (n / 2)

/-- The 1 bits of a word. -/
def popCount (w : Word) : Nat := bitCount 32 w.toNat

/-- The bits in which words differ from the generated body, the first of them being word k (R55). -/
def errorsFrom (seed : Word) (p l : Nat) : Nat → List Word → Nat
  | _, [] => 0
  | k, w :: t => popCount (w ^^^ stampBody seed p l k) + errorsFrom seed p l (k + 1) t

/-- E of the stamped check: the bits that differ between words 4 to 1023 and the generated body (R55). -/
def bodyErrors (seed : Word) (p l : Nat) (x : Sector) : Nat := errorsFrom seed p l 4 (x.toList.drop 4)

/-- E of the zero comparison: the 1 bits of the sector (R55). -/
def oneBits (x : Sector) : Nat := (x.toList.map popCount).sum

/-! ### Judging -/

/-- The last step of both comparisons (R55). -/
def gradeErrors (tol e : Nat) : Verdict := if e = 0 then .good else if e ≤ tol then .soft else .corrupt

/-- The stamped check with the pass window [lo, hi] (R54). -/
def stampedCheck (seed : Word) (tol lo hi l : Nat) (x : Sector) : Verdict :=
  if bearsSignature x = false then (if allZero x then .blank else .foreign)
  else if headerSumHolds seed x = false then .headerCorrupt
  else if headerLba x ≠ l then .misplaced
  else if headerPass x < lo then .stale
  else if hi < headerPass x then .ahead
  else gradeErrors tol (bodyErrors seed (headerPass x) l x)

/-- The zero comparison (R55). -/
def zeroCheck (tol : Nat) (x : Sector) : Verdict := gradeErrors tol (oneBits x)

/-- The reference of a sector (R50 step 3). -/
inductive Reference where
  | unchecked
  | zero
  | stamped (lo hi : Nat)
  deriving DecidableEq, Repr

/-- The lowest and the highest of a list of passes, with a window to start from. -/
def widen (lo hi : Nat) (ps : List Nat) : Nat × Nat := (ps.foldl min lo, ps.foldl max hi)

/-- The reference from the zone's kind, the open pass set and the signature (R53). -/
def referenceOf (kind : ZKind) (passes : List Nat) (signed : Bool) : Reference :=
  match kind, passes with
  | .stamped lo hi, ps => .stamped (widen lo hi ps).1 (widen lo hi ps).2
  | .mixed lo hi, ps => if signed then .stamped (widen lo hi ps).1 (widen lo hi ps).2 else .unchecked
  | .erased, [] => .zero
  | .erased, q :: ps => if signed then .stamped (widen q q ps).1 (widen q q ps).2 else .zero
  | .unwritten, [] => .unchecked
  | .unwritten, q :: ps => if signed then .stamped (widen q q ps).1 (widen q q ps).2 else .unchecked

/-- The record is an open WRITE whose range contains LBA `l` (R52). -/
def Rec.covers (l : Nat) (r : Rec) : Bool := decide (r.kind = .write ∧ r.lba ≤ l ∧ l < r.lba + r.count)

/-- An unstamped write: a HOST WRITE without a pass written, or a SHIP WRITE (R52). -/
def Rec.unstamped (r : Rec) : Bool := decide ((r.origin = .host ∧ r.pass = none) ∨ r.origin = .ship)

/-- An ERASE write: a SWEEP WRITE without a pass written (R52). -/
def Rec.isErase (r : Rec) : Bool := decide (r.origin = .sweep ∧ r.pass = none)

/-- The open pass set at LBA `l` (R52). -/
def openPasses (t : Tracker) (l : Nat) : List Nat :=
  allTags.filterMap (fun g => match t.rec? g with | some r => if r.covers l then r.pass else none | none => none)

/-- The zone number of an LBA, when the geometry is known (R62). -/
def ZoneMap.zoneOf (m : ZoneMap) (l : Nat) : Option Nat := m.z.map (fun z => l >>> z)

/-- Zone record n (R63). -/
def ZoneMap.get (m : ZoneMap) (n : Nat) : ZoneRec := tblGet ZoneRec.init m.zones n

/-- The zone record a sector at LBA `l` is judged by: with no geometry every record is initial (R62, R80). -/
def ZoneMap.recordAt (m : ZoneMap) (l : Nat) : ZoneRec :=
  match m.zoneOf l with
  | some n => m.get n
  | none => ZoneRec.init

/-- STALE and BLANK in a SUSPECT-LOSS zone become LOST-WRITE (R56). -/
def relabel (suspect : Bool) (v : Verdict) : Verdict :=
  if suspect then (match v with | .stale => .lostWrite | .blank => .lostWrite | v => v) else v

/-- The comparison that the reference names (R50 step 4). -/
def compareTo (seed : Word) (tol l : Nat) (x : Sector) : Reference → Verdict
  | .unchecked => .unchecked
  | .zero => zeroCheck tol x
  | .stamped lo hi => stampedCheck seed tol lo hi l x

/-- The outcome of a judged sector at LBA `l` with tolerance `tol` (R50). -/
def judge (x : Bay) (tol l : Nat) (sec : Sector) : Verdict :=
  if x.wiping then .unchecked
  else if x.tracker.anyRec (fun r => r.covers l && r.unstamped) then .unchecked
  else if x.tracker.anyRec (fun r => r.covers l && r.isErase) && allZero sec then .good
  else
    let z := x.zm.recordAt l
    relabel z.suspect (compareTo x.settings.seed tol l sec (referenceOf z.kind (openPasses x.tracker l) (bearsSignature sec)))

/-! ### Outcomes and counters -/

/-- The outcome is a defect outcome (R58). -/
def Verdict.isDefect : Verdict → Bool
  | .corrupt | .misplaced | .stale | .blank | .foreign | .headerCorrupt | .unreadable | .writeFault => true
  | .good | .soft | .ahead | .lostWrite | .unchecked => false

/-- The outcome's own counter rises (R58, R59 step 2). -/
def Counters.bump (v : Verdict) (c : Counters) : Counters :=
  match v with
  | .good => c
  | .soft => { c with soft := inc32 c.soft }
  | .corrupt => { c with corrupt := inc32 c.corrupt }
  | .misplaced => { c with misplaced := inc32 c.misplaced }
  | .stale => { c with stale := inc32 c.stale }
  | .ahead => { c with ahead := inc32 c.ahead }
  | .blank => { c with blank := inc32 c.blank }
  | .foreign => { c with foreign := inc32 c.foreign }
  | .headerCorrupt => { c with headerCorrupt := inc32 c.headerCorrupt }
  | .lostWrite => { c with lostWrite := inc32 c.lostWrite }
  | .unreadable => { c with unreadable := inc32 c.unreadable }
  | .writeFault => { c with writeFault := inc32 c.writeFault }
  | .unchecked => c

/-- VERIFIED rises for every judged outcome, then the outcome's own counter (R59 steps 1 and 2). -/
def Counters.note (v : Verdict) (c : Counters) : Counters :=
  if v = .unchecked then c else Counters.bump v { c with verified := satInc max48 c.verified }

end Sys2Proof.Machine
end

