-- ==== Sys2Proof/Machine/ZoneMap.lean ====
section
/-! DEFINITION. The Zone Map: geometry (R62), zone records (R63), write completions and pass closes (R64 to R67),
suspect-loss marking (R69), the class changes of defect outcomes, rescans and ZONE-MARK (R71 to R79), and the session
wipe (R80). -/

namespace Sys2Proof.Machine

/-! ### Geometry (R62) -/

/-- The smallest shift from `z` on whose 4096 zones hold C sectors, within `fuel` tries. -/
def shiftFrom (c : Nat) : Nat → Nat → Nat
  | 0, z => z
  | fuel + 1, z => if c ≤ 4096 * 2 ^ z then z else shiftFrom c fuel (z + 1)

/-- The zone shift of a capacity: the smallest integer of at least 8 (R62). -/
def zoneShift (c : Nat) : Nat := shiftFrom c 64 8

/-- floor((n + d − 1) / d): ceil(n / d) for d above 0. -/
def ceilDiv (n d : Nat) : Nat := (n + d - 1) / d

/-- The zones used of a capacity (R62). -/
def zonesUsed (c : Nat) : Nat := ceilDiv c (2 ^ zoneShift c)

/-- The geometry is computed when C is learned (R62). -/
def ZoneMap.learn (c : Nat) (m : ZoneMap) : ZoneMap := { m with z := some (zoneShift c), used := zonesUsed c }

/-! ### Zone records -/

/-- The mark: set exactly when the class is UNCONFIRMED or CONFIRMED (R63). -/
def ZoneRec.mark (r : ZoneRec) : Bool := decide (r.cls = .unconfirmed ∨ r.cls = .confirmed)

/-- 1 for a marked zone, else 0. -/
def ZoneRec.weight (r : ZoneRec) : Nat := if r.mark then 1 else 0

/-- Write zone record n; the distinct-defect count follows its mark (R63). -/
def ZoneMap.put (n : Nat) (r : ZoneRec) (m : ZoneMap) : ZoneMap :=
  { m with zones := tblSet ZoneRec.init n r m.zones, distinct := m.distinct + r.weight - (m.get n).weight }

/-- Change zone record n by `f`. -/
def ZoneMap.modify (n : Nat) (f : ZoneRec → ZoneRec) (m : ZoneMap) : ZoneMap := m.put n (f (m.get n))

/-- Change the `k` zone records from n on by `f`, rising. -/
def ZoneMap.modRange (f : ZoneRec → ZoneRec) : Nat → Nat → ZoneMap → ZoneMap
  | _, 0, m => m
  | n, k + 1, m => ZoneMap.modRange f (n + 1) k (m.modify n f)

/-! ### Writes (R64 to R66) -/

/-- What a completed write brings to a zone: stamped sectors of a pass, zeros, host data of unknown content, or the ship
record at a pass counter. -/
inductive WriteEffect where
  | stamped (p : Nat)
  | erase
  | host
  | ship (counter : Nat)
  deriving DecidableEq, Repr

/-- The kind of a zone after a completed write (the tables of R64 and R65). R68 says of an unstamped write after a pass close, the SHIP
write among them, that it makes an ERASED zone UNWRITTEN; a SHIP write follows R65's table there, MIXED (log entry 37). -/
def kindAfter : WriteEffect → ZKind → ZKind
  | .stamped p, .unwritten => .mixed p p
  | .stamped p, .erased => .mixed p p
  | .stamped p, .stamped lo hi => .stamped (min lo p) (max hi p)
  | .stamped p, .mixed lo hi => .mixed (min lo p) (max hi p)
  | .erase, .unwritten => .unwritten
  | .erase, .erased => .erased
  | .erase, .stamped lo hi => .mixed lo hi
  | .erase, .mixed lo hi => .mixed lo hi
  | .host, .unwritten => .unwritten
  | .host, .erased => .unwritten
  | .host, .stamped lo hi => .mixed lo hi
  | .host, .mixed lo hi => .mixed lo hi
  | .ship c, .unwritten => .mixed c c
  | .ship c, .erased => .mixed c c
  | .ship _, .stamped lo hi => .mixed lo hi
  | .ship _, .mixed lo hi => .mixed lo hi

/-- The effect of a WRITE record's close, at a bay pass counter: a pass written above the counter is applied as a HOST
write with overlay off (R66). -/
def writeEffect (origin : Origin) (pass : Option Nat) (counter : Nat) : WriteEffect :=
  match pass with
  | some p => if counter < p then .host else .stamped p
  | none => match origin with
    | .sweep => .erase
    | .ship => .ship counter
    | _ => .host

/-- A completed write of LBAs `lo` to `hi` reaches every zone it overlaps (R64, R65); nothing changes while the capacity is
not known (R66). -/
def ZoneMap.write (e : WriteEffect) (lo hi : Nat) (m : ZoneMap) : ZoneMap :=
  match m.z with
  | none => m
  | some z => m.modRange (fun r => { r with kind := kindAfter e r.kind }) (lo >>> z) (hi >>> z + 1 - lo >>> z)

/-! ### Pass closes (R67) -/

/-- What a pass close makes of a zone wholly inside the range; VERIFY changes none. -/
def closeKind : SweepOp → Nat → Option ZKind
  | .write, p => some (.stamped p p)
  | .writeVerify, p => some (.stamped p p)
  | .erase, _ => some .erased
  | .verify, _ => none

/-- A pass close over [lo, hi) of a drive of C sectors: every zone whose whole extent lies inside (R67). -/
def ZoneMap.passClose (c : Nat) (op : SweepOp) (p lo hi : Nat) (m : ZoneMap) : ZoneMap :=
  match m.z, closeKind op p with
  | some z, some k =>
    let a := ceilDiv lo (2 ^ z)
    let e := if c ≤ hi then m.used else hi >>> z
    m.modRange (fun r => { r with kind := k, suspect := false }) a (e - a)
  | _, _ => m

/-- A rescan pass close: the zone becomes STAMPED [P, P] and loses SUSPECT-LOSS (R67, R109). -/
def ZoneMap.rescanClose (n p : Nat) (m : ZoneMap) : ZoneMap :=
  m.modify n (fun r => { r with kind := .stamped p p, suspect := false })

/-! ### Suspect loss (R69) -/

/-- SUSPECT-LOSS on the zones of one unsettled range. -/
def ZoneMap.suspectRange (z : Nat) (m : ZoneMap) (u : URange) : ZoneMap :=
  m.modRange (fun r => { r with suspect := true }) (u.lo >>> z) (u.hi >>> z + 1 - u.lo >>> z)

/-- A forced power-off marks the zones of the unsettled-write list (R69), not while the capacity is unknown (R66). -/
def ZoneMap.suspectMark (u : Unsettled) (m : ZoneMap) : ZoneMap :=
  match m.z, u with
  | none, _ => m
  | some z, .ranges l => l.foldl (ZoneMap.suspectRange z) m
  | some _, .whole _ => m.modRange (fun r => { r with suspect := true }) 0 m.used

/-! ### Classes (R71 to R79) -/

/-- The zone's class becomes `c`, and its mark and the distinct-defect count with it (R63). -/
def ZoneMap.setClass (n : Nat) (c : ZClass) (m : ZoneMap) : ZoneMap := m.modify n (fun r => { r with cls := c })

/-- A defect outcome's hit count rises first (R71). -/
def ZoneMap.hit (n : Nat) (m : ZoneMap) : ZoneMap := m.modify n (fun r => { r with hits := satInc 255 r.hits })

/-- A re-hit (R73). -/
def ZoneMap.rehit (m : ZoneMap) : ZoneMap := { m with rehits := inc32 m.rehits }

/-- A defect in the zone under rescan (R74). -/
def ZoneMap.confirm (n : Nat) (m : ZoneMap) : ZoneMap :=
  let m := m.setClass n .confirmed
  { m with confirmed := inc32 m.confirmed, rehits := inc32 m.rehits }

/-- A rescan that ends HEALED (R76). -/
def ZoneMap.heal (n : Nat) (m : ZoneMap) : ZoneMap :=
  let m := m.setClass n .healed
  { m with healed := inc32 m.healed }

/-- A zone offered to the queue joins its tail, or counts as dropped when the queue is full (R75). -/
def ZoneMap.offer (n r : Nat) (m : ZoneMap) : ZoneMap :=
  if m.queue.length < rescanQueueMax then { m with queue := m.queue ++ [{ zone := n, r := r }] }
  else { m with dropped := inc32 m.dropped }

/-- Zone n waits in the rescan queue. -/
def ZoneMap.queued (m : ZoneMap) (n : Nat) : Bool := m.queue.any (fun q => q.zone = n)

/-- The operations of ZONE-MARK (R79). -/
inductive ZoneMarkOp where
  | test | set | clear | toggle
  deriving DecidableEq, Repr

/-- What a ZONE-MARK that is carried out does to the zone (R79). -/
def ZoneMap.zoneMark (op : ZoneMarkOp) (n : Nat) (m : ZoneMap) : ZoneMap :=
  match op, (m.get n).mark with
  | .test, _ => m
  | .set, true => m
  | .set, false => m.setClass n .unconfirmed
  | .clear, _ => m.setClass n .none
  | .toggle, true => m.setClass n .none
  | .toggle, false => m.setClass n .unconfirmed

/-! ### The session wipe (R80) -/

/-- What the Zone Map sets at once when a session wipe begins; the records and the distinct-defect count follow zone by
zone (R80). -/
def ZoneMap.beginWipe (m : ZoneMap) : ZoneMap :=
  { m with z := none, used := 0, confirmed := 0, healed := 0, dropped := 0, rehits := 0, queue := [] }

/-- The wipe resets zone record n (R80). -/
def ZoneMap.resetZone (n : Nat) (m : ZoneMap) : ZoneMap := m.put n ZoneRec.init

end Sys2Proof.Machine
end

