-- ==== Sys2Proof/Machine/Flags.lean ====
section
/-! DEFINITION. The flags and lines of the part: notices and ATTENTION (R170), the side lines and what they read back
(R161, R162), the sort lamp (R146), and the latency bins (R31, R32). -/

namespace Sys2Proof.Machine

/-! ### Notices and ATTENTION (R170) -/

/-- The bit of a notice in a set of notices (R172). -/
def Notice.ix : Notice → Fin 5
  | .inserted => 0
  | .removed => 1
  | .capacity => 2
  | .planEnded => 3
  | .fault => 4

/-- Raise a notice: its flag is set and its raise count rises (R170). -/
def Annex.raise (k : Notice) (x : Annex) : Annex :=
  { x with flags := x.flags.set k.ix true, raises := x.raises.set k.ix (inc32 x.raises[k.ix]) }

def raiseNotice (b : BayIx) (k : Notice) (s : State) : State := s.modBay b (·.modAnnex (·.raise k))

/-- The five notice indices. -/
def noticeIxs : List (Fin 5) := [0, 1, 2, 3, 4]

/-- The bay has a notice flag that its mask enables (R169, R170). -/
def Annex.unmasked (x : Annex) : Bool := noticeIxs.any (fun k => x.flags[k] && x.mask[k])

/-- The level of ATTENTION: asserted while some bay has an unmasked flag (R170). -/
def State.attention (s : State) : Bool := allBays.any (fun b => (s.bay b).annex.unmasked)

/-- A set of notices as a byte (R172). -/
def noticeByte (v : Vector Bool 5) : Nat := (noticeIxs.map (fun k => if v[k] then 2 ^ k.val else 0)).sum

/-- A set of notices from a byte; bits 5 to 7 are ignored (R174). -/
def noticesOfByte (x : Byte) : Vector Bool 5 :=
  #v[x.getLsbD 0, x.getLsbD 1, x.getLsbD 2, x.getLsbD 3, x.getLsbD 4]

/-! ### Side lines (R161, R162) -/

/-- AUX with function LOCK is asserted while the bay asks for power or has it (R161). -/
def lockAsserted : PowerState → Bool
  | .queued | .spinningUp | .on | .settling => true
  | .empty | .off => false

/-- The level AUX is driven to; none when it is not driven (R161). -/
def Bay.auxDriven (x : Bay) : Option Bool :=
  match x.lines.auxFn with
  | .input => none
  | .latch => some x.lines.auxLatch
  | .faultOut => some (decide (x.plan.state = .ended ∧ x.plan.outcome = some .faulted))
  | .lock => some (lockAsserted x.power.state)

/-- AUX as read back (R162). -/
def Bay.auxReadBack (x : Bay) : Bool :=
  match x.lines.auxFn with
  | .input => x.lines.auxPin
  | .latch | .faultOut | .lock => x.lines.auxLatch

/-- The lamp is lit (R146, R161). -/
def Bay.lampLit (x : Bay) : Bool :=
  match x.lines.lampFn with
  | .sort => match x.lines.pattern with
    | .off => false
    | .on => true
    | .slow | .fast => x.lines.blinkLit
  | .activity => x.lines.pulse.isSome
  | .latch => x.lines.lampLatch

/-! ### The sort lamp (R146) -/

/-- The half period of a blinking pattern in ms. -/
def halfPeriod : LampPattern → Option Nat
  | .slow => some 500
  | .fast => some 125
  | .off | .on => none

/-- The pattern a bay's SORT lamp shows: the first matching row of R146. -/
def sortPattern (r : Rack) (x : Bay) : LampPattern :=
  if x.power.state = .empty then .off
  else if x.running then .slow
  else match x.grade with
    | some g => r.bins[g.bin].pattern
    | none => .off

/-- The pattern the Line Controller runs: with another LAMP function none (R146, R161), so that SORT set again starts a blinking
pattern with its lit half (log entry 42). -/
def lampChoice (r : Rack) (x : Bay) : LampPattern := if x.lines.lampFn = .sort then sortPattern r x else .off

/-- Choose the pattern again: a change starts with the lit half, the same pattern goes on as it runs (R146). -/
def Bay.chooseLamp (r : Rack) (x : Bay) : Bay :=
  if lampChoice r x = x.lines.pattern then x
  else { x with lines := { x.lines with
    pattern := lampChoice r x, blinkLit := (halfPeriod (lampChoice r x)).isSome, blink := halfPeriod (lampChoice r x) } }

def refreshLamp (b : BayIx) (s : State) : State := s.modBay b (·.chooseLamp s.rack)

/-- Choose the pattern of every bay again (R138: a changed bin pattern shows at once). -/
def refreshLamps (s : State) : State := { s with bays := mapVec (·.chooseLamp s.rack) s.bays }

/-- A completion of a record starts the ACTIVITY pulse again (R161). -/
def startPulse (b : BayIx) (s : State) : State := s.modBay b (·.modLines (fun l => { l with pulse := some pulseMs }))

/-! ### Latency (R31, R32) -/

/-- The bin of a latency of t µs (R32). -/
def latencyBin (t : Nat) : Nat := if t < 1000 then 0 else min 11 (Nat.log2 (t / 1000) + 1)

/-- Bin a latency of t µs into a class (R32). -/
def Hist.note (t : Nat) (h : Hist) : Hist :=
  let k := latencyBin t
  { bins := h.bins.setIfInBounds k (inc32 (h.bins[k]?.getD 0)), worst := max h.worst t }

/-- Bin the latency of a closing record in the class of its kind (R31). -/
def Tracker.binLatency (kind : CmdKind) (t : Nat) (x : Tracker) : Tracker :=
  match kind with
  | .read => { x with histRead := x.histRead.note t }
  | .write => { x with histWrite := x.histWrite.note t }
  | .flush => { x with histFlush := x.histFlush.note t }
  | .capacity | .other => x

end Sys2Proof.Machine
end

