-- ==== Sys2Proof/Machine/Visits.lean ====
section
/-! DEFINITION. A sweep's own arithmetic: the range and its chunks (R86, R87), the visiting orders (R88), the completion
window (R91 to R94), triggers and credit (R95 to R97) and the rewind (R98); and the chunks of a rescan (R108, R113). -/

namespace Sys2Proof.Machine

/-! ### The range (R86) and the visiting order (R87, R88) -/

/-- The requested end of a SWEEP slot on a drive of C sectors (R86). -/
def SweepCfg.requestedEnd (f : SweepCfg) (c : Nat) : Nat := if f.length = 0 then c else f.start + f.length

/-- The chunk named by visit v of a pass of n chunks (R88). -/
def chunkOf (o : SweepOrder) (n v : Nat) : Nat :=
  match o with
  | .ascendRestart => v
  | .ascendContinue => v
  | .descend => n - 1 - v
  | .butterfly => if v % 2 = 0 then v / 2 else n - 1 - (v - 1) / 2
  | .fixed => 0

/-- The first LBA of chunk i (R87). -/
def Active.chunkLo (a : Active) (i : Nat) : Nat := a.lo + i * a.cfg.chunk

/-- One past the last LBA of chunk i (R87). -/
def Active.chunkHi (a : Active) (i : Nat) : Nat := min (a.lo + (i + 1) * a.cfg.chunk) a.hi

/-- The first LBA and the sector count of visit v's command (R91). -/
def Active.visitLba (a : Active) (v : Nat) : Nat := a.chunkLo (chunkOf a.cfg.order a.n v)
def Active.visitCount (a : Active) (v : Nat) : Nat :=
  a.chunkHi (chunkOf a.cfg.order a.n v) - a.chunkLo (chunkOf a.cfg.order a.n v)

/-- The range that a pass covers and its pass close names, as [lo, hi) (R88). -/
def Active.covered (a : Active) : Nat × Nat :=
  match a.cfg.order with
  | .ascendRestart | .descend | .butterfly => (a.lo, a.hi)
  | .ascendContinue => (a.lo + a.firstVisit * a.cfg.chunk, a.hi)
  | .fixed => (a.chunkLo 0, a.chunkHi 0)

/-! ### The completion window (R92, R94) -/

/-- The window's offsets in rising order. -/
def winIxs : List (Fin 8) := [0, 1, 2, 3, 4, 5, 6, 7]

/-- A window in which every visit is NOT-STARTED. -/
def freshWindow : Vector VisitState 8 := Vector.replicate 8 .notStarted

/-- The state of visit v. -/
def Active.visit (a : Active) (v : Nat) : VisitState :=
  if v < a.frontier then .complete else a.window[v - a.frontier]?.getD .notStarted

/-- Set the state of visit v; visits below the frontier stay COMPLETE. -/
def Active.setVisit (v : Nat) (st : VisitState) (a : Active) : Active :=
  if v < a.frontier then a else { a with window := a.window.setIfInBounds (v - a.frontier) st }

/-- The visit is started and not yet complete (R84: in flight). A WRITTEN visit stays counted, in SUSPENDED too (R93; log entry
44). -/
def VisitState.inFlight : VisitState → Bool
  | .issued | .writing | .written | .reading => true
  | .notStarted | .complete => false

/-- In flight (R84). -/
def Active.inFlight (a : Active) : Nat := (winIxs.filter (fun i => (a.window[i]).inFlight)).length

/-- The next visit: the lowest visit at or above the frontier that is NOT-STARTED, at most n (R84). -/
def Active.nextVisit (a : Active) : Nat :=
  min a.n (a.frontier + match winIxs.find? (fun i => a.window[i] = .notStarted) with
    | some i => i.val
    | none => 8)

/-- The lowest visit whose write is done and whose read waits (R93). -/
def Active.waitingRead (a : Active) : Option Nat :=
  (winIxs.find? (fun i => a.window[i] = .written)).map (fun i => a.frontier + i.val)

/-- How many visits from the frontier on are COMPLETE without a gap. -/
def leading : List VisitState → Nat
  | .complete :: t => leading t + 1
  | _ => 0

/-- The window moved up by k visits. -/
def shiftWindow (w : Vector VisitState 8) (k : Nat) : Vector VisitState 8 :=
  Vector.ofFn (fun i : Fin 8 => w[i.val + k]?.getD .notStarted)

/-- The frontier moves up past the visits that are COMPLETE, and the window with it (R94). -/
def Active.moveFrontier (a : Active) : Active :=
  let k := leading a.window.toList
  { a with frontier := a.frontier + k, window := shiftWindow a.window k }

/-- A visit's states after a rewind (R98 steps 2 to 4). -/
def VisitState.rewound : VisitState → VisitState
  | .issued | .writing => .notStarted
  | .reading => .written
  | s => s

/-- The rewind of a sweep (R98). -/
def Active.rewind (a : Active) : Active := { a with window := mapVec VisitState.rewound a.window }

/-- What a request that is withdrawn or refused leaves of its visit (R91, R98, R106): a write or single command
NOT-STARTED, a read WRITTEN in op WRITE-VERIFY. -/
def Active.takeBack (r : Rec) (a : Active) : Active :=
  match r.visit with
  | some v => a.setVisit v (a.visit v).rewound
  | none => a

/-! ### Credit (R95 to R97) -/

/-- Some credit is left (R92). -/
def Credit.some? : Credit → Bool
  | .count n => decide (0 < n)
  | .unbounded => true

/-- A start takes one from a credit that is a number (R92). -/
def Credit.spend : Credit → Credit
  | .count n => .count (n - 1)
  | .unbounded => .unbounded

/-- The credit a trigger sets (R95). -/
def SweepCfg.triggerCredit (f : SweepCfg) : Credit :=
  match f.pacing with
  | .single => .count 1
  | .block => .count f.block
  | .successive => .unbounded

/-- The sweep drops a trigger: with SINGLE or BLOCK pacing while the credit is above 0 (R95). -/
def Active.drops (a : Active) : Bool := decide (a.cfg.pacing ≠ .successive) && a.credit.some?

/-- A HOST record opens: an IDLE sweep yields (R97). -/
def Sweep.hostOpened (w : Sweep) : Sweep :=
  { w with active := w.active.map (fun a =>
      if w.status = .active ∧ a.cfg.trigger = .idle then { a with yielding := true, credit := .count 0 } else a) }

/-- An IDLE trigger (R96, R97). -/
def Sweep.idleTrigger (w : Sweep) : Sweep :=
  { w with active := w.active.map (fun a =>
      if w.status = .active ∧ a.cfg.trigger = .idle then
        if a.drops then a else { a with yielding := false, credit := a.cfg.triggerCredit }
      else a) }

/-! ### Requests of a sweep -/

/-- The op writes stamped sectors. -/
def SweepOp.stamps : SweepOp → Bool
  | .write | .writeVerify => true
  | .verify | .erase => false

/-- The state a started visit is in until its first command closes (R91). -/
def SweepOp.firstState : SweepOp → VisitState
  | .writeVerify => .writing
  | .write | .verify | .erase => .issued

/-- The command record of visit v: its READ in VERIFY and for the second command of WRITE-VERIFY, else its WRITE (R91). -/
def Active.visitRec (a : Active) (v : Nat) (isRead : Bool) : Rec :=
  { Rec.blank with
    origin := .sweep
    kind := if isRead then .read else .write
    lba := a.visitLba v
    count := a.visitCount v
    pass := if isRead then none else a.p
    judged := isRead
    tol := if isRead then a.cfg.tolerance else 0
    visit := some v
    rescans := a.cfg.rescans
    gen := a.gen }

/-! ### The chunks of a rescan (R108) -/

/-- The state of chunk j of the current pass. -/
def Rescan.chunk (q : Rescan) (j : Nat) : VisitState := tblGet .notStarted q.chunks j

/-- Set the state of chunk j. -/
def Rescan.setChunk (j : Nat) (st : VisitState) (q : Rescan) : Rescan :=
  { q with chunks := tblSet .notStarted j st q.chunks }

/-- Chunks of a given state. -/
def Rescan.countOf (q : Rescan) (st : VisitState) : Nat := (q.chunks.filter (fun e => e.2 = st)).length

/-- In flight of a rescan: the chunks whose write or read is requested and not yet closed. A WRITTEN chunk's read is requested in
the event that made it WRITTEN, or was refused, and the chunk has then left in flight (R104, R108). -/
def Rescan.inFlight (q : Rescan) : Nat := q.countOf .writing + q.countOf .reading

/-- The lowest number from j on that the table does not list. -/
def lowestUnlisted : Nat → List (Nat × VisitState) → Nat
  | j, [] => j
  | j, (k, _) :: t => if k = j then lowestUnlisted (j + 1) t else j

/-- The lowest NOT-STARTED chunk, if the zone has one. -/
def Rescan.nextChunk (q : Rescan) : Option Nat :=
  let j := lowestUnlisted 0 q.chunks
  if j < q.m then some j else none

/-- The lowest WRITTEN chunk (R108: reads go first, lowest chunk first). -/
def Rescan.waitingRead (q : Rescan) : Option Nat := (q.chunks.find? (fun e => e.2 = .written)).map (·.1)

/-- Every chunk of the pass is COMPLETE (R109). -/
def Rescan.passDone (q : Rescan) : Bool := decide (q.m ≤ q.countOf .complete)

/-- The first LBA of chunk j, and its sectors on a drive of C sectors with zone shift z (R108). -/
def Rescan.chunkLba (q : Rescan) (z j : Nat) : Nat := q.zone * 2 ^ z + 256 * j
def Rescan.chunkCount (q : Rescan) (z c j : Nat) : Nat := min 256 (min ((q.zone + 1) * 2 ^ z) c - q.chunkLba z j)

/-- The command record of chunk j (R108). -/
def Rescan.chunkRec (q : Rescan) (z c j : Nat) (isRead : Bool) : Rec :=
  { Rec.blank with
    origin := .rescan
    kind := if isRead then .read else .write
    lba := q.chunkLba z j
    count := q.chunkCount z c j
    pass := if isRead then none else some q.p
    judged := isRead
    tol := if isRead then q.tol else 0
    visit := some j
    gen := q.gen }

/-- What a refused request leaves of its chunk: NOT-STARTED for a write, WRITTEN for a read; it leaves in flight (R108). -/
def Rescan.takeBack (r : Rec) (q : Rescan) : Rescan :=
  match r.visit with
  | some j => q.setChunk j (q.chunk j).rewound
  | none => q

end Sys2Proof.Machine
end

