-- ==== Sys2Proof/Machine/Operands.lean ====
section
/-! DEFINITION. The codes of enumerated values (R172), read and written, and the decoding of a signed mailbox sector into a
directive with its operands (R174, R175). -/

namespace Sys2Proof.Machine

/-! ### Codes written (R172) -/

def codeOfBool (b : Bool) : Nat := if b then 1 else 0

def PowerState.code : PowerState → Nat
  | .empty => 0 | .off => 1 | .queued => 2 | .spinningUp => 3 | .on => 4 | .settling => 5

def SessionState.code : SessionState → Nat
  | .none => 0 | .active => 1 | .abandoned => 2

def PlanState.code : PlanState → Nat
  | .none => 0 | .running => 1 | .ended => 2

def PlanOutcome.code : PlanOutcome → Nat
  | .completed => 1 | .aborted => 2 | .faulted => 3 | .removed => 4 | .stampRefused => 5 | .planError => 6

def FaultCause.code : FaultCause → Nat
  | .spinupFailed => 1 | .timeoutLimit => 2 | .capacityChanged => 3 | .unsupported => 4

def PhaseStep.code : PhaseStep → Nat
  | .none => 0 | .waitingForOn => 1 | .running => 2 | .timing => 3 | .expired => 4 | .settling => 5 | .offTime => 6
  | .poweringUp => 7 | .writing => 8

def SlotBody.code : SlotBody → Nat
  | .empty => 0 | .sweep _ => 1 | .dwell _ => 2 | .powerCycle _ => 3 | .powerOff => 4 | .loop _ _ => 5 | .grade _ _ => 6
  | .stamp _ => 7

def SweepOp.code : SweepOp → Nat
  | .write => 0 | .verify => 1 | .writeVerify => 2 | .erase => 3

def SweepOrder.code : SweepOrder → Nat
  | .ascendRestart => 0 | .ascendContinue => 1 | .descend => 2 | .butterfly => 3 | .fixed => 4

def Pacing.code : Pacing → Nat
  | .single => 0 | .block => 1 | .successive => 2

def Trigger.code : Trigger → Nat
  | .immediate => 0 | .idle => 1 | .interval => 2

def SweepStatus.code : SweepStatus → Nat
  | .none => 0 | .active => 1 | .suspended => 2 | .draining => 3 | .ended => 4

def EndReason.code : EndReason → Nat
  | .passesDone => 1 | .timeLimit => 2 | .empty => 3 | .stopped => 4

def VisitState.code : VisitState → Nat
  | .notStarted => 0 | .issued => 1 | .writing => 2 | .written => 3 | .reading => 4 | .complete => 5

def ZKind.code : ZKind → Nat
  | .unwritten => 0 | .stamped _ _ => 1 | .erased => 2 | .mixed _ _ => 3

def ZClass.code : ZClass → Nat
  | .none => 0 | .unconfirmed => 1 | .confirmed => 2 | .healed => 3

def Comparison.code : Comparison → Nat
  | .above => 0 | .atLeast => 1 | .below => 2 | .atMost => 3 | .equal => 4 | .notEqual => 5

def LampPattern.code : LampPattern → Nat
  | .off => 0 | .on => 1 | .slow => 2 | .fast => 3

def LampFn.code : LampFn → Nat
  | .sort => 0 | .activity => 1 | .latch => 2

def AuxFn.code : AuxFn → Nat
  | .input => 0 | .latch => 1 | .faultOut => 2 | .lock => 3

/-- Grade source: empty, RULES, FAULT. -/
def gradeSourceCode : Option Grade → Nat
  | none => 0
  | some g => if g.rules then 1 else 2

def ShipName.code : ShipName → Nat
  | .none => 0 | .writing => 1 | .written => 2 | .failed => 3

def Origin.code : Origin → Nat
  | .host => 0 | .sweep => 1 | .rescan => 2 | .settle => 3 | .ship => 4 | .learn => 5

def ResultState.code : ResultState → Nat
  | .none => 0 | .busy => 1 | .complete => 2

def DirResult.code : DirResult → Nat
  | .done => 0 | .clamped => 1 | .refused _ => 2

def Reason.code : Reason → Nat
  | .badCode => 1 | .badValue => 2 | .wrongState => 3 | .inUse => 4 | .planInvalid => 5 | .noDrive => 6
  | .unsupportedDrive => 7

/-- The reason field: none for a result other than REFUSED. -/
def DirResult.reasonCode : DirResult → Nat
  | .refused r => r.code
  | .done | .clamped => 0

def MailboxState.code : MailboxState → Nat
  | .idle => 0 | .busyDirective => 1 | .busyWipe => 2

def Choice.code : Choice → Nat
  | .keep => 0 | .off => 1

/-- A slot field: END, an inactive loop owner or no slot reads 255 (R172). -/
def slotCode : Option SlotIx → Nat
  | some k => k.val
  | none => 255

/-! ### Codes read (R172): none where a byte has no code -/

def boolOf (x : Byte) : Option Bool :=
  match x.toNat with
  | 0 => some false | 1 => some true | _ => none

def choiceOf (x : Byte) : Option Choice :=
  match x.toNat with
  | 0 => some .keep | 1 => some .off | _ => none

def sweepOpOf (x : Byte) : Option SweepOp :=
  match x.toNat with
  | 0 => some .write | 1 => some .verify | 2 => some .writeVerify | 3 => some .erase | _ => none

def sweepOrderOf (x : Byte) : Option SweepOrder :=
  match x.toNat with
  | 0 => some .ascendRestart | 1 => some .ascendContinue | 2 => some .descend | 3 => some .butterfly | 4 => some .fixed
  | _ => none

def pacingOf (x : Byte) : Option Pacing :=
  match x.toNat with
  | 0 => some .single | 1 => some .block | 2 => some .successive | _ => none

def triggerOf (x : Byte) : Option Trigger :=
  match x.toNat with
  | 0 => some .immediate | 1 => some .idle | 2 => some .interval | _ => none

def comparisonOf (x : Byte) : Option Comparison :=
  match x.toNat with
  | 0 => some .above | 1 => some .atLeast | 2 => some .below | 3 => some .atMost | 4 => some .equal | 5 => some .notEqual
  | _ => none

def patternOf (x : Byte) : Option LampPattern :=
  match x.toNat with
  | 0 => some .off | 1 => some .on | 2 => some .slow | 3 => some .fast | _ => none

def lampFnOf (x : Byte) : Option LampFn :=
  match x.toNat with
  | 0 => some .sort | 1 => some .activity | 2 => some .latch | _ => none

def auxFnOf (x : Byte) : Option AuxFn :=
  match x.toNat with
  | 0 => some .input | 1 => some .latch | 2 => some .faultOut | 3 => some .lock | _ => none

def zoneMarkOpOf (x : Byte) : Option ZoneMarkOp :=
  match x.toNat with
  | 0 => some .test | 1 => some .set | 2 => some .clear | 3 => some .toggle | _ => none

/-- A slot number 0 to 95 (R116). -/
def slotOf (x : Byte) : Option SlotIx := if h : x.toNat < 96 then some ⟨x.toNat, h⟩ else none

/-- A next field: a slot 0 to 95, or 255 for END; none where it is 96 to 254 (R116). -/
def nextOf (x : Byte) : Option (Option SlotIx) := if x.toNat = 255 then some none else (slotOf x).map some

/-- A bin number 0 to 15 (R138). -/
def binOf (x : Byte) : Option (Fin 16) := if h : x.toNat < 16 then some ⟨x.toNat, h⟩ else none

/-- A rule number 0 to 23 (R137). -/
def ruleOf (x : Byte) : Option (Fin 24) := if h : x.toNat < 24 then some ⟨x.toNat, h⟩ else none

/-! ### Directives (R166, R174) -/

/-- A directive with its fields as the sector carries them. -/
inductive Directive where
  | setBay (f : SetBayArg)
  | setRack (f : SetRackArg)
  | loadSlot (slot nxt : Byte) (f : SlotArg)
  | loadRule (rule : Byte) (f : RuleArg)
  | loadBin (bin : Byte) (f : BinArg)
  | startPlan (slot atEnd : Byte)
  | abortPlan (choice : Byte)
  | power (field : Byte)
  | zoneMark (zone : BitVec 16) (op : Byte)
  | clearSession
  | setLine (lampFn auxFn lampLatch auxLatch : Byte)
  | ackNotice (clear mask : Byte)
  | badCode (code : Word)
  deriving DecidableEq, Repr

/-- The code of a directive (R166). -/
def Directive.code : Directive → Word
  | .setBay _ => 1#32
  | .setRack _ => 2#32
  | .loadSlot _ _ _ => 3#32
  | .loadRule _ _ => 4#32
  | .loadBin _ _ => 5#32
  | .startPlan _ _ => 6#32
  | .abortPlan _ => 7#32
  | .power _ => 8#32
  | .zoneMark _ _ => 9#32
  | .clearSession => 10#32
  | .setLine _ _ _ _ => 11#32
  | .ackNotice _ _ => 12#32
  | .badCode c => c

/-- A 32-bit number from byte i. -/
def wordAt (x : Sector) (i : Nat) : Word := BitVec.ofNat 32 (bytesOf x i 4)

/-- The fields of a slot record's kind; `o` is the record's first byte in the sector (R175). -/
def slotArgOf (x : Sector) (o : Nat) : SlotArg :=
  match (byteOf x o).toNat with
  | 0 => .empty
  | 1 => .sweep
    { op := byteOf x (o + 4), order := byteOf x (o + 5), pacing := byteOf x (o + 6), trigger := byteOf x (o + 7),
      start := BitVec.ofNat 48 (bytesOf x (o + 8) 6), length := BitVec.ofNat 48 (bytesOf x (o + 14) 6),
      chunk := BitVec.ofNat 16 (bytesOf x (o + 20) 2), block := byteOf x (o + 22), maxInFlight := byteOf x (o + 23),
      passes := byteOf x (o + 24), tolerance := byteOf x (o + 25), rescans := byteOf x (o + 26),
      interval := wordAt x (o + 28), limit := wordAt x (o + 32) }
  | 2 => .dwell (wordAt x (o + 4))
  | 3 => .powerCycle (wordAt x (o + 4))
  | 4 => .powerOff
  | 5 => .loop (byteOf x (o + 4)) (byteOf x (o + 5))
  | 6 => .grade (byteOf x (o + 4)) (byteOf x (o + 5))
  | 7 => .stamp (BitVec.ofNat 48 (bytesOf x (o + 4) 6))
  | _ => .unknown (byteOf x o)

/-- The directive in a signed mailbox sector: the code is word 1, the fields stand from byte 12 on (R174). -/
def directiveOf (x : Sector) : Directive :=
  match (wordOf x 1).toNat with
  | 1 => .setBay
    { seed := wordAt x 12, overlay := byteOf x 16, checking := byteOf x 17, tolerance := byteOf x 18,
      rescans := byteOf x 19, w := wordAt x 20, tw := wordAt x 24 }
  | 2 => .setRack
    { budget := wordAt x 12, spin := wordAt x 16, run := wordAt x 20, spinTimeout := wordAt x 24, hold := wordAt x 28,
      limit := byteOf x 32, faultBin := byteOf x 33 }
  | 3 => .loadSlot (byteOf x 12) (byteOf x 17) (slotArgOf x 16)
  | 4 => .loadRule (byteOf x 12)
    { enable := byteOf x 16, selector := byteOf x 17, argument := byteOf x 18, comparison := byteOf x 19,
      threshold := wordAt x 20, target := byteOf x 24, stop := byteOf x 25 }
  | 5 => .loadBin (byteOf x 12) { shippable := byteOf x 16, pattern := byteOf x 17, name := byteOf x 18 }
  | 6 => .startPlan (byteOf x 12) (byteOf x 13)
  | 7 => .abortPlan (byteOf x 12)
  | 8 => .power (byteOf x 12)
  | 9 => .zoneMark (BitVec.ofNat 16 (bytesOf x 12 2)) (byteOf x 14)
  | 10 => .clearSession
  | 11 => .setLine (byteOf x 12) (byteOf x 13) (byteOf x 14) (byteOf x 15)
  | 12 => .ackNotice (byteOf x 12) (byteOf x 13)
  | _ => .badCode (wordOf x 1)

/-- The sector bears the directive signature (R164). -/
def isSigned (x : Sector) : Bool := decide (wordOf x 0 = directiveSignature)

end Sys2Proof.Machine
end

