-- ==== Sys2Proof/Machine/Grading.lean ====
section
/-! DEFINITION. The Grading Unit: the metrics (R134 to R136), the evaluation of the rule table (R140, R141), the fault
grade (R142), and the ship record (R144, R173). -/

namespace Sys2Proof.Machine

/-! ### Metrics -/

/-- The sum of the counts of bins a to 11 of one class. -/
def Hist.slow (a : Nat) (h : Hist) : Nat := (h.bins.toList.drop a).sum

/-- The slow-command count for argument a (R135). -/
def slowCount (t : Tracker) (a : Nat) : Nat :=
  min max32 (t.histRead.slow a + t.histWrite.slow a + t.histFlush.slow a)

/-- The worst latency in ms (R135). -/
def worstMs (t : Tracker) : Nat := max t.histRead.worst (max t.histWrite.worst t.histFlush.worst) / 1000

/-- A rate per million judged sectors (R136). -/
def ppm (n v : Nat) : Nat := if v = 0 then 0 else min 1000000 (n * 1000000 / v)

/-- N of HARD-PPM (R136). -/
def hardErrors (c : Counters) : Nat := min max32 (c.corrupt + c.misplaced + c.headerCorrupt + c.unreadable)

/-- The value of metric `sel` with argument `arg` (R134). -/
def metric (x : Bay) (sel arg : Nat) : Nat :=
  match sel with
  | 0 => min max32 (x.counters.verified / 1000)
  | 1 => x.counters.soft
  | 2 => x.counters.corrupt
  | 3 => x.counters.misplaced
  | 4 => x.counters.stale
  | 5 => x.counters.blank
  | 6 => x.counters.foreign
  | 7 => x.counters.headerCorrupt
  | 8 => x.counters.unreadable
  | 9 => x.counters.writeFault
  | 10 => x.counters.ahead
  | 11 => x.counters.lostWrite
  | 12 => x.zm.distinct
  | 13 => x.zm.confirmed
  | 14 => x.zm.healed
  | 15 => x.zm.dropped
  | 16 => x.zm.rehits
  | 17 => x.tracker.timeouts
  | 18 => x.lane.linkResets
  | 19 => slowCount x.tracker arg
  | 20 => worstMs x.tracker
  | 21 => x.power.longest
  | 22 => ppm (hardErrors x.counters) x.counters.verified
  | 23 => ppm x.counters.soft x.counters.verified
  | 24 => x.power.cycles
  | _ => 0

/-! ### Evaluation (R140) -/

/-- The comparison of a metric with a threshold, as unsigned numbers (R140). -/
def Comparison.holds (c : Comparison) (m t : Nat) : Bool :=
  match c with
  | .above => decide (t < m)
  | .atLeast => decide (t ≤ m)
  | .below => decide (m < t)
  | .atMost => decide (m ≤ t)
  | .equal => decide (m = t)
  | .notEqual => decide (m ≠ t)

/-- The rule is enabled and true for the bay. -/
def Rule.fires (x : Bay) (r : Rule) : Bool := r.enable && r.comparison.holds (metric x r.selector r.argument) r.threshold

/-- The rules in index order from a current bin and a deciding rule; a true rule with its stop set ends the evaluation
(R140). -/
def evalRules (x : Bay) : List (Fin 24 × Rule) → Fin 16 → Option (Fin 24) → Fin 16 × Option (Fin 24)
  | [], bin, dec => (bin, dec)
  | (k, r) :: t, bin, dec =>
    if r.fires x then (if r.stop then (r.target, some k) else evalRules x t r.target (some k)) else evalRules x t bin dec

/-- The rule table with its indices. -/
def Rack.ruleList (r : Rack) : List (Fin 24 × Rule) := (List.finRange 24).map (fun k => (k, r.rules[k]))

/-- The grade of a bay from a default bin: its bin and deciding rule (R140). -/
def gradeOf (r : Rack) (x : Bay) (dflt : Fin 16) : Fin 16 × Option (Fin 24) := evalRules x r.ruleList dflt none

/-- The grade record is written at the end of an evaluation (R141). -/
def recordGrade (b : BayIx) (dflt : Fin 16) (s : State) : State :=
  let g := gradeOf s.rack (s.bay b) dflt
  s.modBay b (fun x => { x with grade := some { bin := g.1, rules := true, rule := g.2, time := s.rack.ms } })

/-- A FAULTED plan end writes the fault bin (R142). -/
def faultGrade (b : BayIx) (s : State) : State :=
  s.modBay b (fun x => { x with grade := some { bin := s.rack.faultBin, rules := false, rule := none, time := s.rack.ms } })

/-- The bay's grade is shippable by the bin table as it stands (R139). -/
def State.shippable (s : State) (b : BayIx) : Bool :=
  match (s.bay b).grade with
  | some g => s.rack.bins[g.bin].shippable
  | none => false

/-! ### The ship record (R144, R173) -/

/-- The twelve outcome counters in the order of R173, VERIFIED apart. -/
def Counters.list (c : Counters) : List Nat :=
  [c.soft, c.corrupt, c.misplaced, c.stale, c.blank, c.foreign, c.headerCorrupt, c.unreadable, c.writeFault, c.ahead,
   c.lostWrite]

/-- The five zone counts in the order of R173. -/
def ZoneMap.counts (m : ZoneMap) : List Nat := [m.distinct, m.confirmed, m.healed, m.dropped, m.rehits]

/-- Fields of width `w` one after another from byte `o` on. -/
def fieldRow (w : Nat) : Nat → List Nat → List Field
  | _, [] => []
  | o, v :: t => { pos := o, width := w, val := v } :: fieldRow w (o + w) t

/-- The grade's bytes 32 to 39 of the ship record; a deciding rule of none is written as 255, as in the sectors the part serves (log
entry 39). -/
def shipGradeFields (r : Rack) : Option Grade → List Field
  | none => [⟨35, 1, 255⟩]
  | some g =>
    [⟨32, 1, g.bin.val⟩, ⟨33, 1, r.bins[g.bin].name⟩, ⟨34, 1, gradeSourceCode (some g)⟩,
     ⟨35, 1, match g.rule with | some k => k.val | none => 255⟩, ⟨36, 4, g.time.toNat⟩]

/-- The fields of the ship record of bay `b` written at LBA `l` (R173). -/
def shipFields (r : Rack) (x : Bay) (b : BayIx) (l : Nat) : List Field :=
  [⟨0, 4, shipMarker.toNat⟩, ⟨4, 1, b.val⟩, ⟨8, 4, x.settings.seed.toNat⟩, ⟨12, 8, x.power.cap.getD 0⟩, ⟨20, 8, l⟩,
   ⟨28, 2, x.sweep.passCounter⟩]
  ++ shipGradeFields r x.grade
  ++ [⟨40, 8, x.counters.verified⟩] ++ fieldRow 4 48 x.counters.list ++ fieldRow 4 92 x.zm.counts
  ++ [⟨112, 4, x.tracker.timeouts⟩, ⟨116, 4, x.lane.linkResets⟩, ⟨120, 4, x.tracker.histRead.worst⟩,
      ⟨124, 4, x.tracker.histWrite.worst⟩, ⟨128, 4, x.tracker.histFlush.worst⟩, ⟨132, 4, x.power.longest⟩,
      ⟨136, 4, x.power.cycles⟩, ⟨140, 1, slotCode x.plan.firstSlot⟩, ⟨141, 1, slotCode x.plan.cursor⟩]

/-- The sum of words 0 to 1022 modulo 2^32 (R173). -/
def sectorSum (x : Sector) : Word := (x.toList.take 1023).foldl (· + ·) 0#32

/-- The ship record: its fields, then word 1023 the check (R173). -/
def shipSector (r : Rack) (x : Bay) (b : BayIx) (l : Nat) : Sector :=
  let y := sectorOf (shipFields r x b l)
  y.set 1023 (sectorSum y)

end Sys2Proof.Machine
end

