-- ==== Sys2Proof/Machine/Records.lean ====
section
/-! DEFINITION. The Command Tracker's shared operations: the unsettled-write list (R37 to R39), opening a record and the
part-tag waiting list (R24), withdrawing requests, and discarding records (R30). -/

namespace Sys2Proof.Machine

/-! ### The unsettled-write list -/

/-- An entry overlaps or touches the range lo to hi (R37). -/
def URange.meets (lo hi : Nat) (u : URange) : Bool := decide (u.lo ≤ hi + 1 ∧ lo ≤ u.hi + 1)

/-- Put a range in ascending order of first LBA (R37). -/
def insertRange (u : URange) : List URange → List URange
  | [] => [u]
  | v :: t => if u.lo < v.lo then u :: v :: t else v :: insertRange u t

/-- A written range joins the list with a sequence value: it merges with what it meets, or joins as a new entry, or the list
overflows (R37, R38). -/
def Unsettled.join (lo hi : Nat) (seq : BitVec 64) : Unsettled → Unsettled
  | .whole _ => .whole seq
  | .ranges l =>
    let met := l.filter (URange.meets lo hi)
    let rest := l.filter (fun u => !URange.meets lo hi u)
    if met = [] ∧ unsettledMax ≤ rest.length then .whole seq
    else .ranges (insertRange { lo := (met.map (·.lo)).foldl min lo, hi := (met.map (·.hi)).foldl max hi, seq := seq } rest)

/-- A GOOD flush removes the entries at or below its mark (R38, R39). -/
def Unsettled.cover (mark : BitVec 64) : Unsettled → Unsettled
  | .whole seq => if seq ≤ mark then .ranges [] else .whole seq
  | .ranges l => .ranges (l.filter (fun u => decide (mark < u.seq)))

/-- The list is empty. -/
def Unsettled.isEmpty : Unsettled → Bool
  | .ranges l => l.isEmpty
  | .whole _ => false

/-- The overflow flag (R38). -/
def Unsettled.overflow : Unsettled → Bool
  | .ranges _ => false
  | .whole _ => true

/-- The number of entries. -/
def Unsettled.size : Unsettled → Nat
  | .ranges l => l.length
  | .whole _ => 1

/-- The completion sequence rises and the written range joins the list (R37). -/
def Tracker.joinWrite (lo hi : Nat) (t : Tracker) : Tracker :=
  { t with seq := t.seq + 1#64, unsettled := t.unsettled.join lo hi (t.seq + 1#64) }

/-! ### Opening a record (R24) -/

/-- The fields fixed when a record opens: the issue time, a flush's mark (R39), the ship record (R144). -/
def fixRec (s : State) (b : BayIx) (r : Rec) : Rec :=
  { r with
    issue := s.rack.us
    flushMark := if r.kind = .flush then some (s.bay b).tracker.seq else none
    ship := if r.origin = .ship then some (shipSector s.rack (s.bay b) b r.lba) else none }

/-- A HOST record opening stops the idle timer and is told to the sweep (R33, R97). -/
def Bay.hostOpened (x : Bay) : Bay :=
  { x with tracker := { x.tracker with idle := none }, sweep := x.sweep.hostOpened }

/-- A record opens on a tag and its command is handed downstream (R9, R24). -/
def openRec (b : BayIx) (tag : Tag) (r : Rec) (body : List Byte) (s : State) : State :=
  let s := s.modBay b (·.modTracker (·.setRec tag (some (fixRec s b r))))
  let s := if r.origin = .host then s.modBay b Bay.hostOpened else s
  sendDown b (.command tag r.kind r.lba r.count body) s

/-- A refused or withdrawn request goes back to its source (R91, R108). -/
def Sweep.takeBack (r : Rec) (w : Sweep) : Sweep :=
  match r.origin with
  | .sweep => { w with active := w.active.map (fun a => if a.gen = r.gen then a.takeBack r else a) }
  | .rescan => { w with rescan := w.rescan.map (fun q => if q.gen = r.gen then q.takeBack r else q) }
  | .host | .settle | .ship | .learn => w

/-- A request for a part tag: refused in SETTLING unless its origin is SETTLE; else the lowest free part tag, or the tail of
the waiting list (R24). -/
def requestTag (b : BayIx) (r : Rec) (s : State) : State :=
  let x := s.bay b
  if x.power.state = .settling ∧ r.origin ≠ .settle then s.modBay b (·.modSweep (·.takeBack r))
  else match x.tracker.waiting, x.freePartTag with
    | [], some tag => openRec b tag r [] s
    | _, _ => s.modBay b (·.modTracker (fun t => { t with waiting := t.waiting ++ [r] }))

/-- The head of the waiting list takes the lowest free part tag, if there are both (R24). -/
def assignOne (b : BayIx) (s : State) : State :=
  let x := s.bay b
  match x.tracker.waiting, x.freePartTag with
  | r :: rest, some tag =>
    let s := s.modBay b (·.modTracker (fun t => { t with waiting := rest }))
    if x.power.state = .settling ∧ r.origin ≠ .settle then s.modBay b (·.modSweep (·.takeBack r))
    else openRec b tag r [] s
  | _, _ => s

/-- As many waiting requests as part tags allow take them, in the order they were made (R24). -/
def assignSome (b : BayIx) : Nat → State → State
  | 0, s => s
  | k + 1, s => assignSome b k (assignOne b s)

/-- Part tags became free or left the retired set: the waiting requests take them (R24). -/
def assignAll (b : BayIx) (s : State) : State := assignSome b (s.bay b).tracker.waiting.length s

/-- The requests of some origins leave the waiting list (R24). -/
def withdraw (b : BayIx) (p : Rec → Bool) (s : State) : State :=
  s.modBay b (·.modTracker (fun t => { t with waiting := t.waiting.filter (fun r => !p r) }))

/-- The sweep's requests are withdrawn, and their visits go back (R98, R100, R106). -/
def withdrawSweep (b : BayIx) (s : State) : State :=
  let mine := (s.bay b).tracker.waiting.filter (fun r => r.origin = .sweep)
  withdraw b (fun r => r.origin = .sweep) (s.modBay b (·.modSweep (fun w => mine.foldl (fun w r => w.takeBack r) w)))

/-- The rescan's requests are withdrawn (R110, R113). -/
def withdrawRescan (b : BayIx) (s : State) : State := withdraw b (fun r => r.origin = .rescan) s

/-- The Power Arbiter's requests are withdrawn when the bay leaves the power state that made them (R24). -/
def withdrawPower (b : BayIx) (s : State) : State :=
  withdraw b (fun r => decide (r.origin = .settle ∨ r.origin = .learn)) s

/-! ### Discarding records (R30) -/

/-- The plan is in the STAMP phase that issued a SHIP record of plan number `gen` (R145). -/
def Bay.stamping (x : Bay) (gen : Nat) : Bool := decide (x.plan.state = .running ∧ x.plan.step = .writing ∧ x.plan.gen = gen)

/-- The running plan is in a STAMP phase: the ship state is that plan's own (R143). -/
def Bay.shipping (x : Bay) : Bool := decide (x.plan.state = .running ∧ x.plan.step = .writing)

/-- What the owner of a discarded record does at once: a LEARN query is asked again (R35, R153); a SHIP write is issued again in
its own STAMP phase, and after its plan has ended it fails, unless the ship state is already that of a later plan's STAMP phase,
which its own write decides (R145; log entry 25). -/
def Bay.ownerDiscard (r : Rec) (x : Bay) : Bay :=
  match r.origin with
  | .learn => { x with power := { x.power with learnWait := decide (x.power.state = .spinningUp) } }
  | .ship => if x.stamping r.gen then { x with ship := { x.ship with name := .writing, reissue := true } }
    else if x.shipping then x
    else { x with ship := { x.ship with name := .failed, reissue := false } }
  | .host | .sweep | .rescan | .settle => x

/-- A record is discarded: a HOST record completes with the cause's status if it names one, the owner is told, and the tag
becomes free, or retired where the cause says so (R20, R30). -/
def discardOne (b : BayIx) (st : Option UpStatus) (retire : Bool) (tag : Tag) (s : State) : State :=
  match (s.bay b).tracker.rec? tag with
  | none => s
  | some r =>
    let s := s.modBay b (fun x => (x.modTracker (·.setRec tag none)).ownerDiscard r)
    let s := if retire then s.modBay b (·.modLane (fun l => { l with retired := l.retired ++ [tag] })) else s
    match r.origin, st with
    | .host, some u => complete b tag u s
    | _, _ => s

/-- Every open record of the bay is discarded, in rising order of tag (R30; the order is log entry 6). If a HOST record was
among them, the idle timer starts (R33). The frames waiting for the downstream link go with their records (R2). -/
def discardAll (b : BayIx) (st : Option UpStatus) (retire : Bool) (s : State) : State :=
  let hadHost := (s.bay b).tracker.hostOpen
  let s := allTags.foldl (fun s tag => discardOne b st retire tag s) s
  let s := s.modBay b (·.modLane (fun l => { l with downWait := [] }))
  if hadHost then s.modBay b (·.modTracker Tracker.startIdle) else s

/-- Held commands complete NOT-READY, oldest first, and the hold list becomes empty (R18). -/
def refuseHeld (b : BayIx) (s : State) : State :=
  let s' := (s.bay b).lane.held.foldl (fun s h => complete b h.tag .notReady s) s
  s'.modBay b (·.modLane (fun l => { l with held := [] }))

end Sys2Proof.Machine
end

