-- ==== Sys2Proof/Machine/Power.lean ====
section
/-! DEFINITION. The Power Arbiter's shared operations: the grant queue and the grant test (R151, R152), asking for power and
for a power-off (R131, R156, R158), cutting a spin-up (R158), and the LEARN query (R152, R153). -/

namespace Sys2Proof.Machine

/-- The power state of a bay changes. -/
def setPower (b : BayIx) (p : PowerState) (s : State) : State := s.modBay b (·.modPower (fun w => { w with state := p }))

/-- A grant to bay `b` (R152 steps 1 to 4). -/
def grantBay (b : BayIx) (s : State) : State :=
  let s := s.modRack (fun r => { r with queue := r.queue.filter (fun c => c ≠ b) })
  s.modBay b (·.modPower (fun w =>
    { w with state := .spinningUp, spinTimer := some s.rack.spinTimeout, grantTime := s.rack.ms, learnWait := true }))

/-- The head of the grant queue fits the budget (R152). -/
def State.headFits (s : State) : Bool := decide (s.tally + s.rack.spin ≤ s.rack.budget)

/-- The head of the grant queue is granted if it fits (R152). -/
def grantOne (s : State) : State :=
  match s.rack.queue with
  | [] => s
  | b :: _ => if s.headFits then grantBay b s else s

/-- The grant test, made again on each new head. -/
def grantSome : Nat → State → State
  | 0, s => s
  | k + 1, s => grantSome k (grantOne s)

/-- The grant test, with its repetitions in the same event (R152): the queue holds at most 8 bays. -/
def grantTest (s : State) : State := grantSome 8 s

/-- A bay that is OFF is asked for power: it joins the tail of the grant queue as QUEUED (R151). -/
def askPower (b : BayIx) (s : State) : State :=
  grantTest ((setPower b .queued s).modRack (fun r => { r with queue := r.queue ++ [b] }))

/-- A bay leaves the grant queue from any place (R151). -/
def leaveQueue (b : BayIx) (s : State) : State := s.modRack (fun r => { r with queue := r.queue.filter (fun c => c ≠ b) })

/-- The supply is cut: the downstream link falls, and what belongs to the spin-up stops (R2, R154). -/
def cutSupply (b : BayIx) (s : State) : State :=
  withdrawPower b (s.modBay b (fun x =>
    (x.modLane Lane.dropDown).modPower (fun w => { w with spinTimer := none, learnWait := false })))

/-- A power-off cuts a spin-up: no fault cause and nothing to flush (R158). -/
def cutSpinup (b : BayIx) (s : State) : State :=
  grantTest (setPower b .off (refuseHeld b (cutSupply b (discardAll b (some .aborted) false s))))

/-- A power-off is asked for, by the bay's power state (R131, R156, R158). -/
def askOff (b : BayIx) (s : State) : State :=
  match (s.bay b).power.state with
  | .on => setPower b .settling s
  | .queued => grantTest (setPower b .off (refuseHeld b (leaveQueue b s)))
  | .spinningUp => cutSpinup b s
  | .empty | .off | .settling => s

/-- The LEARN query: a CAPACITY command of origin LEARN (R152 step 4). -/
def learnRec : Rec := { Rec.blank with origin := .learn, kind := .capacity }

/-- The Power Arbiter asks a part tag for a LEARN query (R152, R153). -/
def askLearn (b : BayIx) (s : State) : State :=
  requestTag b learnRec (s.modBay b (·.modPower (fun w => { w with learnWait := false })))

/-- The SETTLE flush (R156 step 2). -/
def settleRec : Rec := { Rec.blank with origin := .settle, kind := .flush }

end Sys2Proof.Machine
end

