-- ==== Sys2Proof/Machine/Rescans.lean ====
section
/-! DEFINITION. Rescans up to their end: the start (R105, R106), the chunks' commands (R108), the withdrawal of a sweep's
requests; and the start of sweep visits and reads (R92, R93). -/

namespace Sys2Proof.Machine

/-! ### Sweep visits (R92, R93) -/

/-- The sweep may issue: status ACTIVE, bay ON, not yielding (R92, R93). -/
def Bay.sweepMayIssue (x : Bay) (a : Active) : Bool :=
  decide (x.sweep.status = .active ∧ x.power.state = .on) && !a.yielding

/-- The next visit may start (R92); waiting reads go ahead of it (R93). -/
def Bay.visitMayStart (x : Bay) (a : Active) : Bool :=
  x.sweepMayIssue a && a.credit.some? && decide (a.inFlight < a.cfg.maxInFlight) && decide (a.nextVisit < a.n)
    && decide (a.nextVisit < a.frontier + 8) && a.waitingRead.isNone

/-- Replace the active sweep. -/
def setActive (b : BayIx) (a : Active) (s : State) : State := s.modBay b (·.modSweep (fun w => { w with active := some a }))

/-- Start the next visit if it may start (R91, R92). -/
def startVisit (b : BayIx) (s : State) : State :=
  match (s.bay b).sweep.active with
  | some a =>
    if (s.bay b).visitMayStart a then
      let v := a.nextVisit
      let a' := { a.setVisit v a.cfg.op.firstState with credit := a.credit.spend }
      requestTag b (a.visitRec v (decide (a.cfg.op = .verify))) (setActive b a' s)
    else s
  | none => s

/-- Issue the read of the lowest WRITTEN visit if the sweep may issue (R93). -/
def issueRead (b : BayIx) (s : State) : State :=
  match (s.bay b).sweep.active with
  | some a =>
    match a.waitingRead with
    | some v =>
      if (s.bay b).sweepMayIssue a then
        requestTag b (a.visitRec v true) (setActive b (a.setVisit v .reading) s)
      else s
    | none => s
  | none => s

/-- Repeat an operation of a bay. -/
def repeatBay (f : State → State) : Nat → State → State
  | 0, s => s
  | k + 1, s => repeatBay f k (f s)

/-- The reads of WRITTEN visits, lowest first: the window holds at most 8. -/
def issueReads (b : BayIx) (s : State) : State := repeatBay (issueRead b) 8 s

/-- Reads of WRITTEN visits, then visits, as R92 allows (R112). -/
def pumpSweep (b : BayIx) (s : State) : State := repeatBay (startVisit b) 8 (issueReads b s)

/-! ### Rescan chunks (R108) -/

/-- Replace the rescan record. -/
def setRescan (b : BayIx) (q : Option Rescan) (s : State) : State := s.modBay b (·.modSweep (fun w => { w with rescan := q }))

/-- Issue one command of the rescan: the read of the lowest WRITTEN chunk, else the write of the lowest NOT-STARTED chunk
within the in-flight limit; the bay is ON, and a rewound pass waits for the link (R108, R113). -/
def issueChunk (b : BayIx) (s : State) : State :=
  let x := s.bay b
  match x.sweep.rescan, x.zm.z, x.power.cap with
  | some q, some z, some c =>
    if x.power.state = .on ∧ q.awaitLink = false then
      match q.waitingRead with
      | some j => requestTag b (q.chunkRec z c j true) (setRescan b (some (q.setChunk j .reading)) s)
      | none =>
        match q.nextChunk with
        | some j =>
          if q.inFlight < q.limit then requestTag b (q.chunkRec z c j false) (setRescan b (some (q.setChunk j .writing)) s)
          else s
        | none => s
    else s
  | _, _, _ => s

/-- As many chunk commands as the limit allows: at most 8 are in flight. -/
def issueChunks (b : BayIx) (s : State) : State := repeatBay (issueChunk b) 16 s

/-- The reads of a rescan's WRITTEN chunks, requested at once (R108). -/
def issueChunkRead (b : BayIx) (s : State) : State :=
  match (s.bay b).sweep.rescan with
  | some q => if q.waitingRead.isSome then issueChunk b s else s
  | none => s

/-! ### The start of a rescan (R105, R106) -/

/-- The phase the plan cursor stands on lets a rescan start: a SWEEP phase that is ACTIVE and does not erase, or a DWELL
phase whose timer has not expired (R105). -/
def State.phaseTakesRescan (s : State) (b : BayIx) : Bool :=
  let x := s.bay b
  match (s.cursorSlot b).body with
  | .sweep _ => decide (x.sweep.status = .active) && (match x.sweep.active with | some a => decide (a.cfg.op ≠ .erase) | none => false)
  | .dwell _ => decide (x.plan.step = .timing)
  | _ => false

/-- The conditions of R105. -/
def State.rescanMayStart (s : State) (b : BayIx) : Bool :=
  let x := s.bay b
  x.running && decide (x.power.state = .on) && !x.zm.queue.isEmpty && x.sweep.rescan.isNone && s.phaseTakesRescan b

/-- The tolerance and the in-flight limit of a rescan, from the suspended phase (R51, R104). -/
def Bay.rescanTol (x : Bay) (isSweep : Bool) : Nat :=
  if isSweep then (match x.sweep.active with | some a => a.cfg.tolerance | none => 0) else x.settings.tolerance
def Bay.rescanLimit (x : Bay) (isSweep : Bool) : Nat :=
  if isSweep then (match x.sweep.active with | some a => a.cfg.maxInFlight | none => 4) else 4

/-- The number of chunks of zone n (R108). -/
def zoneChunks (z c n : Nat) : Nat := ceilDiv (min ((n + 1) * 2 ^ z) c - n * 2 ^ z) 256

/-- The rescan record of a queue entry (R106 step 3). -/
def Bay.rescanRecord (x : Bay) (e : QEntry) (isSweep : Bool) : Rescan :=
  { zone := e.zone, r := e.r, done := 0, p := x.sweep.passCounter, tol := x.rescanTol isSweep,
    limit := x.rescanLimit isSweep, m := zoneChunks (x.zm.z.getD 0) (x.power.cap.getD 0) e.zone, chunks := [],
    awaitLink := false, gen := x.sweep.gen + 1 }

/-- The head of the queue becomes the zone under rescan, and its first pass starts (R106 steps 1, 3 and 4). -/
def takeRescan (b : BayIx) (isSweep : Bool) (s : State) : State :=
  match (s.bay b).zm.queue with
  | [] => s
  | e :: rest =>
    let q := (s.bay b).rescanRecord e isSweep
    issueChunks b (s.modBay b (fun x =>
      (x.modZm (fun m => { m with queue := rest })).modSweep (fun w => { w with rescan := some q, gen := q.gen })))

/-- The current phase is suspended (R106 step 2): a sweep's waiting requests are withdrawn and its status becomes SUSPENDED; a
dwell timer runs on. -/
def suspendPhase (b : BayIx) (isSweep : Bool) (s : State) : State :=
  match (s.bay b).plan.cursor with
  | none => s
  | some k =>
    let s := if isSweep then withdrawSweep b s else s
    s.modBay b (·.modSweep (fun w =>
      { w with
        status := if isSweep then .suspended else w.status
        saved := some { isSweep := isSweep, slot := k, passClosed := false, timeExpired := false } }))

/-- The phase under the cursor is a SWEEP. -/
def State.onSweep (s : State) (b : BayIx) : Bool :=
  match (s.cursorSlot b).body with
  | .sweep _ => true
  | _ => false

/-- A rescan starts when the conditions of R105 hold. -/
def testRescan (b : BayIx) (s : State) : State :=
  if s.rescanMayStart b then takeRescan b (s.onSweep b) (suspendPhase b (s.onSweep b) s) else s

end Sys2Proof.Machine
end

