-- ==== Sys2Proof/Machine/Plans.lean ====
section
/-! DEFINITION. The Plan Sequencer and the phases of a sweep: the end of a plan (R130, R131), the arrival of the cursor
(R124 to R129, R143), the start of a sweep phase (R86, R89, R102), the pass close and the end of a sweep phase (R90, R100,
R101, R103). -/

namespace Sys2Proof.Machine

/-! ### The end of a plan (R130) -/

/-- The status is one of a running sweep phase. -/
def SweepStatus.running : SweepStatus → Bool
  | .active | .suspended | .draining => true
  | .none | .ended => false

/-- The Sweep Engine at a plan end: a running sweep is STOPPED, a rescan and its saved context are discarded (R103, R114). -/
def Sweep.stop (w : Sweep) : Sweep :=
  let w' := { w with rescan := none, saved := none, intervalTimer := none }
  if w.status.running then
    { w' with status := .ended, active := w.active.map (fun a => { a with endReason := some .stopped, credit := .count 0 }) }
  else w'

/-- A SHIP request still waiting, or a reissue still to come, fails at a plan end (R145). -/
def Bay.shipWaits (x : Bay) : Bool := x.ship.reissue || x.tracker.waiting.any (fun r => r.origin = .ship)

/-- Step 1 of a plan end: the current phase stops, waiting requests of the plan's work are withdrawn, the rescan queue is
emptied (R77, R103, R114, R145). -/
def stopPhase (b : BayIx) (s : State) : State :=
  let waits := (s.bay b).shipWaits
  let s := withdraw b (fun r => decide (r.origin = .sweep ∨ r.origin = .rescan ∨ r.origin = .ship)) s
  s.modBay b (fun x =>
    let x := (x.modSweep Sweep.stop).modZm (fun m => { m with queue := [] })
    if waits then { x with ship := { x.ship with name := .failed, reissue := false } } else x)

/-- Step 3 of a plan end: the use count of every slot of a reachable set falls by one (R123). -/
def Rack.release (reach : Vector Bool 96) (r : Rack) : Rack :=
  { r with useCounts := Vector.ofFn (fun k : Fin 96 => if reach[k] then r.useCounts[k] - 1 else r.useCounts[k]) }

/-- The use count of every slot of a reachable set rises by one (R122, R123). -/
def Rack.claim (reach : Vector Bool 96) (r : Rack) : Rack :=
  { r with useCounts := Vector.ofFn (fun k : Fin 96 => if reach[k] then r.useCounts[k] + 1 else r.useCounts[k]) }

/-- Steps 2 and 4 of a plan end (R130). -/
def Plan.finish (o : PlanOutcome) (fault : Option FaultCause) (endSlot : Option SlotIx) (ms : Word) (p : Plan) : Plan :=
  { p with state := .ended, loopReg := none, outcome := some o, fault := fault, endSlot := some endSlot, endTime := some ms }

/-- A plan ends (R130), its power disposed of by `disp` (R131). The lamp is chosen once, after the steps (R146; log entry 45). -/
def planEnd (b : BayIx) (o : PlanOutcome) (fault : Option FaultCause) (endSlot : Option SlotIx) (disp : Choice)
    (s : State) : State :=
  let s := stopPhase b s
  let s := s.modRack (Rack.release (s.bay b).plan.reach)
  let s := s.modBay b (·.modPlan (Plan.finish o fault endSlot s.rack.ms))
  let s := if o = .faulted then faultGrade b s else s
  let s := if disp = .off then askOff b s else s
  refreshLamp b (raiseNotice b .planEnded s)

/-- The plan's at-end choice (R131). -/
def Plan.disposal (p : Plan) : Choice := p.atEnd.getD .keep

/-! ### The passes of a sweep (R89) -/

/-- A pass starts from the active sweep's first visit, with a new P for a write op (R85, R89). -/
def Sweep.startPass (a : Active) (w : Sweep) : Sweep :=
  let pc := if a.cfg.op.stamps then min maxPass (w.passCounter + 1) else w.passCounter
  { w with
    passCounter := pc
    active := some { a with p := if a.cfg.op.stamps then some pc else none, frontier := a.firstVisit, window := freshWindow } }

/-- The active sweep of a phase that starts, before its first pass (R84, R86, R102). The IMMEDIATE trigger is taken as the phase
starts (R96), in an empty phase too: its record shows the credit UNBOUNDED, and P, which a pass's start sets, is absent in it (log
entry 27). -/
def newActive (k : SlotIx) (f : SweepCfg) (c : Nat) (resume : Option Resume) (gen : Nat) : Active :=
  let isEmpty := decide (c ≤ f.start)
  let hi := min (f.requestedEnd c) c
  let taken : Option Resume := match resume with
    | some u => if f.order = .ascendContinue ∧ u.slot = k then some u else none
    | none => none
  { slot := k, cfg := f
    lo := if isEmpty then 0 else f.start
    hi := if isEmpty then 0 else hi
    clipped := !isEmpty && decide (c < f.requestedEnd c)
    empty := isEmpty
    n := if isEmpty then 0 else ceilDiv (hi - f.start) f.chunk
    passIx := (taken.map (·.passIx)).getD 0
    p := none
    firstVisit := (taken.map (·.frontier)).getD 0
    frontier := (taken.map (·.frontier)).getD 0
    window := freshWindow
    credit := if f.trigger = .immediate then f.triggerCredit else .count 0
    yielding := false, missed := 0
    timeLeft := if f.limit = 0 then none else some f.limit
    endReason := if isEmpty then some .empty else none
    gen := gen }

/-- The phase takes the resume cursor: it is emptied (R102). -/
def resumeAfter (k : SlotIx) (f : SweepCfg) (resume : Option Resume) : Option Resume :=
  match resume with
  | some u => if f.order = .ascendContinue ∧ u.slot = k then none else some u
  | none => none

/-- A SWEEP phase starts on a drive of C sectors (R86, R89, R96, R102); an empty range ends at once. -/
def Sweep.startPhase (k : SlotIx) (f : SweepCfg) (c : Nat) (w : Sweep) : Sweep :=
  let a := newActive k f c w.resume (w.gen + 1)
  let w' := { w with resume := resumeAfter k f w.resume, gen := w.gen + 1 }
  if a.empty then { w' with status := .ended, active := some a, intervalTimer := none }
  else
    Sweep.startPass a { w' with
      status := .active, intervalTimer := if f.trigger = .interval then some f.interval else none }

/-! ### The arrival of the cursor (R124) -/

/-- What an arrival comes to: the phase takes time, the cursor moves on at once, or the plan ends. -/
inductive Arrival where
  | stay (s : State)
  | move (nxt : Option SlotIx) (s : State)
  | finish (o : PlanOutcome) (s : State)

/-- The cursor stands on slot k from now (R124). The phase step is none until the phase begins: R119 names no step for a SWEEP or STAMP
that is turned away or a POWER-OFF reached on an OFF bay, and they leave it none (log entry 46). -/
def setCursor (b : BayIx) (k : SlotIx) (s : State) : State :=
  s.modBay b (·.modPlan (fun p =>
    { p with cursor := some k, step := .none, phaseStart := some s.rack.ms, timer := none }))

/-- The phase step and the phase timer. -/
def setStep (b : BayIx) (st : PhaseStep) (timer : Option Nat) (s : State) : State :=
  s.modBay b (·.modPlan (fun p => { p with step := st, timer := timer }))

/-- The arrival at a LOOP slot (R129). -/
def arriveLoop (b : BayIx) (k target : SlotIx) (count : Nat) (nxt : Option SlotIx) (s : State) : Arrival :=
  let setReg (v : Option (SlotIx × Nat)) := s.modBay b (·.modPlan (fun p => { p with loopReg := v }))
  match (s.bay b).plan.loopReg.getD (k, count) with
  | (owner, rest) =>
    if owner ≠ k then .finish .planError s
    else if 0 < rest then .move (some target) (setReg (some (k, rest - 1)))
    else .move nxt (setReg none)

/-- The arrival at a GRADE slot: the grade is recorded and the cursor branches on it (R140, R141). -/
def arriveGrade (b : BayIx) (bin : Fin 16) (nxt other : Option SlotIx) (s : State) : Arrival :=
  let s := recordGrade b bin s
  .move (if s.shippable b then nxt else other) s

/-- The SHIP request: a WRITE of one sector at the fitted LBA (R143). -/
def shipRec (x : Bay) : Rec :=
  { Rec.blank with origin := .ship, kind := .write, lba := x.ship.lba.getD 0, count := 1, gen := x.plan.gen }

/-- The ship state takes the fitted LBA and becomes WRITING (R143). -/
def Bay.beginShip (lba : Nat) (x : Bay) : Bay :=
  let top := x.power.cap.getD 1 - 1
  { x with ship := { name := .writing, lba := some (min lba top), clipped := decide (top < lba), reissue := false } }

/-- The arrival at a STAMP slot (R143). Turned away, it leaves the step none (log entry 46). -/
def arriveStamp (b : BayIx) (lba : Nat) (s : State) : Arrival :=
  if s.shippable b = false then .finish .stampRefused s
  else if (s.bay b).power.state ≠ .on then .finish .planError s
  else
    let s := setStep b .writing none (s.modBay b (·.beginShip lba))
    .stay (requestTag b (shipRec (s.bay b)) s)

/-- The arrival at a POWER-CYCLE slot (R126). -/
def arriveCycle (b : BayIx) (off : Nat) (s : State) : Arrival :=
  if (s.bay b).power.state = .on then .stay (askOff b (setStep b .settling none s)) else .stay (setStep b .offTime (some off) s)

/-- The arrival at a POWER-OFF slot (R128). On an OFF bay it leaves the step none (log entry 46). -/
def arriveOff (b : BayIx) (nxt : Option SlotIx) (s : State) : Arrival :=
  if (s.bay b).power.state = .on then .stay (askOff b (setStep b .settling none s)) else .move nxt s

/-- The arrival at a SWEEP slot (R86, R124). Turned away, it leaves the step none (log entry 46). -/
def arriveSweep (b : BayIx) (k : SlotIx) (f : SweepCfg) (nxt : Option SlotIx) (s : State) : Arrival :=
  if (s.bay b).power.state ≠ .on then .finish .planError s
  else
    let s := setStep b .running none (s.modBay b (fun x => x.modSweep (Sweep.startPhase k f (x.power.cap.getD 0))))
    if (s.bay b).sweep.status = .ended then .move nxt s else .stay s

/-- The arrival at slot k (R124). A RUNNING plan's slot is never EMPTY (R121, R123): the arm for EMPTY is never taken (log
entry 20). -/
def arriveAt (b : BayIx) (k : SlotIx) (s : State) : Arrival :=
  let s := setCursor b k s
  let slot := s.rack.slots[k]
  match slot.body with
  | .empty => .finish .planError s
  | .sweep f => arriveSweep b k f slot.nxt s
  | .dwell d => if d = 0 then .move slot.nxt (setStep b .timing (some 0) s) else .stay (setStep b .timing (some d) s)
  | .powerCycle off => arriveCycle b off s
  | .powerOff => arriveOff b slot.nxt s
  | .loop target count => arriveLoop b k target count slot.nxt s
  | .grade bin other => arriveGrade b bin slot.nxt other s
  | .stamp lba => arriveStamp b lba s

/-- The cursor goes on from slot to slot in the one event until a phase takes time or the plan ends (R124); a rescan may
start in the phase arrived at (R105). -/
def travel (b : BayIx) : Nat → Option SlotIx → State → State
  | 0, _, s => s
  | _ + 1, none, s => planEnd b .completed none none (s.bay b).plan.disposal s
  | fuel + 1, some k, s =>
    match arriveAt b k s with
    | .stay s' => testRescan b s'
    | .move nxt s' => travel b fuel nxt s'
    | .finish o s' => planEnd b o none (some k) (s'.bay b).plan.disposal s'

/-- The cursor of a RUNNING plan goes to a slot, or to END. -/
def goTo (b : BayIx) (nxt : Option SlotIx) (s : State) : State :=
  if (s.bay b).running then travel b arrivalFuel nxt s else s

/-- The current phase ends and the cursor moves to its slot's next (R124). -/
def advancePlan (b : BayIx) (s : State) : State := goTo b (s.cursorSlot b).nxt s

/-! ### The end of a pass and of a sweep phase (R90, R100, R101, R103) -/

/-- The resume cursor that a TIME-LIMIT end of an ASCEND-CONTINUE phase writes (R101). -/
def resumeWritten (a : Active) (reason : EndReason) (passIx frontier : Nat) (old : Option Resume) : Option Resume :=
  if reason = .timeLimit ∧ a.cfg.order = .ascendContinue then
    some { slot := a.slot, passIx := passIx, frontier := frontier }
  else old

/-- The sweep phase ends with a reason; the resume cursor would hold the given place (R101, R103). -/
def Sweep.endPhase (reason : EndReason) (passIx frontier : Nat) (w : Sweep) : Sweep :=
  match w.active with
  | none => w
  | some a =>
    { w with
      status := .ended, intervalTimer := none, active := some { a with endReason := some reason }
      resume := resumeWritten a reason passIx frontier w.resume }

/-- The sweep phase ends and the plan cursor moves to the slot's next (R103). -/
def endSweep (b : BayIx) (reason : EndReason) (passIx frontier : Nat) (s : State) : State :=
  advancePlan b (s.modBay b (·.modSweep (Sweep.endPhase reason passIx frontier)))

/-- The pass close of the active sweep in the Zone Map (R67, R90). -/
def closePass (b : BayIx) (a : Active) (s : State) : State :=
  s.modBay b (fun x =>
    x.modZm (ZoneMap.passClose (x.power.cap.getD 0) a.cfg.op (a.p.getD 0) a.covered.1 a.covered.2))

/-- The pass just closed was not the last (R90). -/
def Active.morePasses (a : Active) : Bool := decide (a.passIx + 1 < a.cfg.passes)

/-- After a pass close in ACTIVE: the next pass starts, where a rescan may start too, or the phase ends PASSES-DONE (R90,
R105). -/
def nextPass (b : BayIx) (a : Active) (s : State) : State :=
  if a.morePasses then
    testRescan b (s.modBay b (·.modSweep (Sweep.startPass { a with passIx := a.passIx + 1, firstVisit := 0 })))
  else endSweep b .passesDone a.passIx a.frontier s

/-- The phase whose time is up ends after its pass closed (R100, R112). -/
def endAfterClose (b : BayIx) (a : Active) (s : State) : State :=
  endSweep b (if a.morePasses then .timeLimit else .passesDone) (a.passIx + 1) 0 s

/-- The frontier has reached n: the pass closes, and the status decides what follows (R90, R100, R107). -/
def passEnd (b : BayIx) (a : Active) (s : State) : State :=
  let s := closePass b a s
  match (s.bay b).sweep.status with
  | .active => nextPass b a s
  | .suspended => s.modBay b (·.modSweep (fun w => { w with saved := w.saved.map (fun v => { v with passClosed := true }) }))
  | .draining => endAfterClose b a s
  | .none | .ended => s

/-- A record of sweep phase `gen` is open, on a tag other than `but` (R100). -/
def Tracker.sweepOpen (t : Tracker) (gen : Nat) (but : Option Tag) : Bool :=
  allTags.any (fun g => match t.rec? g with
    | some r => decide (r.origin = .sweep ∧ r.gen = gen ∧ some g ≠ but)
    | none => false)

/-- In DRAINING the phase ends with TIME-LIMIT when the last open record has closed or been discarded (R100). -/
def drainCheck (b : BayIx) (but : Option Tag) (s : State) : State :=
  let x := s.bay b
  match x.sweep.active with
  | some a =>
    if x.sweep.status = .draining ∧ x.tracker.sweepOpen a.gen but = false then
      endSweep b .timeLimit a.passIx a.frontier s
    else s
  | none => s

/-- The time limit of a sweep that is ACTIVE expires (R100). -/
def expireLimit (b : BayIx) (s : State) : State :=
  let s := withdrawSweep b s
  let s := s.modBay b (·.modSweep (fun w =>
    { w with
      status := .draining, intervalTimer := none
      active := w.active.map (fun a => { a with credit := .count 0 }) }))
  drainCheck b none s

/-- The Sweep Engine is told that the record of a visit has closed (R93, R94, R107); a record of a phase no longer in
progress is passed over (R99). -/
def sweepClosed (b : BayIx) (tag : Tag) (r : Rec) (s : State) : State :=
  match (s.bay b).sweep.active, r.visit with
  | some a, some v =>
    if a.gen = r.gen ∧ (s.bay b).sweep.status.running then
      if a.cfg.op = .writeVerify ∧ r.kind = .write then drainCheck b (some tag) (setActive b (a.setVisit v .written) s)
      else
        let a' := (a.setVisit v .complete).moveFrontier
        let s := setActive b a' s
        if a'.n ≤ a'.frontier then passEnd b a' s else drainCheck b (some tag) s
    else s
  | _, _ => s

/-- The sweep rewinds at a timeout event or a lane reset, unless it has ended (R98, R103; log entry 15). -/
def rewindSweep (b : BayIx) (s : State) : State :=
  if (s.bay b).sweep.status.running then
    let s := withdrawSweep b s
    drainCheck b none (s.modBay b (·.modSweep (fun w => { w with active := w.active.map Active.rewind })))
  else s

end Sys2Proof.Machine
end

