-- ==== Sys2Proof/Machine/Defects.lean ====
section
/-! DEFINITION. Defect outcomes and what follows from them: the end of a rescan and the restoration (R109 to R112), first
hits, re-hits and confirmations (R71 to R74), and the giving of an outcome (R59). -/

namespace Sys2Proof.Machine

/-! ### Restoration (R112) -/

/-- The suspended sweep's status becomes ACTIVE again. -/
def resumeSweep (b : BayIx) (s : State) : State := s.modBay b (·.modSweep (fun w => { w with status := .active }))

/-- The suspended sweep is put back, by the two marks of the saved context; the start of its first new visit, of the same pass or
of the next, is part of the event (R112). -/
def restoreSweep (b : BayIx) (v : Saved) (s : State) : State :=
  let s := resumeSweep b s
  match (s.bay b).sweep.active with
  | none => s
  | some a =>
    match v.passClosed, v.timeExpired with
    | false, false => pumpSweep b s
    | true, false => if a.morePasses then pumpSweep b (nextPass b a s) else nextPass b a s
    | false, true => expireLimit b s
    | true, true => endAfterClose b a s

/-- The suspended phase is restored and the saved context is released (R112); the conditions of R105 are tested then. -/
def restore (b : BayIx) (v : Saved) (s : State) : State :=
  let s := s.modBay b (·.modSweep (fun w => { w with saved := none }))
  let s := if v.isSweep then restoreSweep b v s else if v.timeExpired then advancePlan b s else s
  testRescan b s

/-! ### The end of a rescan (R109 to R111) -/

/-- Another rescan follows at once in the same suspended phase (R111). -/
def Bay.nextRescan (x : Bay) (v : Saved) : Bool :=
  !x.zm.queue.isEmpty && decide (x.power.state = .on) && !v.timeExpired && !(v.isSweep && v.passClosed)

/-- The rescan record is released; the next rescan starts or the phase is restored (R111). -/
def rescanEnd (b : BayIx) (s : State) : State :=
  let s := setRescan b none s
  match (s.bay b).sweep.saved with
  | none => s
  | some v => if (s.bay b).nextRescan v then takeRescan b v.isSweep s else restore b v s

/-- A defect in the zone under rescan confirms it and ends the rescan (R74, R110). -/
def confirmRescan (b : BayIx) (n : Nat) (s : State) : State :=
  rescanEnd b (withdrawRescan b (s.modBay b (·.modZm (ZoneMap.confirm n))))

/-- A rescan pass closes (R109): the zone is STAMPED [P, P]; then the next pass starts, or the zone is HEALED. -/
def rescanPassClose (b : BayIx) (q : Rescan) (s : State) : State :=
  let s := s.modBay b (·.modZm (ZoneMap.rescanClose q.zone q.p))
  if q.done + 1 < q.r then setRescan b (some { q with done := q.done + 1, chunks := [] }) s
  else rescanEnd b (s.modBay b (·.modZm (ZoneMap.heal q.zone)))

/-- The Sweep Engine is told that the record of a rescan chunk has closed (R108, R109); a record of a rescan that has ended
is passed over (R110). -/
def rescanClosed (b : BayIx) (r : Rec) (s : State) : State :=
  match (s.bay b).sweep.rescan, r.visit with
  | some q, some j =>
    if q.gen = r.gen then
      if r.kind = .write then setRescan b (some (q.setChunk j .written)) s
      else
        let q' := q.setChunk j .complete
        let s := setRescan b (some q') s
        if q'.passDone then rescanPassClose b q' s else s
    else s
  | _, _ => s

/-- The rescan rewinds to its first chunk at a timeout event or a lane reset (R113). -/
def rewindRescan (b : BayIx) (s : State) : State :=
  let s := withdrawRescan b s
  s.modBay b (fun x => x.modSweep (fun w =>
    { w with rescan := w.rescan.map (fun q => { q with chunks := [], awaitLink := !x.lane.downUp }) }))

/-! ### Defect outcomes (R71 to R75) -/

/-- R of a first hit, by the origin of the record that gave the outcome (R72). -/
def hitPasses (x : Bay) (origin : Origin) (rescans : Nat) : Nat :=
  match origin with
  | .host => x.settings.rescans
  | .sweep => rescans
  | .rescan | .settle | .ship | .learn => 0

/-- A first hit (R72): the zone is marked and, with R from 1 and a plan RUNNING, offered to the queue (R75), where a rescan
may start (R105). -/
def firstHit (b : BayIx) (n r : Nat) (s : State) : State :=
  let s := s.modBay b (·.modZm (ZoneMap.setClass n .unconfirmed))
  if 0 < r ∧ (s.bay b).running then testRescan b (s.modBay b (·.modZm (ZoneMap.offer n r))) else s

/-- A defect outcome for zone n reaches the Zone Map (R71). -/
def zoneDefect (b : BayIx) (n : Nat) (origin : Origin) (rescans : Nat) (s : State) : State :=
  let s := s.modBay b (·.modZm (ZoneMap.hit n))
  let x := s.bay b
  if x.sweep.rescan.map (·.zone) = some n then confirmRescan b n s
  else if (x.zm.get n).mark then s.modBay b (·.modZm ZoneMap.rehit)
  else firstHit b n (hitPasses x origin rescans) s

/-- The Stamp Engine gives an outcome for the sector at LBA l (R59); with no geometry the Zone Map takes no step (R66, R71). -/
def giveOutcome (b : BayIx) (l : Nat) (v : Verdict) (origin : Origin) (rescans : Nat) (s : State) : State :=
  let s := s.modBay b (fun x => { x with counters := x.counters.note v })
  if v.isDefect then
    match (s.bay b).zm.zoneOf l with
    | some n => zoneDefect b n origin rescans s
    | none => s
  else s

end Sys2Proof.Machine
end

