-- ==== Sys2Proof/Machine/Events.lean ====
section
/-! DEFINITION. The large events: a host command opening its record (R6, R47), the change to ON (R155), the forced power-off
(R157), the closes of LEARN, SETTLE and SHIP records (R145, R153, R156), the close of any record (R26 to R29), timeout
events (R34 to R36), lane resets (R19, R20), and the session wipe (R80, R160). -/

namespace Sys2Proof.Machine

/-! ### Host records -/

/-- The record of a host command, with the choices fixed at its opening (R24, R42, R47, R51). -/
def hostRec (x : Bay) (kind : CmdKind) (lba count : Nat) : Rec :=
  { Rec.blank with
    origin := .host, kind := kind, lba := lba, count := count
    pass := if kind = .write ∧ x.settings.overlay then some x.sweep.passCounter else none
    judged := decide (kind = .read) && x.settings.checking && !x.wiping
    tol := x.settings.tolerance }

/-- A HOST record opens on the command's own tag and the command is forwarded (R6, R9, R24). -/
def openHost (b : BayIx) (tag : Tag) (kind : CmdKind) (lba count : Nat) (body : List Byte) (s : State) : State :=
  openRec b tag (hostRec (s.bay b) kind lba count) body s

/-- One entry of the hold list at the drain: checked against the range again, then forwarded or completed RANGE (R16). -/
def drainOne (b : BayIx) (s : State) (h : Held) : State :=
  if h.kind = .flush ∨ h.lba + h.count ≤ (s.bay b).lane.rc then openHost b h.tag h.kind h.lba h.count [] s
  else complete b h.tag .range s

/-- The drain of the hold list, oldest first (R16). -/
def drainHeld (b : BayIx) (s : State) : State :=
  let held := (s.bay b).lane.held
  held.foldl (drainOne b) (s.modBay b (·.modLane (fun l => { l with held := [] })))

/-! ### The change to ON (R155) -/

/-- The Plan Sequencer is told of the change to ON: a waiting plan starts its first phase, a POWER-CYCLE phase ends (R122,
R126, R155 step 4). -/
def planToldOn (b : BayIx) (s : State) : State :=
  let x := s.bay b
  if x.running then
    match x.plan.step with
    | .waitingForOn => goTo b x.plan.cursor s
    | .poweringUp => advancePlan b (s.modBay b (·.modPower (fun w => { w with cycles := inc32 w.cycles })))
    | _ => s
  else s

/-- The bay comes ON from SPINNING-UP (R155). -/
def bayOn (b : BayIx) (s : State) : State :=
  let s := s.modBay b (·.modPower (fun w =>
    { w with state := .on, spinTimer := none, longest := max w.longest (s.rack.ms - w.grantTime).toNat }))
  testRescan b (planToldOn b (drainHeld b (grantTest s)))

/-! ### The forced power-off (R157) -/

/-- The Plan Sequencer is told of the change to OFF: a POWER-CYCLE phase starts its off time, a POWER-OFF phase ends (R126,
R128). -/
def planToldOff (b : BayIx) (s : State) : State :=
  let x := s.bay b
  if x.running ∧ x.plan.step = .settling then
    match (s.cursorSlot b).body with
    | .powerCycle off => setStep b .offTime (some off) s
    | .powerOff => advancePlan b s
    | _ => s
  else s

/-- The Power Arbiter reports a fault (R157 step 5): the last fault, the FAULT notice, and the end of a RUNNING plan
(R127). -/
def reportFault (b : BayIx) (f : FaultCause) (s : State) : State :=
  let s := s.modBay b (·.modPower (fun w => { w with lastFault := some (f, s.rack.ms) }))
  let s := raiseNotice b .fault s
  if (s.bay b).running then planEnd b .faulted (some f) (s.bay b).plan.cursor .keep s else s

/-- The unsettled-write list is taken by the Zone Map and emptied (R40, R69). -/
def Bay.loseUnsettled (x : Bay) : Bay :=
  { x with zm := x.zm.suspectMark x.tracker.unsettled, tracker := { x.tracker with unsettled := .ranges [] } }

/-- Steps 1 to 4 of a forced power-off: the supply is cut, records are discarded and held commands refused, the zones of the
unsettled-write list are marked, and the power state becomes `dest`; a bay that is not QUEUED is in no grant queue (R151,
R157). -/
def cutPower (b : BayIx) (dest : PowerState) (s : State) : State :=
  let s := leaveQueue b (refuseHeld b (cutSupply b (discardAll b (some .aborted) false s)))
  setPower b dest (s.modBay b Bay.loseUnsettled)

/-- A forced power-off to OFF, with or without a fault cause (R157). -/
def forcedOff (b : BayIx) (cause : Option FaultCause) (s : State) : State :=
  let s := cutPower b .off s
  grantTest (match cause with
    | some f => reportFault b f s
    | none => planToldOff b s)

/-! ### The closes of the part's own records -/

/-- The answer is supported (R153). -/
def answerSupported (a : CapacityAnswer) : Bool :=
  decide (a.sectorSize = 4096 ∧ a.queueDepth = 32 ∧ 1048576 ≤ a.capacity ∧ a.capacity ≤ 68719476736)

/-- The capacity is learned: Rc, the geometry and the CAPACITY notice (R13, R62, R153). -/
def learnCapacity (b : BayIx) (c : Nat) (s : State) : State :=
  raiseNotice b .capacity (s.modBay b (fun x =>
    ((x.modPower (fun w => { w with cap := some c })).modLane (fun l => { l with rc := c - annexSize })).modZm
      (ZoneMap.learn c)))

/-- A supported answer: C is learned, matched, or differs (R153). -/
def learnSupported (b : BayIx) (c : Nat) (s : State) : State :=
  match (s.bay b).power.cap with
  | none => bayOn b (learnCapacity b c s)
  | some c0 => if c = c0 then bayOn b s else forcedOff b (some .capacityChanged) s

/-- The Power Arbiter judges the close of a LEARN record (R153): such a record is open in SPINNING-UP alone, and in any other
power state its close changes nothing. -/
def learnClosed (b : BayIx) (st : DriveStatus) (s : State) : State :=
  if (s.bay b).power.state ≠ .spinningUp then s
  else match st with
  | .good (some a) =>
    if answerSupported a then learnSupported b a.capacity s
    else forcedOff b (some .unsupported) (s.modBay b (·.modPower (fun w => { w with unsupported := true })))
  | .good none => forcedOff b (some .unsupported) (s.modBay b (·.modPower (fun w => { w with unsupported := true })))
  | .mediaError _ | .otherError => askLearn b s

/-- The settling ends in a forced power-off (R156). -/
def settleFail (b : BayIx) (s : State) : State :=
  forcedOff b none (s.modBay b (·.modPower (fun w => { w with settleFails := inc32 w.settleFails })))

/-- The close of a SETTLE flush: GOOD lets the settling go on, any other status ends it (R156). -/
def settleClosed (b : BayIx) (st : DriveStatus) (s : State) : State :=
  match st with
  | .good _ => s
  | .mediaError _ | .otherError => settleFail b s

/-- The ship state a close gives (R145). -/
def shipNameOf : DriveStatus → ShipName
  | .good _ => .written
  | .mediaError _ | .otherError => .failed

/-- The close of the SHIP record: the ship state, and the end of the STAMP phase that issued it (R145). -/
def shipClosed (b : BayIx) (r : Rec) (st : DriveStatus) (s : State) : State :=
  let stamping := (s.bay b).stamping r.gen
  let s := s.modBay b (·.modShip (fun p => { p with name := shipNameOf st }))
  if stamping then advancePlan b s else s

/-! ### The close of a record (R26 to R29) -/

/-- The sectors `lo` to `hi` (not included) count as written: the Zone Map and the unsettled-write list (R28, R37, R64). -/
def countWritten (b : BayIx) (r : Rec) (hi : Nat) (s : State) : State :=
  if r.lba < hi then
    s.modBay b (fun x =>
      (x.modZm (ZoneMap.write (writeEffect r.origin r.pass x.sweep.passCounter) r.lba (hi - 1))).modTracker
        (·.joinWrite r.lba (hi - 1)))
  else s

/-- The failing LBA of a WRITE: the first LBA where the drive names one outside the command (R28). -/
def Rec.failLba (r : Rec) (f : Nat) : Nat := if r.lba ≤ f ∧ f < r.lba + r.count then f else r.lba

/-- UNREADABLE and WRITE-FAULT are not given while a session wipe is in progress (R61). -/
def giveFault (b : BayIx) (l : Nat) (v : Verdict) (r : Rec) (s : State) : State :=
  if (s.bay b).wiping then s else giveOutcome b l v r.origin r.rescans s

/-- The effects of a record's kind and status at its close (R27, R28, R29). -/
def closeEffects (b : BayIx) (r : Rec) (st : DriveStatus) (s : State) : State :=
  match r.kind, st with
  | .read, .mediaError _ =>
    if r.delivered < r.count ∧ r.judged then giveFault b (r.lba + r.delivered) .unreadable r s else s
  | .write, .good _ => countWritten b r (r.lba + r.count) s
  | .write, .mediaError f => giveFault b (r.failLba f) .writeFault r (countWritten b r (r.failLba f) s)
  | .flush, .good _ =>
    match r.flushMark with
    | some mark => s.modBay b (·.modTracker (fun t => { t with unsettled := t.unsettled.cover mark }))
    | none => s
  | _, _ => s

/-- The record's owner is told of the close (R26 step 3). -/
def tellOwner (b : BayIx) (tag : Tag) (r : Rec) (st : DriveStatus) (s : State) : State :=
  match r.origin with
  | .host => s
  | .sweep => sweepClosed b tag r s
  | .rescan => rescanClosed b r s
  | .settle => settleClosed b st s
  | .ship => shipClosed b r st s
  | .learn => learnClosed b st s

/-- The status a host completion carries upstream; a CAPACITY answer is rewritten (R9, R11). -/
def upStatusOf (rc : Nat) (kind : CmdKind) : DriveStatus → UpStatus
  | .good _ => if kind = .capacity then .capacity { capacity := rc, sectorSize := 4096, queueDepth := 24 } else .good
  | .mediaError f => .mediaError f
  | .otherError => .otherError

/-- A write of a sweep or a rescan has closed: its read is requested at once (R93, R108), after the tag is free (log entry
13). -/
def readAtOnce (b : BayIx) (r : Rec) (s : State) : State :=
  match r.origin, r.kind with
  | .sweep, .write => issueReads b s
  | .rescan, .write => issueChunkRead b s
  | _, _ => s

/-- The close of an open record, in the order of R26. -/
def closeRec (b : BayIx) (tag : Tag) (r : Rec) (st : DriveStatus) (s : State) : State :=
  let s := s.modBay b (·.modTracker (·.binLatency r.kind (s.rack.us - r.issue).toNat))
  let s := closeEffects b r st s
  let s := tellOwner b tag r st s
  let s := startPulse b s
  let s := s.modBay b (·.modTracker (·.setRec tag none))
  let s := if r.origin = .host then complete b tag (upStatusOf (s.bay b).lane.rc r.kind st) s else assignOne b s
  let s := if r.origin = .host then s.modBay b (·.modTracker Tracker.startIdle) else s
  readAtOnce b r s

/-! ### Timeout events and lane resets -/

/-- The age of a record in µs (R25). -/
def recAge (s : State) (r : Rec) : Nat := (s.rack.us - r.issue).toNat

/-- The µs until the oldest open record reaches Tw; none when no record is open (R34). -/
def timeoutDue (s : State) (b : BayIx) : Option Nat :=
  let t := (s.bay b).tracker
  (allTags.filterMap (fun g => (t.rec? g).map (fun r => t.tw * 1000 - recAge s r))).min?

/-- The sweep and the rescan rewind to their frontiers (R98, R113). -/
def rewind (b : BayIx) (s : State) : State :=
  let s := if (s.bay b).sweep.rescan.isSome then rewindRescan b s else s
  rewindSweep b s

/-- A timeout event brings the timeout count to the limit (R36). -/
def State.reachesLimit (s : State) (b : BayIx) : Bool := decide (s.rack.limit ≤ inc32 (s.bay b).tracker.timeouts)

/-- A timeout event (R34): link reset, every record discarded with TIMEOUT to the host, the rewind, the count, and the comparison
with the limit (R36). Where the limit is reached nothing rewinds: the plan ends, the sweep stops and the rescan is discarded
(R99, R113). In SETTLING the event ends the settling (R156; log entry 16). The requests that still wait take the freed tags last,
after the count has risen (log entry 41). -/
def takeTimeout (b : BayIx) (s : State) : State :=
  let settling := decide ((s.bay b).power.state = .settling)
  let limit := s.reachesLimit b
  let s := s.modBay b (·.modLane Lane.resetDown)
  let s := discardAll b (some .timeout) false s
  let s := if limit then s else rewind b s
  let s := s.modBay b (·.modTracker (fun t => { t with timeouts := inc32 t.timeouts }))
  let s := if settling then s.modBay b (·.modPower (fun w => { w with settleFails := inc32 w.settleFails })) else s
  if limit then forcedOff b (some .timeoutLimit) s
  else if settling then forcedOff b none s
  else assignAll b s

/-- The LEARN query discarded by a lane reset is asked again: at once where the link is UP, else when it is next UP (R20,
R153). -/
def relearn (b : BayIx) (s : State) : State :=
  if (s.bay b).power.learnWait ∧ (s.bay b).lane.downUp then askLearn b s else s

/-- A lane reset (R19 in ON, R20 in any other power state). The requests that still wait take the freed tags last, after the count
has risen and a LEARN query is asked again (log entry 41). -/
def laneReset (b : BayIx) (s : State) : State :=
  let on := decide ((s.bay b).power.state = .on)
  let s := if on then s.modBay b (·.modLane Lane.resetDown) else s
  let s := discardAll b none (!on) s
  let s := s.modBay b (·.modLane (fun l => { l with held := [], annexSvc := [] }))
  let s := rewind b s
  let s := s.modBay b (·.modLane (fun l => { l with linkResets := inc32 l.linkResets }))
  assignAll b (relearn b s)

/-! ### The session wipe (R41, R60, R80, R84, R119, R139, R145, R147, R165) -/

/-- The Command Tracker at a session wipe; at insertion the completion sequence and the unsettled-write list too (R41). -/
def Tracker.beginWipe (insertion : Bool) (t : Tracker) : Tracker :=
  { t with
    histRead := Hist.init, histWrite := Hist.init, histFlush := Hist.init, timeouts := 0
    seq := if insertion then 0#64 else t.seq
    unsettled := if insertion then .ranges [] else t.unsettled }

/-- The Sweep Engine at a session wipe; the pass counter follows when the wipe is done (R85). -/
def Sweep.beginWipe (w : Sweep) : Sweep :=
  { w with status := .none, active := none, resume := none, rescan := none, saved := none, intervalTimer := none }

/-- The Power Arbiter's session fields at a session wipe (R147); the session state and the UNSUPPORTED mark are the
caller's. -/
def Power.beginWipe (w : Power) : Power :=
  { w with
    cap := none, spinTimer := none, cycles := 0, longest := 0, settleFails := 0, forcedRemovals := 0, lastFault := none }

/-- A session wipe begins in every block of the bay (R148 step 2, R160). -/
def Bay.beginWipe (insertion : Bool) (x : Bay) : Bay :=
  { x with
    lane := { x.lane with rc := 0, linkResets := 0 }
    tracker := x.tracker.beginWipe insertion
    counters := Counters.init
    zm := x.zm.beginWipe
    sweep := x.sweep.beginWipe
    plan := { Plan.init with gen := x.plan.gen }
    grade := none
    ship := Ship.init
    power := x.power.beginWipe
    annex := { x.annex with wipe := some 0 } }

/-- The result sector when a CLEAR-SESSION completes (R165). -/
def Annex.completeClear (x : Annex) : Annex := { x with result := { x.result with state := .complete, result := .done } }

/-- The mailbox at an insertion: a CLEAR-SESSION wipe still running is ended with result DONE, and the mailbox becomes
BUSY-WIPE (R165). -/
def Annex.insertionWipe (x : Annex) : Annex :=
  let x := if x.mailbox = .busyDirective then x.completeClear else x
  { x with mailbox := .busyWipe }

/-- The wipe is done: the pass counter becomes 0 (R85), a CLEAR-SESSION takes result DONE, the mailbox becomes IDLE (R165). -/
def Bay.wipeDone (x : Bay) : Bay :=
  let a := if x.annex.mailbox = .busyDirective then x.annex.completeClear else x.annex
  { x with sweep := { x.sweep with passCounter := 0 }, annex := { a with mailbox := .idle, wipe := none } }

/-- The wipe resets zone record n; with zone 4095 it is done (R80). -/
def Bay.wipeStep (n : Nat) (x : Bay) : Bay :=
  let x := x.modZm (ZoneMap.resetZone n)
  if n + 1 < zoneCount then x.modAnnex (fun a => { a with wipe := some (n + 1) }) else x.wipeDone

/-! ### Removal and insertion (R148, R149) -/

/-- A removal counts as forced when the AUX line has function LOCK and is asserted (R149 step 1). -/
def Bay.noteForcedRemoval (x : Bay) : Bay :=
  if x.lines.auxFn = .lock ∧ lockAsserted x.power.state then
    x.modPower (fun w => { w with forcedRemovals := inc32 w.forcedRemovals })
  else x

/-- The session of a removed drive is ABANDONED (R149 step 4). -/
def Power.abandon (w : Power) : Power := { w with session := .abandoned, unsupported := false }

/-- A removal (R149). -/
def removal (b : BayIx) (s : State) : State :=
  let s := grantTest (cutPower b .empty (s.modBay b Bay.noteForcedRemoval))
  let s := s.modBay b (·.modPower Power.abandon)
  let s := if (s.bay b).running then planEnd b .removed none (s.bay b).plan.cursor .keep s else s
  refreshLamp b (raiseNotice b .removed s)

/-- A drive is recognized (R148). -/
def recognize (b : BayIx) (s : State) : State :=
  let s := s.modBay b (fun x =>
    ((x.beginWipe true).modAnnex Annex.insertionWipe).modPower (fun w =>
      { w with session := .active, unsupported := false, state := .off }))
  refreshLamp b (raiseNotice b .inserted s)

end Sys2Proof.Machine
end

