-- ==== Sys2Proof/Machine/Reports.lean ====
section
/-! DEFINITION. What the annex shows (R163): the result sector (R166, R174), the bay report and its snapshot (R168, R177), the
rack report (R169, R177), the plan, rule and bin tables (R175), the sweep state and the zone records (R176). A field that
is absent reads 0, a slot or zone field with no value reads 255 (R172). -/

namespace Sys2Proof.Machine

/-! ### Small encodings -/

/-- A number from its bits, the first of them bit 0. -/
def bitsToNat : List Bool → Nat
  | [] => 0
  | b :: t => codeOfBool b + 2 * bitsToNat t

/-- A ms value that may be absent. -/
def msCode (t : Option Word) : Nat := (t.map BitVec.toNat).getD 0

/-- A zone field that may have no value. -/
def zoneCode (n : Option Nat) : Nat := n.getD 255

/-! ### The result sector (R166, R174) -/

def resultFields (x : Annex) : List Field :=
  [⟨0, 1, x.result.state.code⟩, ⟨1, 1, x.result.result.code⟩, ⟨2, 1, x.result.result.reasonCode⟩,
   ⟨4, 4, x.result.code.toNat⟩, ⟨8, 4, x.result.seq.toNat⟩, ⟨12, 4, x.result.ret.toNat⟩, ⟨16, 4, x.collisions⟩,
   ⟨20, 4, x.misuse⟩]

/-! ### The bay report (R168, R177) -/

/-- Bytes 0 to 55: identity, power and session. `no` is the snapshot number. The spin-up timer, which R147 has in the bay report, is
in no field of R168 and R177, and the bytes that no layout names read 0 (R172; log entry 40). -/
def identityFields (s : State) (b : BayIx) (no : Word) : List Field :=
  let x := s.bay b
  [⟨0, 4, no.toNat⟩, ⟨4, 4, s.rack.ms.toNat⟩, ⟨8, 1, b.val⟩, ⟨9, 1, x.power.state.code⟩, ⟨10, 1, x.power.session.code⟩,
   ⟨11, 1, codeOfBool x.power.unsupported⟩, ⟨12, 8, x.power.cap.getD 0⟩, ⟨20, 8, x.lane.rc⟩, ⟨28, 4, s.charge b⟩,
   ⟨32, 1, (x.power.lastFault.map (·.1.code)).getD 0⟩, ⟨36, 4, (x.power.lastFault.map (·.2.toNat)).getD 0⟩]
  ++ fieldRow 4 40 [x.power.longest, x.power.cycles, x.power.settleFails, x.power.forcedRemovals]

/-- Bytes 64 to 99: the plan record of R119. -/
def planFields (p : Plan) : List Field :=
  fieldRow 1 64
    [p.state.code, slotCode p.firstSlot, (p.atEnd.map Choice.code).getD 0, slotCode p.cursor, p.step.code,
     (p.outcome.map PlanOutcome.code).getD 0, (p.fault.map FaultCause.code).getD 0, slotCode (p.endSlot.getD none)]
  ++ [⟨72, 4, msCode p.phaseStart⟩, ⟨76, 4, p.timer.getD 0⟩, ⟨80, 1, slotCode (p.loopReg.map (·.1))⟩,
      ⟨81, 1, (p.loopReg.map (·.2)).getD 0⟩, ⟨84, 4, msCode p.endTime⟩, ⟨88, 12, bitsToNat p.reach.toList⟩]

/-- Bytes 112 to 127: the grade record with the name code of its bin, and the ship state. R138 carries the name code into the bay
report and R177 names no byte of it: byte 115, the one byte of R177's grade range without a field, is the model's choice (log
entry 33); the deciding rule of an empty grade record reads 255 (log entry 34). -/
def gradeFields (r : Rack) (x : Bay) : List Field :=
  [⟨112, 1, gradeSourceCode x.grade⟩, ⟨113, 1, (x.grade.map (·.bin.val)).getD 0⟩,
   ⟨114, 1, match x.grade.bind (·.rule) with | some k => k.val | none => 255⟩,
   ⟨115, 1, (x.grade.map (fun g => r.bins[g.bin].name)).getD 0⟩,
   ⟨116, 4, (x.grade.map (·.time.toNat)).getD 0⟩, ⟨120, 1, x.ship.name.code⟩, ⟨121, 1, codeOfBool x.ship.clipped⟩,
   ⟨122, 6, x.ship.lba.getD 0⟩]

/-- Bytes 128 to 218: outcomes, zone counts, and the Command Tracker's and Lane Unit's counts. -/
def countFields (x : Bay) : List Field :=
  ⟨128, 8, x.counters.verified⟩ :: fieldRow 4 136 x.counters.list ++ fieldRow 4 180 x.zm.counts
  ++ [⟨200, 4, x.tracker.timeouts⟩, ⟨204, 4, x.lane.linkResets⟩, ⟨208, 8, x.tracker.seq.toNat⟩,
      ⟨216, 1, codeOfBool x.tracker.unsettled.overflow⟩, ⟨217, 1, x.tracker.unsettled.size⟩, ⟨218, 1, x.lane.held.length⟩]

/-- The origin byte of a tag: 255 where it is free (R172). -/
def originCode : Option Rec → Nat
  | some r => r.origin.code
  | none => 255

/-- Bytes 220 to 251: the origin of the open record on each tag. -/
def originFields (x : Bay) : List Field := fieldRow 1 220 (x.tracker.recs.toList.map originCode)

/-- The read-back bits of R162, from bit 0 upward: PWR12, PWR5, PRESENT, LAMP, AUX. R177 lists the lines of byte 820 and numbers no bit;
the order is the model's choice (log entry 47). -/
def readBackBits (x : Bay) : Nat :=
  bitsToNat [x.power.state.powered, x.power.state.powered, x.lines.present, x.lines.lampLatch, x.auxReadBack]

/-- Bytes 800 to 855: settings, lines and the annex. -/
def setupFields (x : Bay) : List Field :=
  [⟨800, 4, x.settings.seed.toNat⟩]
  ++ fieldRow 1 804
      [codeOfBool x.settings.overlay, codeOfBool x.settings.checking, x.settings.tolerance, x.settings.rescans]
  ++ [⟨808, 4, x.tracker.w⟩, ⟨812, 4, x.tracker.tw⟩]
  ++ fieldRow 1 816
      [x.lines.lampFn.code, x.lines.auxFn.code, codeOfBool x.lines.lampLatch, codeOfBool x.lines.auxLatch, readBackBits x]
  ++ fieldRow 1 824 [x.annex.mailbox.code, noticeByte x.annex.flags, noticeByte x.annex.mask]
  ++ fieldRow 4 828 x.annex.raises.toList ++ [⟨848, 4, x.annex.collisions⟩, ⟨852, 4, x.annex.misuse⟩]

/-- The fields of sector 2. -/
def reportFields (s : State) (b : BayIx) (no : Word) : List Field :=
  let x := s.bay b
  identityFields s b no ++ planFields x.plan ++ gradeFields s.rack x ++ countFields x ++ originFields x ++ setupFields x

/-- The unsettled-write entries as shown: a whole-drive entry shows 0 to C − 1 (R177); while C is not known its last LBA shows 0
(log entry 35). -/
def shownRanges (x : Bay) : List URange :=
  match x.tracker.unsettled with
  | .ranges l => l
  | .whole seq => [{ lo := 0, hi := x.power.cap.getD 0 - 1, seq := seq }]

/-- The unsettled-write entries from byte `o` on, 24 bytes each. -/
def rangeFields : Nat → List URange → List Field
  | _, [] => []
  | o, u :: t => fieldRow 8 o [u.lo, u.hi, u.seq.toNat] ++ rangeFields (o + 24) t

/-- The fields of sector 3. -/
def reportFields3 (s : State) (b : BayIx) (no : Word) : List Field :=
  let t := (s.bay b).tracker
  [⟨0, 4, no.toNat⟩, ⟨4, 4, s.rack.ms.toNat⟩] ++ rangeFields 8 (shownRanges (s.bay b))
  ++ fieldRow 4 392 (t.histRead.bins.toList ++ t.histWrite.bins.toList ++ t.histFlush.bins.toList)
  ++ fieldRow 4 536 [t.histRead.worst, t.histWrite.worst, t.histFlush.worst]

/-- A new snapshot is latched: the number rises, and both sectors are filled in the one event (R168). -/
def latchReport (b : BayIx) (s : State) : State :=
  let no := (s.bay b).annex.snapshotNo + 1#32
  let pair := (sectorOf (reportFields s b no), sectorOf (reportFields3 s b no))
  s.modBay b (·.modAnnex (fun a => { a with snapshotNo := no, snapshot := some pair }))

/-! ### The rack report (R169, R177) -/

def rackFields (s : State) : List Field :=
  let r := s.rack
  fieldRow 4 0 [r.ms.toNat, r.budget, r.spin, r.run, r.spinTimeout, r.hold]
  ++ fieldRow 1 24 [r.limit, r.faultBin.val, codeOfBool s.attention, r.queue.length]
  ++ fieldRow 1 28 (r.queue.map (fun b => b.val)) ++ [⟨36, 4, s.tally⟩]
  ++ fieldRow 1 40 (allBays.map (fun b => (s.bay b).power.state.code)) ++ fieldRow 4 48 (allBays.map s.charge)
  ++ [⟨80, 1, bitsToNat (allBays.map (fun b => (s.bay b).annex.unmasked))⟩]

/-! ### The plan table, the rules and the bins (R175) -/

/-- The fields of a slot's kind. -/
def bodyFields : SlotBody → List Field
  | .empty => []
  | .sweep f =>
    fieldRow 1 4 [f.op.code, f.order.code, f.pacing.code, f.trigger.code] ++ fieldRow 6 8 [f.start, f.length]
    ++ [⟨20, 2, f.chunk⟩] ++ fieldRow 1 22 [f.block, f.maxInFlight, f.passes, f.tolerance, f.rescans]
    ++ fieldRow 4 28 [f.interval, f.limit]
  | .dwell d => [⟨4, 4, d⟩]
  | .powerCycle off => [⟨4, 4, off⟩]
  | .powerOff => []
  | .loop target count => fieldRow 1 4 [target.val, count]
  | .grade bin other => fieldRow 1 4 [bin.val, slotCode other]
  | .stamp lba => [⟨4, 6, lba⟩]

/-- The 64 bytes of slot k. -/
def slotFields (r : Rack) (k : SlotIx) : List Field :=
  [⟨0, 1, r.slots[k].body.code⟩, ⟨1, 1, slotCode r.slots[k].nxt⟩, ⟨2, 1, r.useCounts[k]⟩] ++ bodyFields r.slots[k].body

/-- The plan slots numbered in `ks`, one after another. -/
def slotPage (r : Rack) (ks : List SlotIx) : List Field := ks.flatMap (fun k => shiftFields (64 * (k.val % 64)) (slotFields r k))

/-- The 16 bytes of a rule. -/
def ruleFields (k : Rule) : List Field :=
  [⟨0, 1, codeOfBool k.enable⟩, ⟨1, 1, k.selector⟩, ⟨2, 1, k.argument⟩, ⟨3, 1, k.comparison.code⟩, ⟨4, 4, k.threshold⟩,
   ⟨8, 1, k.target.val⟩, ⟨9, 1, codeOfBool k.stop⟩]

/-- The 4 bytes of a bin. -/
def binFields (k : Bin) : List Field := fieldRow 1 0 [codeOfBool k.shippable, k.pattern.code, k.name]

def ruleBinFields (r : Rack) : List Field :=
  (List.finRange 24).flatMap (fun k => shiftFields (16 * k.val) (ruleFields r.rules[k]))
  ++ (List.finRange 16).flatMap (fun k => shiftFields (384 + 4 * k.val) (binFields r.bins[k]))

/-! ### The sweep state (R176) -/

/-- The credit as shown: 0xFFFF for UNBOUNDED. -/
def Credit.code : Credit → Nat
  | .count n => n
  | .unbounded => 65535

/-- Bytes 2 to 75: the status and the position of a sweep. -/
def positionFields (w : Sweep) : List Field :=
  [⟨2, 1, w.status.code⟩, ⟨3, 1, slotCode (w.active.map (·.slot))⟩] ++
  match w.active with
  | none => []
  | some a =>
    [⟨4, 1, (a.endReason.map EndReason.code).getD 0⟩,
     ⟨5, 1, bitsToNat [a.clipped, a.empty, a.yielding, a.timeLeft.isSome]⟩, ⟨6, 1, a.passIx⟩, ⟨7, 1, a.inFlight⟩]
    ++ fieldRow 8 8 [a.lo, a.hi, a.n, a.firstVisit, a.frontier, a.nextVisit]
    ++ fieldRow 2 56 [a.p.getD 0, a.credit.code, a.missed] ++ [⟨64, 4, a.timeLeft.getD 0⟩]
    ++ fieldRow 1 68 (a.window.toList.map VisitState.code)

/-- Bytes 80 to 95: the resume cursor. -/
def resumeFields : Option Resume → List Field
  | none => [⟨81, 1, 255⟩]
  | some u => [⟨80, 1, 1⟩, ⟨81, 1, u.slot.val⟩, ⟨82, 1, u.passIx⟩, ⟨88, 8, u.frontier⟩]

/-- Bytes 96 to 131: the rescan record. -/
def rescanFields : Option Rescan → List Field
  | none => [⟨100, 2, zoneCode none⟩]
  | some q =>
    fieldRow 1 96 [1, q.r, q.done, q.tol] ++ fieldRow 2 100 [q.zone, q.p] ++ fieldRow 1 104 [q.limit, q.inFlight]
    ++ [⟨108, 4, q.m⟩]
    ++ fieldRow 4 112 [q.m - q.chunks.length, q.countOf .writing, q.countOf .written, q.countOf .reading, q.countOf .complete]

/-- Bytes 136 to 143 and 258 to 331: the saved context. -/
def savedFields (x : Bay) : List Field :=
  match x.sweep.saved with
  | none => [⟨138, 1, 255⟩, ⟨259, 1, 255⟩]
  | some v =>
    fieldRow 1 136 [1, if v.isSweep then 1 else 2, v.slot.val, bitsToNat [v.passClosed, v.timeExpired]]
    ++ if v.isSweep then shiftFields 256 (positionFields x.sweep) else [⟨140, 4, x.plan.timer.getD 0⟩, ⟨259, 1, 255⟩]

/-- Entry i of the rescan queue, 4 bytes from 516 on; the zone field of an absent entry reads 255 (R172, R176). -/
def queueFields (l : List QEntry) : List Field :=
  (List.range rescanQueueMax).flatMap (fun i =>
    [⟨516 + 4 * i, 2, zoneCode (l[i]?.map (·.zone))⟩, ⟨518 + 4 * i, 1, (l[i]?.map (·.r)).getD 0⟩])

def sweepFields (x : Bay) : List Field :=
  [⟨0, 2, x.sweep.passCounter⟩] ++ positionFields x.sweep ++ resumeFields x.sweep.resume ++ rescanFields x.sweep.rescan
  ++ savedFields x ++ [⟨512, 1, x.zm.queue.length⟩] ++ queueFields x.zm.queue

/-! ### The zone records (R176) -/

def ZKind.lo : ZKind → Nat
  | .stamped lo _ | .mixed lo _ => lo
  | .unwritten | .erased => 0

def ZKind.hi : ZKind → Nat
  | .stamped _ hi | .mixed _ hi => hi
  | .unwritten | .erased => 0

/-- The 8 bytes of zone n. -/
def zoneFields (x : Bay) (n : Nat) : List Field :=
  let z := x.zm.get n
  [⟨0, 1, z.kind.code⟩, ⟨1, 1, z.cls.code⟩,
   ⟨2, 1, bitsToNat [z.suspect, z.mark, x.zm.queued n, decide (x.sweep.rescan.map (·.zone) = some n)]⟩, ⟨3, 1, z.hits⟩,
   ⟨4, 2, z.kind.lo⟩, ⟨6, 2, z.kind.hi⟩]

/-- The zone records shown at annex offset 32 + page. -/
def zonePage (x : Bay) (page : Nat) : List Field :=
  (List.range 512).flatMap (fun i => shiftFields (8 * i) (zoneFields x (512 * page + i)))

/-! ### The annex sectors (R163) -/

/-- The sector served at an annex offset. -/
def annexSector (b : BayIx) (off : Nat) (s : State) : Sector :=
  let x := s.bay b
  if off = 1 then sectorOf (resultFields x.annex)
  else if off = 2 then (x.annex.snapshot.map (·.1)).getD zeroSector
  else if off = 3 then (x.annex.snapshot.map (·.2)).getD zeroSector
  else if off = 4 then sectorOf (rackFields s)
  else if off = 16 then sectorOf (slotPage s.rack ((List.finRange 96).take 64))
  else if off = 17 then sectorOf (slotPage s.rack ((List.finRange 96).drop 64))
  else if off = 18 then sectorOf (ruleBinFields s.rack)
  else if off = 24 then sectorOf (sweepFields x)
  else if 32 ≤ off ∧ off < 40 then sectorOf (zonePage x (off - 32))
  else zeroSector

/-! ### The annex service (R7, R163, R164) -/

/-- A command enters the annex service. -/
def beginAnnex (b : BayIx) (c : AnnexCmd) (s : State) : State :=
  s.modBay b (·.modLane (fun l => { l with annexSvc := l.annexSvc ++ [c] }))

/-- `k` more sectors of an annex command are dealt with; after its last one it completes GOOD and leaves the service (R7, R164). -/
def annexTaken (b : BayIx) (c : AnnexCmd) (k : Nat) (s : State) : State :=
  if c.done + k < c.count then
    s.modBay b (·.modLane (fun l =>
      { l with annexSvc := l.annexSvc.map (fun a => if a.tag = c.tag then { a with done := c.done + k } else a) }))
  else
    complete b c.tag .good (s.modBay b (·.modLane (fun l =>
      { l with annexSvc := l.annexSvc.filter (fun a => a.tag ≠ c.tag) })))

/-- The next sector of an annex READ is served: the first sector of a READ that begins at offset 2 latches a snapshot (R168), and the
sector goes upstream as it then stands (R163). -/
def serveSector (b : BayIx) (c : AnnexCmd) (s : State) : State :=
  let s := if c.offset = 2 ∧ c.done = 0 then latchReport b s else s
  annexTaken b c 1 (sendUp b (.readData c.tag [annexSector b (c.offset + c.done) s]) s)

/-- An annex READ arrives: it enters the service and its first sector is served; the others are served one at a time in steps of
their own (R163; log entry 11). -/
def beginAnnexRead (b : BayIx) (tag : Tag) (off count : Nat) (s : State) : State :=
  let c : AnnexCmd := { tag := tag, isWrite := false, offset := off, count := count, done := 0 }
  serveSector b c (beginAnnex b c s)

/-- The READ that bay `b`'s annex serves next: the oldest in service. -/
def State.readInService (s : State) (b : BayIx) : Option AnnexCmd := (s.bay b).lane.annexSvc.find? (fun a => !a.isWrite)

end Sys2Proof.Machine
end

