-- ==== Sys2Proof/Machine/Directives.lean ====
section
/-! DEFINITION. The directives: each checked and carried out by the rule that owns it (R43, R78, R83, R118 to R122, R132, R137,
R138, R158 to R160, R162, R167, R171), and the mailbox that takes them (R164 to R166). -/

namespace Sys2Proof.Machine

/-- What carrying out a directive comes to: the state, the result, the return value (R166). -/
structure Answer where
  state : State
  result : DirResult
  ret : Word
  deriving DecidableEq, Repr

/-- A refused directive changes nothing (R166). -/
def refuse (r : Reason) (s : State) : Answer := { state := s, result := .refused r, ret := 0#32 }

/-- DONE, or CLAMPED when some field was stored other than as given (R166). -/
def storedAs (clamped : Bool) (s : State) : Answer :=
  { state := s, result := if clamped then .clamped else .done, ret := 0#32 }

def accept (s : State) : Answer := storedAs false s

/-- A number held within [lo, hi] (R166). -/
def clampTo (lo hi n : Nat) : Nat := max lo (min hi n)

/-! ### SET-BAY (R43, R167) -/

/-- The zone's kind is STAMPED or MIXED. -/
def ZKind.holdsStamp : ZKind → Bool
  | .stamped _ _ | .mixed _ _ => true
  | .unwritten | .erased => false

/-- A seed change is refused (R43). -/
def Bay.seedLocked (x : Bay) : Bool :=
  x.zm.zones.any (fun e => e.2.kind.holdsStamp) || x.tracker.anyRec (fun r => decide (r.kind = .write) && r.pass.isSome)
    || x.running

/-- The seven settings are stored (R167). -/
def Bay.storeSettings (f : SetBayArg) (overlay checking : Bool) (x : Bay) : Bay :=
  { x with
    settings :=
      { seed := f.seed, overlay := overlay, checking := checking, tolerance := f.tolerance.toNat
        rescans := min 4 f.rescans.toNat }
    tracker := { x.tracker with w := clampTo 1 10000 f.w.toNat, tw := clampTo 1000 60000 f.tw.toNat } }

/-- Some field of SET-BAY lies outside its range. -/
def setBayClamped (f : SetBayArg) : Bool :=
  decide (clampTo 1 10000 f.w.toNat ≠ f.w.toNat ∨ clampTo 1000 60000 f.tw.toNat ≠ f.tw.toNat ∨ 4 < f.rescans.toNat)

/-- A lowered Tw that some record's age already reaches gives its timeout event at once (R34). -/
def watchLowered (b : BayIx) (oldTw : Nat) (s : State) : State :=
  if (s.bay b).tracker.tw < oldTw ∧ timeoutDue s b = some 0 then takeTimeout b s else s

def carrySetBay (b : BayIx) (f : SetBayArg) (s : State) : Answer :=
  match boolOf f.overlay, boolOf f.checking with
  | some o, some c =>
    if f.seed ≠ (s.bay b).settings.seed ∧ (s.bay b).seedLocked then refuse .wrongState s
    else storedAs (setBayClamped f) (watchLowered b (s.bay b).tracker.tw (s.modBay b (·.storeSettings f o c)))
  | _, _ => refuse .badValue s

/-! ### SET-RACK (R159) -/

/-- The configuration as stored. -/
def Rack.configure (f : SetRackArg) (bin : Fin 16) (r : Rack) : Rack :=
  let budget := clampTo 1000 60000 f.budget.toNat
  let spin := min (clampTo 100 5000 f.spin.toNat) budget
  { r with
    budget := budget, spin := spin, run := min (clampTo 100 3000 f.run.toNat) spin
    spinTimeout := clampTo 5000 60000 f.spinTimeout.toNat, hold := clampTo 1000 60000 f.hold.toNat
    limit := clampTo 1 15 f.limit.toNat, faultBin := bin }

/-- Some field of SET-RACK was stored other than as given. -/
def setRackDiffers (f : SetRackArg) (r : Rack) : Bool :=
  decide (r.budget ≠ f.budget.toNat ∨ r.spin ≠ f.spin.toNat ∨ r.run ≠ f.run.toNat
    ∨ r.spinTimeout ≠ f.spinTimeout.toNat ∨ r.hold ≠ f.hold.toNat ∨ r.limit ≠ f.limit.toNat)

/-- The age of a held command in ms (R17). -/
def heldAge (r : Rack) (h : Held) : Nat := (r.ms - h.arrival).toNat

/-- Every held command of a bay whose age reaches the hold timeout expires, oldest first (R17). -/
def expireHeld (s : State) (b : BayIx) : State :=
  let held := (s.bay b).lane.held
  let due := held.filter (fun h => decide (s.rack.hold ≤ heldAge s.rack h))
  let s := s.modBay b (·.modLane (fun l => { l with held := held.filter (fun h => decide (heldAge s.rack h < s.rack.hold)) }))
  due.foldl (fun s h => complete b h.tag .notReady s) s

/-- SET-RACK: the grants that the new configuration allows, then the holds that have expired (log entry 28). -/
def carrySetRack (f : SetRackArg) (s : State) : Answer :=
  match binOf f.faultBin with
  | none => refuse .badValue s
  | some bin =>
    if s.tally ≠ 0 then refuse .wrongState s
    else
      let s' := s.modRack (Rack.configure f bin)
      storedAs (setRackDiffers f s'.rack) (allBays.foldl expireHeld (grantTest s'))

/-! ### LOAD-SLOT (R83, R118) -/

/-- The fields of a SWEEP slot checked and stored: the slot's contents and whether one was clamped (R83). -/
def sweepBody (f : SweepArg) : Option (SlotBody × Bool) :=
  match sweepOpOf f.op, sweepOrderOf f.order, pacingOf f.pacing, triggerOf f.trigger with
  | some op, some order, some pacing, some trigger =>
    let interval := if trigger = .interval then clampTo 10 3600000 f.interval.toNat else f.interval.toNat
    if trigger = .immediate ∧ pacing ≠ .successive then none
    else if f.chunk.toNat = 0 ∨ 256 < f.chunk.toNat then none
    else if pacing = .block ∧ f.block.toNat = 0 then none
    else if f.maxInFlight.toNat = 0 ∨ 8 < f.maxInFlight.toNat then none
    else if f.passes.toNat = 0 then none
    else some (.sweep
      { op := op, order := order, pacing := pacing, trigger := trigger, start := f.start.toNat, length := f.length.toNat
        chunk := f.chunk.toNat, block := f.block.toNat, maxInFlight := f.maxInFlight.toNat, passes := f.passes.toNat
        tolerance := f.tolerance.toNat, rescans := min 4 f.rescans.toNat, interval := interval, limit := f.limit.toNat },
      decide (4 < f.rescans.toNat ∨ interval ≠ f.interval.toNat))
  | _, _, _, _ => none

/-- The fields of a kind checked and stored, and whether one was clamped (R118 step 4); of an EMPTY slot none was (log entry 38). -/
def bodyOf : SlotArg → Option (SlotBody × Bool)
  | .empty => some (.empty, false)
  | .sweep f => sweepBody f
  | .dwell d => some (.dwell d.toNat, false)
  | .powerCycle off => some (.powerCycle (clampTo 1000 3600000 off.toNat), decide (clampTo 1000 3600000 off.toNat ≠ off.toNat))
  | .powerOff => some (.powerOff, false)
  | .loop target count => (slotOf target).map (fun k => (.loop k count.toNat, false))
  | .grade bin other =>
    match binOf bin, nextOf other with
    | some k, some o => some (.grade k o, false)
    | _, _ => none
  | .stamp lba => some (.stamp lba.toNat, false)
  | .unknown _ => none

/-- The next field as stored: an EMPTY slot has END, whatever next the directive gave (R118); that is no clamping, and the result is
DONE (log entry 38). -/
def nextFor (f : SlotArg) (nxt : Byte) : Option (Option SlotIx) :=
  match f with
  | .empty => some none
  | _ => nextOf nxt

/-- Every bay's resume cursor that names the slot is emptied (R101). -/
def Sweep.forget (k : SlotIx) (w : Sweep) : Sweep :=
  { w with resume := match w.resume with
      | some u => if u.slot = k then none else some u
      | none => none }

def storeSlot (k : SlotIx) (v : Slot) (s : State) : State :=
  { s with
    bays := mapVec (fun x => x.modSweep (Sweep.forget k)) s.bays
    rack := { s.rack with slots := s.rack.slots.set k v } }

def carryLoadSlot (slot nxt : Byte) (f : SlotArg) (s : State) : Answer :=
  match slotOf slot with
  | none => refuse .badValue s
  | some k =>
    if s.rack.useCounts[k] ≠ 0 then refuse .inUse s
    else match nextFor f nxt, bodyOf f with
      | some n, some (body, clamped) => storedAs clamped (storeSlot k { body := body, nxt := n } s)
      | _, _ => refuse .badValue s

/-! ### LOAD-RULE and LOAD-BIN (R137, R138) -/

/-- The rule as stored; none when a field fails its check. -/
def ruleOfArg (f : RuleArg) : Option Rule :=
  match boolOf f.enable, comparisonOf f.comparison, binOf f.target, boolOf f.stop with
  | some e, some c, some t, some st =>
    if 24 < f.selector.toNat then none
    else some
      { enable := e, selector := f.selector.toNat, argument := f.argument.toNat, comparison := c
        threshold := f.threshold.toNat, target := t, stop := st }
  | _, _, _, _ => none

def carryLoadRule (rule : Byte) (f : RuleArg) (s : State) : Answer :=
  match ruleOf rule, ruleOfArg f with
  | some k, some v => accept (s.modRack (fun r => { r with rules := r.rules.set k v }))
  | _, _ => refuse .badValue s

/-- The bin as stored; none when a field fails its check. -/
def binOfArg (f : BinArg) : Option Bin :=
  match boolOf f.shippable, patternOf f.pattern with
  | some sh, some p => some { shippable := sh, pattern := p, name := f.name.toNat }
  | _, _ => none

/-- The bay's STAMP phase is in step WRITING with its grade in bin k (R138). -/
def Bay.stampsFrom (k : Fin 16) (x : Bay) : Bool :=
  x.running && decide (x.plan.step = .writing ∧ x.grade.map (·.bin) = some k)

def carryLoadBin (bin : Byte) (f : BinArg) (s : State) : Answer :=
  match binOf bin, binOfArg f with
  | some k, some v =>
    if allBays.any (fun b => (s.bay b).stampsFrom k) then refuse .inUse s
    else accept (refreshLamps (s.modRack (fun r => { r with bins := r.bins.set k v })))
  | _, _ => refuse .badValue s

/-! ### START-PLAN and ABORT-PLAN (R120 to R122, R132) -/

/-- The slots a slot leads to (R121). -/
def Slot.leadsTo (v : Slot) : List SlotIx :=
  v.nxt.toList ++ match v.body with
    | .grade _ other => other.toList
    | .loop target _ => [target]
    | _ => []

/-- The set grows from the slots still to be looked at (R121). A slot is looked at once and adds at most two. -/
def growReach (slots : Vector Slot 96) : Nat → List SlotIx → Vector Bool 96 → Vector Bool 96
  | 0, _, seen => seen
  | _ + 1, [], seen => seen
  | fuel + 1, k :: todo, seen =>
    if seen[k] then growReach slots fuel todo seen
    else growReach slots fuel (slots[k].leadsTo ++ todo) (seen.set k true)

/-- The reachable set of a first slot (R121): at most 96 slots are looked at, and at most 193 entries made. -/
def reachOf (slots : Vector Slot 96) (f : SlotIx) : Vector Bool 96 := growReach slots 200 [f] (Vector.replicate 96 false)

/-- A branch is END or a slot above k. -/
def forward (k : SlotIx) : Option SlotIx → Bool
  | none => true
  | some n => decide (k < n)

/-- The checks of R121 on slot k of a plan that starts at f. -/
def Slot.valid (f k : SlotIx) (v : Slot) : Bool :=
  decide (v.body ≠ .empty) && forward k v.nxt && match v.body with
    | .grade _ other => forward k other
    | .loop target _ => decide (target < k ∧ f ≤ target)
    | _ => true

/-- The chain is valid (R121). -/
def chainValid (slots : Vector Slot 96) (f : SlotIx) (reach : Vector Bool 96) : Bool :=
  (List.finRange 96).all (fun k => !reach[k] || slots[k].valid f k)

/-- The plan record at a start (R122 step 2). -/
def Plan.start (f : SlotIx) (atEnd : Choice) (reach : Vector Bool 96) (ms : Word) (p : Plan) : Plan :=
  { state := .running, firstSlot := some f, atEnd := some atEnd, reach := reach, cursor := some f, step := .none
    phaseStart := some ms, timer := none, loopReg := none, outcome := none, fault := none, endSlot := none
    endTime := none, gen := p.gen + 1 }

/-- Steps 1 and 2 of a start: use counts, plan record, grade record and ship state (R122, R139, R145). -/
def beginPlan (b : BayIx) (f : SlotIx) (atEnd : Choice) (reach : Vector Bool 96) (s : State) : State :=
  let s := s.modRack (Rack.claim reach)
  refreshLamp b (s.modBay b (fun x =>
    { x with plan := x.plan.start f atEnd reach s.rack.ms, grade := none, ship := Ship.init }))

/-- Steps 3 to 5 of a start, by the bay's power state (R122). -/
def launchPlan (b : BayIx) (f : SlotIx) (s : State) : State :=
  match (s.bay b).power.state with
  | .on => goTo b (some f) s
  | .off => askPower b (setStep b .waitingForOn none s)
  | .empty | .queued | .spinningUp | .settling => setStep b .waitingForOn none s

def carryStartPlan (b : BayIx) (slot atEnd : Byte) (s : State) : Answer :=
  let x := s.bay b
  match slotOf slot, choiceOf atEnd with
  | some f, some c =>
    let reach := reachOf s.rack.slots f
    if x.running then refuse .wrongState s
    else if x.power.session ≠ .active then refuse .noDrive s
    else if x.power.unsupported then refuse .unsupportedDrive s
    else if x.power.state = .settling then refuse .wrongState s
    else if chainValid s.rack.slots f reach = false then refuse .planInvalid s
    else accept (launchPlan b f (beginPlan b f c reach s))
  | _, _ => refuse .badValue s

def carryAbortPlan (b : BayIx) (choice : Byte) (s : State) : Answer :=
  match choiceOf choice with
  | none => refuse .badValue s
  | some c =>
    if (s.bay b).running then accept (planEnd b .aborted none (s.bay b).plan.cursor c s) else refuse .wrongState s

/-! ### POWER (R158) -/

/-- POWER with ON acts by the bay's power state. -/
def askOn (b : BayIx) (s : State) : State := if (s.bay b).power.state = .off then askPower b s else s

def carryPower (b : BayIx) (field : Byte) (s : State) : Answer :=
  let x := s.bay b
  match boolOf field with
  | none => refuse .badValue s
  | some on =>
    if x.running then refuse .wrongState s
    else if x.power.session ≠ .active then refuse .noDrive s
    else if x.power.unsupported then refuse .unsupportedDrive s
    else if on ∧ x.power.state = .settling then refuse .wrongState s
    else accept (if on then askOn b s else askOff b s)

/-! ### ZONE-MARK (R78, R79) -/

/-- CLEAR and TOGGLE are refused on a zone that waits for a rescan or is under one (R78). -/
def Bay.zoneBusy (x : Bay) (n : Nat) : Bool := x.zm.queued n || decide (x.sweep.rescan.map (·.zone) = some n)

def ZoneMarkOp.clears : ZoneMarkOp → Bool
  | .clear | .toggle => true
  | .test | .set => false

def carryZoneMark (b : BayIx) (zone : BitVec 16) (op : Byte) (s : State) : Answer :=
  let x := s.bay b
  let n := zone.toNat
  match zoneMarkOpOf op with
  | none => refuse .badValue s
  | some o =>
    if 4095 < n ∨ x.zm.used ≤ n then refuse .badValue s
    else if o.clears && x.zoneBusy n then refuse .inUse s
    else
      { state := s.modBay b (·.modZm (ZoneMap.zoneMark o n)), result := .done
        ret := if (x.zm.get n).mark then 1#32 else 0#32 }

/-! ### CLEAR-SESSION (R160, R165) -/

/-- CLEAR-SESSION is refused in these power states, and while a plan is RUNNING (R160). -/
def Bay.refusesClear (x : Bay) : Bool :=
  x.running || decide (x.power.state = .queued ∨ x.power.state = .spinningUp ∨ x.power.state = .settling)

/-- The session and power state of a CLEAR-SESSION (R160). -/
def Power.clearSession (w : Power) : Power :=
  { w with
    session := if w.state = .empty then .none else w.session
    state := if w.state = .on then .settling else w.state }

/-- A CLEAR-SESSION that is carried out begins the session wipe (R160). -/
def beginClear (b : BayIx) (s : State) : State :=
  refreshLamp b (s.modBay b (fun x => (x.beginWipe false).modPower Power.clearSession))

/-! ### SET-LINE and ACK-NOTICE (R162, R171) -/

def carrySetLine (b : BayIx) (lampFn auxFn lampLatch auxLatch : Byte) (s : State) : Answer :=
  match lampFnOf lampFn, auxFnOf auxFn, boolOf lampLatch, boolOf auxLatch with
  | some lf, some af, some ll, some al =>
    accept (refreshLamp b (s.modBay b (·.modLines (fun l =>
      { l with lampFn := lf, auxFn := af, lampLatch := ll, auxLatch := al }))))
  | _, _, _, _ => refuse .badValue s

/-- The flags less the clear set, and the new mask (R171). -/
def Annex.acknowledge (clear mask : Vector Bool 5) (x : Annex) : Annex :=
  { x with flags := Vector.ofFn (fun k : Fin 5 => x.flags[k] && !clear[k]), mask := mask }

def carryAckNotice (b : BayIx) (clear mask : Byte) (s : State) : Answer :=
  { state := s.modBay b (·.modAnnex (·.acknowledge (noticesOfByte clear) (noticesOfByte mask))), result := .done
    ret := BitVec.ofNat 32 (noticeByte (s.bay b).annex.flags) }

/-! ### The mailbox (R164, R165, R166) -/

/-- The directive is checked and carried out by the rule that owns it. CLEAR-SESSION's own answer when it is carried out is
written by `takeClear`. -/
def carry (b : BayIx) (d : Directive) (s : State) : Answer :=
  match d with
  | .setBay f => carrySetBay b f s
  | .setRack f => carrySetRack f s
  | .loadSlot slot nxt f => carryLoadSlot slot nxt f s
  | .loadRule rule f => carryLoadRule rule f s
  | .loadBin bin f => carryLoadBin bin f s
  | .startPlan slot atEnd => carryStartPlan b slot atEnd s
  | .abortPlan choice => carryAbortPlan b choice s
  | .power field => carryPower b field s
  | .zoneMark zone op => carryZoneMark b zone op s
  | .clearSession => if (s.bay b).refusesClear then refuse .wrongState s else accept (beginClear b s)
  | .setLine lf af ll al => carrySetLine b lf af ll al s
  | .ackNotice clear mask => carryAckNotice b clear mask s
  | .badCode _ => refuse .badCode s

/-- The result sector of a directive (R166). A CLEAR-SESSION that is carried out shows BUSY until its wipe is done (R165; log
entry 19). -/
def resultOf (seq : Word) (d : Directive) (a : Answer) : ResultSector :=
  { state := if d = .clearSession ∧ a.result = .done then .busy else .complete
    code := d.code, seq := seq, result := a.result, ret := a.ret }

/-- The mailbox state after a directive (R165). -/
def mailboxAfter (d : Directive) (a : Answer) (m : MailboxState) : MailboxState :=
  if d = .clearSession ∧ a.result = .done then .busyDirective else m

/-- A collision: nothing changes but the count (R165). -/
def collide (b : BayIx) (s : State) : State := s.modBay b (·.modAnnex (fun a => { a with collisions := inc32 a.collisions }))

/-- A misuse: nothing changes but the count (R164). -/
def misuse (b : BayIx) (s : State) : State := s.modBay b (·.modAnnex (fun a => { a with misuse := inc32 a.misuse }))

/-- The result sector and the mailbox state are set (R165, R166). -/
def postResult (b : BayIx) (seq : Word) (d : Directive) (a : Answer) : State :=
  a.state.modBay b (·.modAnnex (fun x => { x with result := resultOf seq d a, mailbox := mailboxAfter d a x.mailbox }))

/-- A signed mailbox sector: a collision while the mailbox is not IDLE, else the directive is taken (R164 steps 3 and 4). -/
def takeDirective (b : BayIx) (seq : Word) (d : Directive) (s : State) : State :=
  if (s.bay b).annex.mailbox = .idle then postResult b seq d (carry b d s) else collide b s

/-- A sector of an annex WRITE is handed over with its offset (R164). -/
def annexWrite (b : BayIx) (off : Nat) (x : Sector) (s : State) : State :=
  if off = 0 ∧ isSigned x then takeDirective b (wordOf x 2) (directiveOf x) s else misuse b s

end Sys2Proof.Machine
end

