-- ==== Sys2Proof/Machine/Mailbox.lean ====
section
/-! DEFINITION. The meanings of the mailbox rows: each is the event in which the mailbox of bay `b` is handed a signed sector
(R164), or a sector that is none (log entry 14). -/

namespace Sys2Proof.Machine

/-- SET_BAY (R167). -/
def execSetBay (b : BayIx) (seq : Word) (f : SetBayArg) (s : State) : Host.Outcome State Fault Refusal :=
  .next (takeDirective b seq (.setBay f) s)

/-- SET_RACK (R159). -/
def execSetRack (b : BayIx) (seq : Word) (f : SetRackArg) (s : State) : Host.Outcome State Fault Refusal :=
  .next (takeDirective b seq (.setRack f) s)

/-- LOAD_SLOT (R118). -/
def execLoadSlot (b : BayIx) (seq : Word) (slot nxt : Byte) (f : SlotArg) (s : State) :
    Host.Outcome State Fault Refusal :=
  .next (takeDirective b seq (.loadSlot slot nxt f) s)

/-- LOAD_RULE (R137). -/
def execLoadRule (b : BayIx) (seq : Word) (rule : Byte) (f : RuleArg) (s : State) : Host.Outcome State Fault Refusal :=
  .next (takeDirective b seq (.loadRule rule f) s)

/-- LOAD_BIN (R138). -/
def execLoadBin (b : BayIx) (seq : Word) (bin : Byte) (f : BinArg) (s : State) : Host.Outcome State Fault Refusal :=
  .next (takeDirective b seq (.loadBin bin f) s)

/-- START_PLAN (R122). -/
def execStartPlan (b : BayIx) (seq : Word) (slot atEnd : Byte) (s : State) : Host.Outcome State Fault Refusal :=
  .next (takeDirective b seq (.startPlan slot atEnd) s)

/-- ABORT_PLAN (R132). -/
def execAbortPlan (b : BayIx) (seq : Word) (choice : Byte) (s : State) : Host.Outcome State Fault Refusal :=
  .next (takeDirective b seq (.abortPlan choice) s)

/-- POWER_ON (R158). -/
def execPowerOn (b : BayIx) (seq : Word) (s : State) : Host.Outcome State Fault Refusal :=
  .next (takeDirective b seq (.power 1#8) s)

/-- POWER_OFF (R158). -/
def execPowerOff (b : BayIx) (seq : Word) (s : State) : Host.Outcome State Fault Refusal :=
  .next (takeDirective b seq (.power 0#8) s)

/-- ZONE_MARK_TEST (R79). -/
def execZoneMarkTest (b : BayIx) (seq : Word) (zone : BitVec 16) (s : State) : Host.Outcome State Fault Refusal :=
  .next (takeDirective b seq (.zoneMark zone 0#8) s)

/-- ZONE_MARK_SET (R79). -/
def execZoneMarkSet (b : BayIx) (seq : Word) (zone : BitVec 16) (s : State) : Host.Outcome State Fault Refusal :=
  .next (takeDirective b seq (.zoneMark zone 1#8) s)

/-- ZONE_MARK_CLEAR (R79). -/
def execZoneMarkClear (b : BayIx) (seq : Word) (zone : BitVec 16) (s : State) : Host.Outcome State Fault Refusal :=
  .next (takeDirective b seq (.zoneMark zone 2#8) s)

/-- ZONE_MARK_TOGGLE (R79). -/
def execZoneMarkToggle (b : BayIx) (seq : Word) (zone : BitVec 16) (s : State) : Host.Outcome State Fault Refusal :=
  .next (takeDirective b seq (.zoneMark zone 3#8) s)

/-- CLEAR_SESSION (R160). -/
def execClearSession (b : BayIx) (seq : Word) (s : State) : Host.Outcome State Fault Refusal :=
  .next (takeDirective b seq .clearSession s)

/-- SET_LINE (R162). -/
def execSetLine (b : BayIx) (seq : Word) (lampFn auxFn lampLatch auxLatch : Byte) (s : State) :
    Host.Outcome State Fault Refusal :=
  .next (takeDirective b seq (.setLine lampFn auxFn lampLatch auxLatch) s)

/-- ACK_NOTICE (R171). -/
def execAckNotice (b : BayIx) (seq : Word) (clear mask : Byte) (s : State) : Host.Outcome State Fault Refusal :=
  .next (takeDirective b seq (.ackNotice clear mask) s)

/-- BAD_CODE (R164): the sector's code is the operand; a code from 1 to 12 is no bad code, and the command then has no
effect (log entry 23). -/
def execBadCode (b : BayIx) (seq code : Word) (s : State) : Host.Outcome State Fault Refusal :=
  if 1 ≤ code.toNat ∧ code.toNat ≤ 12 then .next s else .next (takeDirective b seq (.badCode code) s)

/-- MAILBOX_COLLISION (R165): a signed sector while the mailbox is not IDLE; on an IDLE mailbox there is no collision (log entry
23). -/
def execMailboxCollision (b : BayIx) (s : State) : Host.Outcome State Fault Refusal :=
  .next (if (s.bay b).annex.mailbox = .idle then s else collide b s)

/-- ANNEX_MISUSE (R164 steps 1 and 2). -/
def execAnnexMisuse (b : BayIx) (s : State) : Host.Outcome State Fault Refusal := .next (misuse b s)

end Sys2Proof.Machine
end

