-- ==== Sys2Proof/Machine/Commands.lean ====
section
/-! DEFINITION. The arrival of upstream commands: the tag, kind, range and power checks (R3 to R6), the annex (R7), the statuses
the part originates (R8), the capacity answer (R11, R12); and the part reset (R22). -/

namespace Sys2Proof.Machine

/-! ### The checks -/

/-- A host tag is busy (R3). -/
def Bay.tagBusy (x : Bay) (tag : Tag) : Bool :=
  (match x.tracker.rec? tag with | some r => decide (r.origin = .host) | none => false)
    || x.lane.held.any (fun h => h.tag = tag) || x.lane.annexSvc.any (fun a => a.tag = tag)

/-- The verdict of the tag check; none lets the command go on (R3). -/
def Bay.tagVerdict (x : Bay) (tag : Tag) : Option UpStatus :=
  if hostTags ≤ tag.val then some .tagRefused else if x.tagBusy tag then some .tagBusy else none

/-- A command that passes the tag check goes on by `k`; else it completes with the verdict (R3, R8). -/
def checkTag (b : BayIx) (tag : Tag) (k : State → State) (s : State) : State :=
  match (s.bay b).tagVerdict tag with
  | some st => complete b tag st s
  | none => k s

/-- Where the sectors of a READ or WRITE lie (R5). -/
inductive Place where
  | drive
  | annex (off : Nat)
  | outside
  deriving DecidableEq, Repr

/-- The range check (R5). -/
def placeOf (rc lba count : Nat) : Place :=
  if lba + count ≤ rc then .drive
  else if rc ≤ lba ∧ lba + count ≤ rc + annexSize then .annex (lba - rc)
  else .outside

/-- The command joins the tail of the hold list (R15). -/
def hold (b : BayIx) (tag : Tag) (kind : CmdKind) (lba count : Nat) (s : State) : State :=
  s.modBay b (·.modLane (fun l =>
    { l with held := l.held ++ [{ tag := tag, kind := kind, lba := lba, count := count, arrival := s.rack.ms }] }))

/-- A drive-range command by the bay's power state at arrival (R6). -/
def toDrive (b : BayIx) (tag : Tag) (kind : CmdKind) (lba count : Nat) (s : State) : State :=
  match (s.bay b).power.state with
  | .on => openHost b tag kind lba count [] s
  | .queued | .spinningUp =>
    if (s.bay b).power.cap.isSome then hold b tag kind lba count s else complete b tag .notReady s
  | .empty | .off | .settling => complete b tag .notReady s

/-- A READ past the tag check (R5). -/
def placeRead (b : BayIx) (tag : Tag) (lba count : Nat) (s : State) : State :=
  match placeOf (s.bay b).lane.rc lba count with
  | .drive => toDrive b tag .read lba count s
  | .annex off => beginAnnexRead b tag off count s
  | .outside => complete b tag .range s

/-- An annex WRITE enters the annex service, and DATA REQUEST goes upstream at once (R7). -/
def beginAnnexWrite (b : BayIx) (tag : Tag) (off count : Nat) (s : State) : State :=
  let entry : AnnexCmd := { tag := tag, isWrite := true, offset := off, count := count, done := 0 }
  sendUp b (.dataRequest tag) (beginAnnex b entry s)

/-- A WRITE past the tag check (R5). -/
def placeWrite (b : BayIx) (tag : Tag) (lba count : Nat) (s : State) : State :=
  match placeOf (s.bay b).lane.rc lba count with
  | .drive => toDrive b tag .write lba count s
  | .annex off => beginAnnexWrite b tag off count s
  | .outside => complete b tag .range s

/-- A CAPACITY command past the tag check (R11, R12). -/
def answerCapacity (b : BayIx) (tag : Tag) (s : State) : State :=
  if (s.bay b).power.state = .on then openHost b tag .capacity 0 0 [] s
  else complete b tag (.capacity { capacity := (s.bay b).lane.rc, sectorSize := 4096, queueDepth := 24 }) s

/-- An OTHER command past the tag check (R4). -/
def passOther (b : BayIx) (tag : Tag) (body : List Byte) (s : State) : State :=
  if (s.bay b).power.state = .on then openHost b tag .other 0 0 body s else complete b tag .notReady s

/-! ### The rows -/

/-- COMMAND_READ (R5). -/
def execCommandRead (b : BayIx) (tag : Tag) (lba count : Nat) (s : State) : Host.Outcome State Fault Refusal :=
  .next (checkTag b tag (placeRead b tag lba count) s)

/-- COMMAND_WRITE (R6). -/
def execCommandWrite (b : BayIx) (tag : Tag) (lba count : Nat) (s : State) : Host.Outcome State Fault Refusal :=
  .next (checkTag b tag (placeWrite b tag lba count) s)

/-- COMMAND_FLUSH (R6). -/
def execCommandFlush (b : BayIx) (tag : Tag) (s : State) : Host.Outcome State Fault Refusal :=
  .next (checkTag b tag (toDrive b tag .flush 0 0) s)

/-- COMMAND_CAPACITY (R11). -/
def execCommandCapacity (b : BayIx) (tag : Tag) (s : State) : Host.Outcome State Fault Refusal :=
  .next (checkTag b tag (answerCapacity b tag) s)

/-- COMMAND_OTHER (R4). -/
def execCommandOther (b : BayIx) (tag : Tag) (body : List Byte) (s : State) : Host.Outcome State Fault Refusal :=
  .next (checkTag b tag (passOther b tag body) s)

/-- BAY_REPORT_LATCH (R168): a READ whose first LBA is annex offset 2. -/
def execBayReportLatch (b : BayIx) (tag : Tag) (count : Nat) (s : State) : Host.Outcome State Fault Refusal :=
  .next (checkTag b tag (placeRead b tag ((s.bay b).lane.rc + 2) count) s)

/-- A bay after part reset whose input pins stand as they do (R22, R148; log entry 32): with PRESENT asserted its debounce
starts at once. -/
def Bay.resetKeeping (x : Bay) : Bay :=
  { Bay.init with
    lines := { Lines.init with
      present := x.lines.present, auxPin := x.lines.auxPin
      debounce := if x.lines.present then some debounceMs else none } }

/-- PART_RESET (R22): every block takes its value after part reset; the commands that wait still wait (log entry 32). -/
def execPartReset (s : State) : Host.Outcome State Fault Refusal :=
  .next { bays := mapVec Bay.resetKeeping s.bays, rack := Rack.init, pending := s.pending }

end Sys2Proof.Machine
end

