-- ==== Sys2Proof/Machine/Frames.lean ====
section
/-! DEFINITION. The frames that carry a command's data and its end: WRITE DATA (R7, R48), DATA REQUEST (R9, R25, R48), READ DATA
(R9, R25, R50) and COMPLETION (R10, R26). -/

namespace Sys2Proof.Machine

/-! ### WRITE DATA -/

/-- The annex WRITE in service on a tag. -/
def Lane.annexWriteOn (l : Lane) (tag : Tag) : Option AnnexCmd := l.annexSvc.find? (fun a => a.tag = tag && a.isWrite)

/-- The sectors of a payload handed to the annex in ascending offset, the first at `off` (R164). -/
def annexWrites (b : BayIx) : Nat → List Sector → State → State
  | _, [], s => s
  | off, x :: t, s => annexWrites b (off + 1) t (annexWrite b off x s)

/-- Payload for an annex WRITE; sectors past its count are discarded. -/
def takeAnnexData (b : BayIx) (c : AnnexCmd) (payload : List Sector) (s : State) : State :=
  let taken := payload.take (c.count - c.done)
  annexTaken b c taken.length (annexWrites b (c.offset + c.done) taken s)

/-- `k` more sectors of a WRITE have gone downstream: `xs` (R48). -/
def sendPayload (b : BayIx) (tag : Tag) (r : Rec) (xs : List Sector) (s : State) : State :=
  if xs = [] then s
  else
    sendDown b (.writeData tag xs) (s.modBay b (·.modTracker (·.setRec tag (some { r with sent := r.sent + xs.length }))))

/-- The host's payload for a HOST WRITE: stamped sectors in its place when the record carries a pass written (R48). Of a frame that
straddles the record's count the sectors up to the count are sent and the others discarded (log entry 36). -/
def hostPayload (x : Bay) (r : Rec) (payload : List Sector) : List Sector :=
  let taken := payload.take (r.count - r.sent)
  match r.pass with
  | some p => stampSectors x.settings.seed p (r.lba + r.sent) taken.length
  | none => taken

/-- WRITE DATA on the tag of an open record: of a HOST WRITE it answers the drive's request, of a HOST OTHER it is carried
unchanged (R1; log entry 17), of any other record it is discarded (R8). -/
def takeWriteData (b : BayIx) (tag : Tag) (r : Rec) (payload : List Sector) (s : State) : State :=
  match r.origin, r.kind with
  | .host, .write => sendPayload b tag r (hostPayload (s.bay b) r payload) s
  | .host, .other => sendDown b (.writeData tag payload) s
  | _, _ => s

/-- WRITE_DATA (R48). -/
def execWriteData (b : BayIx) (tag : Tag) (payload : List Sector) (s : State) : Host.Outcome State Fault Refusal :=
  .next (match (s.bay b).lane.annexWriteOn tag with
    | some c => takeAnnexData b c payload s
    | none => match (s.bay b).tracker.rec? tag with
      | some r => takeWriteData b tag r payload s
      | none => s)

/-! ### DATA REQUEST -/

/-- The next `n` sectors of a part write: the ship record, stamped sectors, or zeros (R47, R48). -/
def partPayload (x : Bay) (r : Rec) (n : Nat) : List Sector :=
  let k := min n (r.count - r.sent)
  match r.ship, r.pass with
  | some y, _ => (List.replicate r.count y).drop r.sent |>.take k
  | none, some p => stampSectors x.settings.seed p (r.lba + r.sent) k
  | none, none => List.replicate k zeroSector

/-- DATA REQUEST on the tag of an open record: a HOST record's is relayed upstream (R9, R25; log entry 17), a part WRITE's is
answered (R48), any other part record's is discarded (R25; of a LEARN query's CAPACITY record log entry 17). -/
def takeDataRequest (b : BayIx) (tag : Tag) (r : Rec) (n : Nat) (s : State) : State :=
  match r.origin, r.kind with
  | .host, _ => sendUp b (.dataRequest tag) s
  | _, .write => sendPayload b tag r (partPayload (s.bay b) r n) s
  | _, _ => s

/-- DATA_REQUEST (R48); on a tag with no open record it is discarded (R10). -/
def execDataRequest (b : BayIx) (tag : Tag) (n : Nat) (s : State) : Host.Outcome State Fault Refusal :=
  .next (match (s.bay b).tracker.rec? tag with
    | some r => takeDataRequest b tag r n s
    | none => s)

/-! ### READ DATA -/

/-- One sector delivered on a READ record: counted, and judged if the record is judged (R25, R50, R59). A sector past the
count is discarded. -/
def deliverOne (b : BayIx) (tag : Tag) (s : State) (x : Sector) : State :=
  match (s.bay b).tracker.rec? tag with
  | none => s
  | some r =>
    if r.delivered < r.count then
      let s' := s.modBay b (·.modTracker (·.setRec tag (some { r with delivered := r.delivered + 1 })))
      if r.judged then
        giveOutcome b (r.lba + r.delivered) (judge (s.bay b) r.tol (r.lba + r.delivered) x) r.origin r.rescans s'
      else s'
    else s

/-- READ DATA goes upstream, if it carries a sector. -/
def relayUp (b : BayIx) (tag : Tag) (xs : List Sector) (s : State) : State := if xs = [] then s else sendUp b (.readData tag xs) s

/-- READ DATA on a READ record: a HOST read's sectors go upstream unchanged, and each sector is taken in turn (R9, R25). -/
def takeReadData (b : BayIx) (tag : Tag) (r : Rec) (payload : List Sector) (s : State) : State :=
  let taken := payload.take (r.count - r.delivered)
  let s := if r.origin = .host then relayUp b tag taken s else s
  taken.foldl (deliverOne b tag) s

/-- READ_DATA (R25); on a tag with no open record it is discarded (R10). -/
def execReadData (b : BayIx) (tag : Tag) (payload : List Sector) (s : State) : Host.Outcome State Fault Refusal :=
  .next (match (s.bay b).tracker.rec? tag with
    | none => s
    | some r =>
      if r.kind = .read then takeReadData b tag r payload s
      else if r.origin = .host then relayUp b tag payload s
      else s)

/-! ### COMPLETION -/

/-- A COMPLETION on a tag with no open record is discarded; it takes a retired tag out of the retired set, and a waiting
request may then take the tag (R10, R24). -/
def unretire (b : BayIx) (tag : Tag) (s : State) : State :=
  if (s.bay b).lane.retired.contains tag then
    assignAll b (s.modBay b (·.modLane (fun l => { l with retired := l.retired.filter (fun g => g ≠ tag) })))
  else s

/-- COMPLETION (R26). -/
def execCompletion (b : BayIx) (tag : Tag) (status : DriveStatus) (s : State) : Host.Outcome State Fault Refusal :=
  .next (match (s.bay b).tracker.rec? tag with
    | some r => closeRec b tag r status s
    | none => unretire b tag s)

end Sys2Proof.Machine
end

