-- ==== Sys2Proof/Machine/Issues.lean ====
section
/-! DEFINITION. The part's own steps: the SETTLE flush and the end of a settling (R156), the assignment of a part tag (R24), the
start of visits, reads, rescans and rescan chunks (R92, R93, R105, R108), a grant (R152), and the session wipe's next zone
(R80). A step whose own conditions do not hold has no effect (log entry 23). -/

namespace Sys2Proof.Machine

/-! ### Settling (R156) -/

/-- A SETTLE flush is open or waits for a part tag. -/
def Tracker.settleUnderWay (t : Tracker) : Bool :=
  t.anyRec (fun r => r.origin = .settle) || t.waiting.any (fun r => r.origin = .settle)

/-- The SETTLE flush is to be issued: no WRITE record is open, and the list is not empty (R156 step 2; log entry 31). -/
def Bay.wantsFlush (x : Bay) : Bool :=
  decide (x.power.state = .settling) && !x.tracker.writeOpen && !x.tracker.unsettled.isEmpty && !x.tracker.settleUnderWay

/-- The settling is done: nothing to flush, and no record open (R156 step 3). -/
def Bay.settled (x : Bay) : Bool :=
  decide (x.power.state = .settling) && x.tracker.unsettled.isEmpty && !x.tracker.someOpen

/-- The bay goes OFF at the end of its settling (R156 step 3). -/
def settleOff (b : BayIx) (s : State) : State := planToldOff b (grantTest (setPower b .off (cutSupply b s)))

/-- SETTLE_FLUSH_ISSUE (R156). -/
def execSettleFlushIssue (b : BayIx) (s : State) : Host.Outcome State Fault Refusal :=
  .next (if (s.bay b).wantsFlush then requestTag b settleRec s else s)

/-- SETTLED_OFF (R156). -/
def execSettledOff (b : BayIx) (s : State) : Host.Outcome State Fault Refusal :=
  .next (if (s.bay b).settled then settleOff b s else s)

/-! ### The other steps -/

/-- PART_TAG_ASSIGN (R24). -/
def execPartTagAssign (b : BayIx) (s : State) : Host.Outcome State Fault Refusal := .next (assignOne b s)

/-- VISIT_START (R92). -/
def execVisitStart (b : BayIx) (s : State) : Host.Outcome State Fault Refusal := .next (startVisit b s)

/-- VISIT_READ_ISSUE (R93). -/
def execVisitReadIssue (b : BayIx) (s : State) : Host.Outcome State Fault Refusal := .next (issueRead b s)

/-- RESCAN_START (R106). -/
def execRescanStart (b : BayIx) (s : State) : Host.Outcome State Fault Refusal := .next (testRescan b s)

/-- RESCAN_CHUNK_ISSUE (R108). -/
def execRescanChunkIssue (b : BayIx) (s : State) : Host.Outcome State Fault Refusal := .next (issueChunk b s)

/-- GRANT (R152): the grant test on the head of the queue, with its repetitions. -/
def execGrant (s : State) : Host.Outcome State Fault Refusal := .next (grantTest s)

/-- WIPE_ZONE_RESET (R80): the running wipe resets its next zone; with no wipe there is none (log entry 23). -/
def execWipeZoneReset (b : BayIx) (s : State) : Host.Outcome State Fault Refusal :=
  .next (match (s.bay b).annex.wipe with
    | some n => s.modBay b (·.wipeStep n)
    | none => s)

end Sys2Proof.Machine
end

