-- ==== Sys2Proof/Machine/Links.lean ====
section
/-! DEFINITION. The links' events (R2, R19, R20, R145, R152) and the presence input's (R148, R149). A rise or fall that is no
change of level has no effect (log entry 24). -/

namespace Sys2Proof.Machine

/-! ### The upstream link -/

/-- LINK_RESET (R19, R20). -/
def execLinkReset (b : BayIx) (s : State) : Host.Outcome State Fault Refusal := .next (laneReset b s)

/-- UPSTREAM_LINK_DOWN (R2). -/
def execUpstreamLinkDown (b : BayIx) (s : State) : Host.Outcome State Fault Refusal :=
  .next (s.modBay b (·.modLane (fun l => { l with upUp := false })))

/-- The upstream link rises: the first time since part reset it only comes UP, after a fall it is a lane reset (R2). -/
def riseUp (b : BayIx) (s : State) : State :=
  let first := !(s.bay b).lane.upRisen
  let s := s.modBay b (·.modLane (fun l => { l with upUp := true, upRisen := true }))
  if first then s else laneReset b s

/-- UPSTREAM_LINK_UP (R2). -/
def execUpstreamLinkUp (b : BayIx) (s : State) : Host.Outcome State Fault Refusal :=
  .next (if (s.bay b).lane.upUp then s else riseUp b s)

/-! ### The downstream link -/

/-- The waiting frames go in their order (R2). -/
def Lane.rise (l : Lane) : Lane := { l with downUp := true, downSent := l.downSent ++ l.downWait, downWait := [] }

/-- The LEARN query of a SPINNING-UP bay is asked when the link is UP (R152 step 4, R153). -/
def learnOnRise (b : BayIx) (s : State) : State :=
  let x := s.bay b
  if x.power.learnWait ∧ x.power.state = .spinningUp then askLearn b s else s

/-- A discarded SHIP write is asked for again while its plan is in the STAMP phase (R145). -/
def shipOnRise (b : BayIx) (s : State) : State :=
  if (s.bay b).ship.reissue then
    let s := s.modBay b (·.modShip (fun p => { p with reissue := false }))
    requestTag b (shipRec (s.bay b)) s
  else s

/-- A rewound rescan may start its chunks again (R113). -/
def Sweep.linkUp (w : Sweep) : Sweep := { w with rescan := w.rescan.map (fun q => { q with awaitLink := false }) }

/-- The downstream link rises. -/
def riseDown (b : BayIx) (s : State) : State :=
  shipOnRise b (learnOnRise b (s.modBay b (fun x => (x.modLane Lane.rise).modSweep Sweep.linkUp)))

/-- DOWNSTREAM_LINK_UP (R2); a drive without power has no link (log entry 24). -/
def execDownstreamLinkUp (b : BayIx) (s : State) : Host.Outcome State Fault Refusal :=
  .next (if (s.bay b).lane.downUp ∨ (s.bay b).power.state.powered = false then s else riseDown b s)

/-- DOWNSTREAM_LINK_DOWN (R2): the drive drops the link; the retired set is emptied (R10), records and waiting frames stay. -/
def execDownstreamLinkDown (b : BayIx) (s : State) : Host.Outcome State Fault Refusal :=
  .next (if (s.bay b).lane.downUp then
      assignAll b (s.modBay b (·.modLane (fun l => { l with downUp := false, retired := [] })))
    else s)

/-! ### Presence -/

/-- PRESENT is asserted: in an EMPTY bay the debounce starts from 500 ms (R148). -/
def Bay.assertPresent (x : Bay) : Bay :=
  { x with lines := { x.lines with
      present := true, debounce := if x.power.state = .empty then some debounceMs else x.lines.debounce } }

/-- PRESENT_ASSERT (R148). -/
def execPresentAssert (b : BayIx) (s : State) : Host.Outcome State Fault Refusal :=
  .next (if (s.bay b).lines.present then s else s.modBay b Bay.assertPresent)

/-- PRESENT is deasserted: a removal, or in an EMPTY bay the stop of a running debounce (R148, R149). -/
def dropPresent (b : BayIx) (s : State) : State :=
  let s := s.modBay b (·.modLines (fun l => { l with present := false, debounce := none }))
  if (s.bay b).power.state = .empty then s else removal b s

/-- PRESENT_DEASSERT (R149). -/
def execPresentDeassert (b : BayIx) (s : State) : Host.Outcome State Fault Refusal :=
  .next (if (s.bay b).lines.present then dropPresent b s else s)

end Sys2Proof.Machine
end

