-- ==== Sys2Proof/Machine/Timers.lean ====
section
/-! DEFINITION. The expiries of the part's timers. An expiry taken while its timer still runs lets the time left pass first; with
its timer stopped it has no effect (log entry 3). -/

namespace Sys2Proof.Machine

/-- The expiry `f` of a ms timer. -/
def expire (t : Option Nat) (f : State → State) (s : State) : State :=
  match t with
  | some r => f (advanceMs r s)
  | none => s

/-! ### Presence and power -/

/-- The presence debounce has run out: with PRESENT asserted in an EMPTY bay a drive is recognized (R148). -/
def debounced (b : BayIx) (s : State) : State :=
  let s := s.modBay b (·.modLines (fun l => { l with debounce := none }))
  if (s.bay b).lines.present ∧ (s.bay b).power.state = .empty then recognize b s else s

/-- INSERTION_RECOGNIZED (R148). -/
def execInsertionRecognized (b : BayIx) (s : State) : Host.Outcome State Fault Refusal :=
  .next (expire (s.bay b).lines.debounce (debounced b) s)

/-- The spin-up timer runs in SPINNING-UP (R154). -/
def spinRemaining (x : Bay) : Option Nat := if x.power.state = .spinningUp then x.power.spinTimer else none

/-- SPINUP_TIMER_EXPIRY (R154). -/
def execSpinupTimerExpiry (b : BayIx) (s : State) : Host.Outcome State Fault Refusal :=
  .next (expire (spinRemaining (s.bay b)) (forcedOff b (some .spinupFailed)) s)

/-! ### Held commands and records -/

/-- The ms left before the oldest held command expires (R17). -/
def holdRemaining (s : State) (b : BayIx) : Option Nat := (s.bay b).lane.held.head?.map (fun h => s.rack.hold - heldAge s.rack h)

/-- The oldest held command completes NOT-READY (R17). -/
def dropHeld (b : BayIx) (s : State) : State :=
  match (s.bay b).lane.held with
  | [] => s
  | h :: rest => complete b h.tag .notReady (s.modBay b (·.modLane (fun l => { l with held := rest })))

/-- HOLD_TIMEOUT (R17). -/
def execHoldTimeout (b : BayIx) (s : State) : Host.Outcome State Fault Refusal := .next (expire (holdRemaining s b) (dropHeld b) s)

/-- TIMEOUT_EVENT (R34): with no record open there is none. -/
def execTimeoutEvent (b : BayIx) (s : State) : Host.Outcome State Fault Refusal :=
  .next (match timeoutDue s b with
    | some d => takeTimeout b (if d = 0 then s else advance d s)
    | none => s)

/-- The idle timer delivers an IDLE trigger, is loaded with W and runs on (R33). -/
def idleExpires (b : BayIx) (s : State) : State :=
  s.modBay b (fun x => (x.modSweep Sweep.idleTrigger).modTracker (fun t => { t with idle := some t.w }))

/-- IDLE_TIMER_EXPIRY (R33). -/
def execIdleTimerExpiry (b : BayIx) (s : State) : Host.Outcome State Fault Refusal :=
  .next (expire (s.bay b).tracker.idle (idleExpires b) s)

/-! ### Plan phases -/

/-- The phase timer, while the plan is RUNNING in the given step. -/
def Plan.remaining (p : Plan) (st : PhaseStep) : Option Nat := if p.state = .running ∧ p.step = st then p.timer else none

/-- The dwell timer has run out: with a rescan active the phase waits for its end (R125, R107). -/
def dwellExpires (b : BayIx) (s : State) : State :=
  if (s.bay b).sweep.rescan.isSome then
    (setStep b .expired (some 0) s).modBay b (·.modSweep (fun w =>
      { w with saved := w.saved.map (fun v => { v with timeExpired := true }) }))
  else advancePlan b s

/-- DWELL_TIMER_EXPIRY (R125). -/
def execDwellTimerExpiry (b : BayIx) (s : State) : Host.Outcome State Fault Refusal :=
  .next (expire ((s.bay b).plan.remaining .timing) (dwellExpires b) s)

/-- The off time has run out: power is asked for (R126 step 3). -/
def offTimeExpires (b : BayIx) (s : State) : State := askOn b (setStep b .poweringUp none s)

/-- OFF_TIME_EXPIRY (R126). -/
def execOffTimeExpiry (b : BayIx) (s : State) : Host.Outcome State Fault Refusal :=
  .next (expire ((s.bay b).plan.remaining .offTime) (offTimeExpires b) s)

/-! ### Sweep timers -/

/-- The INTERVAL timer's expiry is a trigger of an ACTIVE sweep (R95, R96). -/
def Active.intervalTrigger (a : Active) : Active :=
  if a.drops then { a with missed := satInc 65535 a.missed } else { a with credit := a.cfg.triggerCredit }

/-- The INTERVAL timer expires: an ACTIVE sweep takes the trigger, a SUSPENDED one drops it; the timer reloads, but stops at the
first trigger taken with SUCCESSIVE pacing (R96, R107). -/
def Sweep.intervalExpires (w : Sweep) : Sweep :=
  match w.active with
  | none => { w with intervalTimer := none }
  | some a =>
    if w.status = .active then
      { w with
        active := some a.intervalTrigger
        intervalTimer := if a.cfg.pacing = .successive then none else some a.cfg.interval }
    else { w with intervalTimer := if w.status = .suspended then some a.cfg.interval else none }

/-- INTERVAL_TIMER_EXPIRY (R96). -/
def execIntervalTimerExpiry (b : BayIx) (s : State) : Host.Outcome State Fault Refusal :=
  .next (expire (s.bay b).sweep.intervalTimer (fun s => s.modBay b (·.modSweep Sweep.intervalExpires)) s)

/-- The time limit has still to be taken: the sweep is ACTIVE, or SUSPENDED without the time expired mark (R100, R107). -/
def Sweep.limitRemaining (w : Sweep) : Option Nat :=
  let marked := match w.saved with | some v => v.timeExpired | none => false
  if w.status = .active ∨ (w.status = .suspended ∧ marked = false) then w.active.bind (·.timeLeft) else none

/-- The time limit of a SUSPENDED sweep: the INTERVAL timer stops, the credit becomes 0, the time expired mark is set (R107). -/
def Sweep.limitSuspended (w : Sweep) : Sweep :=
  { w with
    intervalTimer := none, active := w.active.map (fun a => { a with credit := .count 0 })
    saved := w.saved.map (fun v => { v with timeExpired := true }) }

/-- The time limit runs out (R100, R107). -/
def limitExpires (b : BayIx) (s : State) : State :=
  if (s.bay b).sweep.status = .active then expireLimit b s else s.modBay b (·.modSweep Sweep.limitSuspended)

/-- TIME_LIMIT_EXPIRY (R100). -/
def execTimeLimitExpiry (b : BayIx) (s : State) : Host.Outcome State Fault Refusal :=
  .next (expire (s.bay b).sweep.limitRemaining (limitExpires b) s)

/-! ### Lamps -/

/-- ACTIVITY_PULSE_END (R161). -/
def execActivityPulseEnd (b : BayIx) (s : State) : Host.Outcome State Fault Refusal :=
  .next (expire (s.bay b).lines.pulse (fun s => s.modBay b (·.modLines (fun l => { l with pulse := none }))) s)

/-- The lamp takes its other half (R146). -/
def Lines.toggle (l : Lines) : Lines := { l with blinkLit := !l.blinkLit, blink := halfPeriod l.pattern }

/-- LAMP_BLINK_TOGGLE (R146). -/
def execLampBlinkToggle (b : BayIx) (s : State) : Host.Outcome State Fault Refusal :=
  .next (expire (s.bay b).lines.blink (fun s => s.modBay b (·.modLines Lines.toggle)) s)

end Sys2Proof.Machine
end

