-- ==== Sys2Proof/Machine/Due.lean ====
section
/-! DEFINITION. What the part does when no command waits (log entry 1): the part's own steps and expiries that are due, in a
fixed order, or else the passing of one µs. -/

namespace Sys2Proof.Machine

/-- A visit of the bay's sweep may start. -/
def Bay.wantsVisit (x : Bay) : Bool :=
  match x.sweep.active with
  | some a => x.visitMayStart a
  | none => false

/-- A waiting read of the bay's sweep may be issued. -/
def Bay.wantsRead (x : Bay) : Bool :=
  match x.sweep.active with
  | some a => x.sweepMayIssue a && a.waitingRead.isSome
  | none => false

/-- A chunk command of the bay's rescan may be issued (R108). -/
def Bay.wantsChunk (x : Bay) : Bool :=
  match x.sweep.rescan with
  | some q =>
    decide (x.power.state = .on ∧ q.awaitLink = false) && x.zm.z.isSome && x.power.cap.isSome
      && (q.waitingRead.isSome || (q.nextChunk.isSome && decide (q.inFlight < q.limit)))
  | none => false

/-- The part's own steps that bay `b` can take at once. -/
def dueSteps (s : State) (b : BayIx) : List Instr :=
  let x := s.bay b
  [(x.wantsFlush, .settleFlushIssue b), (x.settled, .settledOff b),
   (!x.tracker.waiting.isEmpty && x.freePartTag.isSome, .partTagAssign b), (x.wantsRead, .visitReadIssue b),
   (x.wantsVisit, .visitStart b), (s.rescanMayStart b, .rescanStart b), (x.wantsChunk, .rescanChunkIssue b)].filterMap
    (fun (p : Bool × Instr) => if p.1 then some p.2 else none)

/-- The timers of bay `b` that have run out. -/
def dueExpiries (s : State) (b : BayIx) : List Instr :=
  let x := s.bay b
  [(timeoutDue s b, .timeoutEvent b), (x.lines.debounce, .insertionRecognized b), (spinRemaining x, .spinupTimerExpiry b),
   (holdRemaining s b, .holdTimeout b), (x.tracker.idle, .idleTimerExpiry b),
   (x.plan.remaining .timing, .dwellTimerExpiry b), (x.plan.remaining .offTime, .offTimeExpiry b),
   (x.sweep.intervalTimer, .intervalTimerExpiry b), (x.sweep.limitRemaining, .timeLimitExpiry b),
   (x.lines.pulse, .activityPulseEnd b), (x.lines.blink, .lampBlinkToggle b)].filterMap
    (fun (p : Option Nat × Instr) => if p.1 = some 0 then some p.2 else none)

/-- A running session wipe goes on with its next zone. -/
def dueWipe (s : State) (b : BayIx) : List Instr := if (s.bay b).wiping then [.wipeZoneReset b] else []

/-- A grant is due. -/
def dueGrant (s : State) : List Instr := if s.rack.queue.isEmpty = false ∧ s.headFits then [.grant] else []

/-- The first of the part's own events that is due: a step that can be taken at once, a grant, an expiry, a zone of a wipe; the
bays in rising order (log entry 1). -/
def due (s : State) : Option Instr :=
  (allBays.flatMap (dueSteps s) ++ dueGrant s ++ allBays.flatMap (dueExpiries s) ++ allBays.flatMap (dueWipe s)).head?

/-- The annex READ in service that is served next, with its bay: the lowest bay that has one (log entry 11). -/
def nextRead (s : State) : Option (BayIx × AnnexCmd) := (allBays.filterMap (fun b => (s.readInService b).map (fun c => (b, c)))).head?

/-- With no command waiting, the next sector of an annex READ in service is served (R163; log entry 11); with none in service the
part's next own event joins the queue, or one µs passes (log entry 1). -/
def idle (s : State) : State :=
  match nextRead s with
  | some (b, c) => serveSector b c s
  | none => match due s with
    | some c => { s with pending := [c] }
    | none => advance 1 s

end Sys2Proof.Machine
end

