-- ==== Sys2Proof/Machine/Dispatch.lean ====
section
/-! DEFINITION. The meaning of each command: one arm for each constructor of `Instr`, a direct call of its meaning. -/

namespace Sys2Proof.Machine

/-- The effect of a command on everything but the queue. -/
def exec (i : Instr) (s : State) : Host.Outcome State Fault Refusal :=
  match i with
  | .partReset => Sys2Proof.Machine.execPartReset s
  | .commandRead b tag lba count => Sys2Proof.Machine.execCommandRead b tag lba count s
  | .commandWrite b tag lba count => Sys2Proof.Machine.execCommandWrite b tag lba count s
  | .commandFlush b tag => Sys2Proof.Machine.execCommandFlush b tag s
  | .commandCapacity b tag => Sys2Proof.Machine.execCommandCapacity b tag s
  | .commandOther b tag body => Sys2Proof.Machine.execCommandOther b tag body s
  | .bayReportLatch b tag count => Sys2Proof.Machine.execBayReportLatch b tag count s
  | .writeData b tag payload => Sys2Proof.Machine.execWriteData b tag payload s
  | .setBay b seq f => Sys2Proof.Machine.execSetBay b seq f s
  | .setRack b seq f => Sys2Proof.Machine.execSetRack b seq f s
  | .loadSlot b seq slot nxt f => Sys2Proof.Machine.execLoadSlot b seq slot nxt f s
  | .loadRule b seq rule f => Sys2Proof.Machine.execLoadRule b seq rule f s
  | .loadBin b seq bin f => Sys2Proof.Machine.execLoadBin b seq bin f s
  | .startPlan b seq slot atEnd => Sys2Proof.Machine.execStartPlan b seq slot atEnd s
  | .abortPlan b seq choice => Sys2Proof.Machine.execAbortPlan b seq choice s
  | .powerOn b seq => Sys2Proof.Machine.execPowerOn b seq s
  | .powerOff b seq => Sys2Proof.Machine.execPowerOff b seq s
  | .zoneMarkTest b seq zone => Sys2Proof.Machine.execZoneMarkTest b seq zone s
  | .zoneMarkSet b seq zone => Sys2Proof.Machine.execZoneMarkSet b seq zone s
  | .zoneMarkClear b seq zone => Sys2Proof.Machine.execZoneMarkClear b seq zone s
  | .zoneMarkToggle b seq zone => Sys2Proof.Machine.execZoneMarkToggle b seq zone s
  | .clearSession b seq => Sys2Proof.Machine.execClearSession b seq s
  | .setLine b seq lampFn auxFn lampLatch auxLatch => Sys2Proof.Machine.execSetLine b seq lampFn auxFn lampLatch auxLatch s
  | .ackNotice b seq clear mask => Sys2Proof.Machine.execAckNotice b seq clear mask s
  | .badCode b seq code => Sys2Proof.Machine.execBadCode b seq code s
  | .mailboxCollision b => Sys2Proof.Machine.execMailboxCollision b s
  | .annexMisuse b => Sys2Proof.Machine.execAnnexMisuse b s
  | .dataRequest b tag n => Sys2Proof.Machine.execDataRequest b tag n s
  | .readData b tag payload => Sys2Proof.Machine.execReadData b tag payload s
  | .completion b tag status => Sys2Proof.Machine.execCompletion b tag status s
  | .settleFlushIssue b => Sys2Proof.Machine.execSettleFlushIssue b s
  | .settledOff b => Sys2Proof.Machine.execSettledOff b s
  | .partTagAssign b => Sys2Proof.Machine.execPartTagAssign b s
  | .visitStart b => Sys2Proof.Machine.execVisitStart b s
  | .visitReadIssue b => Sys2Proof.Machine.execVisitReadIssue b s
  | .rescanStart b => Sys2Proof.Machine.execRescanStart b s
  | .rescanChunkIssue b => Sys2Proof.Machine.execRescanChunkIssue b s
  | .grant => Sys2Proof.Machine.execGrant s
  | .linkReset b => Sys2Proof.Machine.execLinkReset b s
  | .upstreamLinkDown b => Sys2Proof.Machine.execUpstreamLinkDown b s
  | .upstreamLinkUp b => Sys2Proof.Machine.execUpstreamLinkUp b s
  | .downstreamLinkUp b => Sys2Proof.Machine.execDownstreamLinkUp b s
  | .downstreamLinkDown b => Sys2Proof.Machine.execDownstreamLinkDown b s
  | .presentAssert b => Sys2Proof.Machine.execPresentAssert b s
  | .insertionRecognized b => Sys2Proof.Machine.execInsertionRecognized b s
  | .presentDeassert b => Sys2Proof.Machine.execPresentDeassert b s
  | .wipeZoneReset b => Sys2Proof.Machine.execWipeZoneReset b s
  | .holdTimeout b => Sys2Proof.Machine.execHoldTimeout b s
  | .idleTimerExpiry b => Sys2Proof.Machine.execIdleTimerExpiry b s
  | .timeoutEvent b => Sys2Proof.Machine.execTimeoutEvent b s
  | .spinupTimerExpiry b => Sys2Proof.Machine.execSpinupTimerExpiry b s
  | .dwellTimerExpiry b => Sys2Proof.Machine.execDwellTimerExpiry b s
  | .offTimeExpiry b => Sys2Proof.Machine.execOffTimeExpiry b s
  | .intervalTimerExpiry b => Sys2Proof.Machine.execIntervalTimerExpiry b s
  | .timeLimitExpiry b => Sys2Proof.Machine.execTimeLimitExpiry b s
  | .activityPulseEnd b => Sys2Proof.Machine.execActivityPulseEnd b s
  | .lampBlinkToggle b => Sys2Proof.Machine.execLampBlinkToggle b s

end Sys2Proof.Machine
end

