-- ==== Sys2Proof/WellFormed.lean ====
section
/-! DEFINITION. Which commands are well formed: their operands are values that the frames, the mailbox and the table's rows can
carry (R1, R164, R168). A command that is not well formed is no event of the part; exec is defined on it all the same. -/

namespace Sys2Proof

/-- An LBA of a frame: 0 to 2^48 − 1 (R1). -/
def lbaWf (lba : Nat) : Bool := decide (lba < 2 ^ 48)

/-- A count of a frame: 1 to 65536 sectors (R1). -/
def countWf (count : Nat) : Bool := decide (1 ≤ count ∧ count ≤ 65536)

/-- A data frame carries one or more whole sectors (R1). -/
def payloadWf (payload : List Sector) : Bool := !payload.isEmpty

/-- The failing LBA of a MEDIA-ERROR is an LBA (R1). -/
def DriveStatus.wf : DriveStatus → Bool
  | .good _ => true
  | .mediaError lba => lbaWf lba
  | .otherError => true

/-- The command is well formed. -/
def Instr.wf : Instr → Bool
  | .commandRead _ _ lba count => lbaWf lba && countWf count
  | .commandWrite _ _ lba count => lbaWf lba && countWf count
  | .bayReportLatch _ _ count => decide (1 ≤ count ∧ count ≤ 254)
  | .writeData _ _ payload => payloadWf payload
  | .readData _ _ payload => payloadWf payload
  | .dataRequest _ _ n => decide (1 ≤ n)
  | .badCode _ _ code => !decide (1 ≤ code.toNat ∧ code.toNat ≤ 12)
  | .completion _ _ status => status.wf
  | _ => true

end Sys2Proof
end

