-- ==== Sys2Proof/Safety.lean ====
section
/-! DEFINITION. The properties that statements about the part speak of: what else may change in an event of one bay, and the
invariants of the bays and of the rack. -/

namespace Sys2Proof.Machine

/-! ### What else may change -/

/-- Between `s` and `t` nothing changed outside bay `b`. -/
def OnlyBay (b : BayIx) (s t : State) : Prop := t.rack = s.rack ∧ t.pending = s.pending ∧ ∀ c, c ≠ b → t.bay c = s.bay c

/-- The outcome is a next state that satisfies `P`. -/
def AnswersNext (o : Host.Outcome State Fault Refusal) (P : State → Prop) : Prop := ∃ t, o = .next t ∧ P t

/-- The commands, run one after another from `s`, each answer a next state, and the last one is `t`. -/
def Runs : List Instr → State → State → Prop
  | [], s, t => t = s
  | c :: l, s, t => ∃ u, exec c s = .next u ∧ Runs l u t

/-! ### The words of the statements -/

/-- A HOST record as it opens: no sector delivered or sent, and every field of a part record absent (R23). -/
def hostRecord (kind : CmdKind) (lba count : Nat) (issue : Word) (pass : Option Nat) (judged : Bool) (tol : Nat)
    (mark : Option (BitVec 64)) : Rec :=
  { origin := .host, kind := kind, lba := lba, count := count, issue := issue, pass := pass, judged := judged, tol := tol
    delivered := 0, flushMark := mark, visit := none, rescans := 0, sent := 0, ship := none, gen := 0 }

/-- The tag is a free host tag: below 24, with no open HOST record, no held command and no annex command on it (R3). -/
def Bay.freeHostTag (x : Bay) (tag : Tag) : Prop :=
  tag.val < 24 ∧ (∀ r, x.tracker.recs[tag] = some r → r.origin ≠ .host) ∧ (∀ h ∈ x.lane.held, h.tag ≠ tag)
    ∧ ∀ a ∈ x.lane.annexSvc, a.tag ≠ tag

/-- The bay with a record put on a tag, or the tag freed. -/
def Bay.withRec (tag : Tag) (r : Option Rec) (x : Bay) : Bay :=
  { x with tracker := { x.tracker with recs := x.tracker.recs.set tag r } }

/-- The bay after a HOST record has opened on a tag and its command has been handed downstream: the idle timer is stopped, an
IDLE sweep yields (R9, R24, R33, R97). -/
def Bay.forwards (tag : Tag) (r : Rec) (body : List Byte) (x : Bay) : Bay :=
  { x with
    tracker := { x.tracker with recs := x.tracker.recs.set tag (some r), idle := none }
    sweep := x.sweep.hostOpened
    lane := x.lane.sendDown (.command tag r.kind r.lba r.count body) }

/-- The bay after a part record has opened on a tag and its command has been handed downstream (R9, R24). -/
def Bay.issues (tag : Tag) (r : Rec) (x : Bay) : Bay :=
  { x with
    tracker := { x.tracker with recs := x.tracker.recs.set tag (some r) }
    lane := x.lane.sendDown (.command tag r.kind r.lba r.count []) }

/-- The bay after a frame has gone upstream. -/
def Bay.sends (f : UpFrame) (x : Bay) : Bay := { x with lane := x.lane.sendUp f }

/-- The bay at the close of a HOST record of a kind whose own effects are already in `x`: the latency is binned, the ACTIVITY
pulse starts, the tag is free, the completion goes upstream, and with no HOST record left the idle timer starts (R26). -/
def Bay.closesHost (tag : Tag) (kind : CmdKind) (latency : Nat) (st : UpStatus) (x : Bay) : Bay :=
  let t := x.tracker.binLatency kind latency
  { x with
    lines := { x.lines with pulse := some 50 }
    tracker := Tracker.startIdle { t with recs := t.recs.set tag none }
    lane := x.lane.sendUp (.completion tag st) }

/-- The state after the latency of a closing record has been binned in the class of its kind (R26, R31). -/
def State.binned (b : BayIx) (r : Rec) (s : State) : State :=
  s.modBay b (fun x => { x with tracker := x.tracker.binLatency r.kind (s.rack.us - r.issue).toNat })

/-- The bay after the tag of a closed record has become free and the ACTIVITY pulse has started again (R26, R161). -/
def Bay.freed (tag : Tag) (x : Bay) : Bay :=
  { x with lines := { x.lines with pulse := some 50 }, tracker := { x.tracker with recs := x.tracker.recs.set tag none } }

/-- The bay whose sweep phase `a` has ended with a reason (R103). -/
def Bay.sweepEnds (a : Active) (reason : EndReason) (resume : Option Resume) (x : Bay) : Bay :=
  { x with sweep := { x.sweep with
    status := .ended, intervalTimer := none, active := some { a with endReason := some reason }, resume := resume } }

/-- The bay whose sweep `a` starts the next pass: P from the raised pass counter for a write op, a fresh window from visit 0 (R85,
R89, R90). -/
def Bay.nextPass (a : Active) (x : Bay) : Bay :=
  let stamps : Prop := a.cfg.op = .write ∨ a.cfg.op = .writeVerify
  let pc := if stamps then min 65535 (x.sweep.passCounter + 1) else x.sweep.passCounter
  { x with sweep := { x.sweep with
    passCounter := pc
    active := some { a with
      passIx := a.passIx + 1, firstVisit := 0, frontier := 0, window := Vector.replicate 8 .notStarted
      p := if stamps then some pc else none } } }

/-- The result sector after a directive that completes at once (R166). -/
def State.answered (b : BayIx) (code seq : Word) (result : DirResult) (ret : Word) (s : State) : State :=
  s.modBay b (·.modAnnex (fun a =>
    { a with result := { state := .complete, code := code, seq := seq, result := result, ret := ret } }))

/-- The state after a slot has been replaced: every bay's resume cursor that names it is emptied (R101, R118). -/
def State.slotLoaded (k : SlotIx) (body : SlotBody) (nxt : Option SlotIx) (s : State) : State :=
  { s with
    bays := mapVec (fun x => { x with sweep := { x.sweep with
      resume := x.sweep.resume.filter (fun u => decide (u.slot ≠ k)) } }) s.bays
    rack := { s.rack with slots := s.rack.slots.set k { body := body, nxt := nxt } } }

/-- The state in which a plan has just started: the use counts of its reachable set are one higher, the plan record is new, the
grade and the ship state are empty, the lamp follows (R122, R139, R145, R146). -/
def State.planStarted (b : BayIx) (f : SlotIx) (atEnd : Choice) (step : PhaseStep) (s : State) : State :=
  let reach := reachOf s.rack.slots f
  (refreshLamp b ((s.modRack (fun r => { r with
      useCounts := Vector.ofFn (fun k : Fin 96 => if reach[k] then r.useCounts[k] + 1 else r.useCounts[k]) })).modBay b (fun x =>
    { x with
      plan := { state := .running, firstSlot := some f, atEnd := some atEnd, reach := reach, cursor := some f, step := .none
                phaseStart := some s.rack.ms, timer := none, loopReg := none, outcome := none, fault := none, endSlot := none
                endTime := none, gen := x.plan.gen + 1 }
      grade := none
      ship := { name := .none, lba := none, clipped := false, reissue := false } }))).modBay b
    (·.modPlan (fun p => { p with step := step, timer := none }))

/-- The lowest part tag that is free and not retired (R24). -/
def Bay.lowestFree (x : Bay) (tag : Tag) : Prop :=
  24 ≤ tag.val ∧ x.tracker.recs[tag] = none ∧ tag ∉ x.lane.retired
    ∧ ∀ g : Tag, 24 ≤ g.val → g < tag → x.tracker.recs[g] ≠ none ∨ g ∈ x.lane.retired

/-- No request for a part tag waits and no sweep drains: a discard of the bay's records is then one change of the bay. -/
def Bay.plainDiscard (x : Bay) : Prop := x.tracker.waiting = [] ∧ x.sweep.status ≠ .draining

/-- The ship state after the bay's records have been discarded: the STAMP phase's own SHIP write is to be issued again, one left by an
ended plan has failed, but not while a later plan is in the write of its own STAMP phase (R145; log entry 25). -/
def Bay.shipDiscarded (x : Bay) : Ship :=
  let own := x.tracker.anyRec (fun r => decide (r.origin = .ship ∧ r.gen = x.plan.gen))
  let some? := x.tracker.anyRec (fun r => decide (r.origin = .ship))
  let inStamp := decide (x.plan.state = .running ∧ x.plan.step = .writing)
  if inStamp && own then { x.ship with name := .writing, reissue := true }
  else if !inStamp && some? then { x.ship with name := .failed, reissue := false }
  else x.ship

/-- The bay after a lane reset or a timeout event has discarded its records, with or without a reset of the downstream link: every
tag is free, or retired where the link stays up; the waiting frames are gone; a LEARN query is to be asked again; the idle timer starts
where a HOST record was open; the sweep is rewound unless it has ended (log entry 15), the rescan back at its first chunk; and their
requests are withdrawn (R19, R20, R30, R33, R35, R98, R113). The part's LINK RESET goes down at once, on a link that is DOWN too (log
entry 43). -/
def Bay.discards (reset : Bool) (x : Bay) : Bay :=
  { x with
    tracker := { x.tracker with
      recs := Vector.replicate 32 none
      idle := if x.tracker.hostOpen then some x.tracker.w else x.tracker.idle
      waiting := x.tracker.waiting.filter (fun r =>
        !(r.origin = .sweep && x.sweep.status.running) && !(r.origin = .rescan && x.sweep.rescan.isSome)) }
    lane := { x.lane with
      downUp := x.lane.downUp && !reset
      downSent := if reset then x.lane.downSent ++ [.linkReset] else x.lane.downSent
      retired := if reset then [] else x.lane.retired ++ allTags.filter (fun tag => x.tracker.recs[tag].isSome)
      downWait := [] }
    power := { x.power with
      learnWait := if x.tracker.anyRec (fun r => decide (r.origin = .learn)) then decide (x.power.state = .spinningUp)
        else x.power.learnWait }
    ship := x.shipDiscarded
    sweep := { x.sweep with
      active := if x.sweep.status.running then x.sweep.active.map (fun a => { a with window := mapVec VisitState.rewound a.window })
        else x.sweep.active
      rescan := x.sweep.rescan.map (fun q => { q with chunks := [], awaitLink := reset || !x.lane.downUp }) } }

/-- The completions that the open HOST records of a bay get when they are discarded with a status, in rising order of tag (the
order is the model's choice, log entry 6). -/
def Bay.hostCompletions (x : Bay) (st : UpStatus) : List UpFrame :=
  allTags.filterMap (fun tag => match x.tracker.recs[tag] with
    | some r => if r.origin = .host then some (.completion tag st) else none
    | none => none)

/-- The bay after a forced power-off has cut it to OFF: every record is gone, the HOST ones completing ABORTED (their order is the
model's choice, log entry 6) and then the held commands NOT-READY; the link is DOWN with nothing retired or waiting; the requests of the Power
Arbiter are withdrawn; the zones that the unsettled-write list touches become SUSPECT-LOSS and the list is empty (R157 steps 1 to 4;
R40, R69, R145). -/
def Bay.cutOff (x : Bay) : Bay :=
  { x with
    tracker := { x.tracker with
      recs := Vector.replicate 32 none
      idle := if x.tracker.hostOpen then some x.tracker.w else x.tracker.idle
      waiting := x.tracker.waiting.filter (fun r => decide (r.origin ≠ .settle ∧ r.origin ≠ .learn))
      unsettled := .ranges [] }
    lane := { x.lane with
      downUp := false, retired := [], downWait := [], held := []
      upSent := if x.lane.upUp then x.lane.upSent ++ x.hostCompletions .aborted ++ x.lane.held.map (fun h => .completion h.tag .notReady)
        else x.lane.upSent }
    power := { x.power with state := .off, spinTimer := none, learnWait := false }
    ship := x.shipDiscarded
    zm := x.zm.suspectMark x.tracker.unsettled }

/-- The state after a forced power-off of bay `b` without a fault, before the plan is told: the bay is in no grant queue (R151). -/
def State.cutOff (b : BayIx) (s : State) : State :=
  { s.modBay b Bay.cutOff with rack := { s.rack with queue := s.rack.queue.filter (fun c => c ≠ b) } }

/-- The annex state after a notice has been raised: its flag is set and its raise count is one higher (R170). -/
def Annex.raised (k : Fin 5) (a : Annex) : Annex :=
  { a with
    flags := a.flags.set k true, raises := a.raises.set k (if a.raises[k] < 2 ^ 32 - 1 then a.raises[k] + 1 else a.raises[k]) }

/-- The fields lie within a sector and do not overlap. -/
def fitsSector (fs : List Field) : Prop :=
  (∀ f ∈ fs, f.pos + f.width ≤ 4096)
    ∧ fs.Pairwise (fun f g => f.pos + f.width ≤ g.pos ∨ g.pos + g.width ≤ f.pos)

/-- A sector shows the fields of a layout, each at its place, and is 0 elsewhere (R172). -/
def Shows (x : Sector) (fs : List Field) : Prop := x = sectorOf fs ∧ fitsSector fs

/-- The mailbox of bay `b` is IDLE. -/
def State.mailboxIdle (s : State) (b : BayIx) : Prop := (s.bay b).annex.mailbox = .idle

/-- A bay's open records have the given property. -/
def Bay.everyRec (x : Bay) (p : Rec → Prop) : Prop := ∀ (tag : Tag) (r : Rec), x.tracker.recs[tag] = some r → p r

/-- The five kinds of arriving command, and the report READ, on one tag. -/
def arrivalsOn (b : BayIx) (tag : Tag) (lba count : Nat) (body : List Byte) : List Instr :=
  [.commandRead b tag lba count, .commandWrite b tag lba count, .commandFlush b tag, .commandCapacity b tag,
   .commandOther b tag body, .bayReportLatch b tag count]

/-! ### Invariants of a bay -/

/-- The marked zones among the listed records; an unlisted record is not marked (R63). -/
def ZoneMap.markedCount (m : ZoneMap) : Nat := (m.zones.map (fun e => e.2.weight)).sum

/-- The zone table is in its canonical form, and the distinct-defect count is the number of marked zones (R63). -/
def ZoneMap.sound (m : ZoneMap) : Prop := tblWf ZoneRec.init m.zones = true ∧ m.distinct = m.markedCount

/-- The reported capacity is 0 with no learned capacity, and else the learned capacity less 256 (R13). -/
def Bay.capacitySound (x : Bay) : Prop :=
  match x.power.cap with
  | none => x.lane.rc = 0
  | some c => x.lane.rc = c - 256

/-- The settings of SET-BAY lie in their ranges, and the pass counter is at most 65535 (R42, R72, R85, R167). -/
def Bay.rangesSound (x : Bay) : Prop :=
  x.settings.tolerance ≤ 255 ∧ x.settings.rescans ≤ 4 ∧ 1 ≤ x.tracker.w ∧ x.tracker.w ≤ 10000 ∧ 1000 ≤ x.tracker.tw
    ∧ x.tracker.tw ≤ 60000 ∧ x.sweep.passCounter ≤ 65535

/-- The mailbox is IDLE exactly when no session wipe is in progress (R165). -/
def Bay.mailboxSound (x : Bay) : Prop := x.annex.mailbox = .idle ↔ x.annex.wipe = none

/-- A bay with an ACTIVE session or a RUNNING plan holds a drive: it is not EMPTY (R120, R147, R149). -/
def Bay.sessionSound (x : Bay) : Prop :=
  (x.power.session = .active → x.power.state ≠ .empty) ∧ (x.plan.state = .running → x.power.state ≠ .empty)

/-- The entries of the unsettled-write list are at most 16, in ascending order, disjoint and not touching (R37, R38). -/
def Unsettled.sound : Unsettled → Prop
  | .ranges l => l.length ≤ 16 ∧ (∀ u ∈ l, u.lo ≤ u.hi) ∧ l.Pairwise (fun u v => u.hi + 1 < v.lo)
  | .whole _ => True

def Bay.unsettledSound (x : Bay) : Prop := x.tracker.unsettled.sound

/-! ### Invariants of the rack -/

/-- The rack configuration lies in the ranges of R169. -/
def Rack.configSound (r : Rack) : Prop :=
  1000 ≤ r.budget ∧ r.budget ≤ 60000 ∧ 100 ≤ r.spin ∧ r.spin ≤ 5000 ∧ r.spin ≤ r.budget ∧ 100 ≤ r.run ∧ r.run ≤ 3000
    ∧ r.run ≤ r.spin ∧ 5000 ≤ r.spinTimeout ∧ r.spinTimeout ≤ 60000 ∧ 1000 ≤ r.hold ∧ r.hold ≤ 60000 ∧ 1 ≤ r.limit
    ∧ r.limit ≤ 15

/-- The bays whose plan is RUNNING with slot k in its reachable set. -/
def State.planUsers (s : State) (k : SlotIx) : List BayIx := allBays.filter (fun b => (s.bay b).running && (s.bay b).plan.reach[k])

/-- Every use count is the number of those bays (R123). -/
def State.useCountsSound (s : State) : Prop := ∀ k : SlotIx, s.rack.useCounts[k] = (s.planUsers k).length

/-- The configuration is in range and the committed tally is within the power budget (R150). -/
def State.budgetSound (s : State) : Prop := s.rack.configSound ∧ s.tally ≤ s.rack.budget

/-- The grant queue holds each QUEUED bay once, and no other bay (R151). -/
def State.queueSound (s : State) : Prop :=
  s.rack.queue.Nodup ∧ ∀ b, b ∈ s.rack.queue ↔ (s.bay b).power.state = .queued

/-- Every bay of a state satisfies `P`. -/
def EveryBay (P : Bay → Prop) (s : State) : Prop := ∀ b, P (s.bay b)

/-- The use counts agree with the RUNNING plans, over bays that are sound (R123). -/
def State.planSound (s : State) : Prop := s.useCountsSound ∧ EveryBay Bay.sessionSound s

/-- `Inv` is kept by every step. -/
def StepKeeps (Inv : State → Prop) : Prop := ∀ s t : State, Inv s → step s = .next t → Inv t

end Sys2Proof.Machine
end

