-- ==== Sys2Proof/Certificates/Slice0/Obligations.lean ====
section
/-! DEFINITION. The statements about the part for the provers. A statement about a command says what it answers in the state the
rules give; `s` is the state with the command already taken from the queue. The frames a bay sends are seen in the model's own
lists of them (log entry 8), and an expiry taken early lets the time left pass first (the model's choice, log entry 3). -/

open Sys2Proof Sys2Proof.Machine

/-! ### The machine -/

/-- A step runs the command at the front of the queue on the state with the queue's rest. -/
def Obligations.StepRunsFrontCommand : Prop :=
  ∀ (c : Instr) (s : State), step { s with pending := c :: s.pending } = exec c s

/-- With no command waiting, the first annex READ in service is served its next sector; with none in service the part's first event
that is due joins the queue; with none due, one µs passes (the order and the µs are the model's choices, log entries 1 and 11). What
is due, in order: of each bay, the bays rising, a SETTLE flush (DEDUCED, log entry 31), a settling that is done, a tag for a waiting request, the read of a
WRITTEN visit, a visit, a rescan, a rescan's chunk; then a grant; then of each bay the timers that have run out; then a session wipe's
next zone; each under its own condition. The passing of n µs: the µs timestamp rises by n, the ms count by each full ms, and each
running timer falls by as many ms, held at 0: the idle timer, the phase timer in TIMING and OFF-TIME of a RUNNING plan, the INTERVAL
timer, the time remaining of a sweep that is ACTIVE, SUSPENDED or DRAINING, the spin-up timer, the debounce, the pulse and the blink;
one µs inside a ms changes the µs timestamp alone, and the ms a timer still has left take as long as the ms count needs to rise by
them (an expiry that is held until it is taken, and one taken early, are the model's choices, log entries 2 and 3). -/
def Obligations.EmptyQueueTakesDueEvent : Prop :=
  (∀ s : State, s.pending = [] →
    (∀ b c, nextRead s = some (b, c) → step s = .next (serveSector b c s))
    ∧ (nextRead s = none →
      (∀ c, due s = some c → step s = .next { s with pending := [c] })
      ∧ (due s = none → step s = .next (advance 1 s))))
  ∧ (∀ s : State,
    let bays : List BayIx := [0, 1, 2, 3, 4, 5, 6, 7]
    due s = (bays.flatMap (dueSteps s) ++ dueGrant s ++ bays.flatMap (dueExpiries s) ++ bays.flatMap (dueWipe s)).head?
    ∧ dueGrant s = if s.rack.queue ≠ [] ∧ s.tally + s.rack.spin ≤ s.rack.budget then [.grant] else [])
  ∧ (∀ (b : BayIx) (s : State),
    let x := s.bay b
    let issues (a : Active) : Prop := x.sweep.active = some a ∧ x.sweep.status = .active ∧ x.power.state = .on ∧ a.yielding = false
    List.Sublist (dueSteps s b) [.settleFlushIssue b, .settledOff b, .partTagAssign b, .visitReadIssue b, .visitStart b,
      .rescanStart b, .rescanChunkIssue b]
    ∧ (.settleFlushIssue b ∈ dueSteps s b ↔ x.power.state = .settling ∧ x.everyRec (fun r => r.kind ≠ .write ∧ r.origin ≠ .settle)
        ∧ x.tracker.unsettled ≠ .ranges [] ∧ ∀ r ∈ x.tracker.waiting, r.origin ≠ .settle)
    ∧ (.settledOff b ∈ dueSteps s b ↔ x.power.state = .settling ∧ x.everyRec (fun _ => False) ∧ x.tracker.unsettled = .ranges [])
    ∧ (.partTagAssign b ∈ dueSteps s b ↔ x.tracker.waiting ≠ [] ∧ ∃ tag, x.lowestFree tag)
    ∧ (.visitReadIssue b ∈ dueSteps s b ↔ ∃ a, issues a ∧ ∃ i : Fin 8, a.window[i] = .written)
    ∧ (.visitStart b ∈ dueSteps s b ↔ ∃ a, issues a ∧ (∀ i : Fin 8, a.window[i] ≠ .written) ∧ a.credit ≠ .count 0
        ∧ ((List.finRange 8).filter (fun i => decide (a.window[i] ≠ .notStarted ∧ a.window[i] ≠ .complete))).length < a.cfg.maxInFlight
        ∧ ∃ i : Fin 8, a.window[i] = .notStarted ∧ a.frontier + i.val < a.n)
    ∧ (.rescanStart b ∈ dueSteps s b ↔ x.plan.state = .running ∧ x.power.state = .on ∧ x.zm.queue ≠ [] ∧ x.sweep.rescan = none
        ∧ ∃ k, x.plan.cursor = some k
          ∧ ((∃ f a, s.rack.slots[k].body = .sweep f ∧ x.sweep.status = .active ∧ x.sweep.active = some a ∧ a.cfg.op ≠ .erase)
            ∨ ∃ d, s.rack.slots[k].body = .dwell d ∧ x.plan.step = .timing))
    ∧ (.rescanChunkIssue b ∈ dueSteps s b ↔ ∃ q z c, x.sweep.rescan = some q ∧ x.zm.z = some z ∧ x.power.cap = some c
        ∧ x.power.state = .on ∧ q.awaitLink = false
        ∧ ((∃ j, (j, VisitState.written) ∈ q.chunks)
          ∨ (q.chunks.filter (fun e => decide (e.2 = .writing ∨ e.2 = .reading))).length < q.limit ∧ ∃ j, q.nextChunk = some j))
    ∧ (∀ q : Rescan, q.chunks.Pairwise (fun e f => e.1 < f.1) → ∀ j, (q.nextChunk = some j ↔
        j < q.m ∧ (∀ e ∈ q.chunks, e.1 ≠ j) ∧ ∀ i, i < j → ∃ e ∈ q.chunks, e.1 = i))
    ∧ dueWipe s b = if x.annex.wipe = none then [] else [.wipeZoneReset b])
  ∧ (∀ (b : BayIx) (s : State),
    let x := s.bay b
    let p := x.plan
    List.Sublist (dueExpiries s b) [.timeoutEvent b, .insertionRecognized b, .spinupTimerExpiry b, .holdTimeout b, .idleTimerExpiry b,
      .dwellTimerExpiry b, .offTimeExpiry b, .intervalTimerExpiry b, .timeLimitExpiry b, .activityPulseEnd b, .lampBlinkToggle b]
    ∧ (.timeoutEvent b ∈ dueExpiries s b ↔
        ∃ (tag : Tag) (r : Rec), x.tracker.recs[tag] = some r ∧ x.tracker.tw * 1000 ≤ (s.rack.us - r.issue).toNat)
    ∧ (.insertionRecognized b ∈ dueExpiries s b ↔ x.lines.debounce = some 0)
    ∧ (.spinupTimerExpiry b ∈ dueExpiries s b ↔ x.power.state = .spinningUp ∧ x.power.spinTimer = some 0)
    ∧ (.holdTimeout b ∈ dueExpiries s b ↔ ∃ h rest, x.lane.held = h :: rest ∧ s.rack.hold ≤ (s.rack.ms - h.arrival).toNat)
    ∧ (.idleTimerExpiry b ∈ dueExpiries s b ↔ x.tracker.idle = some 0)
    ∧ (.dwellTimerExpiry b ∈ dueExpiries s b ↔ p.state = .running ∧ p.step = .timing ∧ p.timer = some 0)
    ∧ (.offTimeExpiry b ∈ dueExpiries s b ↔ p.state = .running ∧ p.step = .offTime ∧ p.timer = some 0)
    ∧ (.intervalTimerExpiry b ∈ dueExpiries s b ↔ x.sweep.intervalTimer = some 0)
    ∧ (.timeLimitExpiry b ∈ dueExpiries s b ↔
        (x.sweep.status = .active ∨ x.sweep.status = .suspended ∧ ∀ v, x.sweep.saved = some v → v.timeExpired = false)
        ∧ ∃ a, x.sweep.active = some a ∧ a.timeLeft = some 0)
    ∧ (.activityPulseEnd b ∈ dueExpiries s b ↔ x.lines.pulse = some 0)
    ∧ (.lampBlinkToggle b ∈ dueExpiries s b ↔ x.lines.blink = some 0))
  ∧ (∀ s : State,
    let falls (k : Nat) (timer : Option Nat) : Option Nat := timer.map (fun r => r - k)
    let elapsed (k : Nat) (x : Bay) : Bay := { x with
      tracker := { x.tracker with idle := falls k x.tracker.idle }
      plan := { x.plan with timer :=
        if x.plan.state = .running ∧ (x.plan.step = .timing ∨ x.plan.step = .offTime) then falls k x.plan.timer else x.plan.timer }
      sweep := { x.sweep with
        intervalTimer := falls k x.sweep.intervalTimer
        active := if x.sweep.status = .active ∨ x.sweep.status = .suspended ∨ x.sweep.status = .draining
          then x.sweep.active.map (fun a => { a with timeLeft := falls k a.timeLeft }) else x.sweep.active }
      power := { x.power with spinTimer := falls k x.power.spinTimer }
      lines := { x.lines with
        debounce := falls k x.lines.debounce, pulse := falls k x.lines.pulse, blink := falls k x.lines.blink } }
    let later (n k sub : Nat) : State := { s with
      bays := Vector.ofFn (fun b : Fin 8 => elapsed k s.bays[b])
      rack := { s.rack with us := s.rack.us + BitVec.ofNat 32 n, ms := s.rack.ms + BitVec.ofNat 32 k, sub := sub } }
    (∀ n, advance n s = later n ((s.rack.sub + n) / 1000) ((s.rack.sub + n) % 1000))
    ∧ (s.rack.sub < 999 → advance 1 s = { s with rack := { s.rack with us := s.rack.us + 1#32, sub := s.rack.sub + 1 } })
    ∧ (s.rack.sub = 999 → advance 1 s = later 1 1 0)
    ∧ advanceMs 0 s = s
    ∧ ∀ k, 1 ≤ k → s.rack.sub ≤ 1000 * k → advanceMs k s = later (1000 * k - s.rack.sub) k 0)

/-- No command stops the part: each answers a next state in every state. -/
def Obligations.NoCommandStops : Prop := ∀ (c : Instr) (s : State), AnswersNext (exec c s) (fun _ => True)

/-- After part reset: every bay EMPTY with no session, no capacity and no record, its settings, counters, zones, sweep, plan,
grade, ship state, lines and annex as the heads of the chapters say, and the rack's configuration, tables and queue at
their values. PART_RESET takes every block there from any state; the input pins stand, and an asserted PRESENT starts its
debounce (that the queue of commands and the pins are kept is the model's choice, log entries 5 and 32). -/
def Obligations.PartResetValues : Prop :=
  (∀ b : BayIx,
    let x := State.reset.bay b
    x.power.state = .empty ∧ x.power.session = .none ∧ x.power.unsupported = false ∧ x.power.cap = none
    ∧ x.lane.rc = 0 ∧ x.lane.held = [] ∧ x.lane.annexSvc = [] ∧ x.lane.retired = [] ∧ x.lane.downUp = false
    ∧ (∀ tag : Tag, x.tracker.recs[tag] = none) ∧ x.tracker.waiting = [] ∧ x.tracker.w = 50 ∧ x.tracker.tw = 10000
    ∧ x.tracker.idle = some 50 ∧ x.tracker.timeouts = 0 ∧ x.tracker.seq = 0#64 ∧ x.tracker.unsettled = .ranges []
    ∧ x.settings = { seed := 0#32, overlay := false, checking := false, tolerance := 0, rescans := 0 }
    ∧ x.counters.verified = 0 ∧ x.counters.list = List.replicate 11 0
    ∧ x.zm.z = none ∧ x.zm.used = 0 ∧ (∀ n, x.zm.get n = ZoneRec.init) ∧ x.zm.counts = List.replicate 5 0 ∧ x.zm.queue = []
    ∧ x.sweep.passCounter = 0 ∧ x.sweep.status = .none ∧ x.sweep.resume = none ∧ x.sweep.rescan = none
    ∧ x.sweep.saved = none ∧ x.plan.state = .none ∧ x.plan.loopReg = none ∧ x.grade = none ∧ x.ship.name = .none
    ∧ x.lines.lampFn = .sort ∧ x.lines.auxFn = .input ∧ x.lines.lampLatch = false ∧ x.lines.auxLatch = false
    ∧ x.annex.mailbox = .idle ∧ x.annex.result.state = .none ∧ x.annex.snapshot = none ∧ x.annex.collisions = 0
    ∧ x.annex.misuse = 0 ∧ x.annex.flags = Vector.replicate 5 false ∧ x.annex.mask = Vector.replicate 5 true
    ∧ x.annex.raises = Vector.replicate 5 0)
  ∧ (let r := State.reset.rack
    r.budget = 12000 ∧ r.spin = 2000 ∧ r.run = 800 ∧ r.spinTimeout = 30000 ∧ r.hold = 20000 ∧ r.limit = 3 ∧ r.faultBin = 15
    ∧ r.queue = [] ∧ (∀ k : SlotIx, r.slots[k] = { body := .empty, nxt := none } ∧ r.useCounts[k] = 0)
    ∧ (∀ k : Fin 24, r.rules[k].enable = false)
    ∧ ∀ k : Fin 16, r.bins[k] = { shippable := decide (k = 0), pattern := if k = 0 then .on else .fast, name := k.val })
  ∧ State.reset.tally = 0 ∧ State.reset.attention = false
  ∧ ∀ s : State, AnswersNext (exec .partReset s) (fun t =>
      t.rack = State.reset.rack ∧ t.pending = s.pending ∧ ∀ b : BayIx,
        t.bay b = { State.reset.bay b with lines := { (State.reset.bay b).lines with
          present := (s.bay b).lines.present, auxPin := (s.bay b).lines.auxPin
          debounce := if (s.bay b).lines.present then some 500 else none } })

/-! ### Invariants -/

/-- State.reset has every invariant below. -/
def Obligations.ResetHoldsInvariants : Prop :=
  EveryBay (fun x => x.zm.sound) State.reset ∧ EveryBay Bay.rangesSound State.reset
    ∧ EveryBay Bay.capacitySound State.reset ∧ EveryBay Bay.mailboxSound State.reset ∧ State.reset.planSound
    ∧ State.reset.budgetSound ∧ State.reset.queueSound ∧ EveryBay Bay.unsettledSound State.reset

/-- Every step keeps in every bay: the distinct-defect count is the number of zones whose mark is set, and the zone table keeps
its canonical form. -/
def Obligations.DistinctDefectCountIsMarkedZones : Prop := StepKeeps (EveryBay (fun x => x.zm.sound))

/-- Every step keeps the settings of SET-BAY in their ranges and the pass counter at most 65535; and every step keeps: the reported
capacity is 0 with no learned capacity, and else the learned capacity minus 256. -/
def Obligations.SettingsAndReportedCapacityStaySound : Prop :=
  (StepKeeps (EveryBay Bay.rangesSound))
  ∧ (StepKeeps (EveryBay Bay.capacitySound))

/-- Every step keeps: the mailbox is busy exactly while a session wipe runs. -/
def Obligations.MailboxBusyExactlyInWipe : Prop := StepKeeps (EveryBay Bay.mailboxSound)

/-- Every step keeps: a slot's use count is the number of bays whose RUNNING plan has the slot in its reachable set; a bay with
an ACTIVE session or a RUNNING plan is not EMPTY. -/
def Obligations.UseCountsAreRunningPlans : Prop := StepKeeps State.planSound

/-- Every step keeps the committed charge tally within the power budget. -/
def Obligations.TallyNeverExceedsBudget : Prop := StepKeeps State.budgetSound

/-- Every step keeps: a bay in QUEUED is in the grant queue once, and a bay in any other state is not. -/
def Obligations.GrantQueueHoldsQueuedBays : Prop := StepKeeps State.queueSound

/-- Every step keeps the entries of the unsettled-write lists at most 16, ascending, disjoint and not touching. -/
def Obligations.UnsettledListsStayOrdered : Prop := StepKeeps (EveryBay Bay.unsettledSound)

/-! ### The stamped sector -/

/-- The header of the stamped sector for S, P, L, with all sums modulo 2^32; for P below 65536 and L below 2^36 the high part of
L is below 16 and does not touch P; and each word of a sector lies in four bytes, the least significant first. -/
def Obligations.StampHeader : Prop :=
  ∀ (seed : Word) (p l : Nat),
    let x := stampSector seed p l
    x[0] = 0x454B5438#32 ∧ x[1] = BitVec.ofNat 32 (l % 2 ^ 32) ∧ x[2] = BitVec.ofNat 32 (p * 65536 + l / 2 ^ 32)
    ∧ x[3] = x[0] + x[1] + x[2] + seed
    ∧ (p < 65536 → l < 2 ^ 36 → l / 2 ^ 32 < 16 ∧ x[2].toNat / 65536 = p ∧ x[2].toNat % 65536 = l / 2 ^ 32)
    ∧ ∀ (k : Fin 1024) (i : Nat), i < 4 → byteOf x (4 * k.val + i) = x[k].extractLsb' (8 * i) 8

/-- The body of the stamped sector, word by word; its raw values are distinct. Two sectors whose LBAs differ by a multiple of 2^32
have the same body, and words 2 and 3 tell them apart. -/
def Obligations.StampBody : Prop :=
  (∀ (seed : Word) (p l : Nat) (k : Fin 1024), 4 ≤ k.val →
    let x := stampSector seed p l
    let a := seed ^^^ x[1]
    let b := a + BitVec.ofNat 32 p * 65537#32
    let stride := 2#32 * b + 1#32
    let raw := b + BitVec.ofNat 32 k.val * stride
    stride.getLsbD 0 = true
    ∧ (∀ j : Fin 1024, b + BitVec.ofNat 32 j.val * stride = raw → j = k)
    ∧ x[k] = if p % 2 = 1 then ~~~(raw.rotateLeft (k.val % 32)) else raw.rotateLeft (k.val % 32))
  ∧ ∀ (seed : Word) (p l m : Nat), l % 2 ^ 32 = m % 2 ^ 32 →
    (∀ k : Fin 1024, 4 ≤ k.val → (stampSector seed p l)[k] = (stampSector seed p m)[k])
    ∧ (l ≠ m → l < 2 ^ 36 → m < 2 ^ 36 →
        (stampSector seed p l)[2] ≠ (stampSector seed p m)[2] ∧ (stampSector seed p l)[3] ≠ (stampSector seed p m)[3])

/-- The values the Stamp Engine takes from a sector's first four words. -/
def Obligations.HeaderValues : Prop :=
  ∀ (seed : Word) (x : Sector),
    (bearsSignature x = true ↔ x[0] = 0x454B5438#32)
    ∧ (headerSumHolds seed x = true ↔ x[3] = x[0] + x[1] + x[2] + seed)
    ∧ headerLba x = x[1].toNat + x[2].toNat % 65536 * 2 ^ 32 ∧ headerLba x ≤ 2 ^ 48 - 1
    ∧ headerPass x = x[2].toNat / 65536 ∧ headerPass x ≤ 65535

/-- A stamped sector read back from its own LBA, with its own seed, at a pass in the window, is GOOD whatever the tolerance;
read back from another LBA it is MISPLACED. -/
def Obligations.StampedSectorJudgesGood : Prop :=
  ∀ (seed : Word) (tol lo hi p l m : Nat), p < 65536 → l < 2 ^ 48 → lo ≤ p → p ≤ hi →
    stampedCheck seed tol lo hi l (stampSector seed p l) = .good
    ∧ (m ≠ l → stampedCheck seed tol lo hi m (stampSector seed p l) = .misplaced)

/-- The tests of the stamped check in their order; E counts the bits that differ between words 4 to 1023 and the generated body. -/
def Obligations.StampedCheckOrder : Prop :=
  ∀ (seed : Word) (tol lo hi l : Nat) (x : Sector),
    let v := stampedCheck seed tol lo hi l x
    let body := stampSector seed (headerPass x) l
    let e := ((List.finRange 1024).map (fun k =>
      if 4 ≤ k.val then ((List.range 32).filter (fun i => (x[k] ^^^ body[k]).getLsbD i)).length else 0)).sum
    (bearsSignature x = false → (∀ k : Fin 1024, x[k] = 0#32) → v = .blank)
    ∧ (bearsSignature x = false → (∃ k : Fin 1024, x[k] ≠ 0#32) → v = .foreign)
    ∧ (bearsSignature x = true → headerSumHolds seed x = false → v = .headerCorrupt)
    ∧ (bearsSignature x = true → headerSumHolds seed x = true → headerLba x ≠ l → v = .misplaced)
    ∧ (bearsSignature x = true → headerSumHolds seed x = true → headerLba x = l → headerPass x < lo → v = .stale)
    ∧ (bearsSignature x = true → headerSumHolds seed x = true → headerLba x = l → lo ≤ headerPass x → hi < headerPass x →
        v = .ahead)
    ∧ (bearsSignature x = true → headerSumHolds seed x = true → headerLba x = l → lo ≤ headerPass x → headerPass x ≤ hi →
        v = if e = 0 then .good else if e ≤ tol then .soft else .corrupt)

/-- What E counts, its range, and the outcome it gives with the tolerance T. -/
def Obligations.BitErrorsDecide : Prop :=
  (∀ (seed : Word) (p l : Nat) (x : Sector),
    bodyErrors seed p l x = ((List.finRange 1024).map (fun k =>
      if 4 ≤ k.val then ((List.range 32).filter (fun i => (x[k] ^^^ (stampSector seed p l)[k]).getLsbD i)).length else 0)).sum
    ∧ bodyErrors seed p l x ≤ 32640)
  ∧ (∀ x : Sector,
    oneBits x = ((List.finRange 1024).map (fun k => ((List.range 32).filter (fun i => x[k].getLsbD i)).length)).sum
    ∧ oneBits x ≤ 32768)
  ∧ (∀ (tol : Nat) (x : Sector), zeroCheck tol x = gradeErrors tol (oneBits x))
  ∧ (∀ (seed : Word) (tol lo hi l : Nat) (x : Sector),
    bearsSignature x = true → headerSumHolds seed x = true → headerLba x = l → lo ≤ headerPass x → headerPass x ≤ hi →
    stampedCheck seed tol lo hi l x = gradeErrors tol (bodyErrors seed (headerPass x) l x))
  ∧ ∀ tol e : Nat,
    (e = 0 → gradeErrors tol e = .good) ∧ (1 ≤ e → e ≤ tol → gradeErrors tol e = .soft)
    ∧ (1 ≤ e → tol < e → gradeErrors tol e = .corrupt)

/-- The reference of a sector, from its zone's kind, the passes of the open stamped writes over it, and the signature; and judging in
its steps: the wipe, an open unstamped write, an open ERASE write with a zero sector, the reference's comparison, and in a
SUSPECT-LOSS zone STALE and BLANK become LOST-WRITE. The passes over an LBA are exactly those of the open WRITE records with a pass
written whose range holds it; its record is that of zone floor(L / 2^z), and the initial one while the zone shift is not known (log
entry 26). The comparison with a reference: with a window the stamped check of that window, with zeros the zero check, with no
reference UNCHECKED. -/
def Obligations.JudgingSteps : Prop :=
  (∀ (lo hi q : Nat) (ps : List Nat) (signed : Bool),
      let low := (q :: ps).foldl min q
      let high := (q :: ps).foldl max q
      referenceOf (.stamped lo hi) [] signed = .stamped lo hi
      ∧ referenceOf (.stamped lo hi) (q :: ps) signed = .stamped (min lo low) (max hi high)
      ∧ referenceOf (.mixed lo hi) [] true = .stamped lo hi
      ∧ referenceOf (.mixed lo hi) (q :: ps) true = .stamped (min lo low) (max hi high)
      ∧ (∀ l, referenceOf (.mixed lo hi) l false = .unchecked)
      ∧ referenceOf .erased (q :: ps) true = .stamped low high
      ∧ referenceOf .erased [] signed = .zero ∧ (∀ l, referenceOf .erased l false = .zero)
      ∧ referenceOf .unwritten (q :: ps) true = .stamped low high
      ∧ referenceOf .unwritten [] signed = .unchecked ∧ ∀ l, referenceOf .unwritten l false = .unchecked)
  ∧ (∀ (x : Bay) (tol l : Nat) (sec : Sector),
      let open? (p : Rec → Prop) := ∃ (tag : Tag) (r : Rec), x.tracker.recs[tag] = some r ∧ r.kind = .write ∧ r.lba ≤ l
        ∧ l < r.lba + r.count ∧ p r
      let hostRaw := open? (fun r => (r.origin = .host ∧ r.pass = none) ∨ r.origin = .ship)
      let erase := open? (fun r => r.origin = .sweep ∧ r.pass = none)
      let z := x.zm.recordAt l
      let c := compareTo x.settings.seed tol l sec (referenceOf z.kind (openPasses x.tracker l) (bearsSignature sec))
      (x.annex.wipe.isSome → judge x tol l sec = .unchecked)
      ∧ (x.annex.wipe = none → hostRaw → judge x tol l sec = .unchecked)
      ∧ (x.annex.wipe = none → ¬ hostRaw → erase → allZero sec = true → judge x tol l sec = .good)
      ∧ (x.annex.wipe = none → ¬ hostRaw → (¬ erase ∨ allZero sec = false) →
          judge x tol l sec = if z.suspect = true ∧ (c = .stale ∨ c = .blank) then .lostWrite else c))
  ∧ (∀ (x : Bay) (l : Nat),
    (∀ p : Nat, p ∈ openPasses x.tracker l ↔ ∃ (tag : Tag) (r : Rec), x.tracker.recs[tag] = some r ∧ r.kind = .write ∧ r.lba ≤ l
      ∧ l < r.lba + r.count ∧ r.pass = some p)
    ∧ (x.zm.z = none → x.zm.recordAt l = ZoneRec.init)
    ∧ ∀ z, x.zm.z = some z → x.zm.recordAt l = x.zm.get (l / 2 ^ z))
  ∧ (∀ (seed : Word) (tol l : Nat) (sec : Sector),
    compareTo seed tol l sec .unchecked = .unchecked ∧ compareTo seed tol l sec .zero = zeroCheck tol sec
    ∧ ∀ lo hi, compareTo seed tol l sec (.stamped lo hi) = stampedCheck seed tol lo hi l sec)

/-! ### Latency, rates and orders -/

/-- The bin of a latency of t µs, what binning it changes, and the zeros after part reset and after a session wipe. A CAPACITY or
OTHER command's latency is not binned. -/
def Obligations.LatencyBinned : Prop :=
  (∀ t : Nat,
    (t < 1000 → latencyBin t = 0)
    ∧ (∀ k : Nat, 1 ≤ k → k ≤ 10 → 1000 * 2 ^ (k - 1) ≤ t → t < 1000 * 2 ^ k → latencyBin t = k)
    ∧ (1024000 ≤ t → latencyBin t = 11))
  ∧ (∀ (t : Nat) (h : Hist) (k : Fin 12),
    (h.note t).bins[k] = (if k.val = latencyBin t ∧ h.bins[k] < 2 ^ 32 - 1 then h.bins[k] + 1 else h.bins[k])
    ∧ (h.note t).worst = if h.worst < t then t else h.worst)
  ∧ (∀ (t : Nat) (x : Tracker),
    x.binLatency .read t = { x with histRead := x.histRead.note t }
    ∧ x.binLatency .write t = { x with histWrite := x.histWrite.note t }
    ∧ x.binLatency .flush t = { x with histFlush := x.histFlush.note t })
  ∧ (∀ (t : Nat) (x : Tracker), x.binLatency .capacity t = x ∧ x.binLatency .other t = x)
  ∧ (∀ h : Hist, h ∈ [Tracker.init.histRead, Tracker.init.histWrite, Tracker.init.histFlush] →
      h = { bins := Vector.replicate 12 0, worst := 0 })
  ∧ (∀ (i : Bool) (t : Tracker) (h : Hist), h ∈ [(t.beginWipe i).histRead, (t.beginWipe i).histWrite, (t.beginWipe i).histFlush] →
      h = { bins := Vector.replicate 12 0, worst := 0 })

/-- HARD-PPM and SOFT-PPM. -/
def Obligations.ErrorRates : Prop :=
  ∀ (x : Bay) (arg : Nat),
    let c := x.counters
    let hard := min (2 ^ 32 - 1) (c.corrupt + c.misplaced + c.headerCorrupt + c.unreadable)
    (c.verified = 0 → metric x 22 arg = 0 ∧ metric x 23 arg = 0)
    ∧ (0 < c.verified →
        metric x 22 arg = min 1000000 (hard * 1000000 / c.verified)
        ∧ metric x 23 arg = min 1000000 (c.soft * 1000000 / c.verified))

/-- The chunk of a visit, and the covered range; in the first four orders each pass visits every chunk once. -/
def Obligations.VisitingOrders : Prop :=
  (∀ n v : Nat,
    chunkOf .ascendRestart n v = v ∧ chunkOf .ascendContinue n v = v ∧ chunkOf .descend n v = n - 1 - v
    ∧ (v % 2 = 0 → chunkOf .butterfly n v = v / 2) ∧ (v % 2 = 1 → chunkOf .butterfly n v = n - 1 - (v - 1) / 2)
    ∧ chunkOf .fixed n v = 0)
  ∧ (∀ (o : SweepOrder) (n c : Nat), o ≠ .fixed → c < n → ∃ v, v < n ∧ chunkOf o n v = c ∧ ∀ w, w < n → chunkOf o n w = c → w = v)
  ∧ (∀ m : Nat, chunkOf .butterfly (2 * m + 1) (2 * m) = m)
  ∧ ∀ a : Active,
    (a.cfg.order = .ascendRestart ∨ a.cfg.order = .descend ∨ a.cfg.order = .butterfly → a.covered = (a.lo, a.hi))
    ∧ (a.cfg.order = .ascendContinue → a.covered = (a.lo + a.firstVisit * a.cfg.chunk, a.hi))
    ∧ (a.cfg.order = .fixed → a.covered = (a.lo, min (a.lo + a.cfg.chunk) a.hi))

/-! ### Arrivals -/

/-- A tag from 24 to 31 completes TAG-REFUSED, a busy host tag TAG-BUSY, and nothing else changes. Every sector range lies in exactly
one place: the drive range, the annex, or outside (R5); on a free host tag a READ or WRITE that lies outside completes
RANGE. -/
def Obligations.ArrivalChecks : Prop :=
  (∀ (b : BayIx) (tag : Tag) (lba count : Nat) (body : List Byte) (s : State), ∀ i ∈ arrivalsOn b tag lba count body,
      (24 ≤ tag.val → exec i s = .next (s.modBay b (·.sends (.completion tag .tagRefused))))
      ∧ (tag.val < 24 → ¬ (s.bay b).freeHostTag tag → exec i s = .next (s.modBay b (·.sends (.completion tag .tagBusy)))))
  ∧ (∀ rc lba count : Nat, 1 ≤ count →
      (lba + count ≤ rc → placeOf rc lba count = .drive)
      ∧ (rc ≤ lba → lba + count ≤ rc + 256 → placeOf rc lba count = .annex (lba - rc))
      ∧ (rc < lba + count → (lba < rc ∨ rc + 256 < lba + count) → placeOf rc lba count = .outside))
  ∧ (∀ (b : BayIx) (tag : Tag) (lba count : Nat) (s : State), (s.bay b).freeHostTag tag → 1 ≤ count →
      (s.bay b).lane.rc < lba + count → (lba < (s.bay b).lane.rc ∨ (s.bay b).lane.rc + 256 < lba + count) →
      exec (.commandRead b tag lba count) s = .next (s.modBay b (·.sends (.completion tag .range)))
      ∧ exec (.commandWrite b tag lba count) s = .next (s.modBay b (·.sends (.completion tag .range))))

/-- In ON, a command on a free host tag opens a HOST record on that tag and is forwarded: a READ or WRITE of the drive range, whose
pass written, judged setting and tolerance are fixed by the settings at that moment; a FLUSH, with the completion sequence as its
flush mark; a CAPACITY; and an OTHER command, whose body goes down unchanged. A host record's opening makes an ACTIVE sweep with the
IDLE trigger yield with credit 0, and leaves every other sweep as it is. -/
def Obligations.HostCommandsInOnAreForwarded : Prop :=
  (∀ (b : BayIx) (tag : Tag) (lba count : Nat) (s : State),
      (s.bay b).freeHostTag tag → (s.bay b).power.state = .on → lba + count ≤ (s.bay b).lane.rc →
      exec (.commandRead b tag lba count) s = .next (s.modBay b (fun x =>
        x.forwards tag (hostRecord .read lba count s.rack.us none (x.settings.checking && x.annex.wipe.isNone)
          x.settings.tolerance none) []))
      ∧ exec (.commandWrite b tag lba count) s = .next (s.modBay b (fun x =>
        x.forwards tag (hostRecord .write lba count s.rack.us (if x.settings.overlay then some x.sweep.passCounter else none)
          false x.settings.tolerance none) [])))
  ∧ (∀ (b : BayIx) (tag : Tag) (body : List Byte) (s : State), (s.bay b).freeHostTag tag → (s.bay b).power.state = .on →
      exec (.commandFlush b tag) s = .next (s.modBay b (fun x =>
        x.forwards tag (hostRecord .flush 0 0 s.rack.us none false x.settings.tolerance (some x.tracker.seq)) []))
      ∧ exec (.commandCapacity b tag) s = .next (s.modBay b (fun x =>
        x.forwards tag (hostRecord .capacity 0 0 s.rack.us none false x.settings.tolerance none) []))
      ∧ exec (.commandOther b tag body) s = .next (s.modBay b (fun x =>
        x.forwards tag (hostRecord .other 0 0 s.rack.us none false x.settings.tolerance none) body)))
  ∧ (∀ w : Sweep,
    (∀ a : Active, w.active = some a → w.status = .active → a.cfg.trigger = .idle →
      w.hostOpened = { w with active := some { a with yielding := true, credit := .count 0 } })
    ∧ (w.active = none ∨ w.status ≠ .active ∨ (∀ a : Active, w.active = some a → a.cfg.trigger ≠ .idle) → w.hostOpened = w))

/-- In QUEUED and SPINNING-UP with a known capacity, a drive-range READ, WRITE or FLUSH joins the tail of the hold list with its
arrival time, and nothing else changes. At the change to ON of a known drive (no plan RUNNING, no other bay queued, no request
waiting) the hold list is emptied from its head: each command is forwarded as if it arrived then, a READ or WRITE that no longer fits
the drive range completes RANGE. -/
def Obligations.HeldDuringSpinUp : Prop :=
  (∀ (b : BayIx) (tag : Tag) (lba count : Nat) (s : State), (s.bay b).freeHostTag tag →
    ((s.bay b).power.state = .queued ∨ (s.bay b).power.state = .spinningUp) → (s.bay b).power.cap ≠ none →
    let holds (kind : CmdKind) (l n : Nat) := Host.Outcome.next (φ := Fault) (ρ := Refusal) (s.modBay b (fun x =>
      { x with lane := { x.lane with
          held := x.lane.held ++ [{ tag := tag, kind := kind, lba := l, count := n, arrival := s.rack.ms }] } }))
    exec (.commandFlush b tag) s = holds .flush 0 0
    ∧ (lba + count ≤ (s.bay b).lane.rc →
        exec (.commandRead b tag lba count) s = holds .read lba count
        ∧ exec (.commandWrite b tag lba count) s = holds .write lba count))
  ∧ (∀ (b : BayIx) (tag : Tag) (r : Rec) (a : CapacityAnswer) (s : State),
      let x := s.bay b
      x.tracker.recs[tag] = some r → r.origin = .learn → r.kind = .capacity → x.power.state = .spinningUp →
      a.sectorSize = 4096 → a.queueDepth = 32 → 1048576 ≤ a.capacity → a.capacity ≤ 68719476736 → x.power.cap = some a.capacity →
      s.rack.queue = [] → x.plan.state ≠ .running → x.tracker.waiting = [] →
      let on (x : Bay) : Bay := { x with
        power := { x.power with
          state := .on, spinTimer := none, longest := max x.power.longest (s.rack.ms - x.power.grantTime).toNat }
        lane := { x.lane with held := [] } }
      let drain (x : Bay) (h : Held) : Bay :=
        if h.kind = .flush ∨ h.lba + h.count ≤ x.lane.rc then
          x.forwards h.tag (hostRecord h.kind h.lba h.count s.rack.us
            (if h.kind = .write ∧ x.settings.overlay = true then some x.sweep.passCounter else none)
            (decide (h.kind = .read) && x.settings.checking && x.annex.wipe.isNone) x.settings.tolerance
            (if h.kind = .flush then some x.tracker.seq else none)) []
        else x.sends (.completion h.tag .range)
      exec (.completion b tag (.good (some a))) s = .next (s.modBay b (fun x => (x.lane.held.foldl drain (on x)).freed tag)))

/-- Outside ON: a drive-range READ, WRITE or FLUSH in EMPTY, OFF or SETTLING and an OTHER command complete NOT-READY; a CAPACITY
command is answered with Rc, 4096 and 24. Nothing else changes. -/
def Obligations.AnsweredOutsideOn : Prop :=
  ∀ (b : BayIx) (tag : Tag) (lba count : Nat) (body : List Byte) (s : State), (s.bay b).freeHostTag tag →
    (s.bay b).power.state ≠ .on →
    let notReady := Host.Outcome.next (φ := Fault) (ρ := Refusal) (s.modBay b (·.sends (.completion tag .notReady)))
    exec (.commandOther b tag body) s = notReady
    ∧ exec (.commandCapacity b tag) s = .next (s.modBay b (fun x =>
        x.sends (.completion tag (.capacity { capacity := x.lane.rc, sectorSize := 4096, queueDepth := 24 }))))
    ∧ ((s.bay b).power.state = .empty ∨ (s.bay b).power.state = .off ∨ (s.bay b).power.state = .settling →
        exec (.commandFlush b tag) s = notReady
        ∧ (lba + count ≤ (s.bay b).lane.rc →
            exec (.commandRead b tag lba count) s = notReady ∧ exec (.commandWrite b tag lba count) s = notReady))
    ∧ ((s.bay b).power.cap = none → exec (.commandFlush b tag) s = notReady)

/-! ### The annex -/

/-- An annex READ on a free host tag is served in every power state, one sector at a time: its first sector, as its offset then reads,
goes upstream, and a READ of one sector completes GOOD, a longer one stands in the annex service; each later step on an empty queue
sends the next sector of the first READ in service, and after its last one the READ completes GOOD. A READ that begins at offset 2,
as COMMAND_READ or as the row BAY_REPORT_LATCH, first latches a snapshot whose number is one more, and its first sector is the
snapshot's. The offsets without content, and 2 and 3 before a first latch, read as zeros; after it 2 and 3 read the latched report.
(When a sector is served, and which READ first, is the model's choice, log entry 11.) -/
def Obligations.AnnexReadsServed : Prop :=
  (∀ (b : BayIx) (tag : Tag) (lba count : Nat) (s : State), (s.bay b).freeHostTag tag → 1 ≤ count →
    (s.bay b).lane.rc ≤ lba → lba + count ≤ (s.bay b).lane.rc + 256 → lba ≠ (s.bay b).lane.rc + 2 →
    let off := lba - (s.bay b).lane.rc
    let first : Bay → Bay := (·.sends (.readData tag [annexSector b off s]))
    (count = 1 → exec (.commandRead b tag lba count) s = .next (s.modBay b (fun x => (first x).sends (.completion tag .good))))
    ∧ (2 ≤ count → exec (.commandRead b tag lba count) s = .next (s.modBay b (fun x => (first x).modLane (fun l => { l with
        annexSvc := l.annexSvc ++ [{ tag := tag, isWrite := false, offset := off, count := count, done := 1 }] })))))
  ∧ (∀ (b : BayIx) (tag : Tag) (count : Nat) (s : State), (s.bay b).freeHostTag tag → 1 ≤ count → count ≤ 254 →
    let no := (s.bay b).annex.snapshotNo + 1#32
    let report := sectorOf (reportFields s b no)
    let latched : Bay → Bay := fun x => { x with annex := { x.annex with
      snapshotNo := no, snapshot := some (report, sectorOf (reportFields3 s b no)) } }
    let first : Bay → Bay := fun x => (latched x).sends (.readData tag [report])
    ∀ c ∈ [Instr.bayReportLatch b tag count, .commandRead b tag ((s.bay b).lane.rc + 2) count],
      (count = 1 → exec c s = .next (s.modBay b (fun x => (first x).sends (.completion tag .good))))
      ∧ (2 ≤ count → exec c s = .next (s.modBay b (fun x => (first x).modLane (fun l => { l with
          annexSvc := l.annexSvc ++ [{ tag := tag, isWrite := false, offset := 2, count := count, done := 1 }] })))))
  ∧ (∀ (b : BayIx) (c : AnnexCmd) (pre post : List AnnexCmd) (s : State), s.pending = [] →
    (∀ d, d < b → ∀ a ∈ (s.bay d).lane.annexSvc, a.isWrite = true) →
    (s.bay b).lane.annexSvc = pre ++ c :: post → (∀ a ∈ pre, a.isWrite = true) → c.isWrite = false →
    c.offset ≠ 2 ∨ 1 ≤ c.done →
    let sent : Bay → Bay := (·.sends (.readData c.tag [annexSector b (c.offset + c.done) s]))
    (c.done + 1 < c.count → step s = .next (s.modBay b (fun x => (sent x).modLane (fun l => { l with
        annexSvc := l.annexSvc.map (fun a => if a.tag = c.tag then { a with done := c.done + 1 } else a) }))))
    ∧ (c.count ≤ c.done + 1 → step s = .next (s.modBay b (fun x => ((sent x).modLane (fun l => { l with
        annexSvc := l.annexSvc.filter (fun a => a.tag ≠ c.tag) })).sends (.completion c.tag .good)))))
  ∧ (∀ (b : BayIx) (off : Nat) (s : State),
    (off = 0 ∨ (5 ≤ off ∧ off ≤ 15) ∨ (19 ≤ off ∧ off ≤ 23) ∨ (25 ≤ off ∧ off ≤ 31) ∨ 40 ≤ off → annexSector b off s = zeroSector)
    ∧ ((s.bay b).annex.snapshot = none → annexSector b 2 s = zeroSector ∧ annexSector b 3 s = zeroSector)
    ∧ ∀ x y, (s.bay b).annex.snapshot = some (x, y) → annexSector b 2 s = x ∧ annexSector b 3 s = y)

/-- Fields that fit a sector and do not overlap are read back at their places, least significant byte first, and every byte that no
field names is 0. The plan pages (offsets 16, 17), the rule and bin page (18), the rack report (4), the zone record pages (32 to 39),
the sweep state (24), the result sector (1) and the bay report's two sectors show the fields of R169 and R173 to R177, and so does the
ship record with its sum; a field with no value shows 255 for a slot or zone and 0 else; every code is that of R172. (The model's own
readings: places that a layout gives as a list over a range, log entry 29; the name code at byte 115 of the bay report, log entry 33;
its deciding rule without a grade, log entry 34; the last LBA of a whole-drive entry while C is not known, log entry 35; a ship
record's deciding rule of none, log entry 39; no field of the bay report for the spin-up timer, log entry 40; in flight of a
SUSPENDED sweep counts its WRITTEN visits, DEDUCED, log entry 44; which bit of byte 820 each read-back line takes, log entry 47.) -/
def Obligations.SectorFieldsReadBack : Prop :=
  (∀ fs : List Field, fitsSector fs →
    (∀ f ∈ fs, bytesOf (sectorOf fs) f.pos f.width = f.val % 256 ^ f.width)
    ∧ ∀ i, i < 4096 → (∀ f ∈ fs, i < f.pos ∨ f.pos + f.width ≤ i) → byteOf (sectorOf fs) i = 0#8)
  ∧ (∀ (b : BayIx) (s : State),
    let x := s.bay b
    let r := s.rack
    let flag (p : Bool) : Nat := if p then 1 else 0
    let slot (n : Option SlotIx) : Nat := match n with | some k => k.val | none => 255
    let place (k : SlotIx) : List Field :=
      [⟨0, 1, r.slots[k].body.code⟩, ⟨1, 1, slot r.slots[k].nxt⟩, ⟨2, 1, r.useCounts[k]⟩] ++
        match r.slots[k].body with
        | .empty => []
        | .sweep f =>
          [⟨4, 1, f.op.code⟩, ⟨5, 1, f.order.code⟩, ⟨6, 1, f.pacing.code⟩, ⟨7, 1, f.trigger.code⟩, ⟨8, 6, f.start⟩, ⟨14, 6, f.length⟩,
           ⟨20, 2, f.chunk⟩, ⟨22, 1, f.block⟩, ⟨23, 1, f.maxInFlight⟩, ⟨24, 1, f.passes⟩, ⟨25, 1, f.tolerance⟩, ⟨26, 1, f.rescans⟩,
           ⟨28, 4, f.interval⟩, ⟨32, 4, f.limit⟩]
        | .dwell d => [⟨4, 4, d⟩]
        | .powerCycle off => [⟨4, 4, off⟩]
        | .powerOff => []
        | .loop target count => [⟨4, 1, target.val⟩, ⟨5, 1, count⟩]
        | .grade bin other => [⟨4, 1, bin.val⟩, ⟨5, 1, slot other⟩]
        | .stamp lba => [⟨4, 6, lba⟩]
    let zone (n : Nat) : List Field :=
      let z := x.zm.get n
      let window : Nat × Nat := match z.kind with
        | .stamped lo hi => (lo, hi)
        | .mixed lo hi => (lo, hi)
        | .unwritten => (0, 0)
        | .erased => (0, 0)
      [⟨0, 1, z.kind.code⟩, ⟨1, 1, z.cls.code⟩,
       ⟨2, 1, bitsToNat [z.suspect, z.mark, x.zm.queue.any (fun q => q.zone = n), decide (x.sweep.rescan.map (·.zone) = some n)]⟩,
       ⟨3, 1, z.hits⟩, ⟨4, 2, window.1⟩, ⟨6, 2, window.2⟩]
    Shows (annexSector b 16 s) (((List.finRange 96).take 64).flatMap (fun k => shiftFields (64 * k.val) (place k)))
    ∧ Shows (annexSector b 17 s) (((List.finRange 96).drop 64).flatMap (fun k => shiftFields (64 * (k.val - 64)) (place k)))
    ∧ Shows (annexSector b 18 s)
        ((List.finRange 24).flatMap (fun k => shiftFields (16 * k.val)
          [⟨0, 1, flag r.rules[k].enable⟩, ⟨1, 1, r.rules[k].selector⟩, ⟨2, 1, r.rules[k].argument⟩, ⟨3, 1, r.rules[k].comparison.code⟩,
           ⟨4, 4, r.rules[k].threshold⟩, ⟨8, 1, r.rules[k].target.val⟩, ⟨9, 1, flag r.rules[k].stop⟩])
        ++ (List.finRange 16).flatMap (fun k => shiftFields (384 + 4 * k.val)
          [⟨0, 1, flag r.bins[k].shippable⟩, ⟨1, 1, r.bins[k].pattern.code⟩, ⟨2, 1, r.bins[k].name⟩]))
    ∧ (r.queue.length ≤ 8 → Shows (annexSector b 4 s)
        ([⟨0, 4, r.ms.toNat⟩, ⟨4, 4, r.budget⟩, ⟨8, 4, r.spin⟩, ⟨12, 4, r.run⟩, ⟨16, 4, r.spinTimeout⟩, ⟨20, 4, r.hold⟩,
          ⟨24, 1, r.limit⟩, ⟨25, 1, r.faultBin.val⟩, ⟨26, 1, flag s.attention⟩, ⟨27, 1, r.queue.length⟩]
        ++ fieldRow 1 28 (r.queue.map (·.val)) ++ [⟨36, 4, s.tally⟩]
        ++ fieldRow 1 40 (allBays.map (fun c => (s.bay c).power.state.code)) ++ fieldRow 4 48 (allBays.map s.charge)
        ++ [⟨80, 1, bitsToNat (allBays.map (fun c => (s.bay c).annex.unmasked))⟩]))
    ∧ ∀ page : Nat, page < 8 → Shows (annexSector b (32 + page) s)
        ((List.range 512).flatMap (fun i => shiftFields (8 * i) (zone (512 * page + i)))))
  ∧ (∀ (r : Rack) (x : Bay) (b : BayIx) (l : Nat),
    let y := shipSector r x b l
    let fs : List Field :=
      [⟨0, 4, 0x454B5338⟩, ⟨4, 1, b.val⟩, ⟨8, 4, x.settings.seed.toNat⟩, ⟨12, 8, x.power.cap.getD 0⟩, ⟨20, 8, l⟩,
       ⟨28, 2, x.sweep.passCounter⟩]
      ++ (match x.grade with
        | none => [⟨35, 1, 255⟩]
        | some g => [⟨32, 1, g.bin.val⟩, ⟨33, 1, r.bins[g.bin].name⟩, ⟨34, 1, if g.rules then 1 else 2⟩,
            ⟨35, 1, match g.rule with | some k => k.val | none => 255⟩, ⟨36, 4, g.time.toNat⟩])
      ++ [⟨40, 8, x.counters.verified⟩]
      ++ fieldRow 4 48 [x.counters.soft, x.counters.corrupt, x.counters.misplaced, x.counters.stale, x.counters.blank,
          x.counters.foreign, x.counters.headerCorrupt, x.counters.unreadable, x.counters.writeFault, x.counters.ahead,
          x.counters.lostWrite]
      ++ fieldRow 4 92 [x.zm.distinct, x.zm.confirmed, x.zm.healed, x.zm.dropped, x.zm.rehits, x.tracker.timeouts,
          x.lane.linkResets, x.tracker.histRead.worst, x.tracker.histWrite.worst, x.tracker.histFlush.worst, x.power.longest,
          x.power.cycles]
      ++ [⟨140, 1, match x.plan.firstSlot with | some k => k.val | none => 255⟩,
          ⟨141, 1, match x.plan.cursor with | some k => k.val | none => 255⟩]
    fitsSector fs ∧ (∀ k : Fin 1024, k.val < 1023 → y[k] = (sectorOf fs)[k])
      ∧ y[1023] = (y.toList.take 1023).foldl (· + ·) 0#32)
  ∧ (∀ (l : List Bool) (k : Nat), (bitsToNat l).testBit k = l[k]?.getD false)
  ∧ (∀ (b : BayIx) (s : State),
    let x := s.bay b
    let w := x.sweep
    let slot (n : Option SlotIx) : Nat := match n with | some k => k.val | none => 255
    let position : List Field := [⟨2, 1, w.status.code⟩, ⟨3, 1, slot (w.active.map (·.slot))⟩] ++
      match w.active with
      | none => []
      | some a =>
        [⟨4, 1, (a.endReason.map EndReason.code).getD 0⟩, ⟨5, 1, bitsToNat [a.clipped, a.empty, a.yielding, a.timeLeft.isSome]⟩,
         ⟨6, 1, a.passIx⟩, ⟨7, 1, a.inFlight⟩, ⟨8, 8, a.lo⟩, ⟨16, 8, a.hi⟩, ⟨24, 8, a.n⟩, ⟨32, 8, a.firstVisit⟩, ⟨40, 8, a.frontier⟩,
         ⟨48, 8, a.nextVisit⟩, ⟨56, 2, a.p.getD 0⟩, ⟨58, 2, match a.credit with | .count n => n | .unbounded => 65535⟩,
         ⟨60, 2, a.missed⟩, ⟨64, 4, a.timeLeft.getD 0⟩] ++ fieldRow 1 68 (a.window.toList.map VisitState.code)
    Shows (annexSector b 24 s) ([⟨0, 2, w.passCounter⟩] ++ position
      ++ (match w.resume with
        | none => [⟨81, 1, 255⟩]
        | some u => [⟨80, 1, 1⟩, ⟨81, 1, u.slot.val⟩, ⟨82, 1, u.passIx⟩, ⟨88, 8, u.frontier⟩])
      ++ (match w.rescan with
        | none => [⟨100, 2, 255⟩]
        | some q => [⟨96, 1, 1⟩, ⟨97, 1, q.r⟩, ⟨98, 1, q.done⟩, ⟨99, 1, q.tol⟩, ⟨100, 2, q.zone⟩, ⟨102, 2, q.p⟩, ⟨104, 1, q.limit⟩,
            ⟨105, 1, q.countOf .writing + q.countOf .reading⟩, ⟨108, 4, q.m⟩, ⟨112, 4, q.m - q.chunks.length⟩,
            ⟨116, 4, q.countOf .writing⟩, ⟨120, 4, q.countOf .written⟩, ⟨124, 4, q.countOf .reading⟩,
            ⟨128, 4, q.countOf .complete⟩])
      ++ (match w.saved with
        | none => [⟨138, 1, 255⟩, ⟨259, 1, 255⟩]
        | some v => [⟨136, 1, 1⟩, ⟨137, 1, if v.isSweep then 1 else 2⟩, ⟨138, 1, v.slot.val⟩,
            ⟨139, 1, bitsToNat [v.passClosed, v.timeExpired]⟩] ++
              if v.isSweep then shiftFields 256 position else [⟨140, 4, x.plan.timer.getD 0⟩, ⟨259, 1, 255⟩])
      ++ [⟨512, 1, x.zm.queue.length⟩]
      ++ (List.range 8).flatMap (fun i => [⟨516 + 4 * i, 2, match x.zm.queue[i]? with | some e => e.zone | none => 255⟩,
          ⟨518 + 4 * i, 1, match x.zm.queue[i]? with | some e => e.r | none => 0⟩])))
  ∧ (∀ (b : BayIx) (s : State),
    let a := (s.bay b).annex
    Shows (annexSector b 1 s) [⟨0, 1, a.result.state.code⟩, ⟨1, 1, a.result.result.code⟩,
      ⟨2, 1, match a.result.result with | .refused r => r.code | _ => 0⟩, ⟨4, 4, a.result.code.toNat⟩, ⟨8, 4, a.result.seq.toNat⟩,
      ⟨12, 4, a.result.ret.toNat⟩, ⟨16, 4, a.collisions⟩, ⟨20, 4, a.misuse⟩])
  ∧ (∀ (b : BayIx) (s : State) (no : Word),
    let x := s.bay b
    let flag (p : Bool) : Nat := if p then 1 else 0
    let slot (n : Option SlotIx) : Nat := match n with | some k => k.val | none => 255
    let ms (t : Option Word) : Nat := match t with | some v => v.toNat | none => 0
    Shows (sectorOf (reportFields s b no))
      ([⟨0, 4, no.toNat⟩, ⟨4, 4, s.rack.ms.toNat⟩, ⟨8, 1, b.val⟩, ⟨9, 1, x.power.state.code⟩, ⟨10, 1, x.power.session.code⟩,
        ⟨11, 1, flag x.power.unsupported⟩, ⟨12, 8, x.power.cap.getD 0⟩, ⟨20, 8, x.lane.rc⟩, ⟨28, 4, s.charge b⟩,
        ⟨32, 1, match x.power.lastFault with | some f => f.1.code | none => 0⟩,
        ⟨36, 4, match x.power.lastFault with | some f => f.2.toNat | none => 0⟩, ⟨40, 4, x.power.longest⟩, ⟨44, 4, x.power.cycles⟩,
        ⟨48, 4, x.power.settleFails⟩, ⟨52, 4, x.power.forcedRemovals⟩,
        ⟨64, 1, x.plan.state.code⟩, ⟨65, 1, slot x.plan.firstSlot⟩, ⟨66, 1, (x.plan.atEnd.map Choice.code).getD 0⟩,
        ⟨67, 1, slot x.plan.cursor⟩, ⟨68, 1, x.plan.step.code⟩, ⟨69, 1, (x.plan.outcome.map PlanOutcome.code).getD 0⟩,
        ⟨70, 1, (x.plan.fault.map FaultCause.code).getD 0⟩, ⟨71, 1, slot (x.plan.endSlot.getD none)⟩, ⟨72, 4, ms x.plan.phaseStart⟩,
        ⟨76, 4, x.plan.timer.getD 0⟩, ⟨80, 1, slot (x.plan.loopReg.map (·.1))⟩,
        ⟨81, 1, match x.plan.loopReg with | some l => l.2 | none => 0⟩, ⟨84, 4, ms x.plan.endTime⟩,
        ⟨88, 12, bitsToNat x.plan.reach.toList⟩,
        ⟨112, 1, match x.grade with | none => 0 | some g => if g.rules then 1 else 2⟩,
        ⟨113, 1, match x.grade with | none => 0 | some g => g.bin.val⟩,
        ⟨114, 1, match x.grade.bind (·.rule) with | some k => k.val | none => 255⟩,
        ⟨115, 1, match x.grade with | none => 0 | some g => s.rack.bins[g.bin].name⟩,
        ⟨116, 4, match x.grade with | none => 0 | some g => g.time.toNat⟩, ⟨120, 1, x.ship.name.code⟩,
        ⟨121, 1, flag x.ship.clipped⟩, ⟨122, 6, x.ship.lba.getD 0⟩, ⟨128, 8, x.counters.verified⟩]
      ++ fieldRow 4 136 [x.counters.soft, x.counters.corrupt, x.counters.misplaced, x.counters.stale, x.counters.blank,
          x.counters.foreign, x.counters.headerCorrupt, x.counters.unreadable, x.counters.writeFault, x.counters.ahead,
          x.counters.lostWrite, x.zm.distinct, x.zm.confirmed, x.zm.healed, x.zm.dropped, x.zm.rehits, x.tracker.timeouts,
          x.lane.linkResets]
      ++ [⟨208, 8, x.tracker.seq.toNat⟩, ⟨216, 1, match x.tracker.unsettled with | .ranges _ => 0 | .whole _ => 1⟩,
          ⟨217, 1, match x.tracker.unsettled with | .ranges l => l.length | .whole _ => 1⟩, ⟨218, 1, x.lane.held.length⟩]
      ++ fieldRow 1 220 (allTags.map (fun tag => match x.tracker.recs[tag] with | some r => r.origin.code | none => 255))
      ++ [⟨800, 4, x.settings.seed.toNat⟩, ⟨804, 1, flag x.settings.overlay⟩, ⟨805, 1, flag x.settings.checking⟩,
          ⟨806, 1, x.settings.tolerance⟩, ⟨807, 1, x.settings.rescans⟩, ⟨808, 4, x.tracker.w⟩, ⟨812, 4, x.tracker.tw⟩,
          ⟨816, 1, x.lines.lampFn.code⟩, ⟨817, 1, x.lines.auxFn.code⟩, ⟨818, 1, flag x.lines.lampLatch⟩,
          ⟨819, 1, flag x.lines.auxLatch⟩,
          ⟨820, 1, bitsToNat [x.power.state.powered, x.power.state.powered, x.lines.present, x.lines.lampLatch,
            if x.lines.auxFn = .input then x.lines.auxPin else x.lines.auxLatch]⟩,
          ⟨824, 1, x.annex.mailbox.code⟩, ⟨825, 1, noticeByte x.annex.flags⟩, ⟨826, 1, noticeByte x.annex.mask⟩]
      ++ fieldRow 4 828 x.annex.raises.toList ++ [⟨848, 4, x.annex.collisions⟩, ⟨852, 4, x.annex.misuse⟩])
    ∧ ∀ l : List URange, l.length ≤ 16 →
      (x.tracker.unsettled = .ranges l ∨
        ∃ q, x.tracker.unsettled = .whole q ∧ l = [{ lo := 0, hi := x.power.cap.getD 0 - 1, seq := q }]) →
      Shows (sectorOf (reportFields3 s b no))
        ([⟨0, 4, no.toNat⟩, ⟨4, 4, s.rack.ms.toNat⟩] ++ fieldRow 8 8 (l.flatMap (fun u => [u.lo, u.hi, u.seq.toNat]))
        ++ fieldRow 4 392 (x.tracker.histRead.bins.toList ++ x.tracker.histWrite.bins.toList ++ x.tracker.histFlush.bins.toList)
        ++ fieldRow 4 536 [x.tracker.histRead.worst, x.tracker.histWrite.worst, x.tracker.histFlush.worst]))
  ∧ ([PowerState.empty, .off, .queued, .spinningUp, .on, .settling].map (·.code) = [0, 1, 2, 3, 4, 5]
    ∧ [SessionState.none, .active, .abandoned].map (·.code) = [0, 1, 2] ∧ [PlanState.none, .running, .ended].map (·.code) = [0, 1, 2]
    ∧ [PlanOutcome.completed, .aborted, .faulted, .removed, .stampRefused, .planError].map (·.code) = [1, 2, 3, 4, 5, 6]
    ∧ [FaultCause.spinupFailed, .timeoutLimit, .capacityChanged, .unsupported].map (·.code) = [1, 2, 3, 4]
    ∧ [PhaseStep.none, .waitingForOn, .running, .timing, .expired, .settling, .offTime, .poweringUp, .writing].map (·.code)
        = [0, 1, 2, 3, 4, 5, 6, 7, 8]
    ∧ [SlotBody.empty, .powerOff].map (·.code) = [0, 4]
    ∧ (∀ f d off t n g o l, [SlotBody.sweep f, .dwell d, .powerCycle off, .loop t n, .grade g o, .stamp l].map (·.code)
        = [1, 2, 3, 5, 6, 7])
    ∧ [SweepOp.write, .verify, .writeVerify, .erase].map (·.code) = [0, 1, 2, 3]
    ∧ [SweepOrder.ascendRestart, .ascendContinue, .descend, .butterfly, .fixed].map (·.code) = [0, 1, 2, 3, 4]
    ∧ [Pacing.single, .block, .successive].map (·.code) = [0, 1, 2] ∧ [Trigger.immediate, .idle, .interval].map (·.code) = [0, 1, 2]
    ∧ [SweepStatus.none, .active, .suspended, .draining, .ended].map (·.code) = [0, 1, 2, 3, 4]
    ∧ [EndReason.passesDone, .timeLimit, .empty, .stopped].map (·.code) = [1, 2, 3, 4]
    ∧ [VisitState.notStarted, .issued, .writing, .written, .reading, .complete].map (·.code) = [0, 1, 2, 3, 4, 5]
    ∧ (∀ lo hi, [ZKind.unwritten, .stamped lo hi, .erased, .mixed lo hi].map (·.code) = [0, 1, 2, 3])
    ∧ [ZClass.none, .unconfirmed, .confirmed, .healed].map (·.code) = [0, 1, 2, 3]
    ∧ [Comparison.above, .atLeast, .below, .atMost, .equal, .notEqual].map (·.code) = [0, 1, 2, 3, 4, 5]
    ∧ [LampPattern.off, .on, .slow, .fast].map (·.code) = [0, 1, 2, 3] ∧ [LampFn.sort, .activity, .latch].map (·.code) = [0, 1, 2]
    ∧ [AuxFn.input, .latch, .faultOut, .lock].map (·.code) = [0, 1, 2, 3]
    ∧ [ShipName.none, .writing, .written, .failed].map (·.code) = [0, 1, 2, 3]
    ∧ [Origin.host, .sweep, .rescan, .settle, .ship, .learn].map (·.code) = [0, 1, 2, 3, 4, 5]
    ∧ [ResultState.none, .busy, .complete].map (·.code) = [0, 1, 2]
    ∧ (∀ y, [DirResult.done, .clamped, .refused y].map (·.code) = [0, 1, 2])
    ∧ [Reason.badCode, .badValue, .wrongState, .inUse, .planInvalid, .noDrive, .unsupportedDrive].map (·.code) = [1, 2, 3, 4, 5, 6, 7]
    ∧ [MailboxState.idle, .busyDirective, .busyWipe].map (·.code) = [0, 1, 2] ∧ [Choice.keep, .off].map (·.code) = [0, 1]
    ∧ ∀ (v : Vector Bool 5) (k : Fin 5), (noticeByte v).testBit k.val = v[k] ∧ noticeByte v < 32)

/-- An annex WRITE on a free host tag enters the annex service and DATA REQUEST goes upstream. Its payload goes to the first command
in service with its tag, up to the count: a sector off the mailbox, or there without the signature, is a misuse; the first sector at
the mailbox, signed, does what the directive of its code does (word 1), with its sequence number (word 2) and its fields at the bytes
of R174: codes 1 to 12, a POWER or ZONE-MARK byte without a code REFUSED BAD-VALUE on an IDLE mailbox, and any other code BAD-CODE's;
every further sector is a misuse. With its last sector taken the WRITE completes GOOD and leaves the service; before that it stays,
with the sectors counted. (That the signed sector and the directive's own command come to one operation is DEDUCED, log entry 14.)
ANNEX_MISUSE raises the misuse count. -/
def Obligations.AnnexWritesTaken : Prop :=
  (∀ (b : BayIx) (tag : Tag) (lba count : Nat) (s : State), (s.bay b).freeHostTag tag → 1 ≤ count →
    (s.bay b).lane.rc ≤ lba → lba + count ≤ (s.bay b).lane.rc + 256 →
    exec (.commandWrite b tag lba count) s = .next (s.modBay b (fun x =>
      (x.modLane (fun l => { l with annexSvc := l.annexSvc ++
          [{ tag := tag, isWrite := true, offset := lba - (s.bay b).lane.rc, count := count, done := 0 }] })).sends
        (.dataRequest tag))))
  ∧ (∀ (b : BayIx) (tag : Tag) (c : AnnexCmd) (pre post : List AnnexCmd) (payload : List Sector) (s : State),
    (s.bay b).lane.annexSvc = pre ++ c :: post → (∀ a ∈ pre, a.tag ≠ tag) → c.tag = tag → c.isWrite = true →
    let k := min payload.length (c.count - c.done)
    let up (n : Nat) : Nat := if n < 2 ^ 32 - 1 then n + 1 else n
    let missed (n : Nat) (u : State) : State := u.modBay b (fun x => { x with annex := { x.annex with misuse := up^[n] x.annex.misuse } })
    let ends (u : State) : State := u.modBay b (fun x =>
      if c.done + k < c.count then
        x.modLane (fun l => { l with annexSvc := l.annexSvc.map (fun a => if a.tag = tag then { a with done := c.done + k } else a) })
      else (x.modLane (fun l => { l with annexSvc := l.annexSvc.filter (fun a => a.tag ≠ tag) })).sends (.completion tag .good))
    let takes (u : State) := exec (.writeData b tag payload) s = .next (ends u)
    (c.offset + c.done ≠ 0 ∨ (∀ x ∈ payload.head?, x[0] ≠ 0x454B4438#32) → takes (missed k s))
    ∧ ∀ (sec : Sector) (rest : List Sector), payload = sec :: rest → c.offset = 0 → c.done = 0 → 1 ≤ c.count →
      sec[0] = 0x454B4438#32 →
      let does (i : Instr) : Prop := ∀ t, exec i s = .next t → takes (missed (k - 1) t)
      let code := sec[1].toNat
      let seq := sec[2]
      let b1 (i : Nat) : Byte := byteOf sec i
      let num (i w : Nat) : Nat := ((List.range w).map (fun j => (b1 (i + j)).toNat * 256 ^ j)).sum
      let b2 (i : Nat) : BitVec 16 := BitVec.ofNat 16 (num i 2)
      let b4 (i : Nat) : Word := BitVec.ofNat 32 (num i 4)
      let b6 (i : Nat) : BitVec 48 := BitVec.ofNat 48 (num i 6)
      (code = 1 → does (.setBay b seq
        { seed := b4 12, overlay := b1 16, checking := b1 17, tolerance := b1 18, rescans := b1 19, w := b4 20, tw := b4 24 }))
      ∧ (code = 2 → does (.setRack b seq { budget := b4 12, spin := b4 16, run := b4 20, spinTimeout := b4 24, hold := b4 28
                                           limit := b1 32, faultBin := b1 33 }))
      ∧ (code = 3 → ∀ f : SlotArg,
        ((b1 16).toNat = 0 → f = .empty)
        → ((b1 16).toNat = 1 → f = .sweep
          { op := b1 20, order := b1 21, pacing := b1 22, trigger := b1 23, start := b6 24, length := b6 30, chunk := b2 36
            block := b1 38, maxInFlight := b1 39, passes := b1 40, tolerance := b1 41, rescans := b1 42, interval := b4 44
            limit := b4 48 })
        → ((b1 16).toNat = 2 → f = .dwell (b4 20)) → ((b1 16).toNat = 3 → f = .powerCycle (b4 20))
        → ((b1 16).toNat = 4 → f = .powerOff) → ((b1 16).toNat = 5 → f = .loop (b1 20) (b1 21))
        → ((b1 16).toNat = 6 → f = .grade (b1 20) (b1 21)) → ((b1 16).toNat = 7 → f = .stamp (b6 20))
        → (8 ≤ (b1 16).toNat → f = .unknown (b1 16)) → does (.loadSlot b seq (b1 12) (b1 17) f))
      ∧ (code = 4 → does (.loadRule b seq (b1 12)
        { enable := b1 16, selector := b1 17, argument := b1 18, comparison := b1 19, threshold := b4 20, target := b1 24
          stop := b1 25 }))
      ∧ (code = 5 → does (.loadBin b seq (b1 12) { shippable := b1 16, pattern := b1 17, name := b1 18 }))
      ∧ (code = 6 → does (.startPlan b seq (b1 12) (b1 13))) ∧ (code = 7 → does (.abortPlan b seq (b1 12)))
      ∧ (code = 8 → (b1 12 = 0#8 → does (.powerOff b seq)) ∧ (b1 12 = 1#8 → does (.powerOn b seq))
          ∧ (2 ≤ (b1 12).toNat → s.mailboxIdle b → takes (missed (k - 1) (s.answered b 8#32 seq (.refused .badValue) 0#32))))
      ∧ (code = 9 → (b1 14 = 0#8 → does (.zoneMarkTest b seq (b2 12))) ∧ (b1 14 = 1#8 → does (.zoneMarkSet b seq (b2 12)))
          ∧ (b1 14 = 2#8 → does (.zoneMarkClear b seq (b2 12))) ∧ (b1 14 = 3#8 → does (.zoneMarkToggle b seq (b2 12)))
          ∧ (4 ≤ (b1 14).toNat → s.mailboxIdle b → takes (missed (k - 1) (s.answered b 9#32 seq (.refused .badValue) 0#32))))
      ∧ (code = 10 → does (.clearSession b seq)) ∧ (code = 11 → does (.setLine b seq (b1 12) (b1 13) (b1 14) (b1 15)))
      ∧ (code = 12 → does (.ackNotice b seq (b1 12) (b1 13))) ∧ (code = 0 ∨ 13 ≤ code → does (.badCode b seq sec[1])))
  ∧ ∀ (b : BayIx) (s : State), exec (.annexMisuse b) s = .next (s.modBay b (fun x =>
      { x with annex := { x.annex with misuse := if x.annex.misuse < 2 ^ 32 - 1 then x.annex.misuse + 1 else x.annex.misuse } }))

/-! ### Data frames -/

/-- WRITE DATA on an open HOST WRITE: with overlay off the host's sectors go down unchanged, with overlay on the stamped sectors of
the same LBAs at the record's pass, the leading ones up to the count, and sectors past it are discarded (of a payload that straddles
the count: the model's choice, log entry 36). On an OTHER record of the host the payload goes down unchanged (DEDUCED, log entry 17);
on a tag with any other record, or none, it is discarded. DATA REQUEST: of a HOST record it is relayed upstream (of one that is no
WRITE: log entry 17); of a part WRITE it is answered with the next sectors of the range, stamped at the record's pass, zeros for an
ERASE, the ship record for a SHIP write; of any other part record (of a CAPACITY one: log entry 17) and on a tag with no record it is
discarded. (How many sectors the drive asks for is an operand, log entry 4.) -/
def Obligations.PayloadsGoDown : Prop :=
  (∀ (b : BayIx) (tag : Tag) (r : Rec) (payload : List Sector) (s : State),
      (∀ a ∈ (s.bay b).lane.annexSvc, a.tag ≠ tag) →
      ((s.bay b).tracker.recs[tag] = none → exec (.writeData b tag payload) s = .next s)
      ∧ ((s.bay b).tracker.recs[tag] = some r →
        (r.origin = .host → r.kind = .write →
          (payload ≠ [] → r.sent < r.count →
            let k := min payload.length (r.count - r.sent)
            exec (.writeData b tag payload) s = .next (s.modBay b (fun x =>
              { x.withRec tag (some { r with sent := r.sent + k }) with
                lane := x.lane.sendDown (.writeData tag (match r.pass with
                  | none => payload.take k
                  | some p => (List.range k).map (fun i => stampSector x.settings.seed p (r.lba + r.sent + i)))) })))
          ∧ (r.count ≤ r.sent → exec (.writeData b tag payload) s = .next s))
        ∧ (r.origin = .host → r.kind = .other → exec (.writeData b tag payload) s = .next (s.modBay b (fun x =>
            { x with lane := x.lane.sendDown (.writeData tag payload) })))
        ∧ (r.origin ≠ .host ∨ (r.kind ≠ .write ∧ r.kind ≠ .other) → exec (.writeData b tag payload) s = .next s)))
  ∧ (∀ (b : BayIx) (tag : Tag) (r : Rec) (n : Nat) (s : State),
      ((s.bay b).tracker.recs[tag] = none → exec (.dataRequest b tag n) s = .next s)
      ∧ ((s.bay b).tracker.recs[tag] = some r →
        (r.origin = .host → exec (.dataRequest b tag n) s = .next (s.modBay b (·.sends (.dataRequest tag))))
        ∧ (r.origin ≠ .host → r.kind ≠ .write → exec (.dataRequest b tag n) s = .next s)
        ∧ (r.origin ≠ .host → r.kind = .write → 1 ≤ n → r.sent < r.count →
          let k := min n (r.count - r.sent)
          let answers (xs : List Sector) := exec (.dataRequest b tag n) s = .next (s.modBay b (fun x =>
            { x.withRec tag (some { r with sent := r.sent + k }) with lane := x.lane.sendDown (.writeData tag xs) }))
          (∀ p, r.ship = none → r.pass = some p →
            answers ((List.range k).map (fun i => stampSector (s.bay b).settings.seed p (r.lba + r.sent + i))))
          ∧ (r.ship = none → r.pass = none → answers (List.replicate k zeroSector))
          ∧ ∀ y, r.ship = some y → r.count = 1 → answers [y])))

/-- READ DATA of a HOST READ that is not judged goes upstream unchanged and is counted as delivered; on a tag with no record it is
discarded; sectors past the count of a READ are discarded. One sector on a judged READ goes upstream for a HOST READ alone; its
outcome is the judge's, and the counters of the outcome rise. With a defect in a known zone: in the zone under rescan the zone is
CONFIRMED, counted, the rescan's requests withdrawn and the rescan ended; in another marked zone a re-hit; in an unmarked zone the
class UNCONFIRMED, and with a RUNNING plan and passes asked for (a host sector's from SET-BAY, a sweep's from its slot, none else) the
zone joins the rescan queue, or is counted as dropped where 8 stand in it, and the test for a rescan's start follows. A payload of
several sectors on a judged READ of a bay that is ON or SETTLING goes upstream in one frame for a HOST READ alone, and each sector in
turn is counted, judged at its own LBA in the state that the sectors before it left, and its outcome given. An outcome at an LBA,
whatever gives it, does to the counters, the zone and the queue what is said above. -/
def Obligations.ReadDataTaken : Prop :=
  (∀ (b : BayIx) (tag : Tag) (r : Rec) (payload : List Sector) (s : State),
      ((s.bay b).tracker.recs[tag] = none → exec (.readData b tag payload) s = .next s)
      ∧ ((s.bay b).tracker.recs[tag] = some r → r.origin = .host → r.kind = .read → r.judged = false → payload ≠ [] →
        r.delivered + payload.length ≤ r.count →
        exec (.readData b tag payload) s = .next (s.modBay b (fun x =>
          { x.withRec tag (some { r with delivered := r.delivered + payload.length }) with
            lane := x.lane.sendUp (.readData tag payload) }))))
  ∧ (∀ (b : BayIx) (tag : Tag) (r : Rec) (sec : Sector) (s : State),
      (s.bay b).tracker.recs[tag] = some r → r.kind = .read → r.judged = true → r.delivered < r.count →
      let l := r.lba + r.delivered
      let v := judge (s.bay b) r.tol l sec
      let u : State := s.modBay b (fun x =>
        { x.withRec tag (some { r with delivered := r.delivered + 1 }) with
          lane := if r.origin = .host then x.lane.sendUp (.readData tag [sec]) else x.lane
          counters := x.counters.note v })
      (v.isDefect = false ∨ (s.bay b).zm.z = none → exec (.readData b tag [sec]) s = .next u)
      ∧ ∀ z : Nat, v.isDefect = true → (s.bay b).zm.z = some z →
        let n := l / 2 ^ z
        (∀ q, (s.bay b).sweep.rescan = some q → q.zone ≠ n) →
        let hit : ZoneMap → ZoneMap := fun m => m.modify n (fun k => { k with hits := if k.hits < 255 then k.hits + 1 else k.hits })
        (((s.bay b).zm.get n).mark = true →
          exec (.readData b tag [sec]) s = .next (u.modBay b (fun y : Bay => y.modZm (fun m =>
            { hit m with rehits := if m.rehits < 2 ^ 32 - 1 then m.rehits + 1 else m.rehits }))))
        ∧ (((s.bay b).zm.get n).mark = false → (s.bay b).plan.state ≠ .running →
          exec (.readData b tag [sec]) s = .next (u.modBay b (·.modZm (fun m =>
            (hit m).modify n (fun k => { k with cls := .unconfirmed }))))))
  ∧ (∀ (b : BayIx) (tag : Tag) (r : Rec) (sec : Sector) (s : State) (z : Nat),
      (s.bay b).tracker.recs[tag] = some r → r.kind = .read → r.judged = true → r.delivered < r.count →
      let x := s.bay b
      let l := r.lba + r.delivered
      let v := judge x r.tol l sec
      v.isDefect = true → x.zm.z = some z →
      let n := l / 2 ^ z
      let up (n : Nat) : Nat := if n < 2 ^ 32 - 1 then n + 1 else n
      let u : State := s.modBay b (fun x =>
        { x.withRec tag (some { r with delivered := r.delivered + 1 }) with
          lane := if r.origin = .host then x.lane.sendUp (.readData tag [sec]) else x.lane
          counters := x.counters.note v })
      let becomes (c : ZClass) : ZoneMap → ZoneMap := fun m =>
        (m.modify n (fun k => { k with hits := if k.hits < 255 then k.hits + 1 else k.hits })).modify n (fun k => { k with cls := c })
      let first : State := u.modBay b (·.modZm (becomes .unconfirmed))
      let passes := match r.origin with
        | .host => x.settings.rescans
        | .sweep => r.rescans
        | _ => 0
      (∀ q, x.sweep.rescan = some q → q.zone = n →
        exec (.readData b tag [sec]) s = .next (rescanEnd b (u.modBay b (fun y =>
          { y.modZm (fun m => { becomes .confirmed m with confirmed := up m.confirmed, rehits := up m.rehits }) with
            tracker := { y.tracker with waiting := y.tracker.waiting.filter (fun k => decide (k.origin ≠ .rescan)) } }))))
      ∧ ((∀ q, x.sweep.rescan = some q → q.zone ≠ n) → (x.zm.get n).mark = false →
        (passes = 0 → exec (.readData b tag [sec]) s = .next first)
        ∧ (x.plan.state = .running → 0 < passes → ∃ t, exec (.readData b tag [sec]) s = .next t
            ∧ Runs [.rescanStart b] (first.modBay b (·.modZm (fun m =>
              if m.queue.length < 8 then { m with queue := m.queue ++ [{ zone := n, r := passes }] }
              else { m with dropped := up m.dropped }))) t)))
  ∧ (∀ (b : BayIx) (tag : Tag) (r : Rec) (payload : List Sector) (s : State),
      (s.bay b).tracker.recs[tag] = some r → r.kind = .read →
      exec (.readData b tag payload) s = exec (.readData b tag (payload.take (r.count - r.delivered))) s
      ∧ (r.judged = true → payload ≠ [] → r.delivered + payload.length ≤ r.count →
        (s.bay b).power.state = .on ∨ (s.bay b).power.state = .settling →
        let l (i : Nat) := r.lba + r.delivered + i
        let sent : State := if r.origin = .host then s.modBay b (·.sends (.readData tag payload)) else s
        exec (.readData b tag payload) s = .next (payload.zipIdx.foldl (fun (u : State) (e : Sector × Nat) =>
          giveOutcome b (l e.2) (judge (u.bay b) r.tol (l e.2) e.1) r.origin r.rescans
            (u.modBay b (·.withRec tag (some { r with delivered := r.delivered + e.2 + 1 })))) sent)))
  ∧ (∀ (b : BayIx) (l : Nat) (v : Verdict) (o : Origin) (passes : Nat) (s : State),
    let x := s.bay b
    let u : State := s.modBay b (fun x => { x with counters := x.counters.note v })
    let up (n : Nat) : Nat := if n < 2 ^ 32 - 1 then n + 1 else n
    (v.isDefect = false ∨ x.zm.z = none → giveOutcome b l v o passes s = u)
    ∧ ∀ z : Nat, v.isDefect = true → x.zm.z = some z →
      let n := l / 2 ^ z
      let hit : ZoneMap → ZoneMap := fun m => m.modify n (fun k => { k with hits := if k.hits < 255 then k.hits + 1 else k.hits })
      let becomes (c : ZClass) : ZoneMap → ZoneMap := fun m => (hit m).modify n (fun k => { k with cls := c })
      let first : State := u.modBay b (·.modZm (becomes .unconfirmed))
      let r := match o with
        | .host => x.settings.rescans
        | .sweep => passes
        | _ => 0
      (∀ q, x.sweep.rescan = some q → q.zone = n →
        giveOutcome b l v o passes s = rescanEnd b (u.modBay b (fun y =>
          { y.modZm (fun m => { becomes .confirmed m with confirmed := up m.confirmed, rehits := up m.rehits }) with
            tracker := { y.tracker with waiting := y.tracker.waiting.filter (fun k => decide (k.origin ≠ .rescan)) } })))
      ∧ ((∀ q, x.sweep.rescan = some q → q.zone ≠ n) → (x.zm.get n).mark = true →
        giveOutcome b l v o passes s = u.modBay b (·.modZm (fun m => { hit m with rehits := up m.rehits })))
      ∧ ((∀ q, x.sweep.rescan = some q → q.zone ≠ n) → (x.zm.get n).mark = false →
        (x.plan.state ≠ .running ∨ r = 0 → giveOutcome b l v o passes s = first)
        ∧ (x.plan.state = .running → 0 < r → Runs [.rescanStart b] (first.modBay b (·.modZm (fun m =>
            if m.queue.length < 8 then { m with queue := m.queue ++ [{ zone := n, r := r }] }
            else { m with dropped := up m.dropped }))) (giveOutcome b l v o passes s))))

/-- The counter each outcome increases: VERIFIED for every outcome but UNCHECKED, with the outcome's own counter, each held at
its largest value; and the defect outcomes. -/
def Obligations.OutcomeCounters : Prop :=
  (∀ c : Counters, c.note .unchecked = c
    ∧ (∀ v : Verdict, v ≠ .unchecked →
        (c.note v).verified = if c.verified < 2 ^ 48 - 1 then c.verified + 1 else c.verified)
    ∧ (let up (n : Nat) := if n < 2 ^ 32 - 1 then n + 1 else n
      (c.note .good).list = c.list ∧ (c.note .soft).list = { c with soft := up c.soft }.list
      ∧ (c.note .corrupt).list = { c with corrupt := up c.corrupt }.list
      ∧ (c.note .misplaced).list = { c with misplaced := up c.misplaced }.list
      ∧ (c.note .stale).list = { c with stale := up c.stale }.list
      ∧ (c.note .ahead).list = { c with ahead := up c.ahead }.list
      ∧ (c.note .blank).list = { c with blank := up c.blank }.list
      ∧ (c.note .foreign).list = { c with foreign := up c.foreign }.list
      ∧ (c.note .headerCorrupt).list = { c with headerCorrupt := up c.headerCorrupt }.list
      ∧ (c.note .lostWrite).list = { c with lostWrite := up c.lostWrite }.list
      ∧ (c.note .unreadable).list = { c with unreadable := up c.unreadable }.list
      ∧ (c.note .writeFault).list = { c with writeFault := up c.writeFault }.list))
  ∧ ∀ v : Verdict, v.isDefect = true ↔
      v ∈ [.corrupt, .misplaced, .stale, .blank, .foreign, .headerCorrupt, .unreadable, .writeFault]

/-- COMPLETION of a HOST record: the latency is binned, the kind's own effects come about, the tag is free and the completion goes
upstream, a CAPACITY answer rewritten. On a tag that has no record and is not retired it is discarded; on a retired tag it makes the
tag free, and the waiting requests are assigned. The effects of a close, of every owner: a READ ending in MEDIA-ERROR gives its next
sector UNREADABLE where it is judged, has a sector left and no wipe runs; a FLUSH that is GOOD covers the entries up to its mark; a
WRITE that is GOOD counts its whole range in the Zone Map and the unsettled-write list; one ending in MEDIA-ERROR counts the sectors
before the failing LBA (its first LBA, where the named one lies outside) and, unless a wipe runs, gives WRITE-FAULT there; a close in
any other way changes nothing. A written range joins the unsettled-write list with its sequence value: with the entries it overlaps or
touches it becomes one entry, from their lowest to their highest LBA, and the other entries stay; where it meets none and 16 stand
already, or the list has overflowed, one whole-drive entry with that value takes the list's place. The idle timer starts, loaded with
W, where no HOST record is open, and is else left as it is. -/
def Obligations.HostRecordsClose : Prop :=
  (∀ (b : BayIx) (tag : Tag) (r : Rec) (a : Option CapacityAnswer) (s : State),
    let lat := (s.rack.us - r.issue).toNat
    let closes (st : DriveStatus) (up : UpStatus) (f : Bay → Bay) :=
      exec (.completion b tag st) s = .next (s.modBay b (fun x => (f x).closesHost tag r.kind lat up))
    ((s.bay b).tracker.recs[tag] = none → tag ∉ (s.bay b).lane.retired → ∀ st, exec (.completion b tag st) s = .next s)
    ∧ ((s.bay b).tracker.recs[tag] = some r → r.origin = .host →
      closes .otherError .otherError id
      ∧ (r.kind = .read → closes (.good a) .good id)
      ∧ (r.kind = .read → r.judged = false → ∀ f, closes (.mediaError f) (.mediaError f) id)
      ∧ (r.kind = .other → closes (.good a) .good id)
      ∧ (r.kind = .capacity → closes (.good a)
          (.capacity { capacity := (s.bay b).lane.rc, sectorSize := 4096, queueDepth := 24 }) id)
      ∧ (∀ mark, r.kind = .flush → r.flushMark = some mark → closes (.good a) .good (fun x =>
          { x with tracker := { x.tracker with unsettled := match x.tracker.unsettled with
              | .ranges l => .ranges (l.filter (fun u => decide (mark < u.seq)))
              | .whole q => if mark < q then .whole q else .ranges [] } }))
      ∧ (r.kind = .write → 1 ≤ r.count → closes (.good a) .good (fun x =>
          { x with
            zm := x.zm.write (writeEffect .host r.pass x.sweep.passCounter) r.lba (r.lba + r.count - 1)
            tracker := { x.tracker with
              seq := x.tracker.seq + 1#64
              unsettled := x.tracker.unsettled.join r.lba (r.lba + r.count - 1) (x.tracker.seq + 1#64) } }))))
  ∧ (∀ (b : BayIx) (r : Rec) (f : Nat) (c : Option CapacityAnswer) (s : State),
    let x := s.bay b
    let judged : Prop := r.judged = true ∧ r.delivered < r.count ∧ x.annex.wipe = none
    let counts (hi : Nat) : State := if r.lba < hi then s.modBay b (fun x =>
        { x with
          zm := x.zm.write (writeEffect r.origin r.pass x.sweep.passCounter) r.lba (hi - 1)
          tracker := { x.tracker with
            seq := x.tracker.seq + 1#64, unsettled := x.tracker.unsettled.join r.lba (hi - 1) (x.tracker.seq + 1#64) } })
      else s
    let does (st : DriveStatus) (t : State) : Prop := closeEffects b r st s = t
    does .otherError s ∧ (r.kind = .capacity ∨ r.kind = .other → does (.good c) s ∧ does (.mediaError f) s)
    ∧ (r.kind = .read → does (.good c) s ∧ (¬ judged → does (.mediaError f) s)
        ∧ (judged → does (.mediaError f) (giveOutcome b (r.lba + r.delivered) .unreadable r.origin r.rescans s)))
    ∧ (r.kind = .flush → does (.mediaError f) s ∧ (r.flushMark = none → does (.good c) s)
        ∧ ∀ mark, r.flushMark = some mark → does (.good c) (s.modBay b (fun x => { x with tracker := { x.tracker with
            unsettled := match x.tracker.unsettled with
              | .ranges l => .ranges (l.filter (fun u => decide (mark < u.seq)))
              | .whole q => if mark < q then .whole q else .ranges [] } })))
    ∧ (r.kind = .write → does (.good c) (counts (r.lba + r.count))
        ∧ let l := if r.lba ≤ f ∧ f < r.lba + r.count then f else r.lba
          (x.annex.wipe ≠ none → does (.mediaError f) (counts l))
          ∧ (x.annex.wipe = none → does (.mediaError f) (giveOutcome b l .writeFault r.origin r.rescans (counts l)))))
  ∧ (∀ (b : BayIx) (tag : Tag) (r : Rec) (st : DriveStatus) (s : State),
    let x := s.bay b
    (x.tracker.recs[tag] = some r → r.origin = .host → ∀ up : UpStatus,
      (up = match st with
        | .good _ => if r.kind = .capacity
            then .capacity { capacity := ((closeEffects b r st (s.binned b r)).bay b).lane.rc, sectorSize := 4096, queueDepth := 24 }
            else .good
        | .mediaError f => .mediaError f
        | .otherError => .otherError) →
      exec (.completion b tag st) s = .next ((closeEffects b r st (s.binned b r)).modBay b (fun y =>
        let z := (y.freed tag).sends (.completion tag up)
        { z with tracker := z.tracker.startIdle })))
    ∧ (x.tracker.recs[tag] = none → tag ∈ x.lane.retired → ∀ t,
      Runs (List.replicate x.tracker.waiting.length (.partTagAssign b)) (s.modBay b (fun x =>
        { x with lane := { x.lane with retired := x.lane.retired.filter (fun g => g ≠ tag) } })) t →
      exec (.completion b tag st) s = .next t))
  ∧ (∀ (lo hi : Nat) (seq : BitVec 64) (l : List URange),
    let meets (u : URange) : Bool := decide (u.lo ≤ hi + 1 ∧ lo ≤ u.hi + 1)
    let met := l.filter meets
    let apart := l.filter (fun u => !meets u)
    let one : URange := { lo := (met.map (·.lo)).foldl min lo, hi := (met.map (·.hi)).foldl max hi, seq := seq }
    (∀ q, (Unsettled.whole q).join lo hi seq = .whole seq)
    ∧ (met = [] → 16 ≤ l.length → (Unsettled.ranges l).join lo hi seq = .whole seq)
    ∧ (met ≠ [] ∨ l.length < 16 → ∃ l' : List URange, (Unsettled.ranges l).join lo hi seq = .ranges l' ∧ l'.Perm (one :: apart)
        ∧ (lo ≤ hi → (Unsettled.ranges l).sound → (Unsettled.ranges l').sound)))
  ∧ (∀ t : Tracker,
    let host : Prop := ∃ (tag : Tag) (r : Rec), t.recs[tag] = some r ∧ r.origin = .host
    (host → t.startIdle = t) ∧ (¬ host → t.startIdle = { t with idle := some t.w }))

/-! ### The Zone Map -/

/-- What a completed write makes of a zone's kind and window, and which effect a write has; the write changes the kinds of the
zones it overlaps and nothing else of the Zone Map's records. (That a SHIP write makes an ERASED zone MIXED, also after a pass close,
is the model's choice between R65's table and R68's sentence, log entry 37.) -/
def Obligations.WritesChangeZoneKinds : Prop :=
  (∀ p lo hi : Nat,
    kindAfter (.stamped p) .unwritten = .mixed p p ∧ kindAfter (.stamped p) .erased = .mixed p p
    ∧ kindAfter (.stamped p) (.stamped lo hi) = .stamped (min lo p) (max hi p)
    ∧ kindAfter (.stamped p) (.mixed lo hi) = .mixed (min lo p) (max hi p)
    ∧ kindAfter .erase .unwritten = .unwritten ∧ kindAfter .erase .erased = .erased
    ∧ kindAfter .erase (.stamped lo hi) = .mixed lo hi ∧ kindAfter .erase (.mixed lo hi) = .mixed lo hi
    ∧ kindAfter .host .unwritten = .unwritten ∧ kindAfter .host .erased = .unwritten
    ∧ kindAfter .host (.stamped lo hi) = .mixed lo hi ∧ kindAfter .host (.mixed lo hi) = .mixed lo hi
    ∧ kindAfter (.ship p) .unwritten = .mixed p p ∧ kindAfter (.ship p) .erased = .mixed p p
    ∧ kindAfter (.ship p) (.stamped lo hi) = .mixed lo hi ∧ kindAfter (.ship p) (.mixed lo hi) = .mixed lo hi)
  ∧ (∀ (o : Origin) (p c : Nat),
    (p ≤ c → writeEffect o (some p) c = .stamped p) ∧ (c < p → writeEffect o (some p) c = .host)
    ∧ writeEffect .sweep none c = .erase ∧ writeEffect .ship none c = .ship c ∧ writeEffect .host none c = .host)
  ∧ ∀ (m : ZoneMap) (e : WriteEffect) (lo hi n : Nat), m.sound → lo ≤ hi →
    (m.z = none → m.write e lo hi = m)
    ∧ ∀ z, m.z = some z →
      (m.write e lo hi).get n =
        if lo / 2 ^ z ≤ n ∧ n ≤ hi / 2 ^ z then { m.get n with kind := kindAfter e (m.get n).kind } else m.get n

/-- A pass close makes STAMPED [P, P] or ERASED every zone whose whole extent lies in the range, and takes SUSPECT-LOSS from it; a
VERIFY close and every other zone stay. The zone shift is the smallest of at least 8 whose 4096 zones hold C, and the zones used are C
/ 2^z rounded up, from 1 to 4096. The frontier moves to the least visit that is not COMPLETE, at most 8 on, and the window shifts with
it. The close of a sweep's command, taken through COMPLETION: a record of an ended or another phase acts on no phase; the write of a
WRITE-VERIFY visit makes it WRITTEN, any other close makes it COMPLETE and moves the frontier; a frontier that reaches n closes the
pass, and then: an ACTIVE sweep starts its next pass or ends PASSES-DONE, a SUSPENDED one keeps that the pass closed, a DRAINING one
ends TIME-LIMIT or, at its last pass, PASSES-DONE; short of n a DRAINING sweep ends TIME-LIMIT at its last open record. An end moves
the plan's cursor on, and last the tag is free, a waiting request is assigned and the reads that became due are issued (their order:
log entry 13). -/
def Obligations.PassCloseAndGeometry : Prop :=
  (∀ (m : ZoneMap) (c p lo hi z n : Nat), m.sound → m.z = some z → m.used = (c + 2 ^ z - 1) / 2 ^ z → hi ≤ c → n < m.used →
      let whole : Prop := lo ≤ n * 2 ^ z ∧ min ((n + 1) * 2 ^ z) c ≤ hi
      (whole →
        (m.passClose c .write p lo hi).get n = { m.get n with kind := .stamped p p, suspect := false }
        ∧ (m.passClose c .writeVerify p lo hi).get n = { m.get n with kind := .stamped p p, suspect := false }
        ∧ (m.passClose c .erase p lo hi).get n = { m.get n with kind := .erased, suspect := false })
      ∧ (¬ whole → ∀ op, (m.passClose c op p lo hi).get n = m.get n)
      ∧ m.passClose c .verify p lo hi = m)
  ∧ (∀ c : Nat, 2 ^ 20 ≤ c → c ≤ 2 ^ 36 →
      8 ≤ zoneShift c ∧ zoneShift c ≤ 24 ∧ c ≤ 4096 * 2 ^ zoneShift c
      ∧ (∀ z, 8 ≤ z → c ≤ 4096 * 2 ^ z → zoneShift c ≤ z)
      ∧ c ≤ zonesUsed c * 2 ^ zoneShift c ∧ (zonesUsed c - 1) * 2 ^ zoneShift c < c ∧ 1 ≤ zonesUsed c ∧ zonesUsed c ≤ 4096)
  ∧ (∀ (a : Active) (v : Nat) (st : VisitState),
    let m := a.moveFrontier
    (a.visit v = if v < a.frontier then .complete else if h : v - a.frontier < 8 then a.window[v - a.frontier] else .notStarted)
    ∧ (∀ w, (a.setVisit v st).visit w = if w = v ∧ a.frontier ≤ v ∧ v < a.frontier + 8 then st else a.visit w)
    ∧ a.frontier ≤ m.frontier ∧ m.frontier ≤ a.frontier + 8
    ∧ (∀ w, a.frontier ≤ w → w < m.frontier → a.visit w = .complete)
    ∧ (m.frontier < a.frontier + 8 → a.visit m.frontier ≠ .complete)
    ∧ (∀ w, m.frontier ≤ w → w < a.frontier + 8 → m.visit w = a.visit w)
    ∧ (∀ w, a.frontier + 8 ≤ w → m.frontier ≤ w → m.visit w = .notStarted)
    ∧ m = { a with frontier := m.frontier, window := m.window })
  ∧ (∀ (b : BayIx) (tag : Tag) (r : Rec) (st : DriveStatus) (v : Nat) (s : State),
    (s.bay b).tracker.recs[tag] = some r → r.origin = .sweep → r.visit = some v →
    let u := closeEffects b r st (s.binned b r)
    let y := u.bay b
    let reads := if r.kind = .write then List.replicate 8 (Instr.visitReadIssue b) else []
    let told (t : State) : Prop := ∀ t', Runs (.partTagAssign b :: reads) (t.modBay b (·.freed tag)) t' →
      exec (.completion b tag st) s = .next t'
    let passes (t : State) : Prop := ∀ t', Runs [.rescanStart b] t t' → told t'
    (y.sweep.status = .none ∨ y.sweep.status = .ended ∨ (∀ a, y.sweep.active = some a → r.gen ≠ a.gen) → told u)
    ∧ ∀ (a : Active) (k : SlotIx), y.sweep.active = some a → r.gen = a.gen → y.plan.state = .running → y.plan.cursor = some k →
      y.sweep.status = .active ∨ y.sweep.status = .suspended ∨ y.sweep.status = .draining →
      let ends (w : State) (a : Active) (reason : EndReason) (resume : Option Resume) : Prop :=
        told (travel b arrivalFuel u.rack.slots[k].nxt (w.modBay b (·.sweepEnds a reason resume)))
      let now (w : State) (a : Active) : State := w.modBay b (fun x => { x with sweep := { x.sweep with active := some a } })
      let at_ (a : Active) (pass frontier : Nat) : Option Resume :=
        if a.cfg.order = .ascendContinue then some { slot := a.slot, passIx := pass, frontier := frontier } else y.sweep.resume
      let last : Prop := ∀ (g : Tag) (q : Rec), g ≠ tag → y.tracker.recs[g] = some q → q.origin = .sweep → q.gen ≠ a.gen
      let goesOn (a' : Active) : Prop := (y.sweep.status ≠ .draining ∨ ¬ last → told (now u a'))
        ∧ (y.sweep.status = .draining → last → ends u a' .timeLimit (at_ a' a'.passIx a'.frontier))
      (a.cfg.op = .writeVerify → r.kind = .write → goesOn (a.setVisit v .written))
      ∧ (a.cfg.op ≠ .writeVerify ∨ r.kind ≠ .write →
        let a' := (a.setVisit v .complete).moveFrontier
        (a'.frontier < a'.n → goesOn a')
        ∧ (a'.n ≤ a'.frontier →
          let closed : State := (now u a').modBay b (fun x => { x with
            zm := x.zm.passClose (x.power.cap.getD 0) a'.cfg.op (a'.p.getD 0) a'.covered.1 a'.covered.2 })
          (y.sweep.status = .active → a'.passIx + 1 < a'.cfg.passes → passes (closed.modBay b (·.nextPass a')))
          ∧ (y.sweep.status = .active → a'.cfg.passes ≤ a'.passIx + 1 → ends closed a' .passesDone y.sweep.resume)
          ∧ (y.sweep.status = .suspended → told (closed.modBay b (fun x => { x with sweep := { x.sweep with
              saved := x.sweep.saved.map (fun v => { v with passClosed := true }) } })))
          ∧ (y.sweep.status = .draining → a'.passIx + 1 < a'.cfg.passes →
              ends closed a' .timeLimit (at_ a' (a'.passIx + 1) 0))
          ∧ (y.sweep.status = .draining → a'.cfg.passes ≤ a'.passIx + 1 → ends closed a' .passesDone y.sweep.resume))))

/-- ZONE-MARK: refused BAD-VALUE for a zone not in use, IN-USE for a CLEAR or TOGGLE of a zone in the queue or under rescan; else
done with the mark as it stood, the class and the mark of the zone changed as its operation says, and nothing else. -/
def Obligations.ZoneMarkDirectives : Prop :=
  ∀ (b : BayIx) (seq : Word) (zone : BitVec 16) (s : State), s.mailboxIdle b →
    let x := s.bay b
    let n := zone.toNat
    let inUse : Prop := (∃ q ∈ x.zm.queue, q.zone = n) ∨ ∃ q, x.sweep.rescan = some q ∧ q.zone = n
    let ret : Word := if (x.zm.get n).mark then 1#32 else 0#32
    let becomes (c : ZClass) : State := s.modBay b (·.modZm (fun m => m.modify n (fun k => { k with cls := c })))
    let done (u : State) := Host.Outcome.next (φ := Fault) (ρ := Refusal) (u.answered b 9#32 seq .done ret)
    let refused (why : Reason) := Host.Outcome.next (φ := Fault) (ρ := Refusal) (s.answered b 9#32 seq (.refused why) 0#32)
    (x.zm.used ≤ n ∨ 4095 < n → ∀ i ∈ [Instr.zoneMarkTest b seq zone, .zoneMarkSet b seq zone, .zoneMarkClear b seq zone,
        .zoneMarkToggle b seq zone], exec i s = refused .badValue)
    ∧ (n < x.zm.used → n ≤ 4095 →
      exec (.zoneMarkTest b seq zone) s = done s
      ∧ exec (.zoneMarkSet b seq zone) s = done (if (x.zm.get n).mark then s else becomes .unconfirmed)
      ∧ (inUse → exec (.zoneMarkClear b seq zone) s = refused .inUse ∧ exec (.zoneMarkToggle b seq zone) s = refused .inUse)
      ∧ (¬ inUse →
          exec (.zoneMarkClear b seq zone) s = done (becomes .none)
          ∧ exec (.zoneMarkToggle b seq zone) s = done (if (x.zm.get n).mark then becomes .none else becomes .unconfirmed)))

/-! ### Directives -/

/-- SET-BAY: refused BAD-VALUE for an overlay or checking byte without a code, WRONG-STATE for a seed change that R43 forbids;
else all seven settings are stored, W, Tw and the host rescan passes within their ranges, and a Tw that some record's age
already reaches gives the timeout event at once. -/
def Obligations.SetBayDirective : Prop :=
  ∀ (b : BayIx) (seq : Word) (f : SetBayArg) (s : State), s.mailboxIdle b → (s.bay b).zm.sound →
    let x := s.bay b
    let locked : Prop := (∃ n, (x.zm.get n).kind.holdsStamp = true) ∨ ¬ x.everyRec (fun r => r.kind = .write → r.pass = none)
      ∨ x.plan.state = .running
    let w := max 1 (min 10000 f.w.toNat)
    let tw := max 1000 (min 60000 f.tw.toNat)
    let u : State := s.modBay b (fun x =>
      { x with
        settings := { seed := f.seed, overlay := decide (f.overlay = 1#8), checking := decide (f.checking = 1#8)
                      tolerance := f.tolerance.toNat, rescans := min 4 f.rescans.toNat }
        tracker := { x.tracker with w := w, tw := tw } })
    let result : DirResult := if w = f.w.toNat ∧ tw = f.tw.toNat ∧ f.rescans.toNat ≤ 4 then .done else .clamped
    let young : Prop := x.everyRec (fun r => (s.rack.us - r.issue).toNat < tw * 1000)
    (2 ≤ f.overlay.toNat ∨ 2 ≤ f.checking.toNat →
      exec (.setBay b seq f) s = .next (s.answered b 1#32 seq (.refused .badValue) 0#32))
    ∧ (f.overlay.toNat < 2 → f.checking.toNat < 2 → f.seed ≠ x.settings.seed → locked →
      exec (.setBay b seq f) s = .next (s.answered b 1#32 seq (.refused .wrongState) 0#32))
    ∧ (f.overlay.toNat < 2 → f.checking.toNat < 2 → (f.seed = x.settings.seed ∨ ¬ locked) →
      (x.tracker.tw ≤ tw ∨ young → exec (.setBay b seq f) s = .next (u.answered b 1#32 seq result 0#32))
      ∧ (tw < x.tracker.tw → ¬ young →
          exec (.setBay b seq f) s = .next ((takeTimeout b u).answered b 1#32 seq result 0#32)))

/-- SET-RACK: refused BAD-VALUE for a fault bin above 15, WRONG-STATE while the tally is not 0; else every field is stored within
its range, and the grant test and the hold expiries follow (their order is the model's choice, log entry 28). -/
def Obligations.SetRackDirective : Prop :=
  ∀ (b : BayIx) (seq : Word) (f : SetRackArg) (s : State), s.mailboxIdle b →
    let budget := max 1000 (min 60000 f.budget.toNat)
    let spin := min (max 100 (min 5000 f.spin.toNat)) budget
    let run := min (max 100 (min 3000 f.run.toNat)) spin
    let spinTimeout := max 5000 (min 60000 f.spinTimeout.toNat)
    let hold := max 1000 (min 60000 f.hold.toNat)
    let limit := max 1 (min 15 f.limit.toNat)
    let same : Prop := budget = f.budget.toNat ∧ spin = f.spin.toNat ∧ run = f.run.toNat ∧ spinTimeout = f.spinTimeout.toNat
      ∧ hold = f.hold.toNat ∧ limit = f.limit.toNat
    (16 ≤ f.faultBin.toNat → exec (.setRack b seq f) s = .next (s.answered b 2#32 seq (.refused .badValue) 0#32))
    ∧ (f.faultBin.toNat < 16 → s.tally ≠ 0 →
      exec (.setRack b seq f) s = .next (s.answered b 2#32 seq (.refused .wrongState) 0#32))
    ∧ ∀ bin : Fin 16, f.faultBin.toNat = bin.val → s.tally = 0 →
      let u : State := s.modRack (fun r => { r with
        budget := budget, spin := spin, run := run, spinTimeout := spinTimeout, hold := hold, limit := limit, faultBin := bin })
      ∀ result : DirResult, (same → result = .done) → (¬ same → result = .clamped) →
        exec (.setRack b seq f) s = .next ((allBays.foldl expireHeld (grantTest u)).answered b 2#32 seq result 0#32)
        ∧ (s.rack.queue = [] → (∀ c, (s.bay c).lane.held = []) →
            exec (.setRack b seq f) s = .next (u.answered b 2#32 seq result 0#32))

/-- LOAD-SLOT of every kind but SWEEP: the checks in their order, the slot as stored, and CLAMPED for an off time out of range. (That
LOAD-SLOT of kind EMPTY answers DONE whatever next it gave, which is stored as 255, is the model's choice, log entry 38.) -/
def Obligations.LoadSlotDirective : Prop :=
  ∀ (b : BayIx) (seq : Word) (slot nxt : Byte) (f : SlotArg) (s : State), s.mailboxIdle b →
    let refused (why : Reason) := exec (.loadSlot b seq slot nxt f) s = .next (s.answered b 3#32 seq (.refused why) 0#32)
    (96 ≤ slot.toNat → refused .badValue)
    ∧ ∀ k : SlotIx, slot.toNat = k.val →
      (s.rack.useCounts[k] ≠ 0 → refused .inUse)
      ∧ (s.rack.useCounts[k] = 0 →
        let stores (body : SlotBody) (n : Option SlotIx) (r : DirResult) :=
          exec (.loadSlot b seq slot nxt f) s = .next ((s.slotLoaded k body n).answered b 3#32 seq r 0#32)
        (f = .empty → stores .empty none .done)
        ∧ (f ≠ .empty → 96 ≤ nxt.toNat → nxt.toNat ≤ 254 → refused .badValue)
        ∧ (∀ kind, f = .unknown kind → refused .badValue)
        ∧ ∀ n : Option SlotIx, nxt.toNat = (match n with | some j => j.val | none => 255) →
          (∀ d, f = .dwell d → stores (.dwell d.toNat) n .done)
          ∧ (∀ off, f = .powerCycle off →
              let o := max 1000 (min 3600000 off.toNat)
              stores (.powerCycle o) n (if o = off.toNat then .done else .clamped))
          ∧ (f = .powerOff → stores .powerOff n .done)
          ∧ (∀ target count, f = .loop target count →
              (96 ≤ target.toNat → refused .badValue)
              ∧ ∀ t : SlotIx, target.toNat = t.val → stores (.loop t count.toNat) n .done)
          ∧ (∀ bin other, f = .grade bin other →
              (16 ≤ bin.toNat ∨ (96 ≤ other.toNat ∧ other.toNat ≤ 254) → refused .badValue)
              ∧ ∀ (g : Fin 16) (o : Option SlotIx), bin.toNat = g.val →
                other.toNat = (match o with | some j => j.val | none => 255) → stores (.grade g o) n .done)
          ∧ ∀ lba, f = .stamp lba → stores (.stamp lba.toNat) n .done)

/-- LOAD-SLOT of kind SWEEP on a free slot with a valid next: the value checks refuse BAD-VALUE and leave the slot; else the fields
are stored as given, the rescan passes at most 4 and an INTERVAL sweep's interval within its range, and the result is CLAMPED
when one of the two was changed. -/
def Obligations.SweepSlotChecks : Prop :=
  ∀ (b : BayIx) (seq : Word) (slot nxt : Byte) (f : SweepArg) (k : SlotIx) (n : Option SlotIx) (s : State), s.mailboxIdle b →
    slot.toNat = k.val → s.rack.useCounts[k] = 0 → nxt.toNat = (match n with | some j => j.val | none => 255) →
    let ok : Prop := f.op.toNat ≤ 3 ∧ f.order.toNat ≤ 4 ∧ f.pacing.toNat ≤ 2 ∧ f.trigger.toNat ≤ 2
      ∧ (f.trigger.toNat = 0 → f.pacing.toNat = 2) ∧ 1 ≤ f.chunk.toNat ∧ f.chunk.toNat ≤ 256
      ∧ (f.pacing.toNat = 1 → f.block.toNat ≠ 0) ∧ 1 ≤ f.maxInFlight.toNat ∧ f.maxInFlight.toNat ≤ 8 ∧ f.passes.toNat ≠ 0
    let interval := if f.trigger.toNat = 2 then max 10 (min 3600000 f.interval.toNat) else f.interval.toNat
    (¬ ok → exec (.loadSlot b seq slot nxt (.sweep f)) s = .next (s.answered b 3#32 seq (.refused .badValue) 0#32))
    ∧ (ok → ∃ c : SweepCfg,
      c.op.code = f.op.toNat ∧ c.order.code = f.order.toNat ∧ c.pacing.code = f.pacing.toNat ∧ c.trigger.code = f.trigger.toNat
      ∧ c.start = f.start.toNat ∧ c.length = f.length.toNat ∧ c.chunk = f.chunk.toNat ∧ c.block = f.block.toNat
      ∧ c.maxInFlight = f.maxInFlight.toNat ∧ c.passes = f.passes.toNat ∧ c.tolerance = f.tolerance.toNat
      ∧ c.rescans = min 4 f.rescans.toNat ∧ c.interval = interval ∧ c.limit = f.limit.toNat
      ∧ exec (.loadSlot b seq slot nxt (.sweep f)) s = .next ((s.slotLoaded k (.sweep c) n).answered b 3#32 seq
          (if f.rescans.toNat ≤ 4 ∧ interval = f.interval.toNat then .done else .clamped) 0#32))

/-- LOAD-RULE and LOAD-BIN: the value checks, LOAD-BIN's refusal IN-USE while a STAMP phase writes from the bin, and else the whole
rule or bin replaced, every lamp chosen again. -/
def Obligations.LoadRuleAndBinDirectives : Prop :=
  (∀ (b : BayIx) (seq : Word) (rule : Byte) (f : RuleArg) (s : State), s.mailboxIdle b →
    let ok : Prop := rule.toNat < 24 ∧ f.enable.toNat < 2 ∧ f.stop.toNat < 2 ∧ f.selector.toNat ≤ 24 ∧ f.comparison.toNat < 6
      ∧ f.target.toNat < 16
    (¬ ok → exec (.loadRule b seq rule f) s = .next (s.answered b 4#32 seq (.refused .badValue) 0#32))
    ∧ ∀ (k : Fin 24) (t : Fin 16) (c : Comparison), ok → rule.toNat = k.val → f.target.toNat = t.val → f.comparison.toNat = c.code →
      let v : Rule :=
        { enable := decide (f.enable = 1#8), selector := f.selector.toNat, argument := f.argument.toNat, comparison := c
          threshold := f.threshold.toNat, target := t, stop := decide (f.stop = 1#8) }
      exec (.loadRule b seq rule f) s = .next ((s.modRack (fun r => { r with rules := r.rules.set k v })).answered b 4#32 seq
        .done 0#32))
  ∧ ∀ (b : BayIx) (seq : Word) (bin : Byte) (f : BinArg) (s : State), s.mailboxIdle b →
    let ok : Prop := bin.toNat < 16 ∧ f.shippable.toNat < 2 ∧ f.pattern.toNat < 4
    (¬ ok → exec (.loadBin b seq bin f) s = .next (s.answered b 5#32 seq (.refused .badValue) 0#32))
    ∧ ∀ (k : Fin 16) (p : LampPattern), ok → bin.toNat = k.val → f.pattern.toNat = p.code →
      let writing : Prop := ∃ c g, (s.bay c).plan.state = .running ∧ (s.bay c).plan.step = .writing ∧ (s.bay c).grade = some g
        ∧ g.bin = k
      (writing → exec (.loadBin b seq bin f) s = .next (s.answered b 5#32 seq (.refused .inUse) 0#32))
      ∧ (¬ writing →
          let v : Bin := { shippable := decide (f.shippable = 1#8), pattern := p, name := f.name.toNat }
          exec (.loadBin b seq bin f) s = .next ((refreshLamps (s.modRack (fun r => { r with bins := r.bins.set k v }))).answered
            b 5#32 seq .done 0#32))

/-- START-PLAN: the checks in their order; else the plan is RUNNING, its use counts are raised, and by the power state it waits for ON
(its phase start time the ms count of START-PLAN, DEDUCED, log entry 30), joins the grant queue, or arrives at its first slot (an
event makes at most a fixed number of arrivals, DEDUCED, log entry 21). -/
def Obligations.StartPlanDirective : Prop :=
  ∀ (b : BayIx) (seq : Word) (slot atEnd : Byte) (s : State), s.mailboxIdle b →
    let x := s.bay b
    let refused (why : Reason) := exec (.startPlan b seq slot atEnd) s = .next (s.answered b 6#32 seq (.refused why) 0#32)
    (96 ≤ slot.toNat ∨ 2 ≤ atEnd.toNat → refused .badValue)
    ∧ ∀ (f : SlotIx) (c : Choice), slot.toNat = f.val → atEnd.toNat = c.code →
      (x.plan.state = .running → refused .wrongState)
      ∧ (x.plan.state ≠ .running →
        (x.power.session ≠ .active → refused .noDrive)
        ∧ (x.power.session = .active →
          (x.power.unsupported = true → refused .unsupportedDrive)
          ∧ (x.power.unsupported = false →
            (x.power.state = .settling → refused .wrongState)
            ∧ (x.power.state ≠ .settling →
              (chainValid s.rack.slots f (reachOf s.rack.slots f) = false → refused .planInvalid)
              ∧ (chainValid s.rack.slots f (reachOf s.rack.slots f) = true →
                let done (u : State) := exec (.startPlan b seq slot atEnd) s = .next (u.answered b 6#32 seq .done 0#32)
                (x.power.state = .queued ∨ x.power.state = .spinningUp → done (s.planStarted b f c .waitingForOn))
                ∧ (x.power.state = .off → done (grantTest (((s.planStarted b f c .waitingForOn).modBay b
                    (·.modPower (fun w => { w with state := .queued }))).modRack (fun r => { r with queue := r.queue ++ [b] }))))
                ∧ (x.power.state = .on → done (travel b arrivalFuel (some f) (s.planStarted b f c .none))))))))

/-- A chain is valid exactly when every slot of its reachable set is not EMPTY, has next and branch at END or above itself, and a
LOOP's target below itself and not below the first slot; the reachable set holds the first slot and all its slots lead to, and nothing
else: every set with these two properties holds it. -/
def Obligations.ChainCheck : Prop :=
  (∀ (slots : Vector Slot 96) (f : SlotIx) (reach : Vector Bool 96),
    (chainValid slots f reach = true ↔ ∀ k : SlotIx, reach[k] = true →
      slots[k].body ≠ .empty
      ∧ (∀ n, slots[k].nxt = some n → k < n)
      ∧ (∀ bin o, slots[k].body = .grade bin (some o) → k < o)
      ∧ ∀ t c, slots[k].body = .loop t c → t < k ∧ f ≤ t)
    ∧ (reachOf slots f)[f] = true
    ∧ ∀ k n : SlotIx, (reachOf slots f)[k] = true →
      (slots[k].nxt = some n ∨ (∃ bin, slots[k].body = .grade bin (some n)) ∨ ∃ c, slots[k].body = .loop n c) →
      (reachOf slots f)[n] = true)
  ∧ (∀ (slots : Vector Slot 96) (f : SlotIx) (P : SlotIx → Prop), P f →
    (∀ k n : SlotIx, P k →
      (slots[k].nxt = some n ∨ (∃ bin, slots[k].body = .grade bin (some n)) ∨ ∃ c, slots[k].body = .loop n c) → P n) →
    ∀ k : SlotIx, (reachOf slots f)[k] = true → P k)

/-- ABORT-PLAN: refused BAD-VALUE and WRONG-STATE; with KEEP the plan ends ABORTED at its cursor: the use counts of its reachable set
fall, the loop register is released, the rescan queue is emptied, the sweep is STOPPED, PLAN-ENDED is raised, and the power state, the
grade, the records, the counters and the zone records stay. With OFF the plan ends in the same way and the power is asked off: an ON
bay becomes SETTLING and nothing more; in OFF, SETTLING and EMPTY nothing differs; a QUEUED bay leaves the queue and is OFF, its held
commands NOT-READY; a spin-up is cut, with every record discarded. -/
def Obligations.AbortPlanDirective : Prop :=
  (∀ (b : BayIx) (seq : Word) (choice : Byte) (s : State), s.mailboxIdle b →
    let x := s.bay b
    (2 ≤ choice.toNat → exec (.abortPlan b seq choice) s = .next (s.answered b 7#32 seq (.refused .badValue) 0#32))
    ∧ (choice.toNat < 2 → x.plan.state ≠ .running →
        exec (.abortPlan b seq choice) s = .next (s.answered b 7#32 seq (.refused .wrongState) 0#32))
    ∧ (choice = 0#8 → x.plan.state = .running → AnswersNext (exec (.abortPlan b seq choice) s) (fun t =>
        let y := t.bay b
        t.pending = s.pending ∧ (∀ c, c ≠ b → t.bay c = s.bay c)
        ∧ t.rack = { s.rack with useCounts := Vector.ofFn (fun k : Fin 96 =>
            if x.plan.reach[k] then s.rack.useCounts[k] - 1 else s.rack.useCounts[k]) }
        ∧ y.plan = { x.plan with
            state := .ended, loopReg := none, outcome := some .aborted, fault := none, endSlot := some x.plan.cursor
            endTime := some s.rack.ms }
        ∧ y.power = x.power ∧ y.grade = x.grade ∧ y.lane = x.lane ∧ y.settings = x.settings ∧ y.counters = x.counters
        ∧ y.zm = { x.zm with queue := [] } ∧ y.tracker.recs = x.tracker.recs ∧ y.tracker.unsettled = x.tracker.unsettled
        ∧ (x.sweep.status.running = true → y.sweep.status = .ended
            ∧ y.sweep.active = x.sweep.active.map (fun a => { a with endReason := some .stopped, credit := .count 0 }))
        ∧ (x.sweep.status.running = false → y.sweep.status = x.sweep.status ∧ y.sweep.active = x.sweep.active)
        ∧ y.sweep.rescan = none ∧ y.sweep.saved = none ∧ y.sweep.passCounter = x.sweep.passCounter
        ∧ y.sweep.resume = x.sweep.resume
        ∧ y.annex = { x.annex with
            flags := x.annex.flags.set 3 true
            raises := x.annex.raises.set 3 (if x.annex.raises[3] < 2 ^ 32 - 1 then x.annex.raises[3] + 1 else x.annex.raises[3])
            result := { state := .complete, code := 7#32, seq := seq, result := .done, ret := 0#32 } })))
  ∧ (∀ (b : BayIx) (seq : Word) (s t : State), s.mailboxIdle b → (s.bay b).plan.state = .running →
      exec (.abortPlan b seq 0#8) s = .next t →
      let x := s.bay b
      let off (P : State → Prop) := AnswersNext (exec (.abortPlan b seq 1#8) s) (fun u => P u
        ∧ (u.bay b).plan = (t.bay b).plan ∧ (u.bay b).annex = (t.bay b).annex ∧ (u.bay b).zm = (t.bay b).zm
        ∧ (u.bay b).sweep = (t.bay b).sweep ∧ (u.bay b).grade = x.grade ∧ u.rack.useCounts = t.rack.useCounts)
      (x.power.state = .on → exec (.abortPlan b seq 1#8) s =
          .next (t.modBay b (fun x => { x with power := { x.power with state := .settling } })))
      ∧ (x.power.state = .off ∨ x.power.state = .settling ∨ x.power.state = .empty → exec (.abortPlan b seq 1#8) s = .next t)
      ∧ (x.power.state = .queued → off (fun u =>
          b ∉ u.rack.queue ∧ (u.bay b).power = { x.power with state := .off }
          ∧ (u.bay b).lane = { x.lane with
              held := []
              upSent := if x.lane.upUp then x.lane.upSent ++ x.lane.held.map (fun h => .completion h.tag .notReady)
                else x.lane.upSent }
          ∧ (u.bay b).tracker = (t.bay b).tracker))
      ∧ (x.power.state = .spinningUp → b ∉ s.rack.queue → off (fun u =>
          (u.bay b).power = { x.power with state := .off, spinTimer := none, learnWait := false }
          ∧ (u.bay b).lane.held = [] ∧ (u.bay b).lane.downUp = false ∧ ∀ tag : Tag, (u.bay b).tracker.recs[tag] = none)))

/-- POWER: the checks in their order; ON makes an OFF bay join the grant queue, OFF puts an ON bay in SETTLING and takes a QUEUED
bay out of the queue with its held commands NOT-READY; in the other states nothing changes but for a spin-up that OFF cuts. -/
def Obligations.PowerDirectives : Prop :=
  ∀ (b : BayIx) (seq : Word) (s : State), s.mailboxIdle b →
    let x := s.bay b
    let on (t : State) := exec (.powerOn b seq) s = .next t
    let off (t : State) := exec (.powerOff b seq) s = .next t
    let answer (r : DirResult) (u : State) : State := u.answered b 8#32 seq r 0#32
    let becomes (p : PowerState) (u : State) : State := u.modBay b (·.modPower (fun w => { w with state := p }))
    (x.plan.state = .running → on (answer (.refused .wrongState) s) ∧ off (answer (.refused .wrongState) s))
    ∧ (x.plan.state ≠ .running → x.power.session ≠ .active →
        on (answer (.refused .noDrive) s) ∧ off (answer (.refused .noDrive) s))
    ∧ (x.plan.state ≠ .running → x.power.session = .active → x.power.unsupported = true →
        on (answer (.refused .unsupportedDrive) s) ∧ off (answer (.refused .unsupportedDrive) s))
    ∧ (x.plan.state ≠ .running → x.power.session = .active → x.power.unsupported = false →
      (x.power.state = .settling → on (answer (.refused .wrongState) s) ∧ off (answer .done s))
      ∧ (x.power.state = .off →
          on (answer .done (grantTest ((becomes .queued s).modRack (fun r => { r with queue := r.queue ++ [b] }))))
          ∧ off (answer .done s))
      ∧ (x.power.state = .on → on (answer .done s) ∧ off (answer .done (becomes .settling s)))
      ∧ (x.power.state = .queued → on (answer .done s)
          ∧ off (answer .done (grantTest (becomes .off (refuseHeld b (s.modRack (fun r =>
              { r with queue := r.queue.filter (fun c => c ≠ b) })))))))
      ∧ (x.power.state = .spinningUp → on (answer .done s)
          ∧ (b ∉ s.rack.queue → AnswersNext (exec (.powerOff b seq) s) (fun t =>
              (t.bay b).power.state = .off ∧ (t.bay b).power.spinTimer = none ∧ (t.bay b).lane.held = []
              ∧ (t.bay b).lane.downUp = false ∧ (∀ tag : Tag, (t.bay b).tracker.recs[tag] = none)
              ∧ (t.bay b).power.lastFault = x.power.lastFault ∧ (t.bay b).annex.flags = x.annex.flags))))

/-- CLEAR-SESSION: refused WRONG-STATE while a plan is RUNNING and in QUEUED, SPINNING-UP and SETTLING; else the session wipe begins
in every block, the result is BUSY (shown with result DONE and return value 0: the model's choice, log entry 19), ON becomes SETTLING
and an EMPTY bay's session NONE, and what the wipe keeps stays. -/
def Obligations.ClearSessionDirective : Prop :=
  ∀ (b : BayIx) (seq : Word) (s : State), s.mailboxIdle b →
    let x := s.bay b
    (x.plan.state = .running ∨ x.power.state = .queued ∨ x.power.state = .spinningUp ∨ x.power.state = .settling →
      exec (.clearSession b seq) s = .next (s.answered b 10#32 seq (.refused .wrongState) 0#32))
    ∧ (x.plan.state ≠ .running → x.power.state ≠ .queued → x.power.state ≠ .spinningUp → x.power.state ≠ .settling →
      AnswersNext (exec (.clearSession b seq) s) (fun t =>
        let y := t.bay b
        OnlyBay b s t
        ∧ y.annex = { x.annex with
            mailbox := .busyDirective, wipe := some 0
            result := { state := .busy, code := 10#32, seq := seq, result := .done, ret := 0#32 } }
        ∧ y.power.state = (if x.power.state = .on then .settling else x.power.state)
        ∧ y.power.session = (if x.power.state = .empty then .none else x.power.session)
        ∧ y.power.unsupported = x.power.unsupported ∧ y.power.cap = none ∧ y.power.cycles = 0 ∧ y.power.longest = 0
        ∧ y.power.settleFails = 0 ∧ y.power.forcedRemovals = 0 ∧ y.power.lastFault = none
        ∧ y.lane = { x.lane with rc := 0, linkResets := 0 }
        ∧ y.tracker = { x.tracker with
            histRead := { bins := Vector.replicate 12 0, worst := 0 }, histWrite := { bins := Vector.replicate 12 0, worst := 0 }
            histFlush := { bins := Vector.replicate 12 0, worst := 0 }, timeouts := 0 }
        ∧ y.settings = x.settings ∧ y.counters.verified = 0 ∧ y.counters.list = List.replicate 11 0
        ∧ y.zm = { x.zm with z := none, used := 0, confirmed := 0, healed := 0, dropped := 0, rehits := 0, queue := [] }
        ∧ y.sweep.status = .none ∧ y.sweep.active = none ∧ y.sweep.resume = none ∧ y.sweep.rescan = none
        ∧ y.plan.state = .none ∧ y.grade = none ∧ y.ship.name = .none
        ∧ y.lines.lampFn = x.lines.lampFn ∧ y.lines.auxFn = x.lines.auxFn ∧ y.lines.lampLatch = x.lines.lampLatch
        ∧ y.lines.auxLatch = x.lines.auxLatch))

/-- SET-LINE stores its four fields or is refused BAD-VALUE; ACK-NOTICE answers the flags as they stood, takes the clear set from them
and replaces the mask; ATTENTION is asserted while some bay has a flag in its mask. The lamp's choice: a lamp whose function is not
SORT, an EMPTY bay and a bay with no plan RUNNING and no grade take OFF, a RUNNING plan SLOW, a graded bay the pattern of its grade's
bin; a pattern that changes starts with its lit half. With function SORT the lamp is dark in OFF, lit in ON and follows the halves in
SLOW and FAST; with ACTIVITY it is lit while the pulse runs, with LATCH it shows its latch bit. AUX is not driven with INPUT, shows its
latch bit with LATCH, is asserted with FAULT-OUT while the plan has ENDED FAULTED, and with LOCK in QUEUED, SPINNING-UP, ON and SETTLING.
(That the pattern is OFF while LAMP has another function, so that SORT set again
starts with the lit half, is the model's choice, log entry 42.) -/
def Obligations.LineAndNoticeDirectives : Prop :=
  (∀ (b : BayIx) (seq : Word) (lf af ll al : Byte) (s : State), s.mailboxIdle b →
    (3 ≤ lf.toNat ∨ 4 ≤ af.toNat ∨ 2 ≤ ll.toNat ∨ 2 ≤ al.toNat →
      exec (.setLine b seq lf af ll al) s = .next (s.answered b 11#32 seq (.refused .badValue) 0#32))
    ∧ ∀ (f : LampFn) (g : AuxFn), lf.toNat = f.code → af.toNat = g.code → ll.toNat < 2 → al.toNat < 2 →
      exec (.setLine b seq lf af ll al) s = .next ((refreshLamp b (s.modBay b (·.modLines (fun l =>
        { l with lampFn := f, auxFn := g, lampLatch := decide (ll = 1#8), auxLatch := decide (al = 1#8) })))).answered b 11#32 seq
          .done 0#32))
  ∧ (∀ (b : BayIx) (seq : Word) (clear mask : Byte) (s : State), s.mailboxIdle b →
    AnswersNext (exec (.ackNotice b seq clear mask) s) (fun t =>
      OnlyBay b s t ∧ (t.bay b).annex.raises = (s.bay b).annex.raises ∧ (t.bay b).annex.mailbox = .idle
      ∧ (∀ k : Fin 5, (t.bay b).annex.flags[k] = ((s.bay b).annex.flags[k] && !clear.getLsbD k.val)
          ∧ (t.bay b).annex.mask[k] = mask.getLsbD k.val
          ∧ (t.bay b).annex.result.ret.getLsbD k.val = (s.bay b).annex.flags[k])
      ∧ (t.bay b).annex.result.state = .complete ∧ (t.bay b).annex.result.result = .done
      ∧ (t.bay b).annex.result.code = 12#32 ∧ (t.bay b).annex.result.seq = seq
      ∧ t.bay b = { s.bay b with annex := (t.bay b).annex }))
  ∧ (∀ s : State, s.attention = true ↔ ∃ (b : BayIx) (k : Fin 5), (s.bay b).annex.flags[k] = true ∧ (s.bay b).annex.mask[k] = true)
  ∧ (∀ (b : BayIx) (s : State),
    let x := s.bay b
    let half (p : LampPattern) : Option Nat := match p with | .slow => some 500 | .fast => some 125 | _ => none
    let shows (p : LampPattern) : Prop := (x.lines.pattern = p → refreshLamp b s = s)
      ∧ (x.lines.pattern ≠ p → refreshLamp b s = s.modBay b (fun x => { x with lines := { x.lines with
          pattern := p, blinkLit := (half p).isSome, blink := half p } }))
    (x.lines.lampFn ≠ .sort → shows .off)
    ∧ (x.lines.lampFn = .sort → x.power.state = .empty → shows .off)
    ∧ (x.lines.lampFn = .sort → x.power.state ≠ .empty → x.plan.state = .running → shows .slow)
    ∧ (x.lines.lampFn = .sort → x.power.state ≠ .empty → x.plan.state ≠ .running → x.grade = none → shows .off)
    ∧ ∀ g, x.lines.lampFn = .sort → x.power.state ≠ .empty → x.plan.state ≠ .running → x.grade = some g →
        shows s.rack.bins[g.bin].pattern)
  ∧ (∀ x : Bay,
    (x.lines.lampFn = .sort →
      (x.lines.pattern = .off → x.lampLit = false) ∧ (x.lines.pattern = .on → x.lampLit = true)
      ∧ (x.lines.pattern = .slow ∨ x.lines.pattern = .fast → x.lampLit = x.lines.blinkLit))
    ∧ (x.lines.lampFn = .activity → (x.lampLit = true ↔ ∃ k, x.lines.pulse = some k))
    ∧ (x.lines.lampFn = .latch → x.lampLit = x.lines.lampLatch)
    ∧ (x.lines.auxFn = .input → x.auxDriven = none)
    ∧ (x.lines.auxFn = .latch → x.auxDriven = some x.lines.auxLatch)
    ∧ (x.lines.auxFn = .faultOut → x.auxDriven = some (decide (x.plan.state = .ended ∧ x.plan.outcome = some .faulted)))
    ∧ (x.lines.auxFn = .lock → x.auxDriven = some (decide (x.power.state = .queued ∨ x.power.state = .spinningUp
        ∨ x.power.state = .on ∨ x.power.state = .settling))))

/-- A code that is none of 1 to 12 is REFUSED with BAD-CODE; a signed sector while the mailbox is not IDLE, whatever its directive,
only raises the collision count: every directive's command, BAD_CODE and MAILBOX_COLLISION complete so (that a directive's command is
the mailbox event as a whole is DEDUCED, log entry 14). On an IDLE mailbox MAILBOX_COLLISION, and BAD_CODE with a code from 1 to 12,
have no effect (the model's choice, log entry 23). -/
def Obligations.BadCodesAndCollisions : Prop :=
  (∀ (b : BayIx) (seq code : Word) (s : State), s.mailboxIdle b →
    (code.toNat = 0 ∨ 13 ≤ code.toNat → exec (.badCode b seq code) s = .next (s.answered b code seq (.refused .badCode) 0#32))
    ∧ exec (.mailboxCollision b) s = .next s)
  ∧ (∀ (b : BayIx) (seq code : Word) (s : State), 1 ≤ code.toNat → code.toNat ≤ 12 → exec (.badCode b seq code) s = .next s)
  ∧ ∀ (b : BayIx) (seq : Word) (s : State), ¬ s.mailboxIdle b →
    let collides (c : Instr) : Prop := exec c s = .next (s.modBay b (·.modAnnex (fun a =>
      { a with collisions := if a.collisions < 2 ^ 32 - 1 then a.collisions + 1 else a.collisions })))
    collides (.mailboxCollision b)
    ∧ (∀ f, collides (.setBay b seq f)) ∧ (∀ f, collides (.setRack b seq f))
    ∧ (∀ slot nxt f, collides (.loadSlot b seq slot nxt f)) ∧ (∀ rule f, collides (.loadRule b seq rule f))
    ∧ (∀ bin f, collides (.loadBin b seq bin f)) ∧ (∀ slot c, collides (.startPlan b seq slot c))
    ∧ (∀ c, collides (.abortPlan b seq c)) ∧ collides (.powerOn b seq) ∧ collides (.powerOff b seq)
    ∧ (∀ zone, collides (.zoneMarkTest b seq zone) ∧ collides (.zoneMarkSet b seq zone) ∧ collides (.zoneMarkClear b seq zone)
        ∧ collides (.zoneMarkToggle b seq zone))
    ∧ collides (.clearSession b seq) ∧ (∀ lf af ll al, collides (.setLine b seq lf af ll al))
    ∧ (∀ clear mask, collides (.ackNotice b seq clear mask))
    ∧ ∀ code : Word, code.toNat = 0 ∨ 13 ≤ code.toNat → collides (.badCode b seq code)

/-! ### The part's own steps -/

/-- The Power Arbiter's steps. In SETTLING with no WRITE record open and something unsettled the SETTLE flush is issued (DEDUCED, log
entry 31); with nothing unsettled and no record open the bay goes OFF and the grant test follows, and a POWER-CYCLE phase that settled
starts its off time, a POWER-OFF phase moves the cursor on. The SETTLE flush that closes GOOD covers the entries up to its mark; one
that fails is, with no plan RUNNING and no request waiting, a forced power-off with no fault: the settle-failure count rises, the bay
is OFF, every record is gone, and the zones that the unsettled-write list touches become SUSPECT-LOSS as the list is emptied. With a
plan RUNNING in step SETTLING the failed settling ends as a good one: a POWER-CYCLE phase starts its off time, a POWER-OFF phase moves
the cursor on; the grant test and the waiting requests follow (the order of the ABORTED completions is the model's choice, log entry 6).
A grant
puts the head of the queue that fits the budget in SPINNING-UP; a head that does not fit waits, and a GRANT on an empty queue or for
such a head changes nothing (the model's choice, log entry 23). -/
def Obligations.SettlingAndGrantSteps : Prop :=
  (∀ (b : BayIx) (tag : Tag) (s : State),
    let x := s.bay b
    x.power.state = .settling → x.everyRec (fun r => r.kind ≠ .write ∧ r.origin ≠ .settle) → x.tracker.unsettled ≠ .ranges [] →
    x.tracker.waiting = [] → x.lowestFree tag →
    exec (.settleFlushIssue b) s = .next (s.modBay b (fun x =>
      x.issues tag { hostRecord .flush 0 0 s.rack.us none false 0 (some x.tracker.seq) with origin := .settle })))
  ∧ (∀ (b : BayIx) (s : State),
    let x := s.bay b
    x.power.state = .settling → x.everyRec (fun _ => False) → x.tracker.unsettled = .ranges [] → x.tracker.waiting = [] →
    let u := s.modBay b (fun x => { x with
      power := { x.power with state := .off, spinTimer := none, learnWait := false }
      lane := { x.lane with downUp := false, retired := [], downWait := [] } })
    (x.plan.state ≠ .running → exec (.settledOff b) s = .next (grantTest u))
    ∧ ∀ (k : SlotIx) (off : Nat), x.plan.state = .running → x.plan.step = .settling → x.plan.cursor = some k →
        s.rack.slots[k].body = .powerCycle off → s.rack.queue = [] →
        exec (.settledOff b) s = .next (u.modBay b (fun x =>
          { x with plan := { x.plan with step := .offTime, timer := some off } })))
  ∧ (∀ s : State,
    (s.rack.queue = [] ∨ s.rack.budget < s.tally + s.rack.spin → exec .grant s = .next s)
    ∧ ∀ (b : BayIx) (rest : List BayIx), s.rack.queue = b :: rest → b ∉ rest → (s.bay b).power.state = .queued →
      s.tally + s.rack.spin ≤ s.rack.budget → (rest = [] ∨ s.rack.budget < s.tally + s.rack.spin + s.rack.spin) →
      exec .grant s = .next ((s.modRack (fun r => { r with queue := rest })).modBay b (fun x =>
        { x with power := { x.power with
          state := .spinningUp, spinTimer := some s.rack.spinTimeout, grantTime := s.rack.ms, learnWait := true } })))
  ∧ (∀ (b : BayIx) (tag : Tag) (r : Rec) (a : Option CapacityAnswer) (mark : BitVec 64) (s : State),
    (s.bay b).tracker.recs[tag] = some r → r.origin = .settle → r.kind = .flush → r.flushMark = some mark →
    exec (.completion b tag (.good a)) s = exec (.partTagAssign b) ((s.binned b r).modBay b (fun x =>
      { x with tracker := { x.tracker with unsettled := match x.tracker.unsettled with
          | .ranges l => .ranges (l.filter (fun u => decide (mark < u.seq)))
          | .whole q => if mark < q then .whole q else .ranges [] } }.freed tag)))
  ∧ (∀ (b : BayIx) (tag : Tag) (r : Rec) (st : DriveStatus) (s : State),
    let x := s.bay b
    x.tracker.recs[tag] = some r → r.origin = .settle → r.kind = .flush → (∀ a, st ≠ .good a) → x.power.state = .settling →
    x.plan.state ≠ .running → x.tracker.waiting = [] → b ∉ s.rack.queue → x.zm.sound →
    AnswersNext (exec (.completion b tag st) s) (fun t =>
      let y := t.bay b
      y.power.state = .off
      ∧ y.power.settleFails = (if x.power.settleFails < 2 ^ 32 - 1 then x.power.settleFails + 1 else x.power.settleFails)
      ∧ y.power.lastFault = x.power.lastFault ∧ y.annex = x.annex ∧ y.plan = x.plan ∧ y.lane.downUp = false ∧ y.lane.held = []
      ∧ y.tracker.unsettled = .ranges [] ∧ y.tracker.seq = x.tracker.seq ∧ (∀ g : Tag, y.tracker.recs[g] = none)
      ∧ (x.zm.z = none → y.zm = x.zm)
      ∧ ∀ (z n : Nat), x.zm.z = some z →
        let lost : Prop := match x.tracker.unsettled with
          | .ranges l => ∃ u ∈ l, u.lo / 2 ^ z ≤ n ∧ n ≤ u.hi / 2 ^ z
          | .whole _ => n < x.zm.used
        (lost → y.zm.get n = { x.zm.get n with suspect := true }) ∧ (¬ lost → y.zm.get n = x.zm.get n)))
  ∧ (∀ (b : BayIx) (k : SlotIx) (s : State),
    let x := s.bay b
    x.power.state = .settling → x.everyRec (fun _ => False) → x.tracker.unsettled = .ranges [] → x.tracker.waiting = [] →
    x.plan.state = .running → x.plan.step = .settling → x.plan.cursor = some k → s.rack.slots[k].body = .powerOff →
    s.rack.queue = [] →
    exec (.settledOff b) s = .next (travel b arrivalFuel s.rack.slots[k].nxt (s.modBay b (fun x => { x with
      power := { x.power with state := .off, spinTimer := none, learnWait := false }
      lane := { x.lane with downUp := false, retired := [], downWait := [] } }))))
  ∧ (∀ (b : BayIx) (tag : Tag) (r : Rec) (st : DriveStatus) (s t : State),
    let x := s.bay b
    x.tracker.recs[tag] = some r → r.origin = .settle → r.kind = .flush → (∀ a, st ≠ .good a) →
    let cut : State := ((s.binned b r).modBay b (fun x => { x with power := { x.power with
      settleFails := if x.power.settleFails < 2 ^ 32 - 1 then x.power.settleFails + 1 else x.power.settleFails } })).cutOff b
    let ends (u : State) : Prop := Runs [.grant] u t →
      exec (.completion b tag st) s = exec (.partTagAssign b) (t.modBay b (·.freed tag))
    (x.plan.state ≠ .running ∨ x.plan.step ≠ .settling → ends cut)
    ∧ ∀ k : SlotIx, x.plan.state = .running → x.plan.step = .settling → x.plan.cursor = some k →
      (∀ off, s.rack.slots[k].body = .powerCycle off →
        ends (cut.modBay b (fun x => { x with plan := { x.plan with step := .offTime, timer := some off } })))
      ∧ (s.rack.slots[k].body = .powerOff → ends (travel b arrivalFuel s.rack.slots[k].nxt cut)))

/-- A waiting request takes the lowest free part tag; with no free one, or no request, PART_TAG_ASSIGN changes nothing (that the step
is a command of its own is DEDUCED, log entry 12; that it then has no effect is the model's choice, log entry 23). The next visit of
an ACTIVE sweep starts with its command, one credit spent; the read of a WRITTEN visit is issued. -/
def Obligations.TagAndVisitSteps : Prop :=
  (∀ (b : BayIx) (s : State),
    ((s.bay b).tracker.waiting = [] ∨ (∀ tag, ¬ (s.bay b).lowestFree tag) → exec (.partTagAssign b) s = .next s)
    ∧ ∀ (tag : Tag) (r : Rec) (rest : List Rec), (s.bay b).tracker.waiting = r :: rest → (s.bay b).lowestFree tag →
      ((s.bay b).power.state ≠ .settling ∨ r.origin = .settle) → r.origin ≠ .host →
      exec (.partTagAssign b) s = .next (s.modBay b (fun x =>
        { x with tracker := { x.tracker with waiting := rest } }.issues tag
          { r with
            issue := s.rack.us
            flushMark := if r.kind = CmdKind.flush then some x.tracker.seq else none
            ship := if r.origin = Origin.ship then some (shipSector s.rack x b r.lba) else none })))
  ∧ ∀ (b : BayIx) (tag : Tag) (a : Active) (s : State),
    let x := s.bay b
    x.sweep.active = some a → x.sweep.status = .active → x.power.state = .on → a.yielding = false → x.tracker.waiting = [] →
    x.lowestFree tag →
    let lba (v : Nat) := a.lo + chunkOf a.cfg.order a.n v * a.cfg.chunk
    let count (v : Nat) := min (a.lo + (chunkOf a.cfg.order a.n v + 1) * a.cfg.chunk) a.hi - lba v
    let reads (v : Nat) : Rec :=
      { hostRecord .read (lba v) (count v) s.rack.us none true a.cfg.tolerance none with
        origin := .sweep, visit := some v, rescans := a.cfg.rescans, gen := a.gen }
    let writes (v : Nat) : Rec :=
      { hostRecord .write (lba v) (count v) s.rack.us a.p false 0 none with
        origin := .sweep, visit := some v, rescans := a.cfg.rescans, gen := a.gen }
    let sets (v : Nat) (st : VisitState) (c : Credit) : Active :=
      { a with window := a.window.setIfInBounds (v - a.frontier) st, credit := c }
    (∀ (v : Nat) (c c' : Credit), a.nextVisit = v → v < a.n → v < a.frontier + 8 → a.waitingRead = none →
      a.inFlight < a.cfg.maxInFlight → a.credit = c →
      (c = .unbounded ∧ c' = .unbounded ∨ ∃ n, c = .count (n + 1) ∧ c' = .count n) →
      let starts (st : VisitState) (r : Rec) := exec (.visitStart b) s = .next (s.modBay b (fun x =>
        { x with sweep := { x.sweep with active := some (sets v st c') } }.issues tag r))
      (a.cfg.op = .verify → starts .issued (reads v))
      ∧ (a.cfg.op = .write ∨ a.cfg.op = .erase → starts .issued (writes v))
      ∧ (a.cfg.op = .writeVerify → starts .writing (writes v)))
    ∧ ∀ v : Nat, a.waitingRead = some v →
      exec (.visitReadIssue b) s = .next (s.modBay b (fun x =>
        { x with sweep := { x.sweep with active := some (sets v .reading a.credit) } }.issues tag (reads v)))

/-- A rescan of the head of the queue starts where the cursor's phase takes one: the zone, R, the pass counter, the tolerance and the
in-flight limit are fixed, and the phase is suspended, a SWEEP as SUSPENDED, a DWELL with its timer running on in the plan record
(DEDUCED, log entry 10); with an empty queue RESCAN_START changes nothing (log entries 12 and 23). A chunk's command is issued: the
read of the lowest WRITTEN chunk, else the write of the lowest NOT-STARTED chunk. A rescan's record that closes: a write makes its
chunk WRITTEN and its read is asked for at once, once the write's tag is free (DEDUCED, log entry 13); a read makes it COMPLETE, and
with all M chunks COMPLETE the pass closes: the zone is STAMPED [P, P] without SUSPECT-LOSS, and the next pass starts, or after R
passes the zone is HEALED, counted, and the rescan ends. At a rescan's end the next one starts where the queue has a zone, the bay is
ON and the phase's time and pass are not over; else the phase is restored: a DWELL goes on or, its time over, the cursor moves; a
SWEEP is ACTIVE again with its visits, or starts its next pass and first visits in the same event, or ends PASSES-DONE or TIME-LIMIT,
or, with no request waiting, drains. -/
def Obligations.RescanSteps : Prop :=
  (∀ (b : BayIx) (k : SlotIx) (e : QEntry) (rest : List QEntry) (z c : Nat) (s : State),
    let x := s.bay b
    (x.zm.queue = [] → exec (.rescanStart b) s = .next s)
    ∧ (x.plan.state = .running → x.plan.cursor = some k → x.power.state = .on → x.zm.queue = e :: rest → x.sweep.rescan = none →
      x.zm.z = some z → x.power.cap = some c →
      let starts (isSweep : Bool) (tol limit : Nat) := AnswersNext (exec (.rescanStart b) s) (fun t =>
        let y := t.bay b
        OnlyBay b s t ∧ y.zm = { x.zm with queue := rest }
        ∧ (∃ q, y.sweep.rescan = some q ∧ q.zone = e.zone ∧ q.r = e.r ∧ q.done = 0 ∧ q.p = x.sweep.passCounter ∧ q.tol = tol
            ∧ q.limit = limit ∧ q.m = (min ((e.zone + 1) * 2 ^ z) c - e.zone * 2 ^ z + 255) / 256)
        ∧ y.sweep.saved = some { isSweep := isSweep, slot := k, passClosed := false, timeExpired := false }
        ∧ y.sweep.status = (if isSweep then .suspended else x.sweep.status) ∧ y.sweep.passCounter = x.sweep.passCounter
        ∧ y.plan = x.plan ∧ y.power = x.power ∧ y.settings = x.settings ∧ y.counters = x.counters ∧ y.annex = x.annex
        ∧ y.tracker.unsettled = x.tracker.unsettled)
      (∀ d, s.rack.slots[k].body = .dwell d → x.plan.step = .timing → starts false x.settings.tolerance 4)
      ∧ ∀ f a, s.rack.slots[k].body = .sweep f → x.sweep.status = .active → x.sweep.active = some a → a.cfg.op ≠ .erase →
          starts true a.cfg.tolerance a.cfg.maxInFlight))
  ∧ (∀ (b : BayIx) (tag : Tag) (q : Rescan) (z c j : Nat) (s : State),
    let x := s.bay b
    x.sweep.rescan = some q → x.zm.z = some z → x.power.cap = some c → x.power.state = .on → q.awaitLink = false →
    x.tracker.waiting = [] → x.lowestFree tag →
    let lba := q.zone * 2 ^ z + 256 * j
    let count := min 256 (min ((q.zone + 1) * 2 ^ z) c - lba)
    let issues (st : VisitState) (r : Rec) := exec (.rescanChunkIssue b) s = .next (s.modBay b (fun x =>
      { x with sweep := { x.sweep with rescan := some { q with chunks := tblSet .notStarted j st q.chunks } } }.issues tag
        { r with origin := .rescan, visit := some j, gen := q.gen }))
    (q.waitingRead = some j → issues .reading (hostRecord .read lba count s.rack.us none true q.tol none))
    ∧ (q.waitingRead = none → q.nextChunk = some j → q.inFlight < q.limit →
        issues .writing (hostRecord .write lba count s.rack.us (some q.p) false 0 none)))
  ∧ (∀ (b : BayIx) (tag : Tag) (r : Rec) (st : DriveStatus) (j : Nat) (s : State),
    (s.bay b).tracker.recs[tag] = some r → r.origin = .rescan → r.visit = some j →
    let u := closeEffects b r st (s.binned b r)
    let y := u.bay b
    let told (t : State) : Prop :=
      (r.kind = .read → exec (.completion b tag st) s = exec (.partTagAssign b) (t.modBay b (·.freed tag)))
      ∧ (r.kind = .write → y.tracker.waiting = [] →
          exec (.completion b tag st) s = exec (.rescanChunkIssue b) (t.modBay b (·.freed tag)))
    (y.sweep.rescan = none ∨ (∀ q, y.sweep.rescan = some q → r.gen ≠ q.gen) → r.kind = .read → told u)
    ∧ ∀ q : Rescan, y.sweep.rescan = some q → r.gen = q.gen →
      let becomes (c : VisitState) : Rescan := { q with chunks := tblSet .notStarted j c q.chunks }
      let now (q' : Rescan) : State := u.modBay b (fun x => { x with sweep := { x.sweep with rescan := some q' } })
      (r.kind = .write → told (now (becomes .written)))
      ∧ (r.kind = .read →
        let q' := becomes .complete
        let complete := (q'.chunks.filter (fun e => e.2 = .complete)).length
        (complete < q.m → told (now q'))
        ∧ (q.m ≤ complete →
          let stamped (x : Bay) : Bay := x.modZm (fun m => m.modify q.zone (fun k => { k with kind := .stamped q.p q.p, suspect := false }))
          (q.done + 1 < q.r → told (u.modBay b (fun x =>
            { stamped x with sweep := { x.sweep with rescan := some { q with done := q.done + 1, chunks := [] } } })))
          ∧ (q.r ≤ q.done + 1 → told (rescanEnd b ((now q').modBay b (fun x => (stamped x).modZm (fun m =>
              { m.modify q.zone (fun k => { k with cls := .healed }) with
                healed := if m.healed < 2 ^ 32 - 1 then m.healed + 1 else m.healed }))))))))
  ∧ (∀ (b : BayIx) (v : Saved) (k : SlotIx) (s : State), (s.bay b).sweep.saved = some v →
    (s.bay b).plan.state = .running → (s.bay b).plan.cursor = some k →
    let x := s.bay b
    let w : State := s.modBay b (fun x => { x with sweep := { x.sweep with rescan := none } })
    let again : Prop := x.zm.queue ≠ [] ∧ x.power.state = .on ∧ v.timeExpired = false ∧ ¬ (v.isSweep = true ∧ v.passClosed = true)
    let ends (l : List Instr) (t : State) : Prop := ∀ t', Runs l t t' → rescanEnd b s = t'
    let nxt := s.rack.slots[k].nxt
    let pump : List Instr := List.replicate 8 (.visitReadIssue b) ++ List.replicate 8 (.visitStart b)
    let back (status : SweepStatus) : State := w.modBay b (fun x => { x with sweep := { x.sweep with saved := none, status := status } })
    (∀ (e : QEntry) (rest : List QEntry) (z c : Nat) (a : Active), again → x.zm.queue = e :: rest → x.zm.z = some z →
      x.power.cap = some c → (v.isSweep = true → x.sweep.active = some a) →
      let q : Rescan :=
        { zone := e.zone, r := e.r, done := 0, p := x.sweep.passCounter
          tol := if v.isSweep then a.cfg.tolerance else x.settings.tolerance, limit := if v.isSweep then a.cfg.maxInFlight else 4
          m := (min ((e.zone + 1) * 2 ^ z) c - e.zone * 2 ^ z + 255) / 256, chunks := [], awaitLink := false
          gen := x.sweep.gen + 1 }
      ends (List.replicate 16 (.rescanChunkIssue b)) (s.modBay b (fun x => { x with
        zm := { x.zm with queue := rest }, sweep := { x.sweep with gen := x.sweep.gen + 1, rescan := some q } })))
    ∧ (¬ again → v.isSweep = false →
      (v.timeExpired = false → ends [.rescanStart b] (back x.sweep.status))
      ∧ (v.timeExpired = true → ends [.rescanStart b] (travel b arrivalFuel nxt (back x.sweep.status))))
    ∧ ∀ a : Active, ¬ again → v.isSweep = true → x.sweep.active = some a →
      let more : Prop := a.passIx + 1 < a.cfg.passes
      let resume (pass frontier : Nat) : Option Resume :=
        if a.cfg.order = .ascendContinue then some { slot := a.slot, passIx := pass, frontier := frontier } else x.sweep.resume
      let done (reason : EndReason) (r : Option Resume) : Prop :=
        ends [.rescanStart b] (travel b arrivalFuel nxt ((back .active).modBay b (·.sweepEnds a reason r)))
      (v.passClosed = false → v.timeExpired = false → ends (pump ++ [.rescanStart b]) (back .active))
      ∧ (v.passClosed = true → v.timeExpired = false →
        (more → ends (.rescanStart b :: pump ++ [.rescanStart b]) ((back .active).modBay b (·.nextPass a)))
        ∧ (¬ more → done .passesDone x.sweep.resume))
      ∧ (v.passClosed = true → v.timeExpired = true → (more → done .timeLimit (resume (a.passIx + 1) 0))
        ∧ (¬ more → done .passesDone x.sweep.resume))
      ∧ (v.passClosed = false → v.timeExpired = true → x.tracker.waiting = [] →
        let open? : Prop := ∃ (g : Tag) (q : Rec), x.tracker.recs[g] = some q ∧ q.origin = .sweep ∧ q.gen = a.gen
        (open? → ends [.rescanStart b] ((back .draining).modBay b (fun x => { x with sweep := { x.sweep with
            intervalTimer := none, active := some { a with credit := .count 0 } } })))
        ∧ (¬ open? → ends [.rescanStart b] (travel b arrivalFuel nxt ((back .active).modBay b
            (·.sweepEnds { a with credit := .count 0 } .timeLimit (resume a.passIx a.frontier)))))))

/-! ### Links -/

/-- LINK RESET: every record is discarded with no completion, the hold list and the annex service are emptied, the sweep rewinds (not
one that has ended: DEDUCED, log entry 15), the rescan goes back to its first chunk, a SHIP write is to be issued again or, left by an
ended plan, has failed (DEDUCED, log entry 25), a LEARN query is asked again, and the link-reset count rises; in ON the downstream
link is reset too (its LINK RESET goes down at once, on a link that is DOWN too: the model's choice, log entry 43), in any other power
state the tags are retired. A DRAINING sweep ends TIME-LIMIT at it, and the waiting requests of
other owners are assigned, last of all, after the count has risen (the model's choice, log entry 41). The upstream link's first rise
and its fall only set its level, a later rise is a lane reset. -/
def Obligations.LaneResets : Prop :=
  (let up (n : Nat) := if n < 2 ^ 32 - 1 then n + 1 else n
  (∀ (b : BayIx) (s : State), (s.bay b).plainDiscard →
    let u (reset : Bool) : State := s.modBay b (fun x =>
      let y := x.discards reset
      { y with lane := { y.lane with held := [], annexSvc := [], linkResets := up x.lane.linkResets } })
    let y := (u false).bay b
    ((s.bay b).power.state = .on → exec (.linkReset b) s = .next (u true))
    ∧ ((s.bay b).power.state ≠ .on →
      (y.power.learnWait = false ∨ y.lane.downUp = false → exec (.linkReset b) s = .next (u false))
      ∧ ∀ tag : Tag, y.power.learnWait = true → y.lane.downUp = true → y.power.state ≠ .settling → y.lowestFree tag →
        exec (.linkReset b) s = .next ((u false).modBay b (fun x => { x with power := { x.power with learnWait := false } }.issues tag
          { hostRecord .capacity 0 0 s.rack.us none false 0 none with origin := .learn }))))
  ∧ (∀ (b : BayIx) (s : State),
    let x := s.bay b
    let u : State := s.modBay b (fun x =>
      let y := x.discards (decide (x.power.state = .on))
      { y with lane := { y.lane with held := [], annexSvc := [] } })
    let told (v : State) : Prop := ((v.bay b).power.learnWait = false ∨ (v.bay b).lane.downUp = false) → ∀ t,
      Runs (List.replicate (v.bay b).tracker.waiting.length (.partTagAssign b))
        (v.modBay b (fun x => { x with lane := { x.lane with linkResets := up x.lane.linkResets } })) t →
      exec (.linkReset b) s = .next t
    (x.sweep.status ≠ .draining → told u)
    ∧ ∀ (a : Active) (k : SlotIx), x.sweep.status = .draining → x.sweep.active = some a → x.plan.state = .running →
      x.plan.cursor = some k →
      told (travel b arrivalFuel s.rack.slots[k].nxt (u.modBay b (·.sweepEnds { a with window := mapVec VisitState.rewound a.window }
        .timeLimit (if a.cfg.order = .ascendContinue then some { slot := a.slot, passIx := a.passIx, frontier := a.frontier }
          else x.sweep.resume))))))
  ∧ (∀ v : VisitState, v.rewound = match v with
      | .issued => .notStarted
      | .writing => .notStarted
      | .reading => .written
      | st => st)
  ∧ (∀ (b : BayIx) (s : State),
    let level (u r : Bool) : State := s.modBay b (fun x => { x with lane := { x.lane with upUp := u, upRisen := r } })
    exec (.upstreamLinkDown b) s = .next (level false (s.bay b).lane.upRisen)
    ∧ ((s.bay b).lane.upUp = false → (s.bay b).lane.upRisen = false → exec (.upstreamLinkUp b) s = .next (level true true))
    ∧ ((s.bay b).lane.upUp = false → (s.bay b).lane.upRisen = true →
        exec (.upstreamLinkUp b) s = exec (.linkReset b) (level true true)))

/-- The downstream link's rise sends the frames that waited, in a bay that waits for it asks the LEARN query, and in a bay whose SHIP
write is to be issued again issues it, with the ship record built anew; its fall empties the retired set, the waiting requests are
assigned, and the records and the waiting frames stay. A rise or fall that changes no level has no effect (the model's choice, log
entry 24). -/
def Obligations.DownstreamLinkEvents : Prop :=
  (∀ (b : BayIx) (s : State),
    let x := s.bay b
    let rises : Bay → Bay := fun x => { x with
      lane := { x.lane with downUp := true, downSent := x.lane.downSent ++ x.lane.downWait, downWait := [] }
      sweep := { x.sweep with rescan := x.sweep.rescan.map (fun q => { q with awaitLink := false }) } }
    (x.lane.downUp = true ∨ x.power.state.powered = false → exec (.downstreamLinkUp b) s = .next s)
    ∧ (x.lane.downUp = false → x.power.state.powered = true → x.ship.reissue = false →
      (x.power.learnWait = false ∨ x.power.state ≠ .spinningUp → exec (.downstreamLinkUp b) s = .next (s.modBay b rises))
      ∧ ∀ tag : Tag, x.power.learnWait = true → x.power.state = .spinningUp → x.tracker.waiting = [] → x.lowestFree tag →
        exec (.downstreamLinkUp b) s = .next (s.modBay b (fun x =>
          { rises x with power := { x.power with learnWait := false } }.issues tag
            { hostRecord .capacity 0 0 s.rack.us none false 0 none with origin := .learn })))
    ∧ (x.lane.downUp = false → exec (.downstreamLinkDown b) s = .next s)
    ∧ (x.lane.downUp = true → x.tracker.waiting = [] → exec (.downstreamLinkDown b) s = .next (s.modBay b (fun x =>
        { x with lane := { x.lane with downUp := false, retired := [] } }))))
  ∧ (∀ (b : BayIx) (s : State),
    let x := s.bay b
    let rises : Bay → Bay := fun x => { x with
      lane := { x.lane with downUp := true, downSent := x.lane.downSent ++ x.lane.downWait, downWait := [] }
      sweep := { x.sweep with rescan := x.sweep.rescan.map (fun q => { q with awaitLink := false }) } }
    (∀ (l : Nat) (tag : Tag), x.lane.downUp = false → x.power.state = .on → x.ship.reissue = true → x.ship.lba = some l →
      x.tracker.waiting = [] → x.lowestFree tag →
      let y : Bay := { rises x with ship := { x.ship with reissue := false } }
      exec (.downstreamLinkUp b) s = .next (s.modBay b (fun _ => y.issues tag
        { hostRecord .write l 1 s.rack.us none false 0 none with
          origin := .ship, ship := some (shipSector s.rack y b l), gen := x.plan.gen })))
    ∧ ∀ t : State, x.lane.downUp = true →
      Runs (List.replicate x.tracker.waiting.length (.partTagAssign b)) (s.modBay b (fun x =>
        { x with lane := { x.lane with downUp := false, retired := [] } })) t →
      exec (.downstreamLinkDown b) s = .next t)

/-! ### Presence, wipes and expiries -/

/-- PRESENT asserted starts the debounce in an EMPTY bay; deasserted it stops it there, and in any other power state it is a removal:
power, records, held commands and the unsettled-write list go, the session is ABANDONED and a RUNNING plan REMOVED. The debounce's end
recognizes a drive: the session wipe begins, the bay is OFF with an ACTIVE session. A wipe's next zone record takes its initial value,
and every other zone stays; with zone 4095 the wipe is done: the pass counter is 0, the mailbox IDLE, and a CLEAR-SESSION that waits
for it takes result DONE. (The model's choices: the order of the discarded commands' completions, log entry 6; the time left of a
debounce passes first, log entry 3; WIPE_ZONE_RESET with no wipe and the insertion's expiry in a bay that is not EMPTY change nothing
more, log entry 23.) -/
def Obligations.PresenceAndWipeEvents : Prop :=
  (∀ (b : BayIx) (s : State),
      let x := s.bay b
      (x.lines.present = false → exec (.presentAssert b) s = .next (s.modBay b (fun x => { x with lines := { x.lines with
        present := true, debounce := if x.power.state = .empty then some 500 else x.lines.debounce } })))
      ∧ (x.lines.present = true → x.power.state = .empty → exec (.presentDeassert b) s = .next (s.modBay b (fun x =>
          { x with lines := { x.lines with present := false, debounce := none } })))
      ∧ (x.lines.present = true → x.power.state ≠ .empty → AnswersNext (exec (.presentDeassert b) s) (fun t =>
          let y := t.bay b
          y.lines.present = false ∧ y.lines.debounce = none
          ∧ y.power.state = .empty ∧ y.power.session = .abandoned ∧ y.power.unsupported = false ∧ y.power.spinTimer = none
          ∧ y.power.cap = x.power.cap ∧ y.power.lastFault = x.power.lastFault ∧ b ∉ t.rack.queue
          ∧ y.power.forcedRemovals = (if x.lines.auxFn = .lock ∧ x.power.state ≠ .off ∧ x.power.forcedRemovals < 2 ^ 32 - 1
              then x.power.forcedRemovals + 1 else x.power.forcedRemovals)
          ∧ (∀ tag : Tag, y.tracker.recs[tag] = none) ∧ y.tracker.unsettled = .ranges [] ∧ y.tracker.seq = x.tracker.seq
          ∧ y.lane.held = [] ∧ y.lane.downUp = false ∧ y.lane.retired = [] ∧ y.lane.rc = x.lane.rc
          ∧ (x.lane.upUp = true → y.lane.upSent = x.lane.upSent ++ x.hostCompletions .aborted
              ++ x.lane.held.map (fun h => .completion h.tag .notReady))
          ∧ (x.plan.state ≠ .running → y.plan = x.plan ∧ y.annex = x.annex.raised 1)
          ∧ (x.plan.state = .running → y.plan.state = .ended ∧ y.plan.outcome = some .removed ∧ y.plan.endSlot = some x.plan.cursor
              ∧ y.annex = (x.annex.raised 3).raised 1)))
      ∧ ∀ k : Nat, x.lines.debounce = some k →
        let u := advanceMs k s
        (x.lines.present = true → x.power.state = .empty → AnswersNext (exec (.insertionRecognized b) s) (fun t =>
          let y := t.bay b
          OnlyBay b u t
          ∧ y.power.state = .off ∧ y.power.session = .active ∧ y.power.unsupported = false ∧ y.power.cap = none
          ∧ y.power.lastFault = none ∧ y.power.cycles = 0 ∧ y.lane.rc = 0 ∧ y.lane.linkResets = 0 ∧ y.lines.debounce = none
          ∧ y.tracker.unsettled = .ranges [] ∧ y.tracker.seq = 0#64 ∧ y.tracker.timeouts = 0
          ∧ y.settings = x.settings ∧ y.counters.verified = 0 ∧ y.counters.list = List.replicate 11 0
          ∧ y.zm.z = none ∧ y.zm.used = 0 ∧ y.zm.zones = x.zm.zones ∧ y.zm.distinct = x.zm.distinct ∧ y.zm.queue = []
          ∧ y.sweep.status = .none ∧ y.sweep.passCounter = x.sweep.passCounter ∧ y.plan.state = .none ∧ y.grade = none
          ∧ y.ship.name = .none ∧ y.annex.mailbox = .busyWipe ∧ y.annex.wipe = some 0
          ∧ y.annex.flags = x.annex.flags.set 0 true
          ∧ (x.annex.mailbox = .busyDirective → y.annex.result = { x.annex.result with state := .complete, result := .done })
          ∧ (x.annex.mailbox ≠ .busyDirective → y.annex.result = x.annex.result)))
        ∧ (x.power.state ≠ .empty → exec (.insertionRecognized b) s = .next (u.modBay b (fun x =>
            { x with lines := { x.lines with debounce := none } }))))
  ∧ (∀ (b : BayIx) (n : Nat) (s : State), (s.bay b).zm.sound →
      let x := s.bay b
      (x.annex.wipe = none → exec (.wipeZoneReset b) s = .next s)
      ∧ (x.annex.wipe = some n → AnswersNext (exec (.wipeZoneReset b) s) (fun t =>
          let y := t.bay b
          (∀ m, y.zm.get m = if m = n then ZoneRec.init else x.zm.get m)
          ∧ (n < 4095 → t = s.modBay b (fun x => { x with zm := y.zm, annex := { x.annex with wipe := some (n + 1) } }))
          ∧ (4095 ≤ n → t = s.modBay b (fun x => { x with
              zm := y.zm
              sweep := { x.sweep with passCounter := 0 }
              annex := { x.annex with
                mailbox := .idle, wipe := none
                result := if x.annex.mailbox = .busyDirective then { x.annex.result with state := .complete, result := .done }
                  else x.annex.result } })))))

/-- The expiries of the Lane Unit, the Command Tracker and the Power Arbiter: the oldest held command completes NOT-READY; the spin-up
timer is a forced power-off with fault SPINUP-FAILED, and a RUNNING plan ends FAULTED with the fault bin; a record whose age reaches
Tw is a timeout event: the link is reset, every record is discarded, a host's completing TIMEOUT, the sweep rewinds (not one that has
ended: DEDUCED, log entry 15) and a DRAINING one ends TIME-LIMIT, a SHIP write is to be issued again or, left by an ended plan, has
failed (DEDUCED, log entry 25), and the count rises; in SETTLING, with no sweep DRAINING, it is a failed settling, after which
a RUNNING plan's POWER-CYCLE phase starts its off time and its POWER-OFF phase moves the cursor on; the count that reaches the limit is a forced power-off with TIMEOUT-LIMIT: a RUNNING plan ends FAULTED with the fault bin, its sweep
STOPPED where it stood, its open SHIP write FAILED. Below the limit the waiting requests take the freed tags last, after the count has
risen (the model's choice, log entry 41). (The model's choices: the time left of an expiry taken early passes first, log entry 3; the
order of the completions, log entry 6; the LINK RESET of the watchdog goes down at once, on a link that is DOWN too, log entry 43.) -/
def Obligations.HoldSpinUpAndTimeoutExpiries : Prop :=
  (∀ (b : BayIx) (s : State),
    let x := s.bay b
    (x.lane.held = [] → exec (.holdTimeout b) s = .next s)
    ∧ (∀ (h : Held) (rest : List Held), x.lane.held = h :: rest →
        let u := advanceMs (s.rack.hold - (s.rack.ms - h.arrival).toNat) s
        exec (.holdTimeout b) s = .next (u.modBay b (fun x =>
          { x with lane := { x.lane with held := rest } }.sends (.completion h.tag .notReady))))
    ∧ (∀ k : Nat, x.power.state = .spinningUp → x.power.spinTimer = some k →
        let u := advanceMs k s
        AnswersNext (exec (.spinupTimerExpiry b) s) (fun t =>
          let y := t.bay b
          y.power.state = .off ∧ y.power.spinTimer = none ∧ y.power.lastFault = some (.spinupFailed, u.rack.ms)
          ∧ y.power.session = x.power.session ∧ y.power.cap = x.power.cap
          ∧ y.lane.held = [] ∧ y.lane.downUp = false ∧ y.tracker.unsettled = .ranges []
          ∧ (∀ tag : Tag, y.tracker.recs[tag] = none)
          ∧ (x.plan.state ≠ .running → y.plan = x.plan ∧ y.grade = x.grade ∧ y.annex = x.annex.raised 4)
          ∧ (x.plan.state = .running → y.plan.state = .ended ∧ y.plan.outcome = some .faulted
              ∧ y.plan.fault = some .spinupFailed ∧ y.annex = (x.annex.raised 4).raised 3
              ∧ y.grade = some { bin := s.rack.faultBin, rules := false, rule := none, time := u.rack.ms })))
    ∧ (x.everyRec (fun _ => False) → exec (.timeoutEvent b) s = .next s)
    ∧ ∀ (tag : Tag) (r : Rec), x.tracker.recs[tag] = some r → x.tracker.tw * 1000 ≤ (s.rack.us - r.issue).toNat →
      let count := if x.tracker.timeouts < 2 ^ 32 - 1 then x.tracker.timeouts + 1 else x.tracker.timeouts
      s.rack.limit ≤ count → AnswersNext (exec (.timeoutEvent b) s) (fun t =>
          let y := t.bay b
          y.power.state = .off ∧ y.power.lastFault = some (.timeoutLimit, s.rack.ms) ∧ y.tracker.timeouts = count
          ∧ (∀ g : Tag, y.tracker.recs[g] = none) ∧ y.tracker.unsettled = .ranges [] ∧ y.lane.held = [] ∧ y.lane.downUp = false
          ∧ (t.bay b).annex.flags[4] = true))
  ∧ (∀ (b : BayIx) (tag : Tag) (r : Rec) (s : State),
    let x := s.bay b
    x.tracker.recs[tag] = some r → x.tracker.tw * 1000 ≤ (s.rack.us - r.issue).toNat →
    let count := if x.tracker.timeouts < 2 ^ 32 - 1 then x.tracker.timeouts + 1 else x.tracker.timeouts
    let u : State := s.modBay b (fun x =>
      let y := x.discards true
      { y with lane := { y.lane with
          upSent := if x.lane.upUp then x.lane.upSent ++ x.hostCompletions .timeout else x.lane.upSent } })
    let told (v : State) : Prop := ∀ t, Runs (List.replicate (v.bay b).tracker.waiting.length (.partTagAssign b))
      (v.modBay b (fun x => { x with tracker := { x.tracker with
        timeouts := if x.tracker.timeouts < 2 ^ 32 - 1 then x.tracker.timeouts + 1 else x.tracker.timeouts } })) t →
      exec (.timeoutEvent b) s = .next t
    (count < s.rack.limit → x.power.state ≠ .settling →
      (x.plainDiscard → exec (.timeoutEvent b) s = .next (u.modBay b (fun x => { x with tracker := { x.tracker with timeouts := count } })))
      ∧ (x.sweep.status ≠ .draining → told u)
      ∧ ∀ (a : Active) (k : SlotIx), x.sweep.status = .draining → x.sweep.active = some a → x.plan.state = .running →
        x.plan.cursor = some k →
        told (travel b arrivalFuel s.rack.slots[k].nxt (u.modBay b (·.sweepEnds { a with window := mapVec VisitState.rewound a.window }
          .timeLimit (if a.cfg.order = .ascendContinue then some { slot := a.slot, passIx := a.passIx, frontier := a.frontier }
            else x.sweep.resume)))))
    ∧ (count < s.rack.limit → x.power.state = .settling → x.plan.state ≠ .running → x.sweep.status ≠ .draining →
        b ∉ s.rack.queue → AnswersNext (exec (.timeoutEvent b) s) (fun t =>
          let y := t.bay b
          y.power.state = .off ∧ y.power.lastFault = x.power.lastFault ∧ y.annex = x.annex ∧ y.plan = x.plan
          ∧ y.power.settleFails = (if x.power.settleFails < 2 ^ 32 - 1 then x.power.settleFails + 1 else x.power.settleFails)
          ∧ y.tracker.timeouts = count ∧ (∀ g : Tag, y.tracker.recs[g] = none) ∧ y.tracker.unsettled = .ranges []
          ∧ y.lane.downUp = false))
    ∧ (count < s.rack.limit → x.power.state = .settling → x.sweep.status ≠ .draining →
        let cut : State := (u.modBay b (fun x => { x with
          tracker := { x.tracker with timeouts := count }
          power := { x.power with
            settleFails := if x.power.settleFails < 2 ^ 32 - 1 then x.power.settleFails + 1 else x.power.settleFails } })).cutOff b
        let ends (v : State) : Prop := ∀ t, Runs [.grant] v t → exec (.timeoutEvent b) s = .next t
        (x.plan.state ≠ .running ∨ x.plan.step ≠ .settling → ends cut)
        ∧ ∀ k : SlotIx, x.plan.state = .running → x.plan.step = .settling → x.plan.cursor = some k →
          (∀ off, s.rack.slots[k].body = .powerCycle off →
            ends (cut.modBay b (fun x => { x with plan := { x.plan with step := .offTime, timer := some off } })))
          ∧ (s.rack.slots[k].body = .powerOff → ends (travel b arrivalFuel s.rack.slots[k].nxt cut)))
    ∧ (s.rack.limit ≤ count → x.plan.state = .running → b ∉ s.rack.queue → AnswersNext (exec (.timeoutEvent b) s) (fun t =>
        let y := t.bay b
        y.plan.state = .ended ∧ y.plan.outcome = some .faulted ∧ y.plan.fault = some .timeoutLimit
        ∧ y.plan.endSlot = some x.plan.cursor ∧ y.sweep.rescan = none
        ∧ y.grade = some { bin := s.rack.faultBin, rules := false, rule := none, time := s.rack.ms }
        ∧ (x.sweep.status.running = true → y.sweep.status = .ended
            ∧ y.sweep.active = x.sweep.active.map (fun a => { a with endReason := some .stopped, credit := .count 0 }))
        ∧ (x.plan.step = .writing → x.tracker.anyRec (fun r => decide (r.origin = .ship ∧ r.gen = x.plan.gen)) = true →
            y.ship.name = .failed ∧ y.ship.reissue = false))))

/-- The expiries of a plan's phases and of a sweep's timers: a dwell moves the cursor on, or under a rescan waits for its end; an
off time asks for power; an INTERVAL trigger sets the credit or is dropped, and the timer reloads; a time limit drains an ACTIVE
sweep and marks a SUSPENDED one. (The time left of an expiry taken early passes first: the model's choice, log entry 3.) -/
def Obligations.PhaseAndSweepExpiries : Prop :=
  ∀ (b : BayIx) (k : Nat) (s : State),
    let x := s.bay b
    let u := advanceMs k s
    let running (st : PhaseStep) : Prop := x.plan.state = .running ∧ x.plan.step = st ∧ x.plan.timer = some k
    (∀ c : SlotIx, running .timing → x.plan.cursor = some c → x.sweep.rescan = none →
        exec (.dwellTimerExpiry b) s = .next (travel b arrivalFuel s.rack.slots[c].nxt u))
    ∧ (running .timing → x.sweep.rescan ≠ none → exec (.dwellTimerExpiry b) s = .next (u.modBay b (fun x =>
        { x with
          plan := { x.plan with step := .expired, timer := some 0 }
          sweep := { x.sweep with saved := x.sweep.saved.map (fun v => { v with timeExpired := true }) } })))
    ∧ (running .offTime → x.power.state = .off → exec (.offTimeExpiry b) s = .next (grantTest
        ((u.modBay b (fun x => { x with
          plan := { x.plan with step := .poweringUp, timer := none }, power := { x.power with state := .queued } })).modRack
          (fun r => { r with queue := r.queue ++ [b] }))))
    ∧ (∀ a : Active, x.sweep.intervalTimer = some k → (u.bay b).sweep.active = some a →
        let ends (a' : Active) (t : Option Nat) := exec (.intervalTimerExpiry b) s = .next (u.modBay b (fun x =>
          { x with sweep := { x.sweep with active := some a', intervalTimer := t } }))
        (x.sweep.status = .active → a.cfg.pacing = .successive → ends { a with credit := .unbounded } none)
        ∧ (x.sweep.status = .active → a.cfg.pacing = .single → a.credit = .count 0 →
            ends { a with credit := .count 1 } (some a.cfg.interval))
        ∧ (x.sweep.status = .active → a.cfg.pacing = .block → a.credit = .count 0 →
            ends { a with credit := .count a.cfg.block } (some a.cfg.interval))
        ∧ (∀ n, x.sweep.status = .active → a.cfg.pacing ≠ .successive → a.credit = .count (n + 1) →
            ends { a with missed := if a.missed < 65535 then a.missed + 1 else a.missed } (some a.cfg.interval))
        ∧ (x.sweep.status = .suspended → ends a (some a.cfg.interval)))
    ∧ ∀ a : Active, x.sweep.active = some a → a.timeLeft = some k →
      let drained : Active := { a with timeLeft := some 0, credit := .count 0 }
      (∀ v, x.sweep.status = .suspended → x.sweep.saved = some v → v.timeExpired = false →
        exec (.timeLimitExpiry b) s = .next (u.modBay b (fun x => { x with sweep := { x.sweep with
          intervalTimer := none, active := some drained, saved := some { v with timeExpired := true } } })))
      ∧ (x.sweep.status = .active → x.tracker.waiting = [] →
        let w := u.modBay b (fun x => { x with sweep := { x.sweep with
          status := .draining, intervalTimer := none, active := some drained } })
        ((∃ (tag : Tag) (r : Rec), x.tracker.recs[tag] = some r ∧ r.origin = .sweep ∧ r.gen = a.gen) →
          exec (.timeLimitExpiry b) s = .next w)
        ∧ ∀ c : SlotIx, x.everyRec (fun r => r.origin ≠ .sweep) → x.plan.state = .running → x.plan.cursor = some c →
          exec (.timeLimitExpiry b) s = .next (travel b arrivalFuel s.rack.slots[c].nxt (w.modBay b (fun x =>
            { x with sweep := { x.sweep with
              status := .ended, active := some { drained with endReason := some .timeLimit }
              resume := if a.cfg.order = .ascendContinue then some { slot := a.slot, passIx := a.passIx, frontier := a.frontier }
                else x.sweep.resume } }))))

/-- The idle timer's expiry loads it with W again and is the IDLE trigger of an ACTIVE sweep; the ACTIVITY pulse ends; a blinking
lamp takes its other half for 500 or 125 ms. (The time left of an expiry taken early passes first: the model's choice, log entry
3.) -/
def Obligations.IdleAndLampExpiries : Prop :=
  ∀ (b : BayIx) (k : Nat) (s : State),
    let x := s.bay b
    let u := advanceMs k s
    (x.tracker.idle = some k →
      let ends (a : Option Active) := exec (.idleTimerExpiry b) s = .next (u.modBay b (fun x =>
        { x with tracker := { x.tracker with idle := some x.tracker.w }, sweep := { x.sweep with active := a } }))
      (x.sweep.status ≠ .active → ends (u.bay b).sweep.active)
      ∧ ∀ a : Active, (u.bay b).sweep.active = some a → x.sweep.status = .active →
        (a.cfg.trigger ≠ .idle → ends (some a))
        ∧ (a.cfg.trigger = .idle →
          (∀ n, a.cfg.pacing ≠ .successive → a.credit = .count (n + 1) → ends (some a))
          ∧ (a.cfg.pacing = .successive → ends (some { a with yielding := false, credit := .unbounded }))
          ∧ (a.cfg.pacing = .single → a.credit = .count 0 → ends (some { a with yielding := false, credit := .count 1 }))
          ∧ (a.cfg.pacing = .block → a.credit = .count 0 →
              ends (some { a with yielding := false, credit := .count a.cfg.block }))))
    ∧ (x.lines.pulse = some k → exec (.activityPulseEnd b) s = .next (u.modBay b (fun x =>
        { x with lines := { x.lines with pulse := none } })))
    ∧ (x.lines.blink = some k → exec (.lampBlinkToggle b) s = .next (u.modBay b (fun x =>
        { x with lines := { x.lines with
          blinkLit := !x.lines.blinkLit
          blink := match x.lines.pattern with
            | .slow => some 500
            | .fast => some 125
            | _ => none } })))

/-! ### Plans, grades and the part's own closes -/

/-- What the arrival of the cursor at a slot comes to, by the slot's kind and the power state; an arrival that moves on takes the next
slot in the same event, and END completes the plan. At a SWEEP slot in ON the phase starts: the range fitted to C and marked where it
is clipped, n chunks, the pass and the first visit of the resume cursor that names the slot in ASCEND-CONTINUE, and else 0, P from the
raised pass counter for a write op, the IMMEDIATE trigger's first credit, the INTERVAL timer, the time limit; an empty range ends it
EMPTY in the same event (its fields with no value, and the credit it shows: DEDUCED, log entry 27). At a STAMP slot in ON with a
shippable grade the step is WRITING, the LBA is fitted, and the SHIP write is issued, or waits where no part tag is free or other
requests wait. (That a SWEEP or STAMP turned away, or a POWER-OFF reached on an OFF bay, leaves the phase step none is the model's
choice, log entry 46.) -/
def Obligations.PlanArrivals : Prop :=
  (∀ (b : BayIx) (k : SlotIx) (s : State),
    let nxt := s.rack.slots[k].nxt
    let at_ (st : PhaseStep) (timer : Option Nat) (reg : Option (SlotIx × Nat)) : State := s.modBay b (fun x =>
      { x with plan := { x.plan with
          cursor := some k, step := st, phaseStart := some s.rack.ms, timer := timer, loopReg := reg } })
    let reg := (s.bay b).plan.loopReg
    let isOn : Prop := (s.bay b).power.state = .on
    let settling (u : State) : State := u.modBay b (fun x => { x with power := { x.power with state := .settling } })
    (∀ d, s.rack.slots[k].body = .dwell d →
      (d = 0 → arriveAt b k s = .move nxt (at_ .timing (some 0) reg)) ∧ (0 < d → arriveAt b k s = .stay (at_ .timing (some d) reg)))
    ∧ (∀ off, s.rack.slots[k].body = .powerCycle off →
      (isOn → arriveAt b k s = .stay (settling (at_ .settling none reg)))
      ∧ (¬ isOn → arriveAt b k s = .stay (at_ .offTime (some off) reg)))
    ∧ (s.rack.slots[k].body = .powerOff →
      (isOn → arriveAt b k s = .stay (settling (at_ .settling none reg))) ∧ (¬ isOn → arriveAt b k s = .move nxt (at_ .none none reg)))
    ∧ (∀ target n, s.rack.slots[k].body = .loop target n →
      (reg = none → n = 0 → arriveAt b k s = .move nxt (at_ .none none none))
      ∧ (reg = none → 0 < n → arriveAt b k s = .move (some target) (at_ .none none (some (k, n - 1))))
      ∧ (∀ m, reg = some (k, m + 1) → arriveAt b k s = .move (some target) (at_ .none none (some (k, m))))
      ∧ (reg = some (k, 0) → arriveAt b k s = .move nxt (at_ .none none none))
      ∧ ∀ j m, reg = some (j, m) → j ≠ k → arriveAt b k s = .finish .planError (at_ .none none reg))
    ∧ (∀ f, s.rack.slots[k].body = .sweep f → ¬ isOn → arriveAt b k s = .finish .planError (at_ .none none reg))
    ∧ (∀ l, s.rack.slots[k].body = .stamp l →
      ((s.bay b).grade = none → arriveAt b k s = .finish .stampRefused (at_ .none none reg))
      ∧ ∀ g, (s.bay b).grade = some g →
        (s.rack.bins[g.bin].shippable = false → arriveAt b k s = .finish .stampRefused (at_ .none none reg))
        ∧ (s.rack.bins[g.bin].shippable = true → ¬ isOn → arriveAt b k s = .finish .planError (at_ .none none reg))
        ∧ ∀ (c : Nat) (tag : Tag), s.rack.bins[g.bin].shippable = true → isOn → (s.bay b).power.cap = some c →
          (s.bay b).tracker.waiting = [] → (s.bay b).lowestFree tag →
          ∃ t, arriveAt b k s = .stay t
            ∧ (t.bay b).ship = { name := .writing, lba := some (min l (c - 1)), clipped := decide (c - 1 < l), reissue := false }
            ∧ ∃ r, (t.bay b).tracker.recs[tag] = some r ∧ r.origin = .ship ∧ r.kind = .write ∧ r.lba = min l (c - 1)
              ∧ r.count = 1)
    ∧ ∀ bin other, s.rack.slots[k].body = .grade bin other →
      let g := gradeOf s.rack (s.bay b) bin
      arriveAt b k s = .move (if s.rack.bins[g.1].shippable then nxt else other) ((at_ .none none reg).modBay b (fun x =>
        { x with grade := some { bin := g.1, rules := true, rule := g.2, time := s.rack.ms } })))
  ∧ (∀ (b : BayIx) (n : Nat) (k : SlotIx) (s t : State),
    (∀ m, arriveAt b k s = .move m t → travel b (n + 1) (some k) s = travel b n m t)
    ∧ (arriveAt b k s = .stay t → travel b (n + 1) (some k) s = testRescan b t)
    ∧ (∀ o, arriveAt b k s = .finish o t → travel b (n + 1) (some k) s = planEnd b o none (some k) (t.bay b).plan.disposal t)
    ∧ travel b (n + 1) none s = planEnd b .completed none none (s.bay b).plan.disposal s)
  ∧ (∀ (b : BayIx) (k : SlotIx) (c : Nat) (s : State),
    let x := s.bay b
    let nxt := s.rack.slots[k].nxt
    let reg := x.plan.loopReg
    let at_ (st : PhaseStep) : State := s.modBay b (fun x =>
      { x with plan := { x.plan with
          cursor := some k, step := st, phaseStart := some s.rack.ms, timer := none, loopReg := reg } })
    x.power.state = .on → x.power.cap = some c →
    (∀ (f : SweepCfg) (pass first : Nat) (kept : Option Resume), s.rack.slots[k].body = .sweep f →
      ((∃ u, x.sweep.resume = some u ∧ f.order = .ascendContinue ∧ u.slot = k ∧ pass = u.passIx ∧ first = u.frontier ∧ kept = none)
        ∨ ((∀ u, x.sweep.resume = some u → f.order ≠ .ascendContinue ∨ u.slot ≠ k) ∧ pass = 0 ∧ first = 0
            ∧ kept = x.sweep.resume)) →
      let asked := if f.length = 0 then c else f.start + f.length
      let stamps : Prop := f.op = .write ∨ f.op = .writeVerify
      let credit : Credit := if f.trigger = .immediate then
        (if f.pacing = .successive then .unbounded else if f.pacing = .single then .count 1 else .count f.block) else .count 0
      let phase (lo hi n : Nat) (clipped empty : Bool) (p : Option Nat) (why : Option EndReason) : Active :=
        { slot := k, cfg := f, lo := lo, hi := hi, clipped := clipped, empty := empty, n := n, passIx := pass, p := p
          firstVisit := first, frontier := first, window := Vector.replicate 8 .notStarted, credit := credit, yielding := false
          missed := 0, timeLeft := if f.limit = 0 then none else some f.limit, endReason := why, gen := x.sweep.gen + 1 }
      let starts (st : SweepStatus) (pc : Nat) (t : Option Nat) (a : Active) : State := (at_ .running).modBay b (fun x =>
        { x with sweep := { x.sweep with
            passCounter := pc, status := st, active := some a, resume := kept, intervalTimer := t, gen := x.sweep.gen + 1 } })
      (c ≤ f.start → arriveAt b k s
        = .move nxt (starts .ended x.sweep.passCounter none (phase 0 0 0 false true none (some .empty))))
      ∧ (f.start < c →
        let hi := min asked c
        let pc := if stamps then min 65535 (x.sweep.passCounter + 1) else x.sweep.passCounter
        arriveAt b k s = .stay (starts .active pc (if f.trigger = .interval then some f.interval else none)
          (phase f.start hi ((hi - f.start + f.chunk - 1) / f.chunk) (decide (c < asked)) false (if stamps then some pc else none)
            none))))
    ∧ ∀ (l : Nat) (g : Grade), s.rack.slots[k].body = .stamp l → x.grade = some g →
      s.rack.bins[g.bin].shippable = true →
      let u : State := (at_ .writing).modBay b (fun x =>
        { x with ship := { name := .writing, lba := some (min l (c - 1)), clipped := decide (c - 1 < l), reissue := false } })
      let asks : Rec := { hostRecord .write (min l (c - 1)) 1 0#32 none false 0 none with origin := .ship, gen := x.plan.gen }
      (∀ tag, x.tracker.waiting = [] → x.lowestFree tag → arriveAt b k s = .stay (u.modBay b (·.issues tag
        { asks with issue := s.rack.us, ship := some (shipSector s.rack (u.bay b) b (min l (c - 1))) })))
      ∧ (x.tracker.waiting ≠ [] ∨ (∀ tag, ¬ x.lowestFree tag) → arriveAt b k s = .stay (u.modBay b (fun x =>
          { x with tracker := { x.tracker with waiting := x.tracker.waiting ++ [asks] } }))))

/-- The grade: the target of the last true enabled rule, up to the first true one whose stop is set; with none true the default bin
and no deciding rule. A comparison is of unsigned numbers. The metrics of selectors 0 to 21 and 24: VERIFIED in thousands, the eleven
outcome counters, the five zone counts, timeouts, link resets, the commands in bins from the argument on, the worst latency in ms, the
longest spin-up and the power cycles. -/
def Obligations.GradeFromRules : Prop :=
  (∀ (r : Rack) (x : Bay) (dflt : Fin 16),
    let true? (k : Fin 24) : Prop :=
      r.rules[k].enable = true ∧ r.rules[k].comparison.holds (metric x r.rules[k].selector r.rules[k].argument) r.rules[k].threshold
    ((∀ k, ¬ true? k) → gradeOf r x dflt = (dflt, none))
    ∧ ∀ k : Fin 24, true? k → (∀ j, j < k → true? j → r.rules[j].stop = false) →
      (r.rules[k].stop = true ∨ ∀ j, k < j → ¬ true? j) → gradeOf r x dflt = (r.rules[k].target, some k))
  ∧ (∀ m t : Nat,
    (Comparison.above.holds m t = true ↔ t < m) ∧ (Comparison.atLeast.holds m t = true ↔ t ≤ m)
    ∧ (Comparison.below.holds m t = true ↔ m < t) ∧ (Comparison.atMost.holds m t = true ↔ m ≤ t)
    ∧ (Comparison.equal.holds m t = true ↔ m = t) ∧ (Comparison.notEqual.holds m t = true ↔ m ≠ t))
  ∧ (∀ (x : Bay) (arg : Nat),
    let c := x.counters
    let slow (h : Hist) : Nat := ((List.finRange 12).map (fun k => if arg ≤ k.val then h.bins[k] else 0)).sum
    let t := x.tracker
    metric x 0 arg = min (2 ^ 32 - 1) (c.verified / 1000)
    ∧ ([1, 2, 3, 4, 5, 6, 7, 8, 9, 10, 11].map (metric x · arg) = [c.soft, c.corrupt, c.misplaced, c.stale, c.blank, c.foreign,
        c.headerCorrupt, c.unreadable, c.writeFault, c.ahead, c.lostWrite])
    ∧ ([12, 13, 14, 15, 16].map (metric x · arg) = [x.zm.distinct, x.zm.confirmed, x.zm.healed, x.zm.dropped, x.zm.rehits])
    ∧ metric x 17 arg = t.timeouts ∧ metric x 18 arg = x.lane.linkResets ∧ metric x 21 arg = x.power.longest
    ∧ metric x 24 arg = x.power.cycles
    ∧ metric x 19 arg = min (2 ^ 32 - 1) (slow t.histRead + slow t.histWrite + slow t.histFlush)
    ∧ metric x 20 arg = max t.histRead.worst (max t.histWrite.worst t.histFlush.worst) / 1000)

/-- The close of a LEARN query in SPINNING-UP: a supported answer learns the capacity, or meets the learned one, and the bay comes ON;
another capacity, or an unsupported answer, is a forced power-off with its fault; an error asks the query again. The change to ON, with
or without held commands, bays in the grant queue and a plan RUNNING: the capacity is learned where it was not known, the bay is ON,
the grant test runs, and the hold list is emptied from its head as the commands would arrive then; a plan that waits for ON arrives at
its slot, a POWER-CYCLE that powers up counts its cycle and moves on; the test of a rescan and the waiting requests follow. The close of a sweep's own command before its pass is done: its visit is COMPLETE, the frontier moves past the
COMPLETE visits, the latency is binned and the tag is free; a GOOD WRITE joins the Zone Map and the unsettled-write list. The close of
the SHIP record: the ship state is WRITTEN after GOOD and else FAILED (of a plan that has ended: DEDUCED, log entry 25), and a STAMP
phase in its write moves its plan's cursor on. -/
def Obligations.PartRecordsClose : Prop :=
  (∀ (b : BayIx) (tag : Tag) (r : Rec) (a : CapacityAnswer) (s : State),
      let x := s.bay b
      let supported : Prop := a.sectorSize = 4096 ∧ a.queueDepth = 32 ∧ 1048576 ≤ a.capacity ∧ a.capacity ≤ 68719476736
      x.tracker.recs[tag] = some r → r.origin = .learn → r.kind = .capacity → x.power.state = .spinningUp →
      let on (x : Bay) : Bay := { x with
        power := { x.power with
          state := .on, spinTimer := none, longest := max x.power.longest (s.rack.ms - x.power.grantTime).toNat }
        lines := { x.lines with pulse := some 50 }
        tracker := { x.tracker with recs := x.tracker.recs.set tag none } }
      let quiet : Prop := x.lane.held = [] ∧ x.plan.state ≠ .running ∧ x.tracker.waiting = [] ∧ s.rack.queue = []
      (supported → x.power.cap = none → quiet → exec (.completion b tag (.good (some a))) s = .next (s.modBay b (fun x =>
        let y := on x
        { y with
          power := { y.power with cap := some a.capacity }
          lane := { y.lane with rc := a.capacity - 256 }
          zm := { y.zm with z := some (zoneShift a.capacity), used := zonesUsed a.capacity }
          annex := y.annex.raised 2 })))
      ∧ (supported → x.power.cap = some a.capacity → quiet →
          exec (.completion b tag (.good (some a))) s = .next (s.modBay b on))
      ∧ (∀ c, supported → x.power.cap = some c → c ≠ a.capacity →
          AnswersNext (exec (.completion b tag (.good (some a))) s) (fun t =>
            (t.bay b).power.state = .off ∧ (t.bay b).power.lastFault = some (.capacityChanged, s.rack.ms)
            ∧ (t.bay b).power.cap = some c))
      ∧ (¬ supported → AnswersNext (exec (.completion b tag (.good (some a))) s) (fun t =>
          (t.bay b).power.state = .off ∧ (t.bay b).power.unsupported = true
          ∧ (t.bay b).power.lastFault = some (.unsupported, s.rack.ms) ∧ (t.bay b).power.cap = x.power.cap))
      ∧ ∀ g : Tag, x.tracker.waiting = [] → x.lowestFree g →
          AnswersNext (exec (.completion b tag .otherError) s) (fun t =>
            (t.bay b).power = { x.power with learnWait := false } ∧ (t.bay b).tracker.recs[tag] = none
            ∧ (t.bay b).tracker.recs[g] = some { hostRecord .capacity 0 0 s.rack.us none false 0 none with origin := .learn }))
  ∧ (∀ (b : BayIx) (tag : Tag) (r : Rec) (a : Active) (v : Nat) (c : Option CapacityAnswer) (s : State),
      let x := s.bay b
      let a' := (a.setVisit v .complete).moveFrontier
      x.tracker.recs[tag] = some r → r.origin = .sweep → r.visit = some v → x.sweep.active = some a → r.gen = a.gen →
      x.sweep.status = .active → a'.frontier < a'.n → a'.waitingRead = none → x.tracker.waiting = [] →
      let closes (f : Bay → Bay) := exec (.completion b tag (.good c)) s = .next (s.modBay b (fun x =>
        let y := f x
        let t := y.tracker.binLatency r.kind (s.rack.us - r.issue).toNat
        { y with
          sweep := { y.sweep with active := some a' }
          lines := { y.lines with pulse := some 50 }
          tracker := { t with recs := t.recs.set tag none } }))
      (r.kind = .read → closes id)
      ∧ (r.kind = .write → a.cfg.op ≠ .writeVerify → 1 ≤ r.count → closes (fun x =>
          { x with
            zm := x.zm.write (writeEffect .sweep r.pass x.sweep.passCounter) r.lba (r.lba + r.count - 1)
            tracker := { x.tracker with
              seq := x.tracker.seq + 1#64
              unsettled := x.tracker.unsettled.join r.lba (r.lba + r.count - 1) (x.tracker.seq + 1#64) } })))
  ∧ (∀ (b : BayIx) (tag : Tag) (r : Rec) (st : DriveStatus) (s : State),
      (s.bay b).tracker.recs[tag] = some r → r.origin = .ship →
      let u := closeEffects b r st (s.binned b r)
      let y := u.bay b
      let told (t : State) : Prop := exec (.completion b tag st) s = exec (.partTagAssign b) (t.modBay b (·.freed tag))
      ∀ name : ShipName, (∀ a, st = .good a → name = .written) → ((∀ a, st ≠ .good a) → name = .failed) →
      let w : State := u.modBay b (fun x => { x with ship := { x.ship with name := name } })
      let stamping : Prop := y.plan.state = .running ∧ y.plan.step = .writing ∧ y.plan.gen = r.gen
      (¬ stamping → told w)
      ∧ ∀ k : SlotIx, stamping → y.plan.cursor = some k → told (travel b arrivalFuel u.rack.slots[k].nxt w))
  ∧ (∀ (b : BayIx) (tag : Tag) (r : Rec) (a : CapacityAnswer) (s g t : State),
      let x := s.bay b
      x.tracker.recs[tag] = some r → r.origin = .learn → r.kind = .capacity → x.power.state = .spinningUp →
      a.sectorSize = 4096 → a.queueDepth = 32 → 1048576 ≤ a.capacity → a.capacity ≤ 68719476736 →
      x.power.cap = none ∨ x.power.cap = some a.capacity →
      let learned (x : Bay) : Bay := if x.power.cap ≠ none then x else { x with
        power := { x.power with cap := some a.capacity }
        lane := { x.lane with rc := a.capacity - 256 }
        zm := { x.zm with z := some (zoneShift a.capacity), used := zonesUsed a.capacity }
        annex := x.annex.raised 2 }
      Runs [.grant] (s.modBay b (fun x =>
        let y := learned x
        { y with power := { y.power with
          state := .on, spinTimer := none, longest := max x.power.longest (s.rack.ms - x.power.grantTime).toNat } })) g →
      let drain (x : Bay) (h : Held) : Bay :=
        if h.kind = .flush ∨ h.lba + h.count ≤ x.lane.rc then
          x.forwards h.tag (hostRecord h.kind h.lba h.count s.rack.us
            (if h.kind = .write ∧ x.settings.overlay = true then some x.sweep.passCounter else none)
            (decide (h.kind = .read) && x.settings.checking && x.annex.wipe.isNone) x.settings.tolerance
            (if h.kind = .flush then some x.tracker.seq else none)) []
        else x.sends (.completion h.tag .range)
      let drained : State := g.modBay b (fun y => x.lane.held.foldl drain { y with lane := { y.lane with held := [] } })
      let ends (u : State) : Prop := Runs [.rescanStart b] u t →
        exec (.completion b tag (.good (some a))) s = exec (.partTagAssign b) (t.modBay b (·.freed tag))
      (x.plan.state ≠ .running ∨ (x.plan.step ≠ .waitingForOn ∧ x.plan.step ≠ .poweringUp) → ends drained)
      ∧ (x.plan.state = .running → x.plan.step = .waitingForOn → ends (travel b arrivalFuel x.plan.cursor drained))
      ∧ ∀ k : SlotIx, x.plan.state = .running → x.plan.step = .poweringUp → x.plan.cursor = some k →
        ends (travel b arrivalFuel s.rack.slots[k].nxt (drained.modBay b (fun x => { x with power := { x.power with
          cycles := if x.power.cycles < 2 ^ 32 - 1 then x.power.cycles + 1 else x.power.cycles } }))))
end

