-- ==== Sys2Proof/Laws/State.lean ====
section
/-! SUPPORT. What each update of the state leaves and changes, field by field, so that no later proof unfolds a record
update. -/

namespace Sys2Proof.Machine

/-! ### The bays of a state -/

@[simp] theorem bay_setBay_same (s : State) (b : BayIx) (x : Bay) : (s.setBay b x).bay b = x := by
  simp [State.bay, State.setBay]

@[simp] theorem bay_setBay_other (s : State) (b c : BayIx) (x : Bay) (h : c ≠ b) : (s.setBay b x).bay c = s.bay c := by
  have : (b : Nat) ≠ c := fun e => h (Fin.ext e.symm)
  simp [State.bay, State.setBay, this]

@[simp] theorem bay_modBay_same (s : State) (b : BayIx) (f : Bay → Bay) : (s.modBay b f).bay b = f (s.bay b) := by
  simp [State.modBay]

@[simp] theorem bay_modBay_other (s : State) (b c : BayIx) (f : Bay → Bay) (h : c ≠ b) :
    (s.modBay b f).bay c = s.bay c := by
  simp [State.modBay, h]

theorem bay_modBay (s : State) (b c : BayIx) (f : Bay → Bay) :
    (s.modBay b f).bay c = if c = b then f (s.bay c) else s.bay c := by
  by_cases h : c = b
  · subst h; simp
  · simp [h]

@[simp] theorem rack_setBay (s : State) (b : BayIx) (x : Bay) : (s.setBay b x).rack = s.rack := rfl
@[simp] theorem pending_setBay (s : State) (b : BayIx) (x : Bay) : (s.setBay b x).pending = s.pending := rfl
@[simp] theorem rack_modBay (s : State) (b : BayIx) (f : Bay → Bay) : (s.modBay b f).rack = s.rack := rfl
@[simp] theorem pending_modBay (s : State) (b : BayIx) (f : Bay → Bay) : (s.modBay b f).pending = s.pending := rfl
@[simp] theorem bay_modRack (s : State) (c : BayIx) (f : Rack → Rack) : (s.modRack f).bay c = s.bay c := rfl
@[simp] theorem rack_modRack (s : State) (f : Rack → Rack) : (s.modRack f).rack = f s.rack := rfl
@[simp] theorem pending_modRack (s : State) (f : Rack → Rack) : (s.modRack f).pending = s.pending := rfl

theorem getElem_mapVec {α β : Type} {n : Nat} (f : α → β) (v : Vector α n) (i : Nat) (h : i < n) :
    (mapVec f v)[i] = f v[i] := by
  simp [mapVec]

@[simp] theorem bay_mapVec (s : State) (f : Bay → Bay) (b : BayIx) : ({ s with bays := mapVec f s.bays } : State).bay b = f (s.bay b) := by
  simp [State.bay, mapVec]

/-! ### The fields of a bay -/

@[simp] theorem lane_modLane (x : Bay) (f) : (x.modLane f).lane = f x.lane := rfl
@[simp] theorem tracker_modLane (x : Bay) (f) : (x.modLane f).tracker = x.tracker := rfl
@[simp] theorem settings_modLane (x : Bay) (f) : (x.modLane f).settings = x.settings := rfl
@[simp] theorem counters_modLane (x : Bay) (f) : (x.modLane f).counters = x.counters := rfl
@[simp] theorem zm_modLane (x : Bay) (f) : (x.modLane f).zm = x.zm := rfl
@[simp] theorem sweep_modLane (x : Bay) (f) : (x.modLane f).sweep = x.sweep := rfl
@[simp] theorem plan_modLane (x : Bay) (f) : (x.modLane f).plan = x.plan := rfl
@[simp] theorem grade_modLane (x : Bay) (f) : (x.modLane f).grade = x.grade := rfl
@[simp] theorem ship_modLane (x : Bay) (f) : (x.modLane f).ship = x.ship := rfl
@[simp] theorem power_modLane (x : Bay) (f) : (x.modLane f).power = x.power := rfl
@[simp] theorem lines_modLane (x : Bay) (f) : (x.modLane f).lines = x.lines := rfl
@[simp] theorem annex_modLane (x : Bay) (f) : (x.modLane f).annex = x.annex := rfl

@[simp] theorem lane_modTracker (x : Bay) (f) : (x.modTracker f).lane = x.lane := rfl
@[simp] theorem tracker_modTracker (x : Bay) (f) : (x.modTracker f).tracker = f x.tracker := rfl
@[simp] theorem settings_modTracker (x : Bay) (f) : (x.modTracker f).settings = x.settings := rfl
@[simp] theorem counters_modTracker (x : Bay) (f) : (x.modTracker f).counters = x.counters := rfl
@[simp] theorem zm_modTracker (x : Bay) (f) : (x.modTracker f).zm = x.zm := rfl
@[simp] theorem sweep_modTracker (x : Bay) (f) : (x.modTracker f).sweep = x.sweep := rfl
@[simp] theorem plan_modTracker (x : Bay) (f) : (x.modTracker f).plan = x.plan := rfl
@[simp] theorem grade_modTracker (x : Bay) (f) : (x.modTracker f).grade = x.grade := rfl
@[simp] theorem ship_modTracker (x : Bay) (f) : (x.modTracker f).ship = x.ship := rfl
@[simp] theorem power_modTracker (x : Bay) (f) : (x.modTracker f).power = x.power := rfl
@[simp] theorem lines_modTracker (x : Bay) (f) : (x.modTracker f).lines = x.lines := rfl
@[simp] theorem annex_modTracker (x : Bay) (f) : (x.modTracker f).annex = x.annex := rfl

@[simp] theorem lane_modZm (x : Bay) (f) : (x.modZm f).lane = x.lane := rfl
@[simp] theorem tracker_modZm (x : Bay) (f) : (x.modZm f).tracker = x.tracker := rfl
@[simp] theorem settings_modZm (x : Bay) (f) : (x.modZm f).settings = x.settings := rfl
@[simp] theorem counters_modZm (x : Bay) (f) : (x.modZm f).counters = x.counters := rfl
@[simp] theorem zm_modZm (x : Bay) (f) : (x.modZm f).zm = f x.zm := rfl
@[simp] theorem sweep_modZm (x : Bay) (f) : (x.modZm f).sweep = x.sweep := rfl
@[simp] theorem plan_modZm (x : Bay) (f) : (x.modZm f).plan = x.plan := rfl
@[simp] theorem grade_modZm (x : Bay) (f) : (x.modZm f).grade = x.grade := rfl
@[simp] theorem ship_modZm (x : Bay) (f) : (x.modZm f).ship = x.ship := rfl
@[simp] theorem power_modZm (x : Bay) (f) : (x.modZm f).power = x.power := rfl
@[simp] theorem lines_modZm (x : Bay) (f) : (x.modZm f).lines = x.lines := rfl
@[simp] theorem annex_modZm (x : Bay) (f) : (x.modZm f).annex = x.annex := rfl

@[simp] theorem lane_modSweep (x : Bay) (f) : (x.modSweep f).lane = x.lane := rfl
@[simp] theorem tracker_modSweep (x : Bay) (f) : (x.modSweep f).tracker = x.tracker := rfl
@[simp] theorem settings_modSweep (x : Bay) (f) : (x.modSweep f).settings = x.settings := rfl
@[simp] theorem counters_modSweep (x : Bay) (f) : (x.modSweep f).counters = x.counters := rfl
@[simp] theorem zm_modSweep (x : Bay) (f) : (x.modSweep f).zm = x.zm := rfl
@[simp] theorem sweep_modSweep (x : Bay) (f) : (x.modSweep f).sweep = f x.sweep := rfl
@[simp] theorem plan_modSweep (x : Bay) (f) : (x.modSweep f).plan = x.plan := rfl
@[simp] theorem grade_modSweep (x : Bay) (f) : (x.modSweep f).grade = x.grade := rfl
@[simp] theorem ship_modSweep (x : Bay) (f) : (x.modSweep f).ship = x.ship := rfl
@[simp] theorem power_modSweep (x : Bay) (f) : (x.modSweep f).power = x.power := rfl
@[simp] theorem lines_modSweep (x : Bay) (f) : (x.modSweep f).lines = x.lines := rfl
@[simp] theorem annex_modSweep (x : Bay) (f) : (x.modSweep f).annex = x.annex := rfl

@[simp] theorem lane_modPlan (x : Bay) (f) : (x.modPlan f).lane = x.lane := rfl
@[simp] theorem tracker_modPlan (x : Bay) (f) : (x.modPlan f).tracker = x.tracker := rfl
@[simp] theorem settings_modPlan (x : Bay) (f) : (x.modPlan f).settings = x.settings := rfl
@[simp] theorem counters_modPlan (x : Bay) (f) : (x.modPlan f).counters = x.counters := rfl
@[simp] theorem zm_modPlan (x : Bay) (f) : (x.modPlan f).zm = x.zm := rfl
@[simp] theorem sweep_modPlan (x : Bay) (f) : (x.modPlan f).sweep = x.sweep := rfl
@[simp] theorem plan_modPlan (x : Bay) (f) : (x.modPlan f).plan = f x.plan := rfl
@[simp] theorem grade_modPlan (x : Bay) (f) : (x.modPlan f).grade = x.grade := rfl
@[simp] theorem ship_modPlan (x : Bay) (f) : (x.modPlan f).ship = x.ship := rfl
@[simp] theorem power_modPlan (x : Bay) (f) : (x.modPlan f).power = x.power := rfl
@[simp] theorem lines_modPlan (x : Bay) (f) : (x.modPlan f).lines = x.lines := rfl
@[simp] theorem annex_modPlan (x : Bay) (f) : (x.modPlan f).annex = x.annex := rfl

@[simp] theorem lane_modPower (x : Bay) (f) : (x.modPower f).lane = x.lane := rfl
@[simp] theorem tracker_modPower (x : Bay) (f) : (x.modPower f).tracker = x.tracker := rfl
@[simp] theorem settings_modPower (x : Bay) (f) : (x.modPower f).settings = x.settings := rfl
@[simp] theorem counters_modPower (x : Bay) (f) : (x.modPower f).counters = x.counters := rfl
@[simp] theorem zm_modPower (x : Bay) (f) : (x.modPower f).zm = x.zm := rfl
@[simp] theorem sweep_modPower (x : Bay) (f) : (x.modPower f).sweep = x.sweep := rfl
@[simp] theorem plan_modPower (x : Bay) (f) : (x.modPower f).plan = x.plan := rfl
@[simp] theorem grade_modPower (x : Bay) (f) : (x.modPower f).grade = x.grade := rfl
@[simp] theorem ship_modPower (x : Bay) (f) : (x.modPower f).ship = x.ship := rfl
@[simp] theorem power_modPower (x : Bay) (f) : (x.modPower f).power = f x.power := rfl
@[simp] theorem lines_modPower (x : Bay) (f) : (x.modPower f).lines = x.lines := rfl
@[simp] theorem annex_modPower (x : Bay) (f) : (x.modPower f).annex = x.annex := rfl

@[simp] theorem lane_modLines (x : Bay) (f) : (x.modLines f).lane = x.lane := rfl
@[simp] theorem tracker_modLines (x : Bay) (f) : (x.modLines f).tracker = x.tracker := rfl
@[simp] theorem settings_modLines (x : Bay) (f) : (x.modLines f).settings = x.settings := rfl
@[simp] theorem counters_modLines (x : Bay) (f) : (x.modLines f).counters = x.counters := rfl
@[simp] theorem zm_modLines (x : Bay) (f) : (x.modLines f).zm = x.zm := rfl
@[simp] theorem sweep_modLines (x : Bay) (f) : (x.modLines f).sweep = x.sweep := rfl
@[simp] theorem plan_modLines (x : Bay) (f) : (x.modLines f).plan = x.plan := rfl
@[simp] theorem grade_modLines (x : Bay) (f) : (x.modLines f).grade = x.grade := rfl
@[simp] theorem ship_modLines (x : Bay) (f) : (x.modLines f).ship = x.ship := rfl
@[simp] theorem power_modLines (x : Bay) (f) : (x.modLines f).power = x.power := rfl
@[simp] theorem lines_modLines (x : Bay) (f) : (x.modLines f).lines = f x.lines := rfl
@[simp] theorem annex_modLines (x : Bay) (f) : (x.modLines f).annex = x.annex := rfl

@[simp] theorem lane_modAnnex (x : Bay) (f) : (x.modAnnex f).lane = x.lane := rfl
@[simp] theorem tracker_modAnnex (x : Bay) (f) : (x.modAnnex f).tracker = x.tracker := rfl
@[simp] theorem settings_modAnnex (x : Bay) (f) : (x.modAnnex f).settings = x.settings := rfl
@[simp] theorem counters_modAnnex (x : Bay) (f) : (x.modAnnex f).counters = x.counters := rfl
@[simp] theorem zm_modAnnex (x : Bay) (f) : (x.modAnnex f).zm = x.zm := rfl
@[simp] theorem sweep_modAnnex (x : Bay) (f) : (x.modAnnex f).sweep = x.sweep := rfl
@[simp] theorem plan_modAnnex (x : Bay) (f) : (x.modAnnex f).plan = x.plan := rfl
@[simp] theorem grade_modAnnex (x : Bay) (f) : (x.modAnnex f).grade = x.grade := rfl
@[simp] theorem ship_modAnnex (x : Bay) (f) : (x.modAnnex f).ship = x.ship := rfl
@[simp] theorem power_modAnnex (x : Bay) (f) : (x.modAnnex f).power = x.power := rfl
@[simp] theorem lines_modAnnex (x : Bay) (f) : (x.modAnnex f).lines = x.lines := rfl
@[simp] theorem annex_modAnnex (x : Bay) (f) : (x.modAnnex f).annex = f x.annex := rfl

@[simp] theorem lane_modShip (x : Bay) (f) : (x.modShip f).lane = x.lane := rfl
@[simp] theorem tracker_modShip (x : Bay) (f) : (x.modShip f).tracker = x.tracker := rfl
@[simp] theorem settings_modShip (x : Bay) (f) : (x.modShip f).settings = x.settings := rfl
@[simp] theorem counters_modShip (x : Bay) (f) : (x.modShip f).counters = x.counters := rfl
@[simp] theorem zm_modShip (x : Bay) (f) : (x.modShip f).zm = x.zm := rfl
@[simp] theorem sweep_modShip (x : Bay) (f) : (x.modShip f).sweep = x.sweep := rfl
@[simp] theorem plan_modShip (x : Bay) (f) : (x.modShip f).plan = x.plan := rfl
@[simp] theorem grade_modShip (x : Bay) (f) : (x.modShip f).grade = x.grade := rfl
@[simp] theorem ship_modShip (x : Bay) (f) : (x.modShip f).ship = f x.ship := rfl
@[simp] theorem power_modShip (x : Bay) (f) : (x.modShip f).power = x.power := rfl
@[simp] theorem lines_modShip (x : Bay) (f) : (x.modShip f).lines = x.lines := rfl
@[simp] theorem annex_modShip (x : Bay) (f) : (x.modShip f).annex = x.annex := rfl

/-! ### The lane -/

@[simp] theorem upUp_laneSendUp (f : UpFrame) (l : Lane) : (l.sendUp f).upUp = l.upUp := by
  unfold Lane.sendUp; split <;> rfl
@[simp] theorem upRisen_laneSendUp (f : UpFrame) (l : Lane) : (l.sendUp f).upRisen = l.upRisen := by
  unfold Lane.sendUp; split <;> rfl
@[simp] theorem downUp_laneSendUp (f : UpFrame) (l : Lane) : (l.sendUp f).downUp = l.downUp := by
  unfold Lane.sendUp; split <;> rfl
@[simp] theorem rc_laneSendUp (f : UpFrame) (l : Lane) : (l.sendUp f).rc = l.rc := by
  unfold Lane.sendUp; split <;> rfl
@[simp] theorem held_laneSendUp (f : UpFrame) (l : Lane) : (l.sendUp f).held = l.held := by
  unfold Lane.sendUp; split <;> rfl
@[simp] theorem annexSvc_laneSendUp (f : UpFrame) (l : Lane) : (l.sendUp f).annexSvc = l.annexSvc := by
  unfold Lane.sendUp; split <;> rfl
@[simp] theorem retired_laneSendUp (f : UpFrame) (l : Lane) : (l.sendUp f).retired = l.retired := by
  unfold Lane.sendUp; split <;> rfl
@[simp] theorem downWait_laneSendUp (f : UpFrame) (l : Lane) : (l.sendUp f).downWait = l.downWait := by
  unfold Lane.sendUp; split <;> rfl
@[simp] theorem downSent_laneSendUp (f : UpFrame) (l : Lane) : (l.sendUp f).downSent = l.downSent := by
  unfold Lane.sendUp; split <;> rfl
@[simp] theorem linkResets_laneSendUp (f : UpFrame) (l : Lane) : (l.sendUp f).linkResets = l.linkResets := by
  unfold Lane.sendUp; split <;> rfl
@[simp] theorem upUp_laneSendDown (f : DownFrame) (l : Lane) : (l.sendDown f).upUp = l.upUp := by
  unfold Lane.sendDown; split <;> rfl
@[simp] theorem upRisen_laneSendDown (f : DownFrame) (l : Lane) : (l.sendDown f).upRisen = l.upRisen := by
  unfold Lane.sendDown; split <;> rfl
@[simp] theorem downUp_laneSendDown (f : DownFrame) (l : Lane) : (l.sendDown f).downUp = l.downUp := by
  unfold Lane.sendDown; split <;> rfl
@[simp] theorem rc_laneSendDown (f : DownFrame) (l : Lane) : (l.sendDown f).rc = l.rc := by
  unfold Lane.sendDown; split <;> rfl
@[simp] theorem held_laneSendDown (f : DownFrame) (l : Lane) : (l.sendDown f).held = l.held := by
  unfold Lane.sendDown; split <;> rfl
@[simp] theorem annexSvc_laneSendDown (f : DownFrame) (l : Lane) : (l.sendDown f).annexSvc = l.annexSvc := by
  unfold Lane.sendDown; split <;> rfl
@[simp] theorem retired_laneSendDown (f : DownFrame) (l : Lane) : (l.sendDown f).retired = l.retired := by
  unfold Lane.sendDown; split <;> rfl
@[simp] theorem upSent_laneSendDown (f : DownFrame) (l : Lane) : (l.sendDown f).upSent = l.upSent := by
  unfold Lane.sendDown; split <;> rfl
@[simp] theorem linkResets_laneSendDown (f : DownFrame) (l : Lane) : (l.sendDown f).linkResets = l.linkResets := by
  unfold Lane.sendDown; split <;> rfl
@[simp] theorem upUp_laneDropDown (l : Lane) : l.dropDown.upUp = l.upUp := rfl
@[simp] theorem upRisen_laneDropDown (l : Lane) : l.dropDown.upRisen = l.upRisen := rfl
@[simp] theorem rc_laneDropDown (l : Lane) : l.dropDown.rc = l.rc := rfl
@[simp] theorem held_laneDropDown (l : Lane) : l.dropDown.held = l.held := rfl
@[simp] theorem annexSvc_laneDropDown (l : Lane) : l.dropDown.annexSvc = l.annexSvc := rfl
@[simp] theorem upSent_laneDropDown (l : Lane) : l.dropDown.upSent = l.upSent := rfl
@[simp] theorem downSent_laneDropDown (l : Lane) : l.dropDown.downSent = l.downSent := rfl
@[simp] theorem linkResets_laneDropDown (l : Lane) : l.dropDown.linkResets = l.linkResets := rfl

theorem upSent_laneSendUp (f : UpFrame) (l : Lane) (h : l.upUp = true) : (l.sendUp f).upSent = l.upSent ++ [f] := by
  simp [Lane.sendUp, h]

theorem upSent_laneSendUp_down (f : UpFrame) (l : Lane) (h : l.upUp = false) : (l.sendUp f).upSent = l.upSent := by
  simp [Lane.sendUp, h]

/-! ### The tracker -/

@[simp] theorem waiting_setRec (t : Tracker) (tag : Tag) (r : Option Rec) : (t.setRec tag r).waiting = t.waiting := rfl
@[simp] theorem histRead_setRec (t : Tracker) (tag : Tag) (r : Option Rec) : (t.setRec tag r).histRead = t.histRead := rfl
@[simp] theorem histWrite_setRec (t : Tracker) (tag : Tag) (r : Option Rec) : (t.setRec tag r).histWrite = t.histWrite := rfl
@[simp] theorem histFlush_setRec (t : Tracker) (tag : Tag) (r : Option Rec) : (t.setRec tag r).histFlush = t.histFlush := rfl
@[simp] theorem w_setRec (t : Tracker) (tag : Tag) (r : Option Rec) : (t.setRec tag r).w = t.w := rfl
@[simp] theorem tw_setRec (t : Tracker) (tag : Tag) (r : Option Rec) : (t.setRec tag r).tw = t.tw := rfl
@[simp] theorem idle_setRec (t : Tracker) (tag : Tag) (r : Option Rec) : (t.setRec tag r).idle = t.idle := rfl
@[simp] theorem timeouts_setRec (t : Tracker) (tag : Tag) (r : Option Rec) : (t.setRec tag r).timeouts = t.timeouts := rfl
@[simp] theorem seq_setRec (t : Tracker) (tag : Tag) (r : Option Rec) : (t.setRec tag r).seq = t.seq := rfl
@[simp] theorem unsettled_setRec (t : Tracker) (tag : Tag) (r : Option Rec) : (t.setRec tag r).unsettled = t.unsettled := rfl

@[simp] theorem rec_setRec_same (t : Tracker) (tag : Tag) (r : Option Rec) : (t.setRec tag r).rec? tag = r := by
  simp [Tracker.rec?, Tracker.setRec]

@[simp] theorem rec_setRec_other (t : Tracker) (tag g : Tag) (r : Option Rec) (h : g ≠ tag) :
    (t.setRec tag r).rec? g = t.rec? g := by
  have : (tag : Nat) ≠ g := fun e => h (Fin.ext e.symm)
  simp [Tracker.rec?, Tracker.setRec, this]

end Sys2Proof.Machine
end

