-- ==== Sys2Proof/Laws/Tables.lean ====
section
/-! SUPPORT. The sorted tables: their canonical form is kept by every write, a read gives what was written last, and the sum of
a weight over a table follows each write. With them the Zone Map's writes keep its table and its distinct-defect count in
agreement (R63). -/

namespace Sys2Proof.Machine

variable {α : Type} [DecidableEq α] {d : α}

/-- Every key of the table is above `n`. -/
def keysAbove (n : Nat) (l : List (Nat × α)) : Prop := ∀ e ∈ l, n < e.1

theorem tblWf_cons (k : Nat) (v : α) (t : List (Nat × α)) :
    tblWf d ((k, v) :: t) = true ↔ v ≠ d ∧ keysAbove k t ∧ tblWf d t = true := by
  simp [tblWf, keysAbove, and_assoc]

omit [DecidableEq α] in
theorem keysAbove_erase {n m : Nat} {l : List (Nat × α)} (h : keysAbove n l) : keysAbove n (tblErase m l) := by
  induction l with
  | nil => exact h
  | cons e t ih =>
    obtain ⟨k, v⟩ := e
    have ht : keysAbove n t := fun x hx => h x (List.mem_cons_of_mem _ hx)
    unfold tblErase
    split
    · exact ht
    · intro x hx
      rcases List.mem_cons.mp hx with rfl | hx
      · exact h _ List.mem_cons_self
      · exact ih ht x hx

omit [DecidableEq α] in
theorem keysAbove_put {n m : Nat} {v : α} {l : List (Nat × α)} (h : keysAbove n l) (hm : n < m) :
    keysAbove n (tblPut m v l) := by
  induction l with
  | nil => intro x hx; simp [tblPut] at hx; subst hx; exact hm
  | cons e t ih =>
    obtain ⟨k, w⟩ := e
    have hk : n < k := h _ List.mem_cons_self
    have ht : keysAbove n t := fun x hx => h x (List.mem_cons_of_mem _ hx)
    unfold tblPut
    split
    · intro x hx
      rcases List.mem_cons.mp hx with rfl | hx
      · exact hm
      · rcases List.mem_cons.mp hx with rfl | hx
        · exact hk
        · exact ht x hx
    · split
      · intro x hx
        rcases List.mem_cons.mp hx with rfl | hx
        · exact hm
        · exact ht x hx
      · intro x hx
        rcases List.mem_cons.mp hx with rfl | hx
        · exact hk
        · exact ih ht x hx

theorem tblWf_erase {n : Nat} {l : List (Nat × α)} (h : tblWf d l = true) : tblWf d (tblErase n l) = true := by
  induction l with
  | nil => exact h
  | cons e t ih =>
    obtain ⟨k, v⟩ := e
    have ⟨hv, hk, ht⟩ := (tblWf_cons k v t).mp h
    unfold tblErase
    split
    · exact ht
    · exact (tblWf_cons _ _ _).mpr ⟨hv, keysAbove_erase hk, ih ht⟩

theorem tblWf_put {n : Nat} {v : α} {l : List (Nat × α)} (h : tblWf d l = true) (hv : v ≠ d) :
    tblWf d (tblPut n v l) = true := by
  induction l with
  | nil => simp [tblPut, tblWf, hv]
  | cons e t ih =>
    obtain ⟨k, w⟩ := e
    have ⟨hw, hk, ht⟩ := (tblWf_cons k w t).mp h
    unfold tblPut
    split
    · rename_i hlt
      refine (tblWf_cons _ _ _).mpr ⟨hv, ?_, h⟩
      intro x hx
      rcases List.mem_cons.mp hx with rfl | hx
      · exact hlt
      · exact Nat.lt_trans hlt (hk x hx)
    · split
      · rename_i heq
        subst heq
        exact (tblWf_cons _ _ _).mpr ⟨hv, hk, ht⟩
      · exact (tblWf_cons _ _ _).mpr ⟨hw, keysAbove_put hk (by omega), ih ht⟩

/-- Every write keeps the canonical form. -/
theorem tblWf_set {n : Nat} {v : α} {l : List (Nat × α)} (h : tblWf d l = true) : tblWf d (tblSet d n v l) = true := by
  unfold tblSet
  split
  · exact tblWf_erase h
  · rename_i hv; exact tblWf_put h hv

omit [DecidableEq α] in
theorem tblGet_below {n : Nat} {l : List (Nat × α)} (h : keysAbove n l) : tblGet d l n = d := by
  induction l with
  | nil => rfl
  | cons e t ih =>
    obtain ⟨k, v⟩ := e
    have : n < k := h _ List.mem_cons_self
    rw [tblGet, if_neg (by omega)]
    exact ih (fun x hx => h x (List.mem_cons_of_mem _ hx))

omit [DecidableEq α] in
theorem tblGet_put (n m : Nat) (v : α) (l : List (Nat × α)) :
    tblGet d (tblPut n v l) m = if m = n then v else tblGet d l m := by
  induction l with
  | nil =>
    by_cases h : m = n
    · simp [tblPut, tblGet, h]
    · have : n ≠ m := fun e => h e.symm
      simp [tblPut, tblGet, h, this]
  | cons e t ih =>
    obtain ⟨k, w⟩ := e
    unfold tblPut
    by_cases h1 : n < k
    · rw [if_pos h1]
      by_cases h : m = n
      · subst h; simp [tblGet]
      · have : n ≠ m := fun e => h e.symm
        simp [tblGet, h, this]
    · rw [if_neg h1]
      by_cases h2 : n = k
      · rw [if_pos h2]
        by_cases h : m = n
        · simp [tblGet, h]
        · have h3 : n ≠ m := fun e => h e.symm
          have h4 : k ≠ m := fun e => h (by omega)
          simp [tblGet, h, h3, h4]
      · rw [if_neg h2]
        by_cases h : m = n
        · subst h
          have h4 : k ≠ m := fun e => h2 e.symm
          simp [tblGet, h4, ih]
        · by_cases h4 : k = m
          · simp [tblGet, h4, h]
          · simp [tblGet, h4, ih, h]

theorem tblGet_erase {n : Nat} (m : Nat) {l : List (Nat × α)} (hw : tblWf d l = true) :
    tblGet d (tblErase n l) m = if m = n then d else tblGet d l m := by
  induction l with
  | nil => simp [tblErase, tblGet]
  | cons e t ih =>
    obtain ⟨k, v⟩ := e
    have ⟨_, hk, ht⟩ := (tblWf_cons k v t).mp hw
    unfold tblErase
    by_cases h : k = n
    · rw [if_pos h]
      by_cases hm : m = n
      · rw [if_pos hm, tblGet_below (by rw [hm, ← h]; exact hk)]
      · rw [if_neg hm, tblGet, if_neg (by omega)]
    · rw [if_neg h]
      by_cases hkm : k = m
      · have : m ≠ n := by omega
        simp [tblGet, hkm, this]
      · simp [tblGet, hkm, ih ht]

/-- A read gives what was written last at its key, and at every other key what stood there. -/
theorem tblGet_set {n : Nat} (m : Nat) {v : α} {l : List (Nat × α)} (hw : tblWf d l = true) :
    tblGet d (tblSet d n v l) m = if m = n then v else tblGet d l m := by
  unfold tblSet
  split
  · rename_i hv; rw [tblGet_erase m hw, hv]
  · exact tblGet_put n m v l

/-- The sum of a weight over the listed entries. -/
def tblSum (w : α → Nat) (l : List (Nat × α)) : Nat := (l.map (fun e => w e.2)).sum

omit [DecidableEq α] in
theorem tblSum_cons (w : α → Nat) (k : Nat) (v : α) (t : List (Nat × α)) : tblSum w ((k, v) :: t) = w v + tblSum w t := by
  simp [tblSum]

theorem tblSum_put (w : α → Nat) (hd : w d = 0) {n : Nat} (v : α) {l : List (Nat × α)} (hw : tblWf d l = true) :
    tblSum w (tblPut n v l) + w (tblGet d l n) = tblSum w l + w v := by
  induction l with
  | nil => simp [tblPut, tblSum, tblGet, hd]
  | cons e t ih =>
    obtain ⟨k, u⟩ := e
    have ⟨_, hk, ht⟩ := (tblWf_cons k u t).mp hw
    unfold tblPut
    by_cases h1 : n < k
    · rw [if_pos h1, tblGet, if_neg (by omega), tblGet_below (fun x hx => Nat.lt_trans h1 (hk x hx)), tblSum_cons, hd]
      omega
    · rw [if_neg h1]
      by_cases h2 : n = k
      · rw [if_pos h2, tblGet, if_pos h2.symm, tblSum_cons, tblSum_cons]; omega
      · rw [if_neg h2, tblGet, if_neg (by omega), tblSum_cons, tblSum_cons]
        have := ih ht
        omega

theorem tblSum_erase (w : α → Nat) (hd : w d = 0) {n : Nat} {l : List (Nat × α)} (hw : tblWf d l = true) :
    tblSum w (tblErase n l) + w (tblGet d l n) = tblSum w l := by
  induction l with
  | nil => simp [tblErase, tblSum, tblGet, hd]
  | cons e t ih =>
    obtain ⟨k, u⟩ := e
    have ⟨_, hk, ht⟩ := (tblWf_cons k u t).mp hw
    unfold tblErase
    by_cases h : k = n
    · rw [if_pos h, tblGet, if_pos h, tblSum_cons]; omega
    · rw [if_neg h, tblGet, if_neg h, tblSum_cons, tblSum_cons]
      have := ih ht
      omega

/-- A write moves the sum by the difference of the two weights. -/
theorem tblSum_set (w : α → Nat) (hd : w d = 0) {n : Nat} (v : α) {l : List (Nat × α)} (hw : tblWf d l = true) :
    tblSum w (tblSet d n v l) + w (tblGet d l n) = tblSum w l + w v := by
  unfold tblSet
  split
  · rename_i hv; rw [hv, hd]; exact tblSum_erase w hd hw
  · exact tblSum_put w hd v hw

/-! ### The Zone Map -/

theorem weight_init : ZoneRec.init.weight = 0 := by decide

/-- Writing a zone record keeps the Zone Map sound (R63). -/
theorem sound_put (n : Nat) (r : ZoneRec) (m : ZoneMap) (h : m.sound) : (m.put n r).sound := by
  have hs := tblSum_set (d := ZoneRec.init) ZoneRec.weight weight_init (n := n) r h.1
  refine ⟨tblWf_set h.1, ?_⟩
  have hc := h.2
  unfold ZoneMap.markedCount at hc ⊢
  unfold tblSum at hs
  simp only [ZoneMap.put, ZoneMap.get]
  omega

/-- A read of the Zone Map after a write. -/
theorem get_put (n k : Nat) (r : ZoneRec) (m : ZoneMap) (h : m.sound) : (m.put n r).get k = if k = n then r else m.get k :=
  tblGet_set k h.1

theorem sound_modify (n : Nat) (f : ZoneRec → ZoneRec) (m : ZoneMap) (h : m.sound) : (m.modify n f).sound :=
  sound_put n _ m h

theorem sound_modRange (f : ZoneRec → ZoneRec) (k n : Nat) (m : ZoneMap) (h : m.sound) : (ZoneMap.modRange f n k m).sound := by
  induction k generalizing n m with
  | zero => exact h
  | succ k ih => exact ih (n + 1) _ (sound_modify n f m h)

theorem sound_setClass (n : Nat) (c : ZClass) (m : ZoneMap) (h : m.sound) : (m.setClass n c).sound := sound_modify n _ m h

theorem sound_hit (n : Nat) (m : ZoneMap) (h : m.sound) : (m.hit n).sound := sound_modify n _ m h

theorem sound_rehit (m : ZoneMap) (h : m.sound) : m.rehit.sound := h

theorem sound_confirm (n : Nat) (m : ZoneMap) (h : m.sound) : (m.confirm n).sound := sound_setClass n .confirmed m h

theorem sound_heal (n : Nat) (m : ZoneMap) (h : m.sound) : (m.heal n).sound := sound_setClass n .healed m h

theorem sound_offer (n r : Nat) (m : ZoneMap) (h : m.sound) : (m.offer n r).sound := by
  unfold ZoneMap.offer
  split <;> exact h

theorem sound_write (e : WriteEffect) (lo hi : Nat) (m : ZoneMap) (h : m.sound) : (m.write e lo hi).sound := by
  unfold ZoneMap.write
  split
  · exact h
  · exact sound_modRange _ _ _ m h

theorem sound_passClose (c : Nat) (op : SweepOp) (p lo hi : Nat) (m : ZoneMap) (h : m.sound) :
    (m.passClose c op p lo hi).sound := by
  unfold ZoneMap.passClose
  split
  · exact sound_modRange _ _ _ m h
  · exact h

theorem sound_rescanClose (n p : Nat) (m : ZoneMap) (h : m.sound) : (m.rescanClose n p).sound := sound_modify n _ m h

theorem sound_suspectRange (z : Nat) (m : ZoneMap) (u : URange) (h : m.sound) : (m.suspectRange z u).sound :=
  sound_modRange _ _ _ m h

/-- The record of a zone after one zone has been changed. -/
theorem get_modify (f : ZoneRec → ZoneRec) (n k : Nat) (m : ZoneMap) (h : m.sound) : (m.modify n f).get k = if k = n then f (m.get n) else m.get k := by
  unfold ZoneMap.modify; exact get_put n k _ m h

/-- The record of a zone after each zone of a range has been changed. -/
theorem get_modRange (f : ZoneRec → ZoneRec) (n : Nat) : ∀ (c k : Nat) (m : ZoneMap), m.sound →
    (ZoneMap.modRange f k c m).get n = if k ≤ n ∧ n < k + c then f (m.get n) else m.get n
  | 0, k, m, h => by rw [if_neg (by omega)]; rfl
  | c + 1, k, m, h => by
    rw [ZoneMap.modRange, get_modRange f n c (k + 1) _ (sound_modify k f m h), get_modify f k n m h]
    by_cases e : n = k
    · subst e; rw [if_neg (by omega), if_pos rfl, if_pos (by omega)]
    · rw [if_neg e]
      by_cases e2 : k + 1 ≤ n ∧ n < k + 1 + c
      · rw [if_pos e2, if_pos (by omega)]
      · rw [if_neg e2, if_neg (by omega)]

/-- The zones a list of ranges touches take the flag, and no other zone changes (R69). -/
theorem get_suspectRanges (z n : Nat) : ∀ (l : List URange) (m : ZoneMap), m.sound →
    ((∃ u ∈ l, u.lo / 2 ^ z ≤ n ∧ n ≤ u.hi / 2 ^ z) → (l.foldl (ZoneMap.suspectRange z) m).get n = { m.get n with suspect := true })
    ∧ ((¬ ∃ u ∈ l, u.lo / 2 ^ z ≤ n ∧ n ≤ u.hi / 2 ^ z) → (l.foldl (ZoneMap.suspectRange z) m).get n = m.get n)
  | [], m, h => ⟨fun ⟨u, hu, _⟩ => by simp at hu, fun _ => rfl⟩
  | v :: t, m, h => by
    have h1 : (m.suspectRange z v).get n = if v.lo / 2 ^ z ≤ n ∧ n ≤ v.hi / 2 ^ z then { m.get n with suspect := true } else m.get n := by
      unfold ZoneMap.suspectRange
      rw [get_modRange _ _ _ _ _ h]
      simp only [Nat.shiftRight_eq_div_pow]
      by_cases e : v.lo / 2 ^ z ≤ n ∧ n ≤ v.hi / 2 ^ z
      · rw [if_pos e, if_pos (by omega)]
      · rw [if_neg e, if_neg (by omega)]
    obtain ⟨i1, i2⟩ := get_suspectRanges z n t _ (sound_suspectRange z m v h)
    rw [List.foldl_cons]
    by_cases e : v.lo / 2 ^ z ≤ n ∧ n ≤ v.hi / 2 ^ z
    · rw [if_pos e] at h1
      refine ⟨fun _ => ?_, fun hn => absurd ⟨v, List.mem_cons_self, e⟩ hn⟩
      by_cases e2 : ∃ u ∈ t, u.lo / 2 ^ z ≤ n ∧ n ≤ u.hi / 2 ^ z
      · rw [i1 e2, h1]
      · rw [i2 e2, h1]
    · rw [if_neg e] at h1
      rw [h1] at i1 i2
      refine ⟨fun ⟨u, hu, he⟩ => i1 ?_, fun hn => i2 (fun ⟨u, hu, he⟩ => hn ⟨u, List.mem_cons_of_mem _ hu, he⟩)⟩
      rcases List.mem_cons.mp hu with rfl | hu
      · exact absurd he e
      · exact ⟨u, hu, he⟩

theorem sound_suspectRanges (z : Nat) (l : List URange) (m : ZoneMap) (h : m.sound) :
    (l.foldl (ZoneMap.suspectRange z) m).sound := by
  induction l generalizing m with
  | nil => exact h
  | cons a t ih => exact ih _ (sound_suspectRange z m a h)

theorem sound_suspectMark (u : Unsettled) (m : ZoneMap) (h : m.sound) : (m.suspectMark u).sound := by
  unfold ZoneMap.suspectMark
  split
  · exact h
  · exact sound_suspectRanges _ _ m h
  · exact sound_modRange _ _ _ m h

theorem sound_zoneMark (op : ZoneMarkOp) (n : Nat) (m : ZoneMap) (h : m.sound) : (m.zoneMark op n).sound := by
  unfold ZoneMap.zoneMark
  split
  · exact h
  · exact h
  all_goals exact sound_setClass _ _ m h

theorem sound_beginWipe (m : ZoneMap) (h : m.sound) : m.beginWipe.sound := h

theorem sound_resetZone (n : Nat) (m : ZoneMap) (h : m.sound) : (m.resetZone n).sound := sound_put n _ m h

theorem sound_learn (c : Nat) (m : ZoneMap) (h : m.sound) : (m.learn c).sound := h

theorem sound_init : ZoneMap.init.sound := ⟨rfl, rfl⟩

/-- The class a zone gets, and nothing else of its record (R63). -/
theorem get_setClass (n k : Nat) (c : ZClass) (m : ZoneMap) (h : m.sound) :
    (m.setClass n c).get k = if k = n then { m.get n with cls := c } else m.get k :=
  get_put n k _ m h

end Sys2Proof.Machine
end

