-- ==== Sys2Proof/Laws/Ranges.lean ====
section
/-! SUPPORT. The unsettled-write list keeps its form: at most 16 entries, ascending, disjoint and not touching (R37, R38). -/

namespace Sys2Proof.Machine

/-- Two entries neither overlap nor touch, on either side. -/
def URange.apart (u v : URange) : Prop := u.hi + 1 < v.lo ∨ v.hi + 1 < u.lo

theorem mem_insertRange (u v : URange) (l : List URange) : v ∈ insertRange u l ↔ v = u ∨ v ∈ l := by
  induction l with
  | nil => simp [insertRange]
  | cons w t ih =>
    unfold insertRange
    split
    · simp
    · simp only [List.mem_cons, ih]; tauto

theorem length_insertRange (u : URange) (l : List URange) : (insertRange u l).length = l.length + 1 := by
  induction l with
  | nil => rfl
  | cons w t ih =>
    unfold insertRange
    split
    · rfl
    · simp [ih]

/-- An entry apart from all others is put in its place. -/
theorem sorted_insertRange (u : URange) (l : List URange) (hu : u.lo ≤ u.hi) (hl : ∀ v ∈ l, v.lo ≤ v.hi)
    (ha : ∀ v ∈ l, u.apart v) (hs : l.Pairwise (fun v w => v.hi + 1 < w.lo)) :
    (insertRange u l).Pairwise (fun v w => v.hi + 1 < w.lo) := by
  induction l with
  | nil => simp [insertRange]
  | cons v t ih =>
    rw [List.pairwise_cons] at hs
    have hv := ha v List.mem_cons_self
    have hvl := hl v List.mem_cons_self
    unfold insertRange
    split
    · rename_i hlt
      have huv : u.hi + 1 < v.lo := by rcases hv with h | h <;> omega
      refine List.pairwise_cons.mpr ⟨fun w hw => ?_, List.pairwise_cons.mpr hs⟩
      rcases List.mem_cons.mp hw with rfl | hw
      · exact huv
      · have := hs.1 w hw; omega
    · rename_i hnlt
      refine List.pairwise_cons.mpr ⟨fun w hw => ?_, ih (fun w hw => hl w (List.mem_cons_of_mem _ hw))
        (fun w hw => ha w (List.mem_cons_of_mem _ hw)) hs.2⟩
      rcases (mem_insertRange u w t).mp hw with rfl | hw
      · rcases hv with h | h <;> omega
      · exact hs.1 w hw

theorem apart_of_sorted {l : List URange} (hs : l.Pairwise (fun v w => v.hi + 1 < w.lo)) {u v : URange} (hu : u ∈ l)
    (hv : v ∈ l) : u = v ∨ u.apart v := by
  induction l with
  | nil => simp at hu
  | cons w t ih =>
    rw [List.pairwise_cons] at hs
    rcases List.mem_cons.mp hu with h1 | h1
    · rcases List.mem_cons.mp hv with h2 | h2
      · exact .inl (h1.trans h2.symm)
      · exact .inr (.inl (h1 ▸ hs.1 v h2))
    · rcases List.mem_cons.mp hv with h2 | h2
      · exact .inr (.inr (h2 ▸ hs.1 u h1))
      · exact ih hs.2 h1 h2

theorem foldl_min_le (l : List Nat) (a : Nat) : l.foldl min a ≤ a := by
  induction l generalizing a with
  | nil => exact Nat.le_refl a
  | cons x t ih => exact Nat.le_trans (ih _) (Nat.min_le_left a x)

theorem le_foldl_max (l : List Nat) (a : Nat) : a ≤ l.foldl max a := by
  induction l generalizing a with
  | nil => exact Nat.le_refl a
  | cons x t ih => exact Nat.le_trans (Nat.le_max_left a x) (ih _)

/-- A bound of a start and of every element bounds the minimum from below. -/
theorem lt_foldl_min (l : List Nat) (a k : Nat) (ha : k < a) (hl : ∀ x ∈ l, k < x) : k < l.foldl min a := by
  induction l generalizing a with
  | nil => exact ha
  | cons x t ih => exact ih _ (by have := hl x List.mem_cons_self; omega) (fun y hy => hl y (List.mem_cons_of_mem _ hy))

theorem foldl_max_lt (l : List Nat) (a k : Nat) (ha : a < k) (hl : ∀ x ∈ l, x < k) : l.foldl max a < k := by
  induction l generalizing a with
  | nil => exact ha
  | cons x t ih => exact ih _ (by have := hl x List.mem_cons_self; omega) (fun y hy => hl y (List.mem_cons_of_mem _ hy))

theorem filter_length_add {α : Type} (p : α → Bool) (l : List α) :
    (l.filter p).length + (l.filter (fun x => !p x)).length = l.length := by
  induction l with
  | nil => rfl
  | cons x t ih => by_cases h : p x = true <;> simp [h] <;> omega

theorem sound_join (lo hi : Nat) (seq : BitVec 64) (u : Unsettled) (hlh : lo ≤ hi) (h : u.sound) : (u.join lo hi seq).sound := by
  cases u with
  | whole q => trivial
  | ranges l =>
    obtain ⟨hlen, hle, hs⟩ := h
    unfold Unsettled.join
    dsimp only
    split
    · trivial
    · rename_i hnot
      have hadd := filter_length_add (URange.meets lo hi) l
      generalize hmet : l.filter (URange.meets lo hi) = met at *
      generalize hrest : l.filter (fun u => !URange.meets lo hi u) = rest at *
      have hrl : ∀ v ∈ rest, v ∈ l ∧ (v.lo > hi + 1 ∨ lo > v.hi + 1) := by
        intro v hv
        rw [← hrest, List.mem_filter] at hv
        refine ⟨hv.1, ?_⟩
        have := hv.2
        simp [URange.meets] at this
        omega
      have hml : ∀ m ∈ met, m ∈ l ∧ m.lo ≤ hi + 1 ∧ lo ≤ m.hi + 1 := by
        intro m hm
        rw [← hmet, List.mem_filter] at hm
        have := hm.2
        simp [URange.meets] at this
        exact ⟨hm.1, this.1, this.2⟩
      have hsr : rest.Pairwise (fun v w => v.hi + 1 < w.lo) := by rw [← hrest]; exact hs.filter _
      have hlo : (met.map (·.lo)).foldl min lo ≤ lo := foldl_min_le _ _
      have hhi : hi ≤ (met.map (·.hi)).foldl max hi := le_foldl_max _ _
      have hcount : rest.length + 1 ≤ 16 := by
        by_cases hm : met = []
        · have := Nat.lt_of_not_le (fun hr => hnot ⟨hm, hr⟩)
          unfold unsettledMax at this
          exact this
        · have : 0 < met.length := List.length_pos_of_ne_nil hm
          omega
      refine ⟨by rw [length_insertRange]; exact hcount, ?_, ?_⟩
      · intro v hv
        rcases (mem_insertRange _ v rest).mp hv with rfl | hv
        · dsimp only; omega
        · exact hle v (hrl v hv).1
      · refine sorted_insertRange _ rest (by dsimp only; omega) (fun v hv => hle v (hrl v hv).1) (fun v hv => ?_) hsr
        obtain ⟨hvl, hvd⟩ := hrl v hv
        have hvle := hle v hvl
        rcases hvd with hd | hd
        · left
          have : (met.map (·.hi)).foldl max hi < v.lo - 1 := by
            refine foldl_max_lt _ _ _ (by omega) (fun x hx => ?_)
            obtain ⟨m, hm, rfl⟩ := List.mem_map.mp hx
            obtain ⟨hm1, hm2, hm3⟩ := hml m hm
            have hmle := hle m hm1
            rcases apart_of_sorted hs hm1 hvl with rfl | h | h <;> omega
          dsimp only; omega
        · right
          have : v.hi + 1 < (met.map (·.lo)).foldl min lo := by
            refine lt_foldl_min _ _ _ (by omega) (fun x hx => ?_)
            obtain ⟨m, hm, rfl⟩ := List.mem_map.mp hx
            obtain ⟨hm1, hm2, hm3⟩ := hml m hm
            have hmle := hle m hm1
            rcases apart_of_sorted hs hm1 hvl with rfl | h | h <;> omega
          dsimp only; omega

theorem sound_cover (mark : BitVec 64) (u : Unsettled) (h : u.sound) : (u.cover mark).sound := by
  cases u with
  | whole q =>
    by_cases e : q ≤ mark <;> simp [Unsettled.cover, e, Unsettled.sound]
  | ranges l =>
    obtain ⟨hlen, hle, hs⟩ := h
    exact ⟨Nat.le_trans (List.length_filter_le _ _) hlen, fun v hv => hle v (List.mem_filter.mp hv).1, hs.filter _⟩

theorem sound_noRanges : (Unsettled.ranges []).sound := ⟨by simp, by simp, List.Pairwise.nil⟩

end Sys2Proof.Machine
end

