-- ==== Sys2Proof/Laws/Calm.lean ====
section
/-! SUPPORT. What most events of the part never touch, said once: the settings, the mailbox and the wipe, the session, the rack's
configuration and tables, and the soundness of the Zone Map, of the reported capacity, of the unsettled-write list, of the pass
counter, of the use counts, and of the budget with the grant queue. `Calm` is for operations that end no plan; `Tame` is for those that may. Each shared operation has one lemma. -/

namespace Sys2Proof.Machine

/-! ### One bay -/

/-- What an ordinary event keeps of a bay, its plan's state included. -/
structure BayCalm (x y : Bay) : Prop where
  settings : y.settings = x.settings
  w : y.tracker.w = x.tracker.w
  tw : y.tracker.tw = x.tracker.tw
  unsettled : x.unsettledSound → y.unsettledSound
  zones : x.zm.sound → y.zm.sound
  capacity : x.capacitySound → y.capacitySound
  pass : x.sweep.passCounter ≤ 65535 → y.sweep.passCounter ≤ 65535
  session : y.power.session = x.power.session
  present : x.power.state ≠ .empty → y.power.state ≠ .empty
  mailbox : y.annex.mailbox = x.annex.mailbox
  wipe : y.annex.wipe = x.annex.wipe
  planState : y.plan.state = x.plan.state
  reach : y.plan.reach = x.plan.reach

/-- What an ordinary event keeps of a bay when it may end the bay's plan. -/
structure BayTame (x y : Bay) : Prop where
  settings : y.settings = x.settings
  w : y.tracker.w = x.tracker.w
  tw : y.tracker.tw = x.tracker.tw
  unsettled : x.unsettledSound → y.unsettledSound
  zones : x.zm.sound → y.zm.sound
  capacity : x.capacitySound → y.capacitySound
  pass : x.sweep.passCounter ≤ 65535 → y.sweep.passCounter ≤ 65535
  session : y.power.session = x.power.session
  present : x.power.state ≠ .empty → y.power.state ≠ .empty
  mailbox : y.annex.mailbox = x.annex.mailbox
  wipe : y.annex.wipe = x.annex.wipe
  plan : y.plan.state = .running → x.plan.state = .running

theorem BayCalm.refl (x : Bay) : BayCalm x x := ⟨rfl, rfl, rfl, id, id, id, id, rfl, id, rfl, rfl, rfl, rfl⟩

theorem BayCalm.trans {x y z : Bay} (h : BayCalm x y) (k : BayCalm y z) : BayCalm x z :=
  ⟨k.settings.trans h.settings, k.w.trans h.w, k.tw.trans h.tw, k.unsettled ∘ h.unsettled, k.zones ∘ h.zones, k.capacity ∘ h.capacity, k.pass ∘ h.pass,
   k.session.trans h.session, k.present ∘ h.present, k.mailbox.trans h.mailbox, k.wipe.trans h.wipe,
   k.planState.trans h.planState, k.reach.trans h.reach⟩

theorem BayCalm.tame {x y : Bay} (h : BayCalm x y) : BayTame x y :=
  ⟨h.settings, h.w, h.tw, h.unsettled, h.zones, h.capacity, h.pass, h.session, h.present, h.mailbox, h.wipe, fun e => h.planState ▸ e⟩

theorem BayTame.refl (x : Bay) : BayTame x x := (BayCalm.refl x).tame

theorem BayTame.trans {x y z : Bay} (h : BayTame x y) (k : BayTame y z) : BayTame x z :=
  ⟨k.settings.trans h.settings, k.w.trans h.w, k.tw.trans h.tw, k.unsettled ∘ h.unsettled, k.zones ∘ h.zones, k.capacity ∘ h.capacity, k.pass ∘ h.pass,
   k.session.trans h.session, k.present ∘ h.present, k.mailbox.trans h.mailbox, k.wipe.trans h.wipe, h.plan ∘ k.plan⟩

theorem calm_bayLane (f : Lane → Lane) (h : ∀ l, (f l).rc = l.rc) (x : Bay) : BayCalm x (x.modLane f) :=
  { BayCalm.refl x with
    capacity := by intro hx; simpa [Bay.capacitySound, h] using hx }

theorem calm_bayTracker (f : Tracker → Tracker) (hw : ∀ t, (f t).w = t.w) (ht : ∀ t, (f t).tw = t.tw) (x : Bay)
    (hu : ∀ t, t.unsettled.sound → (f t).unsettled.sound := by intro _ h; exact h) : BayCalm x (x.modTracker f) :=
  { BayCalm.refl x with w := hw _, tw := ht _, unsettled := hu _ }

theorem calm_bayZm (f : ZoneMap → ZoneMap) (h : ∀ m, m.sound → (f m).sound) (x : Bay) : BayCalm x (x.modZm f) :=
  { BayCalm.refl x with zones := h _ }

theorem calm_baySweep (f : Sweep → Sweep) (h : ∀ w, w.passCounter ≤ 65535 → (f w).passCounter ≤ 65535) (x : Bay) :
    BayCalm x (x.modSweep f) :=
  { BayCalm.refl x with pass := h _ }

theorem calm_bayPlan (f : Plan → Plan) (h : ∀ p, (f p).state = p.state) (hr : ∀ p, (f p).reach = p.reach) (x : Bay) :
    BayCalm x (x.modPlan f) :=
  { BayCalm.refl x with planState := h _, reach := hr _ }

theorem calm_bayPower (f : Power → Power) (hs : ∀ w, (f w).session = w.session) (hc : ∀ w, (f w).cap = w.cap)
    (hp : ∀ w, (f w).state = w.state) (x : Bay) : BayCalm x (x.modPower f) :=
  { BayCalm.refl x with
    session := hs _, present := fun h => by rw [power_modPower, hp]; exact h
    capacity := by intro hx; simpa [Bay.capacitySound, hc] using hx }

theorem calm_bayLines (f : Lines → Lines) (x : Bay) : BayCalm x (x.modLines f) := { BayCalm.refl x with }

theorem calm_bayShip (f : Ship → Ship) (x : Bay) : BayCalm x (x.modShip f) := { BayCalm.refl x with }

theorem calm_bayAnnex (f : Annex → Annex) (hm : ∀ a, (f a).mailbox = a.mailbox) (hw : ∀ a, (f a).wipe = a.wipe) (x : Bay) :
    BayCalm x (x.modAnnex f) :=
  { BayCalm.refl x with mailbox := hm _, wipe := hw _ }

/-! ### The rack -/

/-- What most events keep of the rack, the use counts apart. -/
structure RackKeeps (r q : Rack) : Prop where
  budget : q.budget = r.budget
  spin : q.spin = r.spin
  run : q.run = r.run
  spinTimeout : q.spinTimeout = r.spinTimeout
  hold : q.hold = r.hold
  limit : q.limit = r.limit
  faultBin : q.faultBin = r.faultBin
  slots : q.slots = r.slots
  rules : q.rules = r.rules
  bins : q.bins = r.bins

theorem RackKeeps.refl (r : Rack) : RackKeeps r r := ⟨rfl, rfl, rfl, rfl, rfl, rfl, rfl, rfl, rfl, rfl⟩

theorem RackKeeps.trans {r q p : Rack} (h : RackKeeps r q) (k : RackKeeps q p) : RackKeeps r p :=
  ⟨k.budget.trans h.budget, k.spin.trans h.spin, k.run.trans h.run, k.spinTimeout.trans h.spinTimeout, k.hold.trans h.hold,
   k.limit.trans h.limit, k.faultBin.trans h.faultBin, k.slots.trans h.slots, k.rules.trans h.rules, k.bins.trans h.bins⟩

theorem RackKeeps.config {r q : Rack} (h : RackKeeps r q) (hr : r.configSound) : q.configSound := by
  unfold Rack.configSound at *
  rw [h.budget, h.spin, h.run, h.spinTimeout, h.hold, h.limit]
  exact hr

/-! ### The budget and the grant queue -/

/-- What most events keep of the Power Arbiter: the tally within the budget, and the grant queue the QUEUED bays (R150, R151). -/
structure ArbKeeps (s t : State) : Prop where
  budget : s.budgetSound → t.budgetSound
  queue : s.queueSound → t.queueSound

theorem ArbKeeps.refl (s : State) : ArbKeeps s s := ⟨id, id⟩

theorem ArbKeeps.trans {s t u : State} (h : ArbKeeps s t) (k : ArbKeeps t u) : ArbKeeps s u :=
  ⟨k.budget ∘ h.budget, k.queue ∘ h.queue⟩

theorem tally_eq (s : State) : s.tally = s.charge 0 + (s.charge 1 + (s.charge 2 + (s.charge 3 + (s.charge 4 + (s.charge 5
    + (s.charge 6 + s.charge 7)))))) := by
  simp [State.tally, allBays]

/-- With one bay's charge changed, the tally changes by as much. -/
theorem tally_update {s t : State} (b : BayIx) (h : ∀ c, c ≠ b → t.charge c = s.charge c) :
    t.tally + s.charge b = s.tally + t.charge b := by
  rw [tally_eq, tally_eq]
  have g : ∀ c : BayIx, b = c ∨ t.charge c = s.charge c := fun c => by
    by_cases e : c = b
    · exact .inl e.symm
    · exact .inr (h c e)
  have h0 := g 0; have h1 := g 1; have h2 := g 2; have h3 := g 3; have h4 := g 4; have h5 := g 5; have h6 := g 6
  have h7 := g 7
  match b with
  | 0 | 1 | 2 | 3 | 4 | 5 | 6 | 7 =>
    simp only [Fin.reduceEq, false_or] at h0 h1 h2 h3 h4 h5 h6 h7
    simp only [*]
    omega

theorem tally_congr {s t : State} (h : ∀ b, t.charge b = s.charge b) : t.tally = s.tally := by
  simp only [tally_eq, h]

theorem RackKeeps.chargeOf {r q : Rack} (h : RackKeeps r q) (p : PowerState) : chargeOf q p = chargeOf r p := by
  cases p <;> simp only [Machine.chargeOf, h.spin, h.run]

theorem charge_congr {s t : State} (hr : RackKeeps s.rack t.rack) (b : BayIx)
    (h : (t.bay b).power.state = (s.bay b).power.state) : t.charge b = s.charge b := by
  unfold State.charge
  rw [h, hr.chargeOf]

/-- An event that changes no power state and not the queue keeps both. -/
theorem arb_congr {s t : State} (h : ∀ b, (t.bay b).power.state = (s.bay b).power.state) (hr : RackKeeps s.rack t.rack)
    (hq : t.rack.queue = s.rack.queue) : ArbKeeps s t := by
  refine ⟨fun ⟨hc, ht⟩ => ⟨hr.config hc, ?_⟩, fun ⟨hn, hm⟩ => ⟨by rw [hq]; exact hn, fun b => by rw [hq, h]; exact hm b⟩⟩
  rw [tally_congr (fun b => charge_congr hr b (h b)), hr.budget]
  exact ht

/-- A bay leaves the queue, if it is in it, for a state of no greater charge. -/
theorem arb_leave {s t : State} (b : BayIx) (ho : ∀ c, c ≠ b → (t.bay c).power.state = (s.bay c).power.state)
    (hr : RackKeeps s.rack t.rack) (hq : t.rack.queue = s.rack.queue.filter (fun c => c ≠ b))
    (hp : (t.bay b).power.state ≠ .queued)
    (hc : s.rack.configSound → chargeOf s.rack (t.bay b).power.state ≤ chargeOf s.rack (s.bay b).power.state) : ArbKeeps s t := by
  refine ⟨fun ⟨hcf, ht⟩ => ⟨hr.config hcf, ?_⟩, fun ⟨hn, hm⟩ => ⟨by rw [hq]; exact hn.filter _, fun c => ?_⟩⟩
  · have h1 := tally_update b (fun c e => charge_congr hr c (ho c e))
    have h2 : t.charge b ≤ s.charge b := by
      unfold State.charge
      rw [hr.chargeOf]
      exact hc hcf
    rw [hr.budget]
    omega
  · rw [hq, List.mem_filter]
    by_cases e : c = b
    · subst e; simpa using hp
    · rw [hm c, ho c e]; simp [e]

/-- A bay that is not QUEUED changes to another such state of no greater charge. -/
theorem arb_become {s t : State} (b : BayIx) (ho : ∀ c, c ≠ b → (t.bay c).power.state = (s.bay c).power.state)
    (hr : RackKeeps s.rack t.rack) (hq : t.rack.queue = s.rack.queue) (hb : (s.bay b).power.state ≠ .queued)
    (hp : (t.bay b).power.state ≠ .queued)
    (hc : s.rack.configSound → chargeOf s.rack (t.bay b).power.state ≤ chargeOf s.rack (s.bay b).power.state) : ArbKeeps s t := by
  refine ⟨fun ⟨hcf, ht⟩ => ⟨hr.config hcf, ?_⟩, fun hs => ⟨by rw [hq]; exact hs.1, fun c => ?_⟩⟩
  · have h1 := tally_update b (fun c e => charge_congr hr c (ho c e))
    have h2 : t.charge b ≤ s.charge b := by
      unfold State.charge
      rw [hr.chargeOf]
      exact hc hcf
    rw [hr.budget]
    omega
  · rw [hq, hs.2 c]
    by_cases e : c = b
    · subst e; simp [hb, hp]
    · rw [ho c e]

/-- An uncharged bay joins the tail of the queue. -/
theorem arb_join {s t : State} (b : BayIx) (ho : ∀ c, c ≠ b → (t.bay c).power.state = (s.bay c).power.state)
    (hr : RackKeeps s.rack t.rack) (hq : t.rack.queue = s.rack.queue ++ [b]) (hb : (s.bay b).power.state = .off)
    (hp : (t.bay b).power.state = .queued) : ArbKeeps s t := by
  refine ⟨fun ⟨hcf, ht⟩ => ⟨hr.config hcf, ?_⟩, fun ⟨hn, hm⟩ => ?_⟩
  · have h1 := tally_update b (fun c e => charge_congr hr c (ho c e))
    have h2 : t.charge b = 0 := by unfold State.charge; rw [hp]; rfl
    have h3 : s.charge b = 0 := by unfold State.charge; rw [hb]; rfl
    rw [hr.budget]
    omega
  · have hnot : b ∉ s.rack.queue := fun h => by have := (hm b).mp h; rw [hb] at this; simp at this
    refine ⟨?_, fun c => ?_⟩
    · rw [hq]
      exact List.nodup_append.mpr ⟨hn, by simp, by
        intro x hx y hy e
        simp only [List.mem_singleton] at hy
        exact hnot (by rw [← hy, ← e]; exact hx)⟩
    · rw [hq, List.mem_append, List.mem_singleton]
      by_cases e : c = b
      · subst e; simp [hp]
      · rw [hm c, ho c e]; simp [e]

/-! ### The state -/

/-- What an event that ends no plan keeps. -/
structure Calm (s t : State) : Prop where
  pending : t.pending = s.pending
  bay : ∀ b, BayCalm (s.bay b) (t.bay b)
  rack : RackKeeps s.rack t.rack
  useCounts : t.rack.useCounts = s.rack.useCounts
  arb : ArbKeeps s t

/-- What an event that may end plans keeps. -/
structure Tame (s t : State) : Prop where
  pending : t.pending = s.pending
  bay : ∀ b, BayTame (s.bay b) (t.bay b)
  rack : RackKeeps s.rack t.rack
  useCounts : s.useCountsSound → t.useCountsSound
  arb : ArbKeeps s t

theorem Calm.refl (s : State) : Calm s s := ⟨rfl, fun _ => BayCalm.refl _, RackKeeps.refl _, rfl, ArbKeeps.refl s⟩

theorem Calm.trans {s t u : State} (h : Calm s t) (k : Calm t u) : Calm s u :=
  ⟨k.pending.trans h.pending, fun b => (h.bay b).trans (k.bay b), h.rack.trans k.rack, k.useCounts.trans h.useCounts,
   h.arb.trans k.arb⟩

theorem Calm.planUsers {s t : State} (h : Calm s t) (k : SlotIx) : t.planUsers k = s.planUsers k := by
  unfold State.planUsers
  apply List.filter_congr
  intro b _
  unfold Bay.running
  rw [(h.bay b).planState, (h.bay b).reach]

theorem Calm.tame {s t : State} (h : Calm s t) : Tame s t :=
  ⟨h.pending, fun b => (h.bay b).tame, h.rack, fun hs k => by rw [h.useCounts, h.planUsers k]; exact hs k, h.arb⟩

theorem Tame.refl (s : State) : Tame s s := (Calm.refl s).tame

theorem Tame.trans {s t u : State} (h : Tame s t) (k : Tame t u) : Tame s u :=
  ⟨k.pending.trans h.pending, fun b => (h.bay b).trans (k.bay b), h.rack.trans k.rack, k.useCounts ∘ h.useCounts,
   h.arb.trans k.arb⟩

theorem Calm.running {s t : State} (h : Calm s t) (b : BayIx) : (t.bay b).running = (s.bay b).running := by
  unfold Bay.running
  rw [(h.bay b).planState]

/-- A change of one bay, with what it does to the budget and the queue said apart. -/
theorem calm_modBay_arb (b : BayIx) (f : Bay → Bay) (s : State) (h : BayCalm (s.bay b) (f (s.bay b)))
    (ha : ArbKeeps s (s.modBay b f)) : Calm s (s.modBay b f) :=
  ⟨rfl, fun c => by
    by_cases e : c = b
    · subst e; simpa using h
    · simpa [e] using BayCalm.refl _, RackKeeps.refl _, rfl, ha⟩

theorem state_modBay (b : BayIx) (f : Bay → Bay) (s : State) (hp : (f (s.bay b)).power.state = (s.bay b).power.state) (c : BayIx) :
    ((s.modBay b f).bay c).power.state = (s.bay c).power.state := by
  by_cases e : c = b
  · subst e; simpa using hp
  · simp [e]

theorem calm_modBay (b : BayIx) (f : Bay → Bay) (s : State) (h : BayCalm (s.bay b) (f (s.bay b)))
    (hp : (f (s.bay b)).power.state = (s.bay b).power.state := by rfl) : Calm s (s.modBay b f) :=
  calm_modBay_arb b f s h (arb_congr (state_modBay b f s hp) (RackKeeps.refl _) rfl)

theorem calm_mapBays (f : Bay → Bay) (s : State) (h : ∀ x, BayCalm x (f x)) (hp : ∀ x, (f x).power.state = x.power.state) :
    Calm s { s with bays := mapVec f s.bays } :=
  ⟨rfl, fun b => by simpa using h (s.bay b), RackKeeps.refl _, rfl,
   arb_congr (fun b => by rw [bay_mapVec]; exact hp _) (RackKeeps.refl _) rfl⟩

theorem calm_modLane (b : BayIx) (f : Lane → Lane) (s : State) (h : ∀ l, (f l).rc = l.rc) :
    Calm s (s.modBay b (·.modLane f)) :=
  calm_modBay b _ s (calm_bayLane f h _)

theorem calm_modTracker (b : BayIx) (f : Tracker → Tracker) (s : State) (hw : ∀ t, (f t).w = t.w)
    (ht : ∀ t, (f t).tw = t.tw) (hu : ∀ t, t.unsettled.sound → (f t).unsettled.sound := by intro _ h; exact h) :
    Calm s (s.modBay b (·.modTracker f)) :=
  calm_modBay b _ s (calm_bayTracker f hw ht _ hu)

theorem calm_modZm (b : BayIx) (f : ZoneMap → ZoneMap) (s : State) (h : ∀ m, m.sound → (f m).sound) :
    Calm s (s.modBay b (·.modZm f)) :=
  calm_modBay b _ s (calm_bayZm f h _)

theorem calm_modSweep (b : BayIx) (f : Sweep → Sweep) (s : State)
    (h : ∀ w, w.passCounter ≤ 65535 → (f w).passCounter ≤ 65535) : Calm s (s.modBay b (·.modSweep f)) :=
  calm_modBay b _ s (calm_baySweep f h _)

theorem calm_modPlan (b : BayIx) (f : Plan → Plan) (s : State) (h : ∀ p, (f p).state = p.state)
    (hr : ∀ p, (f p).reach = p.reach) : Calm s (s.modBay b (·.modPlan f)) :=
  calm_modBay b _ s (calm_bayPlan f h hr _)

theorem calm_modPower (b : BayIx) (f : Power → Power) (s : State) (hs : ∀ w, (f w).session = w.session)
    (hc : ∀ w, (f w).cap = w.cap) (hp : ∀ w, (f w).state = w.state) : Calm s (s.modBay b (·.modPower f)) :=
  calm_modBay b _ s (calm_bayPower f hs hc hp _) (hp _)

theorem calm_modLines (b : BayIx) (f : Lines → Lines) (s : State) : Calm s (s.modBay b (·.modLines f)) :=
  calm_modBay b _ s (calm_bayLines f _)

theorem calm_modShip (b : BayIx) (f : Ship → Ship) (s : State) : Calm s (s.modBay b (·.modShip f)) :=
  calm_modBay b _ s (calm_bayShip f _)

theorem calm_modAnnex (b : BayIx) (f : Annex → Annex) (s : State) (hm : ∀ a, (f a).mailbox = a.mailbox)
    (hw : ∀ a, (f a).wipe = a.wipe) : Calm s (s.modBay b (·.modAnnex f)) :=
  calm_modBay b _ s (calm_bayAnnex f hm hw _)

/-- A fold of calm operations is calm. -/
theorem calm_foldl {β : Type} (f : State → β → State) (h : ∀ s x, Calm s (f s x)) (l : List β) (s : State) :
    Calm s (l.foldl f s) := by
  induction l generalizing s with
  | nil => exact Calm.refl s
  | cons x t ih => exact (h s x).trans (ih _)

/-- A choice between calm operations is calm. -/
theorem calm_ite (p : Prop) [Decidable p] {s t u : State} (h : Calm s t) (k : Calm s u) : Calm s (if p then t else u) := by
  split
  · exact h
  · exact k

theorem tame_ite (p : Prop) [Decidable p] {s t u : State} (h : Tame s t) (k : Tame s u) : Tame s (if p then t else u) := by
  split
  · exact h
  · exact k

/-! ### Frames -/

theorem calm_sendUp (b : BayIx) (f : UpFrame) (s : State) : Calm s (sendUp b f s) := calm_modLane b _ s (rc_laneSendUp f)

theorem calm_sendDown (b : BayIx) (f : DownFrame) (s : State) : Calm s (sendDown b f s) :=
  calm_modLane b _ s (rc_laneSendDown f)

theorem calm_complete (b : BayIx) (tag : Tag) (st : UpStatus) (s : State) : Calm s (complete b tag st s) := calm_sendUp b _ s

/-! ### Time -/

theorem calm_bayElapse (k : Nat) (x : Bay) : BayCalm x (x.elapse k) := by
  have hp : (x.plan.elapse k).state = x.plan.state ∧ (x.plan.elapse k).reach = x.plan.reach := by
    unfold Plan.elapse; split <;> exact ⟨rfl, rfl⟩
  exact { BayCalm.refl x with planState := hp.1, reach := hp.2 }

theorem bay_advance (n : Nat) (s : State) (b : BayIx) : (advance n s).bay b = (s.bay b).elapse ((s.rack.sub + n) / 1000) := by
  simp [State.bay, advance, mapVec]

theorem calm_advance (n : Nat) (s : State) : Calm s (advance n s) :=
  ⟨rfl, fun b => by
    rw [bay_advance]; exact calm_bayElapse _ _, { RackKeeps.refl _ with }, rfl,
    arb_congr (fun b => by rw [bay_advance]; rfl) { RackKeeps.refl _ with } rfl⟩

theorem calm_advanceMs (k : Nat) (s : State) : Calm s (advanceMs k s) := calm_ite _ (Calm.refl s) (calm_advance _ s)

/-! ### Lines and notices -/

theorem calm_raiseNotice (b : BayIx) (k : Notice) (s : State) : Calm s (raiseNotice b k s) :=
  calm_modAnnex b _ s (by intros; rfl) (by intros; rfl)

theorem calm_bayChooseLamp (r : Rack) (x : Bay) : BayCalm x (x.chooseLamp r) := by
  unfold Bay.chooseLamp
  split
  · exact BayCalm.refl x
  · exact calm_bayLines (fun _ => _) x

theorem power_chooseLamp (r : Rack) (x : Bay) : (x.chooseLamp r).power = x.power := by
  unfold Bay.chooseLamp
  split <;> rfl

theorem calm_refreshLamp (b : BayIx) (s : State) : Calm s (refreshLamp b s) :=
  calm_modBay b _ s (calm_bayChooseLamp _ _) (by rw [power_chooseLamp])

theorem calm_refreshLamps (s : State) : Calm s (refreshLamps s) :=
  calm_mapBays _ s (calm_bayChooseLamp _) (fun x => by rw [power_chooseLamp])

theorem calm_startPulse (b : BayIx) (s : State) : Calm s (startPulse b s) := calm_modLines b _ s

/-! ### Records -/

theorem pass_hostOpened (w : Sweep) : w.hostOpened.passCounter = w.passCounter := rfl

theorem calm_openRec (b : BayIx) (tag : Tag) (r : Rec) (body : List Byte) (s : State) : Calm s (openRec b tag r body s) := by
  have h1 := calm_modTracker b (·.setRec tag (some (fixRec s b r))) s (by intros; rfl) (by intros; rfl)
  refine h1.trans (Calm.trans (calm_ite _ ?_ (Calm.refl _)) (calm_sendDown b _ _))
  exact calm_modBay b _ _ { BayCalm.refl _ with }

theorem pass_sweepTakeBack (r : Rec) (w : Sweep) : (w.takeBack r).passCounter = w.passCounter := by
  unfold Sweep.takeBack
  split <;> rfl

theorem calm_takeBack (b : BayIx) (r : Rec) (s : State) : Calm s (s.modBay b (·.modSweep (·.takeBack r))) :=
  calm_modSweep b _ s (fun w h => by rw [pass_sweepTakeBack]; exact h)

theorem calm_requestTag (b : BayIx) (r : Rec) (s : State) : Calm s (requestTag b r s) := by
  unfold requestTag
  refine calm_ite _ (calm_takeBack b r s) ?_
  split
  · exact calm_openRec b _ r [] s
  · exact calm_modTracker b _ s (by intros; rfl) (by intros; rfl)

theorem calm_assignOne (b : BayIx) (s : State) : Calm s (assignOne b s) := by
  unfold assignOne
  dsimp only
  split
  · rename_i r rest tag _ _
    refine (calm_modTracker b (fun t => { t with waiting := rest }) s (by intros; rfl) (by intros; rfl)).trans ?_
    exact calm_ite _ (calm_takeBack b r _) (calm_openRec b tag r [] _)
  · exact Calm.refl s

theorem calm_assignSome (b : BayIx) (k : Nat) (s : State) : Calm s (assignSome b k s) := by
  induction k generalizing s with
  | zero => exact Calm.refl s
  | succ k ih => exact (calm_assignOne b s).trans (ih _)

theorem calm_assignAll (b : BayIx) (s : State) : Calm s (assignAll b s) := calm_assignSome b _ s

theorem calm_withdraw (b : BayIx) (p : Rec → Bool) (s : State) : Calm s (withdraw b p s) :=
  calm_modTracker b _ s (by intros; rfl) (by intros; rfl)

theorem pass_takeBacks (l : List Rec) (w : Sweep) : (l.foldl (fun w r => w.takeBack r) w).passCounter = w.passCounter := by
  induction l generalizing w with
  | nil => rfl
  | cons r t ih => exact (ih _).trans (pass_sweepTakeBack r w)

theorem calm_withdrawSweep (b : BayIx) (s : State) : Calm s (withdrawSweep b s) :=
  (calm_modSweep b _ s (fun w h => by rw [pass_takeBacks]; exact h)).trans (calm_withdraw b _ _)

theorem calm_withdrawRescan (b : BayIx) (s : State) : Calm s (withdrawRescan b s) := calm_withdraw b _ s

theorem calm_withdrawPower (b : BayIx) (s : State) : Calm s (withdrawPower b s) := calm_withdraw b _ s

theorem calm_ownerDiscard (r : Rec) (x : Bay) : BayCalm x (x.ownerDiscard r) := by
  unfold Bay.ownerDiscard
  split
  · exact { BayCalm.refl x with }
  · split
    · exact { BayCalm.refl x with }
    · split
      · exact BayCalm.refl x
      · exact { BayCalm.refl x with }
  all_goals exact BayCalm.refl x

theorem state_ownerDiscard (r : Rec) (x : Bay) : (x.ownerDiscard r).power.state = x.power.state := by
  unfold Bay.ownerDiscard
  split
  · rfl
  · split
    · rfl
    · split <;> rfl
  all_goals rfl

theorem calm_discardOne (b : BayIx) (st : Option UpStatus) (retire : Bool) (tag : Tag) (s : State) :
    Calm s (discardOne b st retire tag s) := by
  unfold discardOne
  split
  · exact Calm.refl s
  · rename_i r _
    have h1 := calm_modBay b (fun x => (x.modTracker (·.setRec tag none)).ownerDiscard r) s
      ((calm_bayTracker _ (by intros; rfl) (by intros; rfl) _).trans (calm_ownerDiscard r _)) (by rw [state_ownerDiscard]; rfl)
    refine h1.trans ?_
    dsimp only
    split <;> split
    · exact (calm_modLane b _ _ (by intros; rfl)).trans (calm_complete b tag _ _)
    · exact calm_complete b tag _ _
    · exact calm_modLane b _ _ (by intros; rfl)
    · exact Calm.refl _

theorem w_startIdle (t : Tracker) : t.startIdle.w = t.w ∧ t.startIdle.tw = t.tw ∧ t.startIdle.unsettled = t.unsettled := by
  unfold Tracker.startIdle
  split <;> exact ⟨rfl, rfl, rfl⟩

theorem calm_startIdle (b : BayIx) (s : State) : Calm s (s.modBay b (·.modTracker Tracker.startIdle)) :=
  calm_modTracker b _ s (fun t => (w_startIdle t).1) (fun t => (w_startIdle t).2.1)
    (fun t h => by rw [(w_startIdle t).2.2]; exact h)

theorem calm_discardAll (b : BayIx) (st : Option UpStatus) (retire : Bool) (s : State) : Calm s (discardAll b st retire s) := by
  have h1 := calm_foldl (fun s tag => discardOne b st retire tag s) (fun s tag => calm_discardOne b st retire tag s) allTags s
  refine h1.trans ((calm_modLane b (fun l => { l with downWait := [] }) _ (by intros; rfl)).trans ?_)
  exact calm_ite _ (calm_startIdle b _) (Calm.refl _)

theorem calm_refuseHeld (b : BayIx) (s : State) : Calm s (refuseHeld b s) :=
  (calm_foldl (fun s (h : Held) => complete b h.tag .notReady s) (fun s h => calm_complete b h.tag .notReady s) _ s).trans
    (calm_modLane b _ _ (by intros; rfl))

/-! ### Power -/

/-- Neither the rack nor a power state changes. -/
def Quiet (s t : State) : Prop := t.rack = s.rack ∧ ∀ b, (t.bay b).power.state = (s.bay b).power.state

theorem Quiet.refl (s : State) : Quiet s s := ⟨rfl, fun _ => rfl⟩

theorem Quiet.trans {s t u : State} (h : Quiet s t) (k : Quiet t u) : Quiet s u :=
  ⟨k.1.trans h.1, fun b => (k.2 b).trans (h.2 b)⟩

theorem quiet_modBay (b : BayIx) (f : Bay → Bay) (s : State) (hp : (f (s.bay b)).power.state = (s.bay b).power.state := by rfl) :
    Quiet s (s.modBay b f) := ⟨rfl, state_modBay b f s hp⟩

theorem quiet_foldl {β : Type} (f : State → β → State) (h : ∀ s x, Quiet s (f s x)) (l : List β) (s : State) :
    Quiet s (l.foldl f s) := by
  induction l generalizing s with
  | nil => exact Quiet.refl s
  | cons x t ih => exact (h s x).trans (ih _)

theorem quiet_ite (p : Prop) [Decidable p] {s t u : State} (h : Quiet s t) (k : Quiet s u) : Quiet s (if p then t else u) := by
  split
  · exact h
  · exact k

theorem quiet_complete (b : BayIx) (tag : Tag) (st : UpStatus) (s : State) : Quiet s (complete b tag st s) := quiet_modBay b _ s

theorem quiet_discardOne (b : BayIx) (st : Option UpStatus) (retire : Bool) (tag : Tag) (s : State) :
    Quiet s (discardOne b st retire tag s) := by
  unfold discardOne
  split
  · exact Quiet.refl s
  · rename_i r _
    have h1 := quiet_modBay b (fun x => (x.modTracker (·.setRec tag none)).ownerDiscard r) s (by rw [state_ownerDiscard]; rfl)
    refine h1.trans ?_
    dsimp only
    split <;> split
    · exact (quiet_modBay b _ _).trans (quiet_complete b tag _ _)
    · exact quiet_complete b tag _ _
    · exact quiet_modBay b _ _
    · exact Quiet.refl _

theorem quiet_discardAll (b : BayIx) (st : Option UpStatus) (retire : Bool) (s : State) : Quiet s (discardAll b st retire s) := by
  have h1 := quiet_foldl (fun s tag => discardOne b st retire tag s) (fun s tag => quiet_discardOne b st retire tag s) allTags s
  have h2 : ∀ u : State, Quiet u (u.modBay b (·.modLane (fun l => { l with downWait := [] }))) := fun u => quiet_modBay b _ u
  have h3 : ∀ u : State, Quiet u (u.modBay b (·.modTracker Tracker.startIdle)) := fun u => quiet_modBay b _ u
  exact h1.trans ((h2 _).trans (quiet_ite _ (h3 _) (Quiet.refl _)))

theorem quiet_cutSupply (b : BayIx) (s : State) : Quiet s (cutSupply b s) := (quiet_modBay b _ s).trans (quiet_modBay b _ _)

theorem quiet_refuseHeld (b : BayIx) (s : State) : Quiet s (refuseHeld b s) :=
  (quiet_foldl (fun s (h : Held) => complete b h.tag .notReady s) (fun s h => quiet_complete b h.tag .notReady s) _ s).trans
    (quiet_modBay b _ _)

/-- A bay outside the queue takes a power state of no greater charge. -/
theorem calm_become (b : BayIx) (p : PowerState) (s : State) (hq : (s.bay b).power.state ≠ .queued) (h : p ≠ .empty)
    (hp : p ≠ .queued) (hc : s.rack.configSound → chargeOf s.rack p ≤ chargeOf s.rack (s.bay b).power.state) :
    Calm s (setPower b p s) :=
  calm_modBay_arb b _ s { BayCalm.refl _ with present := fun _ => h }
    (arb_become b (fun c e => by simp [e]) (RackKeeps.refl _) rfl hq (by simpa using hp) (by simpa using hc))

/-- A bay leaves the queue, changes by any operation, and takes an uncharged state. -/
theorem arb_quit (b : BayIx) (p : PowerState) (f : Bay → Bay) (s : State) (h0 : p = .off ∨ p = .empty) :
    ArbKeeps s (setPower b p ((leaveQueue b s).modBay b f)) := by
  have hk : RackKeeps s.rack (leaveQueue b s).rack := { RackKeeps.refl _ with }
  refine arb_leave (s := s) b (fun c e => ?_) hk rfl ?_ ?_
  · simp [setPower, leaveQueue, e]
  · rcases h0 with rfl | rfl <;> simp [setPower]
  · intro _
    rcases h0 with rfl | rfl <;> simp [setPower, chargeOf]

theorem calm_leaveQueue_parts (b : BayIx) (s : State) :
    (leaveQueue b s).pending = s.pending ∧ (∀ c, (leaveQueue b s).bay c = s.bay c)
      ∧ RackKeeps s.rack (leaveQueue b s).rack ∧ (leaveQueue b s).rack.useCounts = s.rack.useCounts :=
  ⟨rfl, fun _ => rfl, { RackKeeps.refl _ with }, rfl⟩

/-- A bay leaves the queue, changes calmly, and is OFF. -/
theorem calm_quit (b : BayIx) (f : Bay → Bay) (s : State) (h : BayCalm (s.bay b) (f (s.bay b))) :
    Calm s (setPower b .off ((leaveQueue b s).modBay b f)) := by
  refine ⟨rfl, fun c => ?_, { RackKeeps.refl _ with }, rfl, arb_quit b .off f s (.inl rfl)⟩
  by_cases e : c = b
  · subst e
    have : (setPower c .off ((leaveQueue c s).modBay c f)).bay c = (f (s.bay c)).modPower (fun w => { w with state := .off }) := by
      simp [setPower, leaveQueue]
    rw [this]
    exact h.trans { BayCalm.refl _ with present := fun _ => by simp }
  · have : (setPower b .off ((leaveQueue b s).modBay b f)).bay c = s.bay c := by simp [setPower, leaveQueue, e]
    rw [this]
    exact BayCalm.refl _

theorem calm_grantBay (b : BayIx) (s : State) (hf : s.headFits = true) :
    Calm s (grantBay b s) := by
  refine ⟨rfl, fun c => ?_, { RackKeeps.refl _ with }, rfl, ?_⟩
  · by_cases e : c = b
    · subst e
      have : (grantBay c s).bay c = (s.bay c).modPower (fun w =>
          { w with state := .spinningUp, spinTimer := some s.rack.spinTimeout, grantTime := s.rack.ms, learnWait := true }) := by
        simp [grantBay]
      rw [this]
      exact { BayCalm.refl _ with present := fun _ => by simp }
    · have : (grantBay b s).bay c = s.bay c := by simp [grantBay, e]
      rw [this]
      exact BayCalm.refl _
  · have hr : RackKeeps s.rack (grantBay b s).rack := { RackKeeps.refl _ with }
    have ho : ∀ c, c ≠ b → ((grantBay b s).bay c).power.state = (s.bay c).power.state := fun c e => by simp [grantBay, e]
    have hs : ((grantBay b s).bay b).power.state = .spinningUp := by simp [grantBay]
    have hqq : (grantBay b s).rack.queue = s.rack.queue.filter (fun c => c ≠ b) := by simp [grantBay]
    refine ⟨fun ⟨hcf, ht⟩ => ⟨hr.config hcf, ?_⟩, fun ⟨hn, hm⟩ => ⟨by rw [hqq]; exact hn.filter _, fun c => ?_⟩⟩
    · have h1 := tally_update b (fun c e => charge_congr hr c (ho c e))
      have h2 : (grantBay b s).charge b = s.rack.spin := by unfold State.charge; rw [hs]; rfl
      unfold State.headFits at hf
      have h4 := of_decide_eq_true hf
      rw [hr.budget]
      omega
    · rw [hqq, List.mem_filter]
      by_cases e : c = b
      · subst e; simp [hs]
      · rw [hm c, ho c e]; simp [e]

theorem calm_grantOne (s : State) : Calm s (grantOne s) := by
  unfold grantOne
  split
  · exact Calm.refl s
  · rename_i b _ _
    by_cases hf : s.headFits = true
    · rw [if_pos hf]; exact calm_grantBay b s hf
    · rw [if_neg hf]; exact Calm.refl s

theorem calm_grantSome (k : Nat) (s : State) : Calm s (grantSome k s) := by
  induction k generalizing s with
  | zero => exact Calm.refl s
  | succ k ih => exact (calm_grantOne s).trans (ih _)

theorem calm_grantTest (s : State) : Calm s (grantTest s) := calm_grantSome 8 s

theorem calm_askPower (b : BayIx) (s : State) (h : (s.bay b).power.state = .off) : Calm s (askPower b s) := by
  refine Calm.trans (t := (setPower b .queued s).modRack (fun r => { r with queue := r.queue ++ [b] })) ?_ (calm_grantTest _)
  refine ⟨rfl, fun c => ?_, { RackKeeps.refl _ with }, rfl,
    arb_join b (fun c e => by simp [setPower, e]) { RackKeeps.refl _ with } rfl h (by simp [setPower])⟩
  by_cases e : c = b
  · subst e
    rw [bay_modRack]
    simp only [setPower, bay_modBay_same]
    exact { BayCalm.refl _ with present := fun _ => by simp }
  · rw [bay_modRack]
    simp only [setPower, bay_modBay_other _ _ _ _ e]
    exact BayCalm.refl _

theorem calm_cutSupply (b : BayIx) (s : State) : Calm s (cutSupply b s) := by
  refine Calm.trans (calm_modBay b _ s ?_) (calm_withdrawPower b _)
  exact (calm_bayLane Lane.dropDown (by intros; rfl) _).trans
    (calm_bayPower _ (by intros; rfl) (by intros; rfl) (by intros; rfl) _)

theorem calm_cutSpinup (b : BayIx) (s : State) (h : (s.bay b).power.state = .spinningUp) : Calm s (cutSpinup b s) := by
  have hq := ((quiet_discardAll b (some .aborted) false s).trans (quiet_cutSupply b _)).trans (quiet_refuseHeld b _)
  exact ((((calm_discardAll b _ _ s).trans (calm_cutSupply b _)).trans (calm_refuseHeld b _)).trans
    (calm_become b .off _ (by rw [hq.2 b, h]; simp) (by simp) (by simp) (fun _ => Nat.zero_le _))).trans (calm_grantTest _)

/-- Held commands refused with the bay out of the queue. -/
theorem refuseHeld_leaveQueue (b : BayIx) (s : State) : refuseHeld b (leaveQueue b s) = leaveQueue b (refuseHeld b s) := by
  have h : ∀ (l : List Held) (u : State), l.foldl (fun s (h : Held) => complete b h.tag .notReady s) (leaveQueue b u)
      = leaveQueue b (l.foldl (fun s (h : Held) => complete b h.tag .notReady s) u) := by
    intro l
    induction l with
    | nil => intro u; rfl
    | cons x t ih => intro u; exact ih (complete b x.tag .notReady u)
  have e : ((leaveQueue b s).bay b).lane.held = (s.bay b).lane.held := rfl
  unfold refuseHeld
  rw [e]
  dsimp only
  rw [h]
  rfl

theorem calm_askOff (b : BayIx) (s : State) : Calm s (askOff b s) := by
  unfold askOff
  split
  · rename_i h
    exact calm_become b .settling s (by rw [h]; simp) (by simp) (by simp) (fun _ => by rw [h]; exact Nat.le_refl _)
  · rw [refuseHeld_leaveQueue]
    refine Calm.trans (calm_refuseHeld b s) (Calm.trans ?_ (calm_grantTest _))
    have := calm_quit b id (refuseHeld b s) (BayCalm.refl _)
    rwa [show (leaveQueue b (refuseHeld b s)).modBay b id = leaveQueue b (refuseHeld b s) from by
      simp [State.modBay, State.setBay, State.bay]] at this
  · rename_i h; exact calm_cutSpinup b s h
  all_goals exact Calm.refl s

theorem calm_askOn (b : BayIx) (s : State) : Calm s (askOn b s) := by
  unfold askOn
  split
  · rename_i h; exact calm_askPower b s h
  · exact Calm.refl s

theorem calm_askLearn (b : BayIx) (s : State) : Calm s (askLearn b s) :=
  (calm_modPower b _ s (by intros; rfl) (by intros; rfl) (by intros; rfl)).trans (calm_requestTag b _ _)

/-! ### Visits and rescans -/

theorem calm_setActive (b : BayIx) (a : Active) (s : State) : Calm s (setActive b a s) := calm_modSweep b _ s (by intro _ h; exact h)

theorem calm_setRescan (b : BayIx) (q : Option Rescan) (s : State) : Calm s (setRescan b q s) :=
  calm_modSweep b _ s (by intro _ h; exact h)

theorem calm_startVisit (b : BayIx) (s : State) : Calm s (startVisit b s) := by
  unfold startVisit
  split
  · exact calm_ite _ ((calm_setActive b _ s).trans (calm_requestTag b _ _)) (Calm.refl s)
  · exact Calm.refl s

theorem calm_issueRead (b : BayIx) (s : State) : Calm s (issueRead b s) := by
  unfold issueRead
  split
  · split
    · exact calm_ite _ ((calm_setActive b _ s).trans (calm_requestTag b _ _)) (Calm.refl s)
    · exact Calm.refl s
  · exact Calm.refl s

theorem calm_repeat (f : State → State) (h : ∀ s, Calm s (f s)) (k : Nat) (s : State) : Calm s (repeatBay f k s) := by
  induction k generalizing s with
  | zero => exact Calm.refl s
  | succ k ih => exact (h s).trans (ih _)

theorem calm_issueReads (b : BayIx) (s : State) : Calm s (issueReads b s) := calm_repeat _ (calm_issueRead b) 8 s

theorem calm_pumpSweep (b : BayIx) (s : State) : Calm s (pumpSweep b s) :=
  (calm_issueReads b s).trans (calm_repeat _ (calm_startVisit b) 8 _)

theorem calm_issueChunk (b : BayIx) (s : State) : Calm s (issueChunk b s) := by
  unfold issueChunk
  dsimp only
  split
  · refine calm_ite _ ?_ (Calm.refl s)
    split
    · exact (calm_setRescan b _ s).trans (calm_requestTag b _ _)
    · split
      · exact calm_ite _ ((calm_setRescan b _ s).trans (calm_requestTag b _ _)) (Calm.refl s)
      · exact Calm.refl s
  · exact Calm.refl s

theorem calm_issueChunks (b : BayIx) (s : State) : Calm s (issueChunks b s) := calm_repeat _ (calm_issueChunk b) 16 s

theorem calm_issueChunkRead (b : BayIx) (s : State) : Calm s (issueChunkRead b s) := by
  unfold issueChunkRead
  split
  · exact calm_ite _ (calm_issueChunk b s) (Calm.refl s)
  · exact Calm.refl s

theorem calm_takeRescan (b : BayIx) (isSweep : Bool) (s : State) : Calm s (takeRescan b isSweep s) := by
  unfold takeRescan
  split
  · exact Calm.refl s
  · refine Calm.trans (calm_modBay b _ s ?_) (calm_issueChunks b _)
    exact (calm_bayZm _ (by intro _ h; exact h) _).trans (calm_baySweep _ (by intro _ h; exact h) _)

theorem calm_suspendPhase (b : BayIx) (isSweep : Bool) (s : State) : Calm s (suspendPhase b isSweep s) := by
  unfold suspendPhase
  split
  · exact Calm.refl s
  · exact Calm.trans (calm_ite _ (calm_withdrawSweep b s) (Calm.refl s)) (calm_modSweep b _ _ (by intro _ h; exact h))

theorem calm_testRescan (b : BayIx) (s : State) : Calm s (testRescan b s) :=
  calm_ite _ ((calm_suspendPhase b _ s).trans (calm_takeRescan b _ _)) (Calm.refl s)

/-! ### The end of a plan -/

theorem pass_stop (w : Sweep) : w.stop.passCounter = w.passCounter := by
  unfold Sweep.stop
  split <;> rfl

theorem calm_stopPhase (b : BayIx) (s : State) : Calm s (stopPhase b s) := by
  unfold stopPhase
  refine Calm.trans (calm_withdraw b _ s) (calm_modBay b _ _ ?_ (by dsimp only; split <;> rfl))
  have h : ∀ x : Bay, BayCalm x ((x.modSweep Sweep.stop).modZm (fun m => { m with queue := [] })) := fun x =>
    (calm_baySweep _ (fun w h => by rw [pass_stop]; exact h) x).trans (calm_bayZm _ (by intro _ h; exact h) _)
  dsimp only
  split
  · exact (h _).trans { BayCalm.refl _ with }
  · exact h _

theorem calm_faultGrade (b : BayIx) (s : State) : Calm s (faultGrade b s) := by
  unfold faultGrade
  exact calm_modBay b _ s { BayCalm.refl (s.bay b) with }

theorem calm_recordGrade (b : BayIx) (d : Fin 16) (s : State) : Calm s (recordGrade b d s) := by
  unfold recordGrade
  exact calm_modBay b _ s { BayCalm.refl (s.bay b) with }

theorem keeps_release (reach : Vector Bool 96) (r : Rack) : RackKeeps r (r.release reach) := by
  unfold Rack.release
  constructor <;> rfl

/-- Steps 2 to 4 of a plan end: the use counts fall for the ended plan's slots, and the plan is ENDED (R130). -/
theorem tame_release (b : BayIx) (o : PlanOutcome) (f : Option FaultCause) (e : Option SlotIx) (ms : Word) (s : State)
    (h : (s.bay b).running = true) :
    Tame s ((s.modRack (Rack.release (s.bay b).plan.reach)).modBay b (·.modPlan (Plan.finish o f e ms))) := by
  have hst : ∀ c, (((s.modRack (Rack.release (s.bay b).plan.reach)).modBay b (·.modPlan (Plan.finish o f e ms))).bay c).power.state
      = (s.bay c).power.state := fun c => by
    rw [state_modBay b _ _ (by simp only [power_modPlan]), bay_modRack]
  have hk : RackKeeps s.rack ((s.modRack (Rack.release (s.bay b).plan.reach)).modBay b (·.modPlan (Plan.finish o f e ms))).rack := by
    rw [rack_modBay, rack_modRack]; exact keeps_release _ _
  have hq : ((s.modRack (Rack.release (s.bay b).plan.reach)).modBay b (·.modPlan (Plan.finish o f e ms))).rack.queue
      = s.rack.queue := by
    rw [rack_modBay, rack_modRack]; unfold Rack.release; rfl
  refine ⟨by simp, fun c => ?_, hk, fun hs k => ?_, arb_congr hst hk hq⟩
  · by_cases hc : c = b
    · subst hc
      simp only [bay_modBay_same, bay_modRack]
      exact { BayTame.refl (s.bay c) with plan := fun e => by simp [Plan.finish] at e }
    · simpa [hc] using BayTame.refl _
  · have hk := hs k
    have hb : b ∈ allBays := by fin_cases b <;> simp [allBays]
    have hnd : allBays.Nodup := by decide
    generalize ht : (s.modRack (Rack.release (s.bay b).plan.reach)).modBay b (·.modPlan (Plan.finish o f e ms)) = t
    have hu : t.rack.useCounts[k]
        = if (s.bay b).plan.reach[k] then s.rack.useCounts[k] - 1 else s.rack.useCounts[k] := by
      rw [← ht]; simp [Rack.release]
    have hp : t.planUsers k = (s.planUsers k).filter (fun c => decide (c ≠ b)) := by
      unfold State.planUsers
      rw [List.filter_filter]
      apply List.filter_congr
      intro c _
      by_cases hc : c = b
      · subst hc; rw [← ht]; simp [Plan.finish, Bay.running]
      · rw [← ht]; simp [hc]
    rw [hu, hp, hk]
    by_cases hr : (s.bay b).plan.reach[k] = true
    · have hr' : (s.bay b).plan.reach[(k : Nat)] = true := hr
      have hmem : b ∈ s.planUsers k := by simp [State.planUsers, hb, h, hr']
      have hnd' : (s.planUsers k).Nodup := hnd.filter _
      have : (s.planUsers k).filter (fun c => decide (c ≠ b)) = (s.planUsers k).erase b := by
        rw [hnd'.erase_eq_filter]
        apply List.filter_congr
        intro c _
        by_cases e : c = b <;> simp [e]
      rw [this, List.length_erase_of_mem hmem, if_pos hr]
    · have hnot : ∀ c ∈ s.planUsers k, c ≠ b := by
        intro c hc e
        subst e
        have hr' : (s.bay c).plan.reach[(k : Nat)] = true := by
          simp only [State.planUsers, List.mem_filter, Bool.and_eq_true] at hc
          exact hc.2.2
        exact hr hr'
      rw [if_neg hr, List.filter_eq_self.mpr (by simpa using hnot)]

/-- Steps 5 to 7 of a plan end: the fault grade, the disposal of the power, the notice and the lamp (R130). -/
theorem calm_planTail (b : BayIx) (o : PlanOutcome) (disp : Choice) (u : State) :
    Calm u (refreshLamp b (raiseNotice b .planEnded
      (if disp = .off then askOff b (if o = .faulted then faultGrade b u else u) else if o = .faulted then faultGrade b u else u))) := by
  refine Calm.trans ?_ ((calm_raiseNotice b .planEnded _).trans (calm_refreshLamp b _))
  split <;> split
  · exact (calm_faultGrade b u).trans (calm_askOff b _)
  · exact calm_askOff b u
  · exact calm_faultGrade b u
  · exact Calm.refl u

/-- A plan end (R130). -/
theorem tame_planEnd (b : BayIx) (o : PlanOutcome) (f : Option FaultCause) (e : Option SlotIx) (disp : Choice) (s : State)
    (h : (s.bay b).running = true) : Tame s (planEnd b o f e disp s) := by
  have h1 := calm_stopPhase b s
  have hr : ((stopPhase b s).bay b).running = true := by rw [h1.running b]; exact h
  have h2 := tame_release b o f e ((stopPhase b s).modRack (Rack.release ((stopPhase b s).bay b).plan.reach)).rack.ms _ hr
  exact h1.tame.trans (h2.trans (calm_planTail b o disp _).tame)

end Sys2Proof.Machine
end

