-- ==== Sys2Proof/Laws/Tame.lean ====
section
/-! SUPPORT. The operations that may move or end a plan: each has one lemma that says what it keeps (`Calm` or `Tame`). -/

namespace Sys2Proof.Machine

/-! ### The cursor -/

/-- The state an arrival leaves. -/
def Arrival.inner : Arrival → State
  | .stay s => s
  | .move _ s => s
  | .finish _ s => s

theorem calm_setCursor (b : BayIx) (k : SlotIx) (s : State) : Calm s (setCursor b k s) :=
  calm_modPlan b _ s (by intros; rfl) (by intros; rfl)

theorem calm_setStep (b : BayIx) (st : PhaseStep) (timer : Option Nat) (s : State) : Calm s (setStep b st timer s) :=
  calm_modPlan b _ s (by intros; rfl) (by intros; rfl)

theorem calm_arriveLoop (b : BayIx) (k target : SlotIx) (count : Nat) (nxt : Option SlotIx) (s : State) :
    Calm s (arriveLoop b k target count nxt s).inner := by
  unfold arriveLoop
  dsimp only
  split
  · exact Calm.refl s
  · split <;> exact calm_modPlan b _ s (by intros; rfl) (by intros; rfl)

theorem calm_arriveGrade (b : BayIx) (bin : Fin 16) (nxt other : Option SlotIx) (s : State) :
    Calm s (arriveGrade b bin nxt other s).inner := calm_recordGrade b bin s

theorem calm_arriveStamp (b : BayIx) (lba : Nat) (s : State) : Calm s (arriveStamp b lba s).inner := by
  unfold arriveStamp
  split
  · exact Calm.refl s
  · split
    · exact Calm.refl s
    · refine Calm.trans (Calm.trans (calm_modBay b _ s ?_) (calm_setStep b .writing none _)) (calm_requestTag b _ _)
      exact { BayCalm.refl (s.bay b) with }

theorem calm_arriveCycle (b : BayIx) (off : Nat) (s : State) : Calm s (arriveCycle b off s).inner := by
  unfold arriveCycle
  split
  · exact (calm_setStep b _ _ s).trans (calm_askOff b _)
  · exact calm_setStep b _ _ s

theorem calm_arriveOff (b : BayIx) (nxt : Option SlotIx) (s : State) : Calm s (arriveOff b nxt s).inner := by
  unfold arriveOff
  split
  · exact (calm_setStep b _ _ s).trans (calm_askOff b _)
  · exact Calm.refl s

theorem pass_startPass (a : Active) (w : Sweep) (h : w.passCounter ≤ 65535) : (Sweep.startPass a w).passCounter ≤ 65535 := by
  unfold Sweep.startPass
  dsimp only
  split
  · exact Nat.min_le_left _ _
  · exact h

theorem pass_startPhase (k : SlotIx) (f : SweepCfg) (c : Nat) (w : Sweep) (h : w.passCounter ≤ 65535) :
    (Sweep.startPhase k f c w).passCounter ≤ 65535 := by
  unfold Sweep.startPhase
  dsimp only
  split
  · exact h
  · exact pass_startPass _ _ h

theorem calm_arriveSweep (b : BayIx) (k : SlotIx) (f : SweepCfg) (nxt : Option SlotIx) (s : State) :
    Calm s (arriveSweep b k f nxt s).inner := by
  unfold arriveSweep
  split
  · exact Calm.refl s
  · have h : Calm s (setStep b .running none (s.modBay b (fun x => x.modSweep (Sweep.startPhase k f (x.power.cap.getD 0))))) :=
      Calm.trans (calm_modBay b _ s (calm_baySweep _ (fun w hw => pass_startPhase _ _ _ w hw) _)) (calm_setStep b _ _ _)
    dsimp only
    split <;> exact h

theorem calm_arriveAt (b : BayIx) (k : SlotIx) (s : State) : Calm s (arriveAt b k s).inner := by
  refine (calm_setCursor b k s).trans ?_
  unfold arriveAt
  dsimp only
  split
  · exact Calm.refl _
  · exact calm_arriveSweep b k _ _ _
  · split <;> exact calm_setStep b _ _ _
  · exact calm_arriveCycle b _ _
  · exact calm_arriveOff b _ _
  · exact calm_arriveLoop b k _ _ _ _
  · exact calm_arriveGrade b _ _ _ _
  · exact calm_arriveStamp b _ _

theorem tame_travel (b : BayIx) (fuel : Nat) (nxt : Option SlotIx) (s : State) (h : (s.bay b).running = true) :
    Tame s (travel b fuel nxt s) := by
  induction fuel generalizing nxt s with
  | zero => cases nxt <;> exact Tame.refl s
  | succ fuel ih =>
    cases nxt with
    | none => exact tame_planEnd b _ _ _ _ s h
    | some k =>
      have hc := calm_arriveAt b k s
      have hr := (hc.running b).trans h
      rw [travel]
      split
      · rename_i s' e
        rw [e] at hc
        exact (Calm.trans hc (calm_testRescan b s')).tame
      · rename_i n s' e
        rw [e] at hc hr
        exact hc.tame.trans (ih n s' hr)
      · rename_i o s' e
        rw [e] at hc hr
        exact hc.tame.trans (tame_planEnd b o none (some k) _ s' hr)

theorem tame_goTo (b : BayIx) (nxt : Option SlotIx) (s : State) : Tame s (goTo b nxt s) := by
  unfold goTo
  split
  · rename_i h; exact tame_travel b _ nxt s h
  · exact Tame.refl s

theorem tame_advancePlan (b : BayIx) (s : State) : Tame s (advancePlan b s) := tame_goTo b _ s

/-! ### The end of a pass and of a sweep phase -/

theorem pass_endPhase (r : EndReason) (i f : Nat) (w : Sweep) : (Sweep.endPhase r i f w).passCounter = w.passCounter := by
  unfold Sweep.endPhase
  split <;> rfl

theorem tame_endSweep (b : BayIx) (r : EndReason) (i f : Nat) (s : State) : Tame s (endSweep b r i f s) :=
  (calm_modSweep b _ s (by intro w h; rw [pass_endPhase]; exact h)).tame.trans (tame_advancePlan b _)

theorem calm_closePass (b : BayIx) (a : Active) (s : State) : Calm s (closePass b a s) :=
  calm_modBay b _ s (calm_bayZm _ (fun m h => sound_passClose _ _ _ _ _ m h) _)

theorem tame_nextPass (b : BayIx) (a : Active) (s : State) : Tame s (nextPass b a s) := by
  unfold nextPass
  split
  · exact ((calm_modSweep b _ s (by intro w h; exact pass_startPass _ w h)).trans (calm_testRescan b _)).tame
  · exact tame_endSweep b _ _ _ s

theorem tame_endAfterClose (b : BayIx) (a : Active) (s : State) : Tame s (endAfterClose b a s) := tame_endSweep b _ _ _ s

theorem tame_passEnd (b : BayIx) (a : Active) (s : State) : Tame s (passEnd b a s) := by
  refine (calm_closePass b a s).tame.trans ?_
  unfold passEnd
  dsimp only
  split
  · exact tame_nextPass b a _
  · exact (calm_modSweep b _ _ (by intro _ h; exact h)).tame
  · exact tame_endAfterClose b a _
  all_goals exact Tame.refl _

theorem tame_drainCheck (b : BayIx) (but : Option Tag) (s : State) : Tame s (drainCheck b but s) := by
  unfold drainCheck
  dsimp only
  split
  · exact tame_ite _ (tame_endSweep b _ _ _ s) (Tame.refl s)
  · exact Tame.refl s

theorem tame_expireLimit (b : BayIx) (s : State) : Tame s (expireLimit b s) :=
  ((calm_withdrawSweep b s).trans (calm_modSweep b _ _ (by intro _ h; exact h))).tame.trans (tame_drainCheck b none _)

theorem tame_sweepClosed (b : BayIx) (tag : Tag) (r : Rec) (s : State) : Tame s (sweepClosed b tag r s) := by
  unfold sweepClosed
  split
  · split
    · split
      · exact (calm_setActive b _ s).tame.trans (tame_drainCheck b _ _)
      · dsimp only
        split
        · exact (calm_setActive b _ s).tame.trans (tame_passEnd b _ _)
        · exact (calm_setActive b _ s).tame.trans (tame_drainCheck b _ _)
    · exact Tame.refl s
  · exact Tame.refl s

theorem tame_rewindSweep (b : BayIx) (s : State) : Tame s (rewindSweep b s) := by
  unfold rewindSweep
  split
  · exact ((calm_withdrawSweep b s).trans (calm_modSweep b _ _ (by intro _ h; exact h))).tame.trans
      (tame_drainCheck b none _)
  · exact Tame.refl s

/-! ### Rescans -/

theorem calm_resumeSweep (b : BayIx) (s : State) : Calm s (resumeSweep b s) := calm_modSweep b _ s (by intro _ h; exact h)

theorem tame_restoreSweep (b : BayIx) (v : Saved) (s : State) : Tame s (restoreSweep b v s) := by
  refine (calm_resumeSweep b s).tame.trans ?_
  unfold restoreSweep
  dsimp only
  split
  · exact Tame.refl _
  · split
    · exact (calm_pumpSweep b _).tame
    · exact tame_ite _ ((tame_nextPass b _ _).trans (calm_pumpSweep b _).tame) (tame_nextPass b _ _)
    · exact tame_expireLimit b _
    · exact tame_endAfterClose b _ _

theorem tame_restore (b : BayIx) (v : Saved) (s : State) : Tame s (restore b v s) := by
  have h1 : Calm s (s.modBay b (·.modSweep (fun w => { w with saved := none }))) := calm_modSweep b _ s (by intro _ h; exact h)
  refine h1.tame.trans (Tame.trans ?_ (calm_testRescan b _).tame)
  split
  · exact tame_restoreSweep b v _
  · exact tame_ite _ (tame_advancePlan b _) (Tame.refl _)

theorem tame_rescanEnd (b : BayIx) (s : State) : Tame s (rescanEnd b s) := by
  refine (calm_setRescan b none s).tame.trans ?_
  unfold rescanEnd
  dsimp only
  split
  · exact Tame.refl _
  · exact tame_ite _ (calm_takeRescan b _ _).tame (tame_restore b _ _)

theorem tame_confirmRescan (b : BayIx) (n : Nat) (s : State) : Tame s (confirmRescan b n s) :=
  ((calm_modZm b _ s (by intro m h; exact sound_confirm n m h)).trans (calm_withdrawRescan b _)).tame.trans (tame_rescanEnd b _)

theorem tame_rescanPassClose (b : BayIx) (q : Rescan) (s : State) : Tame s (rescanPassClose b q s) := by
  have h1 : Calm s (s.modBay b (·.modZm (ZoneMap.rescanClose q.zone q.p))) :=
    calm_modZm b _ s (fun m h => sound_rescanClose _ _ m h)
  refine h1.tame.trans ?_
  unfold rescanPassClose
  dsimp only
  split
  · exact (calm_setRescan b _ _).tame
  · exact (calm_modZm b _ _ (by intro m h; exact sound_heal _ m h)).tame.trans (tame_rescanEnd b _)

theorem tame_rescanClosed (b : BayIx) (r : Rec) (s : State) : Tame s (rescanClosed b r s) := by
  unfold rescanClosed
  split
  · split
    · split
      · exact (calm_setRescan b _ s).tame
      · dsimp only
        split
        · exact (calm_setRescan b _ s).tame.trans (tame_rescanPassClose b _ _)
        · exact (calm_setRescan b _ s).tame
    · exact Tame.refl s
  · exact Tame.refl s

theorem calm_rewindRescan (b : BayIx) (s : State) : Calm s (rewindRescan b s) := by
  unfold rewindRescan
  exact (calm_withdrawRescan b s).trans (calm_modBay b _ _ { BayCalm.refl _ with })

/-! ### Outcomes -/

theorem calm_firstHit (b : BayIx) (n r : Nat) (s : State) : Calm s (firstHit b n r s) := by
  refine (calm_modZm b (ZoneMap.setClass n .unconfirmed) s (fun m h => sound_setClass _ _ m h)).trans ?_
  unfold firstHit
  dsimp only
  split
  · exact (calm_modZm b _ _ (by intro m h; exact sound_offer _ _ m h)).trans (calm_testRescan b _)
  · exact Calm.refl _

theorem tame_zoneDefect (b : BayIx) (n : Nat) (o : Origin) (r : Nat) (s : State) : Tame s (zoneDefect b n o r s) := by
  refine (calm_modZm b (ZoneMap.hit n) s (fun m h => sound_hit n m h)).tame.trans ?_
  unfold zoneDefect
  dsimp only
  split
  · exact tame_confirmRescan b n _
  · split
    · exact (calm_modZm b _ _ (by intro m h; exact sound_rehit m h)).tame
    · exact (calm_firstHit b n _ _).tame

theorem tame_giveOutcome (b : BayIx) (l : Nat) (v : Verdict) (o : Origin) (r : Nat) (s : State) :
    Tame s (giveOutcome b l v o r s) := by
  have h1 : Calm s (s.modBay b (fun x => { x with counters := x.counters.note v })) :=
    calm_modBay b _ s { BayCalm.refl (s.bay b) with }
  refine h1.tame.trans ?_
  unfold giveOutcome
  dsimp only
  split
  · split
    · exact tame_zoneDefect b _ o r _
    · exact Tame.refl _
  · exact Tame.refl _

/-! ### The change to ON and the forced power-off -/

theorem calm_openHost (b : BayIx) (tag : Tag) (kind : CmdKind) (lba count : Nat) (body : List Byte) (s : State) :
    Calm s (openHost b tag kind lba count body s) := calm_openRec b tag _ body s

theorem calm_drainOne (b : BayIx) (s : State) (h : Held) : Calm s (drainOne b s h) :=
  calm_ite _ (calm_openHost b _ _ _ _ _ s) (calm_complete b _ _ s)

theorem calm_drainHeld (b : BayIx) (s : State) : Calm s (drainHeld b s) :=
  (calm_modLane b (fun l => { l with held := [] }) s (fun _ => rfl)).trans (calm_foldl (drainOne b) (calm_drainOne b) _ _)

theorem tame_planToldOn (b : BayIx) (s : State) : Tame s (planToldOn b s) := by
  unfold planToldOn
  dsimp only
  split
  · split
    · exact tame_goTo b _ s
    · exact (calm_modPower b _ s (by intros; rfl) (by intros; rfl) (by intros; rfl)).tame.trans (tame_advancePlan b _)
    · exact Tame.refl s
  · exact Tame.refl s

theorem tame_bayOn (b : BayIx) (s : State) (h : (s.bay b).power.state = .spinningUp) : Tame s (bayOn b s) := by
  have h1 : Calm s (s.modBay b (·.modPower (fun w =>
      { w with state := .on, spinTimer := none, longest := max w.longest (s.rack.ms - w.grantTime).toNat }))) :=
    calm_modBay_arb b _ s { BayCalm.refl _ with present := fun _ => by simp }
      (arb_become b (fun c e => by simp [e]) (RackKeeps.refl _) rfl (by rw [h]; simp) (by simp)
        (fun hc => by rw [h]; simpa [chargeOf] using hc.2.2.2.2.2.2.2.1))
  exact (((h1.trans (calm_grantTest _)).trans (calm_drainHeld b _)).tame.trans (tame_planToldOn b _)).trans
    (calm_testRescan b _).tame

theorem tame_planToldOff (b : BayIx) (s : State) : Tame s (planToldOff b s) := by
  unfold planToldOff
  dsimp only
  split
  · split
    · exact (calm_setStep b _ _ s).tame
    · exact tame_advancePlan b s
    · exact Tame.refl s
  · exact Tame.refl s

theorem tame_reportFault (b : BayIx) (f : FaultCause) (s : State) : Tame s (reportFault b f s) := by
  have h1 : Calm s (s.modBay b (·.modPower (fun w => { w with lastFault := some (f, s.rack.ms) }))) :=
    calm_modPower b _ s (by intros; rfl) (by intros; rfl) (by intros; rfl)
  refine (h1.trans (calm_raiseNotice b .fault _)).tame.trans ?_
  unfold reportFault
  dsimp only
  split
  · rename_i h; exact tame_planEnd b _ _ _ _ _ h
  · exact Tame.refl _

theorem calm_loseUnsettled (x : Bay) : BayCalm x x.loseUnsettled :=
  { BayCalm.refl x with zones := fun h => sound_suspectMark _ _ h, unsettled := fun _ => sound_noRanges }

/-- The bay with its records discarded, its supply cut and its held commands refused (R157 steps 1 and 2). -/
theorem calm_cutBefore (b : BayIx) (s : State) :
    Calm s (refuseHeld b (cutSupply b (discardAll b (some .aborted) false s))) :=
  ((calm_discardAll b _ _ s).trans (calm_cutSupply b _)).trans (calm_refuseHeld b _)

theorem calm_cutPower (b : BayIx) (s : State) : Calm s (cutPower b .off s) :=
  (calm_cutBefore b s).trans (calm_quit b Bay.loseUnsettled _ (calm_loseUnsettled _))

theorem tame_forcedOff (b : BayIx) (cause : Option FaultCause) (s : State) : Tame s (forcedOff b cause s) := by
  refine (calm_cutPower b s).tame.trans (Tame.trans ?_ (calm_grantTest _).tame)
  split
  · exact tame_reportFault b _ _
  · exact tame_planToldOff b _

/-! ### The close of a record -/

theorem calm_learnBay (c r : Nat) (hr : r = c - 256) (x : Bay) :
    BayCalm x (((x.modPower (fun w => { w with cap := some c })).modLane (fun l => { l with rc := r })).modZm
      (ZoneMap.learn c)) :=
  { BayCalm.refl x with
    capacity := by intro _; exact hr
    zones := by intro h; exact sound_learn c _ h }

theorem state_learnCapacity (b c : _) (n : Nat) (s : State) :
    ((learnCapacity b n s).bay c).power.state = (s.bay c).power.state := by
  unfold learnCapacity raiseNotice
  rw [state_modBay b _ _ rfl, state_modBay b _ _ rfl]

theorem calm_learnCapacity (b : BayIx) (c : Nat) (s : State) : Calm s (learnCapacity b c s) :=
  (calm_modBay b _ s (calm_learnBay c (c - annexSize) (by unfold annexSize; with_reducible rfl) _)).trans
    (calm_raiseNotice b .capacity _)

theorem tame_learnSupported (b : BayIx) (c : Nat) (s : State) (h : (s.bay b).power.state = .spinningUp) :
    Tame s (learnSupported b c s) := by
  unfold learnSupported
  split
  · exact (calm_learnCapacity b c s).tame.trans (tame_bayOn b _ (by rw [state_learnCapacity]; exact h))
  · exact tame_ite _ (tame_bayOn b s h) (tame_forcedOff b _ s)

theorem tame_learnUnsupported (b : BayIx) (s : State) :
    Tame s (forcedOff b (some .unsupported) (s.modBay b (·.modPower (fun w => { w with unsupported := true })))) :=
  (calm_modPower b (fun w => { w with unsupported := true }) s (by intros; rfl) (by intros; rfl) (by intros; rfl)).tame.trans
    (tame_forcedOff b _ _)

theorem tame_learnClosed (b : BayIx) (st : DriveStatus) (s : State) : Tame s (learnClosed b st s) := by
  unfold learnClosed
  split
  · exact Tame.refl s
  · rename_i h
    have h : (s.bay b).power.state = .spinningUp := by simpa using h
    split
    · exact tame_ite _ (tame_learnSupported b _ s h) (tame_learnUnsupported b s)
    · exact tame_learnUnsupported b s
    all_goals exact (calm_askLearn b s).tame

theorem tame_settleFail (b : BayIx) (s : State) : Tame s (settleFail b s) :=
  (calm_modPower b _ s (by intros; rfl) (by intros; rfl) (by intros; rfl)).tame.trans (tame_forcedOff b none _)

theorem tame_settleClosed (b : BayIx) (st : DriveStatus) (s : State) : Tame s (settleClosed b st s) := by
  unfold settleClosed
  split
  · exact Tame.refl s
  all_goals exact tame_settleFail b s

theorem tame_shipClosed (b : BayIx) (r : Rec) (st : DriveStatus) (s : State) : Tame s (shipClosed b r st s) := by
  refine (calm_modShip b (fun p => { p with name := shipNameOf st }) s).tame.trans ?_
  unfold shipClosed
  exact tame_ite _ (tame_advancePlan b _) (Tame.refl _)

theorem calm_countWritten (b : BayIx) (r : Rec) (hi : Nat) (s : State) : Calm s (countWritten b r hi s) := by
  unfold countWritten
  split
  · rename_i hlt
    refine calm_modBay b _ s ?_
    exact (calm_bayZm _ (fun m h => sound_write _ _ _ m h) _).trans (calm_bayTracker _ (by intros; rfl) (by intros; rfl) _
      (fun t h => sound_join _ _ _ _ (by omega) h))
  · exact Calm.refl s

theorem tame_giveFault (b : BayIx) (l : Nat) (v : Verdict) (r : Rec) (s : State) : Tame s (giveFault b l v r s) :=
  tame_ite _ (Tame.refl s) (tame_giveOutcome b l v _ _ s)

theorem tame_closeEffects (b : BayIx) (r : Rec) (st : DriveStatus) (s : State) : Tame s (closeEffects b r st s) := by
  unfold closeEffects
  split
  · exact tame_ite _ (tame_giveFault b _ _ r s) (Tame.refl s)
  · exact (calm_countWritten b r _ s).tame
  · exact (calm_countWritten b r _ s).tame.trans (tame_giveFault b _ _ r _)
  · split
    · exact (calm_modTracker b _ s (by intros; rfl) (by intros; rfl) (fun t h => sound_cover _ _ h)).tame
    · exact Tame.refl s
  · exact Tame.refl s

theorem tame_tellOwner (b : BayIx) (tag : Tag) (r : Rec) (st : DriveStatus) (s : State) : Tame s (tellOwner b tag r st s) := by
  unfold tellOwner
  split
  · exact Tame.refl s
  · exact tame_sweepClosed b tag r s
  · exact tame_rescanClosed b r s
  · exact tame_settleClosed b st s
  · exact tame_shipClosed b r st s
  · exact tame_learnClosed b st s

theorem calm_readAtOnce (b : BayIx) (r : Rec) (s : State) : Calm s (readAtOnce b r s) := by
  unfold readAtOnce
  split
  · exact calm_issueReads b s
  · exact calm_issueChunkRead b s
  · exact Calm.refl s

theorem w_binLatency (k : CmdKind) (n : Nat) (t : Tracker) : (t.binLatency k n).w = t.w ∧ (t.binLatency k n).tw = t.tw
    ∧ (t.binLatency k n).unsettled = t.unsettled := by
  unfold Tracker.binLatency
  split <;> exact ⟨rfl, rfl, rfl⟩

theorem calm_binLatency (b : BayIx) (k : CmdKind) (n : Nat) (s : State) :
    Calm s (s.modBay b (·.modTracker (·.binLatency k n))) :=
  calm_modTracker b _ s (fun t => (w_binLatency k n t).1) (fun t => (w_binLatency k n t).2.1)
    (fun t h => by rw [(w_binLatency k n t).2.2]; exact h)

/-- The steps of a close after the owner has been told: the pulse, the tag, the completion, the idle timer (R26 steps 4 to
7). -/
theorem calm_closeTail (b : BayIx) (tag : Tag) (r : Rec) (u : UpStatus) (s : State) :
    Calm s (readAtOnce b r
      (if r.origin = .host then
        (if r.origin = .host then complete b tag u ((startPulse b s).modBay b (·.modTracker (·.setRec tag none)))
          else assignOne b ((startPulse b s).modBay b (·.modTracker (·.setRec tag none)))).modBay b (·.modTracker Tracker.startIdle)
      else if r.origin = .host then complete b tag u ((startPulse b s).modBay b (·.modTracker (·.setRec tag none)))
        else assignOne b ((startPulse b s).modBay b (·.modTracker (·.setRec tag none))))) := by
  have h1 : Calm s ((startPulse b s).modBay b (·.modTracker (·.setRec tag none))) :=
    (calm_startPulse b s).trans (calm_modTracker b _ _ (by intros; rfl) (by intros; rfl))
  refine Calm.trans (h1.trans ?_) (calm_readAtOnce b r _)
  split
  · exact (calm_complete b tag u _).trans (calm_startIdle b _)
  · exact calm_assignOne b _

/-- The close of a record (R26). -/
theorem tame_closeRec (b : BayIx) (tag : Tag) (r : Rec) (st : DriveStatus) (s : State) : Tame s (closeRec b tag r st s) :=
  (calm_binLatency b r.kind (s.rack.us - r.issue).toNat s).tame.trans
    ((tame_closeEffects b r st _).trans ((tame_tellOwner b tag r st _).trans (calm_closeTail b tag r _ _).tame))

/-! ### Timeout events and lane resets -/

theorem tame_rewind (b : BayIx) (s : State) : Tame s (rewind b s) :=
  Tame.trans (tame_ite _ (calm_rewindRescan b s).tame (Tame.refl s)) (tame_rewindSweep b _)

theorem calm_resetDown (b : BayIx) (s : State) : Calm s (s.modBay b (·.modLane Lane.resetDown)) :=
  calm_modLane b _ s (by intros; rfl)

/-- The end of a timeout event: the settle failure, and the comparison with the limit (R34 step 5, R36). -/
theorem tame_timeoutTail (b : BayIx) (settling limit : Bool) (s u : State)
    (hu : u = if settling then s.modBay b (·.modPower (fun w => { w with settleFails := inc32 w.settleFails })) else s) :
    Tame s (if limit then forcedOff b (some .timeoutLimit) u
      else if settling then forcedOff b none u else assignAll b u) := by
  have h1 : Calm s u := by
    rw [hu]
    split
    · exact calm_modPower b _ _ (by intros; rfl) (by intros; rfl) (by intros; rfl)
    · exact Calm.refl s
  exact h1.tame.trans (tame_ite _ (tame_forcedOff b _ _) (tame_ite _ (tame_forcedOff b none _) (calm_assignAll b _).tame))

/-- A timeout event (R34). -/
theorem tame_takeTimeout (b : BayIx) (s : State) : Tame s (takeTimeout b s) :=
  ((calm_resetDown b s).trans (calm_discardAll b (some .timeout) false _)).tame.trans ((tame_ite _ (Tame.refl _) (tame_rewind b _)).trans
    ((calm_modTracker b (fun t => { t with timeouts := inc32 t.timeouts }) _ (by intros; rfl) (by intros; rfl)).tame.trans
      (tame_timeoutTail b (decide ((s.bay b).power.state = .settling)) (s.reachesLimit b) _ _ rfl)))

theorem calm_relearn (b : BayIx) (s : State) : Calm s (relearn b s) := calm_ite _ (calm_askLearn b s) (Calm.refl s)

/-- A lane reset (R19, R20). -/
theorem tame_laneReset (b : BayIx) (s : State) : Tame s (laneReset b s) := by
  have h1 : ∀ on : Bool, Calm s (if on then s.modBay b (·.modLane Lane.resetDown) else s) := fun on =>
    calm_ite _ (calm_resetDown b s) (Calm.refl s)
  exact (h1 (decide ((s.bay b).power.state = .on))).tame.trans ((calm_discardAll b none _ _).tame.trans
    ((calm_modLane b (fun l => { l with held := [], annexSvc := [] }) _ (by intros; rfl)).tame.trans ((tame_rewind b _).trans
      (Calm.tame ((calm_modLane b (fun l => { l with linkResets := inc32 l.linkResets }) _ (by intros; rfl)).trans
        ((calm_relearn b _).trans (calm_assignAll b _)))))))

end Sys2Proof.Machine
end

