-- ==== Sys2Proof/Laws/Kept.lean ====
section
/-! SUPPORT. Every command keeps the invariants of the bays and of the rack, each invariant by itself (`Kept`): the ordinary commands
through `Tame`, and the reset, the wipes, the removal and the directives by their own lemmas. -/

namespace Sys2Proof.Machine

/-- Each invariant is kept by itself. -/
structure Kept (s t : State) : Prop where
  zones : EveryBay (fun x => x.zm.sound) s → EveryBay (fun x => x.zm.sound) t
  ranges : EveryBay Bay.rangesSound s → EveryBay Bay.rangesSound t
  capacity : EveryBay Bay.capacitySound s → EveryBay Bay.capacitySound t
  mailbox : EveryBay Bay.mailboxSound s → EveryBay Bay.mailboxSound t
  unsettled : EveryBay Bay.unsettledSound s → EveryBay Bay.unsettledSound t
  plan : s.planSound → t.planSound
  budget : s.budgetSound → t.budgetSound
  queue : s.queueSound → t.queueSound

theorem Kept.refl (s : State) : Kept s s := ⟨id, id, id, id, id, id, id, id⟩

theorem Kept.trans {s t u : State} (h : Kept s t) (k : Kept t u) : Kept s u :=
  ⟨k.zones ∘ h.zones, k.ranges ∘ h.ranges, k.capacity ∘ h.capacity, k.mailbox ∘ h.mailbox, k.unsettled ∘ h.unsettled,
   k.plan ∘ h.plan, k.budget ∘ h.budget, k.queue ∘ h.queue⟩

theorem Tame.kept {s t : State} (h : Tame s t) : Kept s t where
  zones := fun hs b => (h.bay b).zones (hs b)
  ranges := fun hs b => by
    have k := h.bay b
    obtain ⟨h1, h2, h3, h4, h5, h6, h7⟩ := hs b
    exact ⟨by rw [k.settings]; exact h1, by rw [k.settings]; exact h2, by rw [k.w]; exact h3, by rw [k.w]; exact h4,
      by rw [k.tw]; exact h5, by rw [k.tw]; exact h6, k.pass h7⟩
  capacity := fun hs b => (h.bay b).capacity (hs b)
  mailbox := fun hs b => by
    have k := h.bay b
    have := hs b
    unfold Bay.mailboxSound at *
    rw [k.mailbox, k.wipe]
    exact this
  unsettled := fun hs b => (h.bay b).unsettled (hs b)
  plan := fun ⟨hu, hb⟩ => ⟨h.useCounts hu, fun b => by
    have k := h.bay b
    exact ⟨fun e => k.present ((hb b).1 (by rw [← k.session]; exact e)), fun e => k.present ((hb b).2 (k.plan e))⟩⟩
  budget := h.arb.budget
  queue := h.arb.queue

theorem Calm.kept {s t : State} (h : Calm s t) : Kept s t := h.tame.kept

theorem kept_foldl {β : Type} (f : State → β → State) (h : ∀ s x, Kept s (f s x)) (l : List β) (s : State) :
    Kept s (l.foldl f s) := by
  induction l generalizing s with
  | nil => exact Kept.refl s
  | cons x t ih => exact (h s x).trans (ih _)

/-- What a change of one bay keeps of it, by itself, when its plan, session and power state stay. -/
structure BayKept (x y : Bay) : Prop where
  zones : x.zm.sound → y.zm.sound
  ranges : x.rangesSound → y.rangesSound
  capacity : x.capacitySound → y.capacitySound
  mailbox : x.mailboxSound → y.mailboxSound
  unsettled : x.unsettledSound → y.unsettledSound
  planState : y.plan.state = x.plan.state
  reach : y.plan.reach = x.plan.reach
  session : y.power.session = x.power.session
  state : y.power.state = x.power.state

theorem BayKept.refl (x : Bay) : BayKept x x := ⟨id, id, id, id, id, rfl, rfl, rfl, rfl⟩

/-- The use counts depend on the RUNNING plans alone. -/
theorem uses_congr {s t : State} (hu : t.rack.useCounts = s.rack.useCounts)
    (h : ∀ b, (t.bay b).running = (s.bay b).running ∧ ((s.bay b).running = true → (t.bay b).plan.reach = (s.bay b).plan.reach))
    (hs : s.useCountsSound) : t.useCountsSound := by
  intro k
  rw [hu, hs k]
  unfold State.planUsers
  congr 1
  apply List.filter_congr
  intro b _
  obtain ⟨h1, h2⟩ := h b
  rw [h1]
  cases e : (s.bay b).running
  · rfl
  · rw [h2 e]

/-- Bays and rack change so that every bay keeps its own invariants. -/
theorem kept_of_bays {s t : State} (h : ∀ b, BayKept (s.bay b) (t.bay b)) (hu : t.rack.useCounts = s.rack.useCounts)
    (ha : ArbKeeps s t) : Kept s t where
  zones := fun hs b => (h b).zones (hs b)
  ranges := fun hs b => (h b).ranges (hs b)
  capacity := fun hs b => (h b).capacity (hs b)
  mailbox := fun hs b => (h b).mailbox (hs b)
  unsettled := fun hs b => (h b).unsettled (hs b)
  plan := fun ⟨hc, hb⟩ => ⟨uses_congr hu (fun b => ⟨by unfold Bay.running; rw [(h b).planState], fun _ => (h b).reach⟩) hc,
    fun b => ⟨fun e => by rw [(h b).state]; exact (hb b).1 ((h b).session ▸ e),
      fun e => by rw [(h b).state]; exact (hb b).2 ((h b).planState ▸ e)⟩⟩
  budget := ha.budget
  queue := ha.queue

theorem kept_modBay (b : BayIx) (f : Bay → Bay) (s : State) (h : BayKept (s.bay b) (f (s.bay b))) : Kept s (s.modBay b f) :=
  kept_of_bays (fun c => by
    by_cases e : c = b
    · subst e; simpa using h
    · simpa [e] using BayKept.refl _) rfl (arb_congr (state_modBay b f s h.state) (RackKeeps.refl _) rfl)

/-! ### Arrivals and frames -/

theorem calm_checkTag (b : BayIx) (tag : Tag) (k : State → State) (s : State) (h : Calm s (k s)) : Calm s (checkTag b tag k s) := by
  unfold checkTag
  split
  · exact calm_complete b tag _ s
  · exact h

theorem calm_hold (b : BayIx) (tag : Tag) (kind : CmdKind) (lba count : Nat) (s : State) : Calm s (hold b tag kind lba count s) :=
  calm_modLane b _ s (by intros; rfl)

theorem calm_toDrive (b : BayIx) (tag : Tag) (kind : CmdKind) (lba count : Nat) (s : State) :
    Calm s (toDrive b tag kind lba count s) := by
  unfold toDrive
  split
  · exact calm_openHost b _ _ _ _ _ s
  all_goals first
    | exact calm_complete b _ _ s
    | exact calm_ite _ (calm_hold b _ _ _ _ s) (calm_complete b _ _ s)

theorem calm_latchReport (b : BayIx) (s : State) : Calm s (latchReport b s) := calm_modAnnex b _ s (by intros; rfl) (by intros; rfl)

theorem calm_beginAnnex (b : BayIx) (c : AnnexCmd) (s : State) : Calm s (beginAnnex b c s) := calm_modLane b _ s (by intros; rfl)

theorem calm_annexTaken (b : BayIx) (c : AnnexCmd) (k : Nat) (s : State) : Calm s (annexTaken b c k s) :=
  calm_ite _ (calm_modLane b _ s (by intros; rfl)) ((calm_modLane b _ s (by intros; rfl)).trans (calm_complete b _ _ _))

/-- The next sector of an annex READ (R163). -/
theorem calm_serveSector (b : BayIx) (c : AnnexCmd) (s : State) : Calm s (serveSector b c s) :=
  Calm.trans (calm_ite _ (calm_latchReport b s) (Calm.refl s)) ((calm_sendUp b _ _).trans (calm_annexTaken b _ _ _))

theorem calm_beginAnnexRead (b : BayIx) (tag : Tag) (off count : Nat) (s : State) : Calm s (beginAnnexRead b tag off count s) :=
  (calm_beginAnnex b _ s).trans (calm_serveSector b _ _)

theorem calm_placeRead (b : BayIx) (tag : Tag) (lba count : Nat) (s : State) : Calm s (placeRead b tag lba count s) := by
  unfold placeRead
  split
  · exact calm_toDrive b _ _ _ _ s
  · exact calm_beginAnnexRead b _ _ _ s
  · exact calm_complete b _ _ s

theorem calm_beginAnnexWrite (b : BayIx) (tag : Tag) (off count : Nat) (s : State) : Calm s (beginAnnexWrite b tag off count s) :=
  (calm_beginAnnex b _ s).trans (calm_sendUp b _ _)

theorem calm_placeWrite (b : BayIx) (tag : Tag) (lba count : Nat) (s : State) : Calm s (placeWrite b tag lba count s) := by
  unfold placeWrite
  split
  · exact calm_toDrive b _ _ _ _ s
  · exact calm_beginAnnexWrite b _ _ _ s
  · exact calm_complete b _ _ s

theorem calm_answerCapacity (b : BayIx) (tag : Tag) (s : State) : Calm s (answerCapacity b tag s) :=
  calm_ite _ (calm_openHost b _ _ _ _ _ s) (calm_complete b _ _ s)

theorem calm_passOther (b : BayIx) (tag : Tag) (body : List Byte) (s : State) : Calm s (passOther b tag body s) :=
  calm_ite _ (calm_openHost b _ _ _ _ _ s) (calm_complete b _ _ s)

theorem calm_sendPayload (b : BayIx) (tag : Tag) (r : Rec) (xs : List Sector) (s : State) : Calm s (sendPayload b tag r xs s) :=
  calm_ite _ (Calm.refl s) ((calm_modTracker b _ s (by intros; rfl) (by intros; rfl)).trans (calm_sendDown b _ _))

theorem calm_takeWriteData (b : BayIx) (tag : Tag) (r : Rec) (payload : List Sector) (s : State) :
    Calm s (takeWriteData b tag r payload s) := by
  unfold takeWriteData
  split
  · exact calm_sendPayload b _ _ _ s
  · exact calm_sendDown b _ s
  · exact Calm.refl s

theorem calm_takeDataRequest (b : BayIx) (tag : Tag) (r : Rec) (n : Nat) (s : State) : Calm s (takeDataRequest b tag r n s) := by
  unfold takeDataRequest
  split
  · exact calm_sendUp b _ s
  · exact calm_sendPayload b _ _ _ s
  · exact Calm.refl s

theorem tame_deliverOne (b : BayIx) (tag : Tag) (s : State) (x : Sector) : Tame s (deliverOne b tag s x) := by
  unfold deliverOne
  split
  · exact Tame.refl s
  · rename_i r _
    have h1 : Calm s (s.modBay b (·.modTracker (·.setRec tag (some { r with delivered := r.delivered + 1 })))) :=
      calm_modTracker b _ s (by intros; rfl) (by intros; rfl)
    exact tame_ite _ (tame_ite _ (h1.tame.trans (tame_giveOutcome b _ _ _ _ _)) h1.tame) (Tame.refl s)

theorem tame_foldl {β : Type} (f : State → β → State) (h : ∀ s x, Tame s (f s x)) (l : List β) (s : State) :
    Tame s (l.foldl f s) := by
  induction l generalizing s with
  | nil => exact Tame.refl s
  | cons x t ih => exact (h s x).trans (ih _)

theorem calm_relayUp (b : BayIx) (tag : Tag) (xs : List Sector) (s : State) : Calm s (relayUp b tag xs s) :=
  calm_ite _ (Calm.refl s) (calm_sendUp b _ s)

theorem tame_takeReadData (b : BayIx) (tag : Tag) (r : Rec) (payload : List Sector) (s : State) :
    Tame s (takeReadData b tag r payload s) :=
  Tame.trans (calm_ite _ (calm_relayUp b tag _ s) (Calm.refl s)).tame (tame_foldl _ (tame_deliverOne b tag) _ _)

theorem calm_unretire (b : BayIx) (tag : Tag) (s : State) : Calm s (unretire b tag s) :=
  calm_ite _ ((calm_modLane b _ s (by intros; rfl)).trans (calm_assignAll b _)) (Calm.refl s)

/-! ### The part's own steps and expiries -/

theorem tame_settleOff (b : BayIx) (s : State) (h : (s.bay b).power.state = .settling) : Tame s (settleOff b s) := by
  have hq := quiet_cutSupply b s
  have h2 := calm_become b .off (cutSupply b s) (by rw [hq.2 b, h]; simp) (by simp) (by simp) (fun _ => Nat.zero_le _)
  exact (((calm_cutSupply b s).trans h2).trans (calm_grantTest _)).tame.trans (tame_planToldOff b _)

theorem tame_expire (t : Option Nat) (f : State → State) (s : State) (h : ∀ k, Tame (advanceMs k s) (f (advanceMs k s))) :
    Tame s (expire t f s) := by
  unfold expire
  split
  · exact (calm_advanceMs _ s).tame.trans (h _)
  · exact Tame.refl s

theorem calm_dropHeld (b : BayIx) (s : State) : Calm s (dropHeld b s) := by
  unfold dropHeld
  split
  · exact Calm.refl s
  · exact (calm_modLane b _ s (by intros; rfl)).trans (calm_complete b _ _ _)

theorem calm_idleExpires (b : BayIx) (s : State) : Calm s (idleExpires b s) :=
  calm_modBay b _ s ((calm_baySweep _ (by intro _ h; exact h) _).trans (calm_bayTracker _ (by intros; rfl) (by intros; rfl) _))

theorem tame_dwellExpires (b : BayIx) (s : State) : Tame s (dwellExpires b s) :=
  tame_ite _ ((calm_setStep b _ _ s).trans (calm_modSweep b _ _ (by intro _ h; exact h))).tame (tame_advancePlan b s)

theorem calm_offTimeExpires (b : BayIx) (s : State) : Calm s (offTimeExpires b s) := (calm_setStep b _ _ s).trans (calm_askOn b _)

theorem pass_intervalExpires (w : Sweep) : w.intervalExpires.passCounter = w.passCounter := by
  unfold Sweep.intervalExpires
  split
  · rfl
  · split <;> rfl

theorem tame_limitExpires (b : BayIx) (s : State) : Tame s (limitExpires b s) :=
  tame_ite _ (tame_expireLimit b s) (calm_modSweep b Sweep.limitSuspended s (by intro _ h; exact h)).tame

/-! ### Links and presence -/

theorem tame_riseUp (b : BayIx) (s : State) : Tame s (riseUp b s) :=
  (calm_modLane b (fun l => { l with upUp := true, upRisen := true }) s (by intros; rfl)).tame.trans
    (tame_ite _ (Tame.refl _) (tame_laneReset b _))

theorem calm_learnOnRise (b : BayIx) (s : State) : Calm s (learnOnRise b s) := calm_ite _ (calm_askLearn b s) (Calm.refl s)

theorem calm_shipOnRise (b : BayIx) (s : State) : Calm s (shipOnRise b s) :=
  calm_ite _ ((calm_modShip b _ s).trans (calm_requestTag b _ _)) (Calm.refl s)

theorem calm_riseDown (b : BayIx) (s : State) : Calm s (riseDown b s) :=
  (calm_modBay b _ s ((calm_bayLane Lane.rise (by intros; rfl) _).trans (calm_baySweep Sweep.linkUp (by intro _ h; exact h) _))).trans
    ((calm_learnOnRise b _).trans (calm_shipOnRise b _))

/-! ### Reset, wipes, insertion and removal -/

theorem kept_partReset (s t : State) (h : ∀ b, t.bay b = (s.bay b).resetKeeping) (hr : t.rack = Rack.init) : Kept s t := by
  have hz : ∀ b, (t.bay b).power = Power.init ∧ (t.bay b).plan = Plan.init := fun b => by rw [h b]; exact ⟨rfl, rfl⟩
  have ht : t.tally = 0 := by
    rw [tally_eq]
    have : ∀ b, t.charge b = 0 := fun b => by unfold State.charge; rw [(hz b).1]; rfl
    simp only [this]
  refine ⟨fun _ b => by rw [h b]; exact sound_init, fun _ b => ?_, fun _ b => by rw [h b]; rfl, fun _ b => ?_,
    fun _ b => by rw [h b]; exact sound_noRanges, fun _ => ⟨fun k => ?_, fun b => ?_⟩, fun _ => ⟨?_, ?_⟩, fun _ => ⟨?_, fun b => ?_⟩⟩
  · rw [h b]; exact ⟨Nat.zero_le _, Nat.zero_le _, (by decide : 1 ≤ 50), (by decide : 50 ≤ 10000), (by decide : 1000 ≤ 10000),
      (by decide : 10000 ≤ 60000), Nat.zero_le _⟩
  · rw [h b]; exact ⟨fun _ => rfl, fun _ => rfl⟩
  · have : t.planUsers k = [] := by
      unfold State.planUsers
      rw [List.filter_eq_nil_iff]
      intro b _
      unfold Bay.running
      rw [(hz b).2]
      simp [Plan.init]
    rw [this, hr]
    simp [Rack.init]
  · unfold Bay.sessionSound
    rw [(hz b).1, (hz b).2]
    simp [Power.init, Plan.init]
  · rw [hr]; unfold Rack.configSound; decide
  · rw [ht]; exact Nat.zero_le _
  · rw [hr]; exact List.nodup_nil
  · rw [hr, (hz b).1]; simp [Rack.init, Power.init]

/-- A wipe's next zone, or its end (R80, R85, R165). -/
theorem kept_wipeStep (b : BayIx) (n : Nat) (s : State) (h : (s.bay b).annex.wipe = some n) : Kept s (s.modBay b (·.wipeStep n)) := by
  refine kept_modBay b _ s ?_
  unfold Bay.wipeStep
  dsimp only
  split
  · exact { BayKept.refl (s.bay b) with
      zones := fun hz => sound_resetZone n _ hz
      mailbox := fun hm => by
        unfold Bay.mailboxSound at *
        simp only [annex_modAnnex, annex_modZm]
        rw [hm, h]
        simp }
  · have hz : (s.bay b).zm.sound → ((s.bay b).zm.resetZone n).sound := fun hz => sound_resetZone n _ hz
    exact { BayKept.refl (s.bay b) with
      zones := hz
      ranges := fun ⟨h1, h2, h3, h4, h5, h6, _⟩ => ⟨h1, h2, h3, h4, h5, h6, Nat.zero_le _⟩
      mailbox := fun _ => by unfold Bay.mailboxSound Bay.wipeDone; simp }

/-- A bay whose plan is not RUNNING begins a session wipe, with a mailbox that is not IDLE, and takes a session and a power state
that suit (R148, R160). -/
theorem kept_wipeBegins (b : BayIx) (f : Bay → Bay) (s : State)
    (hz : (f (s.bay b)).zm = (s.bay b).zm.beginWipe) (hs : (f (s.bay b)).settings = (s.bay b).settings)
    (hw : (f (s.bay b)).tracker.w = (s.bay b).tracker.w ∧ (f (s.bay b)).tracker.tw = (s.bay b).tracker.tw)
    (hp : (f (s.bay b)).sweep.passCounter = (s.bay b).sweep.passCounter)
    (hc : (f (s.bay b)).power.cap = none ∧ (f (s.bay b)).lane.rc = 0)
    (hm : (f (s.bay b)).annex.wipe ≠ none) (hi : (f (s.bay b)).annex.mailbox ≠ .idle)
    (hu : (s.bay b).unsettledSound → (f (s.bay b)).unsettledSound)
    (hr : (s.bay b).plan.state = .running → (s.bay b).power.state = .empty)
    (hn : (f (s.bay b)).plan.state ≠ .running)
    (hk : (s.bay b).sessionSound → (f (s.bay b)).power.session = .active → (f (s.bay b)).power.state ≠ .empty)
    (ha : ArbKeeps s (s.modBay b f)) : Kept s (s.modBay b f) := by
  have key : ∀ (P : Bay → Prop), (P (s.bay b) → P (f (s.bay b))) → EveryBay P s → EveryBay P (s.modBay b f) := by
    intro P hP h c
    by_cases e : c = b
    · subst e; simpa using hP (h c)
    · simpa [e] using h c
  refine ⟨key _ ?_, key _ ?_, key _ ?_, key _ ?_, key _ hu, fun ⟨hcount, hsess⟩ => ⟨?_, key _ ?_ hsess⟩, ha.budget, ha.queue⟩
  · intro h; rw [hz]; exact sound_beginWipe _ h
  · intro ⟨h1, h2, h3, h4, h5, h6, h7⟩
    exact ⟨by rw [hs]; exact h1, by rw [hs]; exact h2, by rw [hw.1]; exact h3, by rw [hw.1]; exact h4, by rw [hw.2]; exact h5,
      by rw [hw.2]; exact h6, by rw [hp]; exact h7⟩
  · intro _; unfold Bay.capacitySound; rw [hc.1]; exact hc.2
  · intro _; exact ⟨fun e => absurd e hi, fun e => absurd e hm⟩
  · have hnr : (s.bay b).plan.state ≠ .running := fun e => (hsess b).2 e (hr e)
    refine uses_congr (s := s) rfl (fun c => ?_) hcount
    by_cases e : c = b
    · subst e
      have h1 : (s.bay c).running = false := decide_eq_false hnr
      have h2 : (f (s.bay c)).running = false := decide_eq_false hn
      rw [bay_modBay_same, h1, h2]
      simp
    · simp [e]
  · intro h; exact ⟨hk h, fun e => absurd e hn⟩

/-- A drive is recognized in an EMPTY bay (R148). -/
theorem kept_recognize (b : BayIx) (s : State) (h : (s.bay b).power.state = .empty) : Kept s (recognize b s) := by
  unfold recognize
  refine Kept.trans ?_ ((calm_raiseNotice b .inserted _).trans (calm_refreshLamp b _)).kept
  refine kept_wipeBegins b _ s rfl rfl ⟨rfl, rfl⟩ rfl ⟨rfl, rfl⟩ ?_ ?_ (fun _ => sound_noRanges) (fun _ => h) (by simp [Bay.beginWipe, Plan.init])
    (fun _ _ => by simp) ?_
  · simp only [annex_modPower, annex_modAnnex, Annex.insertionWipe]
    split <;> simp [Annex.completeClear, Bay.beginWipe]
  · simp [Annex.insertionWipe]
  · exact arb_become b (fun c e => by simp [e]) (RackKeeps.refl _) rfl (by rw [h]; simp) (by simp) (fun _ => by simp [chargeOf])

theorem kept_debounced (b : BayIx) (s : State) : Kept s (debounced b s) := by
  have h1 : Calm s (s.modBay b (·.modLines (fun l => { l with debounce := none }))) := calm_modLines b _ s
  refine h1.kept.trans ?_
  unfold debounced
  dsimp only
  split
  · rename_i h; exact kept_recognize b _ h.2
  · exact Kept.refl _

/-- CLEAR-SESSION carried out, with the mailbox it leaves (R160, R165). -/
theorem kept_beginClear (b : BayIx) (s : State) (g : Annex → Annex) (hg : ∀ a, (g a).mailbox ≠ .idle) (hw : ∀ a, (g a).wipe = a.wipe)
    (h : (s.bay b).refusesClear = false) : Kept s ((beginClear b s).modBay b (·.modAnnex g)) := by
  have hr : (s.bay b).plan.state ≠ .running ∧ (s.bay b).power.state ≠ .queued ∧ (s.bay b).power.state ≠ .spinningUp
      ∧ (s.bay b).power.state ≠ .settling := by
    unfold Bay.refusesClear Bay.running at h
    simp at h
    exact ⟨h.1, h.2⟩
  let f : Bay → Bay := fun x => (((x.beginWipe false).modPower Power.clearSession).chooseLamp s.rack).modAnnex g
  have e : (beginClear b s).modBay b (·.modAnnex g) = s.modBay b f := by
    simp [beginClear, refreshLamp, State.modBay, State.setBay, State.bay, f]
  have hl : ∀ y : Bay, (y.chooseLamp s.rack).zm = y.zm ∧ (y.chooseLamp s.rack).settings = y.settings
      ∧ (y.chooseLamp s.rack).tracker = y.tracker ∧ (y.chooseLamp s.rack).sweep = y.sweep ∧ (y.chooseLamp s.rack).lane = y.lane
      ∧ (y.chooseLamp s.rack).annex = y.annex ∧ (y.chooseLamp s.rack).plan = y.plan := fun y => by
    unfold Bay.chooseLamp
    split <;> exact ⟨rfl, rfl, rfl, rfl, rfl, rfl, rfl⟩
  generalize hy : ((s.bay b).beginWipe false).modPower Power.clearSession = y
  obtain ⟨l1, l2, l3, l4, l5, l6, l7⟩ := hl y
  have hf : f (s.bay b) = (y.chooseLamp s.rack).modAnnex g := by rw [← hy]
  have hps : (f (s.bay b)).power.state = if (s.bay b).power.state = .on then .settling else (s.bay b).power.state := by
    rw [hf, power_modAnnex, power_chooseLamp, ← hy]; rfl
  have hpe : (f (s.bay b)).power.session = if (s.bay b).power.state = .empty then .none else (s.bay b).power.session := by
    rw [hf, power_modAnnex, power_chooseLamp, ← hy]; rfl
  rw [e]
  refine kept_wipeBegins b f s ?_ ?_ ?_ ?_ ?_ ?_ ?_ ?_ (fun h => absurd h hr.1) ?_ ?_ ?_
  · rw [hf, zm_modAnnex, l1, ← hy]; rfl
  · rw [hf, settings_modAnnex, l2, ← hy]; rfl
  · rw [hf, tracker_modAnnex, l3, ← hy]; exact ⟨rfl, rfl⟩
  · rw [hf, sweep_modAnnex, l4, ← hy]; rfl
  · rw [hf, power_modAnnex, power_chooseLamp, lane_modAnnex, l5, ← hy]; exact ⟨rfl, rfl⟩
  · rw [hf, annex_modAnnex, hw, l6, ← hy]; simp [Bay.beginWipe]
  · rw [hf, annex_modAnnex]; exact hg _
  · intro h; unfold Bay.unsettledSound; rw [hf, tracker_modAnnex, l3, ← hy]; exact h
  · rw [hf, plan_modAnnex, l7, ← hy]; simp [Bay.beginWipe, Plan.init]
  · intro h ha
    rw [hpe] at ha
    rw [hps]
    by_cases he : (s.bay b).power.state = .empty
    · simp [he] at ha
    · split <;> simp_all
  · refine arb_become b (fun c e => by simp [e]) (RackKeeps.refl _) rfl hr.2.1 ?_ (fun _ => ?_)
    · rw [bay_modBay_same, hps]; split <;> simp_all
    · rw [bay_modBay_same, hps]; split <;> simp_all [chargeOf]

/-- What a change of one bay keeps of it when its session and power state may change and its plan stays. -/
structure BayMost (x y : Bay) : Prop where
  zones : x.zm.sound → y.zm.sound
  ranges : x.rangesSound → y.rangesSound
  capacity : x.capacitySound → y.capacitySound
  mailbox : x.mailboxSound → y.mailboxSound
  unsettled : x.unsettledSound → y.unsettledSound
  planState : y.plan.state = x.plan.state
  reach : y.plan.reach = x.plan.reach

theorem BayMost.refl (x : Bay) : BayMost x x := ⟨id, id, id, id, id, rfl, rfl⟩

theorem BayMost.trans {x y z : Bay} (h : BayMost x y) (k : BayMost y z) : BayMost x z :=
  ⟨k.zones ∘ h.zones, k.ranges ∘ h.ranges, k.capacity ∘ h.capacity, k.mailbox ∘ h.mailbox, k.unsettled ∘ h.unsettled,
   k.planState.trans h.planState, k.reach.trans h.reach⟩

theorem BayCalm.most {x y : Bay} (h : BayCalm x y) : BayMost x y where
  zones := h.zones
  ranges := fun ⟨h1, h2, h3, h4, h5, h6, h7⟩ => ⟨by rw [h.settings]; exact h1, by rw [h.settings]; exact h2, by rw [h.w]; exact h3,
    by rw [h.w]; exact h4, by rw [h.tw]; exact h5, by rw [h.tw]; exact h6, h.pass h7⟩
  capacity := h.capacity
  mailbox := fun hm => by unfold Bay.mailboxSound at *; rw [h.mailbox, h.wipe]; exact hm
  unsettled := h.unsettled
  planState := h.planState
  reach := h.reach

/-- Bay `b` may change its session and power state; the other bays are calm. -/
structure MostAt (b : BayIx) (s t : State) : Prop where
  here : BayMost (s.bay b) (t.bay b)
  other : ∀ c, c ≠ b → BayCalm (s.bay c) (t.bay c)
  useCounts : t.rack.useCounts = s.rack.useCounts
  arb : ArbKeeps s t

theorem MostAt.trans {b : BayIx} {s t u : State} (h : MostAt b s t) (k : MostAt b t u) : MostAt b s u :=
  ⟨h.here.trans k.here, fun c e => (h.other c e).trans (k.other c e), k.useCounts.trans h.useCounts, h.arb.trans k.arb⟩

theorem Calm.mostAt {s t : State} (b : BayIx) (h : Calm s t) : MostAt b s t := ⟨(h.bay b).most, fun c _ => h.bay c, h.useCounts, h.arb⟩

theorem MostAt.bay {b : BayIx} {s t : State} (h : MostAt b s t) (c : BayIx) : BayMost (s.bay c) (t.bay c) := by
  by_cases e : c = b
  · subst e; exact h.here
  · exact (h.other c e).most

theorem MostAt.counts {b : BayIx} {s t : State} (h : MostAt b s t) : s.useCountsSound → t.useCountsSound :=
  uses_congr h.useCounts (fun c => ⟨by unfold Bay.running; rw [(h.bay c).planState], fun _ => (h.bay c).reach⟩)

/-- A plan that ends is ENDED. -/
theorem state_planEnd (b : BayIx) (o : PlanOutcome) (f : Option FaultCause) (e : Option SlotIx) (disp : Choice) (s : State) :
    ((planEnd b o f e disp s).bay b).plan.state = .ended := by
  have h := calm_planTail b o disp (((stopPhase b s).modRack (Rack.release ((stopPhase b s).bay b).plan.reach)).modBay b
    (·.modPlan (Plan.finish o f e ((stopPhase b s).modRack (Rack.release ((stopPhase b s).bay b).plan.reach)).rack.ms)))
  have h2 := (h.bay b).planState
  rw [bay_modBay_same] at h2
  exact h2

/-- The cut of a removal: the bay is EMPTY and out of the queue, whatever its power state was (R149, R157). -/
theorem most_cutEmpty (b : BayIx) (u : State) : MostAt b u (setPower b .empty ((leaveQueue b u).modBay b Bay.loseUnsettled)) := by
  refine ⟨?_, fun c e => ?_, rfl, arb_quit b .empty _ u (.inr rfl)⟩
  · have : (setPower b .empty ((leaveQueue b u).modBay b Bay.loseUnsettled)).bay b
        = (u.bay b).loseUnsettled.modPower (fun w => { w with state := .empty }) := by simp [setPower, leaveQueue]
    rw [this]
    exact (calm_loseUnsettled _).most.trans { BayMost.refl _ with }
  · have : (setPower b .empty ((leaveQueue b u).modBay b Bay.loseUnsettled)).bay c = u.bay c := by simp [setPower, leaveQueue, e]
    rw [this]
    exact BayCalm.refl _

theorem most_abandon (b : BayIx) (u : State) : MostAt b u (u.modBay b (·.modPower Power.abandon)) := by
  refine ⟨?_, fun c e => ?_, rfl, arb_congr (state_modBay b _ u rfl) (RackKeeps.refl _) rfl⟩
  · rw [bay_modBay_same]; exact { BayMost.refl _ with }
  · rw [bay_modBay_other _ _ _ _ e]; exact BayCalm.refl _

theorem calm_noteForcedRemoval (b : BayIx) (s : State) : Calm s (s.modBay b Bay.noteForcedRemoval) := by
  have hb : BayCalm (s.bay b) (s.bay b).noteForcedRemoval := by
    unfold Bay.noteForcedRemoval
    split
    · exact calm_bayPower _ (by intros; rfl) (by intros; rfl) (by intros; rfl) _
    · exact BayCalm.refl _
  refine calm_modBay b _ s hb ?_
  unfold Bay.noteForcedRemoval
  split <;> rfl

/-- The part of a removal before its plan end. -/
theorem most_removed (b : BayIx) (s : State) :
    MostAt b s ((grantTest (cutPower b .empty (s.modBay b Bay.noteForcedRemoval))).modBay b (·.modPower Power.abandon)) :=
  ((calm_noteForcedRemoval b s).mostAt b).trans (((calm_cutBefore b _).mostAt b).trans ((most_cutEmpty b _).trans
    (((calm_grantTest _).mostAt b).trans (most_abandon b _))))

/-- An abandoned bay's RUNNING plan ends. -/
theorem kept_afterAbandon (b : BayIx) (s v : State) (h : MostAt b s v) (hs : (v.bay b).power.session = .abandoned) :
    Kept s (if (v.bay b).running then planEnd b .removed none (v.bay b).plan.cursor .keep v else v) := by
  generalize ht : (if (v.bay b).running then planEnd b .removed none (v.bay b).plan.cursor .keep v else v) = t
  have k : Tame v t := by
    rw [← ht]
    split
    · rename_i hr; exact tame_planEnd b _ _ _ _ v hr
    · exact Tame.refl v
  have hp : (t.bay b).plan.state ≠ .running := by
    rw [← ht]
    split
    · rw [state_planEnd]; simp
    · rename_i hr; unfold Bay.running at hr; simpa using hr
  have kk := k.kept
  refine ⟨fun hz => kk.zones (fun c => (h.bay c).zones (hz c)), fun hz => kk.ranges (fun c => (h.bay c).ranges (hz c)),
    fun hz => kk.capacity (fun c => (h.bay c).capacity (hz c)), fun hz => kk.mailbox (fun c => (h.bay c).mailbox (hz c)),
    fun hz => kk.unsettled (fun c => (h.bay c).unsettled (hz c)), fun ⟨hu, hb⟩ => ⟨k.useCounts (h.counts hu), fun c => ?_⟩,
    kk.budget ∘ h.arb.budget, kk.queue ∘ h.arb.queue⟩
  by_cases e : c = b
  · subst e
    exact ⟨fun ha => by rw [(k.bay c).session, hs] at ha; simp at ha, fun hr => absurd hr hp⟩
  · have q := h.other c e
    have r := k.bay c
    exact ⟨fun ha => r.present (q.present ((hb c).1 (by rw [← q.session, ← r.session]; exact ha))),
      fun hr => r.present (q.present ((hb c).2 (by rw [← q.planState]; exact r.plan hr)))⟩

/-- A removal (R149). -/
theorem kept_removal (b : BayIx) (s : State) : Kept s (removal b s) := by
  have h := most_removed b s
  have hs : (((grantTest (cutPower b .empty (s.modBay b Bay.noteForcedRemoval))).modBay b (·.modPower Power.abandon)).bay b).power.session
      = .abandoned := by rw [bay_modBay_same]; rfl
  unfold removal
  exact (kept_afterAbandon b s _ h hs).trans ((calm_raiseNotice b .removed _).trans (calm_refreshLamp b _)).kept

/-! ### Directives -/

theorem kept_modAnnex (b : BayIx) (g : Annex → Annex) (s : State) (h : ∀ a, (g a).mailbox = a.mailbox) (hw : ∀ a, (g a).wipe = a.wipe) :
    Kept s (s.modBay b (·.modAnnex g)) := (calm_modAnnex b g s h hw).kept

theorem kept_setBay (b : BayIx) (f : SetBayArg) (o c : Bool) (s : State) (oldTw : Nat) :
    Kept s (watchLowered b oldTw (s.modBay b (·.storeSettings f o c))) := by
  have h1 : Kept s (s.modBay b (·.storeSettings f o c)) := kept_modBay b _ s { BayKept.refl (s.bay b) with
    ranges := fun ⟨_, _, _, _, _, _, h7⟩ => by
      refine ⟨?_, ?_, ?_, ?_, ?_, ?_, h7⟩
      · exact Nat.le_of_lt_succ f.tolerance.isLt
      · exact Nat.min_le_left _ _
      all_goals (simp only [Bay.storeSettings, clampTo]; omega) }
  refine h1.trans ?_
  unfold watchLowered
  split
  · exact (tame_takeTimeout b _).kept
  · exact Kept.refl _

theorem calm_expireHeld (s : State) (b : BayIx) : Calm s (expireHeld s b) :=
  (calm_modLane b _ s (by intros; rfl)).trans
    (calm_foldl (fun s (h : Held) => complete b h.tag .notReady s) (fun s h => calm_complete b h.tag .notReady s) _ _)

/-- With an empty tally the configuration changes (R159). -/
theorem kept_configure (f : SetRackArg) (bin : Fin 16) (s : State) (h : s.tally = 0) : Kept s (s.modRack (Rack.configure f bin)) := by
  refine ⟨id, id, id, id, id, fun ⟨hu, hb⟩ => ⟨uses_congr rfl (fun _ => ⟨rfl, fun _ => rfl⟩) hu, hb⟩, fun ⟨hc, _⟩ => ⟨?_, ?_⟩, id⟩
  · unfold Rack.configSound
    simp only [rack_modRack, Rack.configure, clampTo]
    omega
  · have h0 : ∀ b, s.charge b = 0 := by
      rw [tally_eq] at h
      intro b
      match b with
      | 0 | 1 | 2 | 3 | 4 | 5 | 6 | 7 => omega
    obtain ⟨_, _, h3, _, _, h6, _⟩ := hc
    have h1 : ∀ b, (s.modRack (Rack.configure f bin)).charge b = 0 := by
      intro b
      have hb := h0 b
      unfold State.charge at *
      rw [bay_modRack]
      cases e : (s.bay b).power.state <;> rw [e] at hb <;> simp only [chargeOf] at * <;> omega
    rw [tally_eq]
    simp only [h1]
    exact Nat.zero_le _

/-- A change of the rack's tables or use counts keeps the budget and the queue. -/
theorem arb_tables {s t : State} (h : ∀ b, (t.bay b).power.state = (s.bay b).power.state)
    (hr : t.rack = { s.rack with slots := t.rack.slots, rules := t.rack.rules, bins := t.rack.bins, useCounts := t.rack.useCounts }) :
    ArbKeeps s t := by
  have h1 : ∀ b, t.charge b = s.charge b := fun b => by
    unfold State.charge
    rw [h b, hr]
    cases (s.bay b).power.state <;> rfl
  refine ⟨fun ⟨hc, ht⟩ => ⟨?_, ?_⟩, fun ⟨hn, hm⟩ => ⟨?_, fun b => ?_⟩⟩
  · rw [hr]; exact hc
  · rw [tally_congr h1, hr]; exact ht
  · rw [hr]; exact hn
  · rw [hr, h b]; exact hm b

theorem kept_storeSlot (k : SlotIx) (v : Slot) (s : State) : Kept s (storeSlot k v s) := by
  have hb : ∀ b, (storeSlot k v s).bay b = (s.bay b).modSweep (Sweep.forget k) := fun b => by simp [storeSlot, State.bay, mapVec]
  refine kept_of_bays (fun b => ?_) rfl (arb_tables (fun b => by rw [hb]; rfl) rfl)
  rw [hb]
  exact { BayKept.refl _ with }

theorem kept_rules (v : Vector Rule 24) (s : State) : Kept s (s.modRack (fun r => { r with rules := v })) :=
  kept_of_bays (fun _ => BayKept.refl _) rfl (arb_tables (fun _ => rfl) rfl)

theorem kept_bins (v : Vector Bin 16) (s : State) : Kept s (s.modRack (fun r => { r with bins := v })) :=
  kept_of_bays (fun _ => BayKept.refl _) rfl (arb_tables (fun _ => rfl) rfl)

/-- A plan starts on a bay whose session is ACTIVE and whose plan is not RUNNING: the use counts of its reachable set rise (R122,
R123). -/
theorem kept_beginPlan (b : BayIx) (f : SlotIx) (atEnd : Choice) (reach : Vector Bool 96) (s : State)
    (hr : (s.bay b).running = false) (ha : (s.bay b).power.session = .active) : Kept s (beginPlan b f atEnd reach s) := by
  unfold beginPlan
  dsimp only
  refine Kept.trans ?_ (calm_refreshLamp b _).kept
  generalize ht : (s.modRack (Rack.claim reach)).modBay b (fun x =>
    { x with plan := x.plan.start f atEnd reach (s.modRack (Rack.claim reach)).rack.ms, grade := none, ship := Ship.init }) = t
  have hb : t.bay b = { s.bay b with
      plan := (s.bay b).plan.start f atEnd reach (s.modRack (Rack.claim reach)).rack.ms, grade := none, ship := Ship.init } := by
    rw [← ht, bay_modBay_same, bay_modRack]
  have ho : ∀ c, c ≠ b → t.bay c = s.bay c := fun c e => by rw [← ht, bay_modBay_other _ _ _ _ e, bay_modRack]
  have hrack : t.rack = Rack.claim reach s.rack := by rw [← ht, rack_modBay, rack_modRack]
  have key : ∀ (P : Bay → Prop), (P (s.bay b) → P (t.bay b)) → EveryBay P s → EveryBay P t := by
    intro P hP h c
    by_cases e : c = b
    · subst e; exact hP (h c)
    · rw [ho c e]; exact h c
  have hst : ∀ c, (t.bay c).power.state = (s.bay c).power.state := fun c => by
    by_cases e : c = b
    · subst e; rw [hb]
    · rw [ho c e]
  have harb : ArbKeeps s t := arb_tables hst (by rw [hrack]; unfold Rack.claim; rfl)
  refine ⟨key _ ?_, key _ ?_, key _ ?_, key _ ?_, key _ ?_, fun ⟨hu, hs⟩ => ⟨fun k => ?_, key _ ?_ hs⟩, harb.budget, harb.queue⟩
  any_goals (rw [hb]; exact id)
  · have hmem : b ∈ allBays := by fin_cases b <;> simp [allBays]
    have hnd : allBays.Nodup := by decide
    have hk := hu k
    have hcount : t.rack.useCounts[k] = if reach[k] then s.rack.useCounts[k] + 1 else s.rack.useCounts[k] := by
      rw [hrack]; simp [Rack.claim]
    have hrun : (t.bay b).running = true := by rw [hb]; rfl
    have hreach : (t.bay b).plan.reach = reach := by rw [hb]; rfl
    have hfil : s.planUsers k = (t.planUsers k).filter (fun c => decide (c ≠ b)) := by
      unfold State.planUsers
      rw [List.filter_filter]
      apply List.filter_congr
      intro c _
      by_cases e : c = b
      · subst e; simp [hr]
      · rw [ho c e]; simp [e]
    rw [hcount, hk, hfil]
    by_cases hx : reach[k] = true
    · have hin : b ∈ t.planUsers k := by
        unfold State.planUsers
        rw [List.mem_filter]
        exact ⟨hmem, by rw [hrun, hreach]; simpa using hx⟩
      have hnd' : (t.planUsers k).Nodup := hnd.filter _
      have hpos := List.length_pos_of_mem hin
      rw [if_pos hx, show (t.planUsers k).filter (fun c => decide (c ≠ b)) = (t.planUsers k).erase b from by
        rw [hnd'.erase_eq_filter]
        apply List.filter_congr
        intro c _
        by_cases e : c = b <;> simp [e], List.length_erase_of_mem hin]
      omega
    · have hnot : ∀ c ∈ t.planUsers k, c ≠ b := by
        intro c hc e
        subst e
        unfold State.planUsers at hc
        rw [List.mem_filter, hrun, hreach] at hc
        exact hx (by simpa using hc.2)
      rw [if_neg hx, List.filter_eq_self.mpr (by simpa using hnot)]
  · intro h
    rw [hb]
    exact ⟨fun _ => h.1 ha, fun _ => h.1 ha⟩

theorem tame_launchPlan (b : BayIx) (f : SlotIx) (s : State) : Tame s (launchPlan b f s) := by
  unfold launchPlan
  split
  · exact tame_goTo b _ s
  · rename_i h
    refine ((calm_setStep b _ _ s).trans (calm_askPower b _ ?_)).tame
    unfold setStep
    rw [state_modBay b _ _ rfl]
    exact h
  all_goals exact (calm_setStep b _ _ s).tame

theorem kept_refuse (r : Reason) (s : State) : Kept s (refuse r s).state := Kept.refl s

theorem kept_carryStartPlan (b : BayIx) (slot atEnd : Byte) (s : State) : Kept s (carryStartPlan b slot atEnd s).state := by
  unfold carryStartPlan
  dsimp only
  split
  · split
    · exact Kept.refl s
    · rename_i hr
      split
      · exact Kept.refl s
      · rename_i ha
        split
        · exact Kept.refl s
        · split
          · exact Kept.refl s
          · split
            · exact Kept.refl s
            · exact (kept_beginPlan b _ _ _ s (by simpa using hr) (by simpa using ha)).trans (tame_launchPlan b _ _).kept
  · exact Kept.refl s

theorem kept_carrySetBay (b : BayIx) (f : SetBayArg) (s : State) : Kept s (carrySetBay b f s).state := by
  unfold carrySetBay
  split
  · split
    · exact Kept.refl s
    · exact kept_setBay b _ _ _ s _
  · exact Kept.refl s

theorem kept_configured (f : SetRackArg) (bin : Fin 16) (s : State) (h : s.tally = 0) :
    Kept s (allBays.foldl expireHeld (grantTest (s.modRack (Rack.configure f bin)))) :=
  (kept_configure f bin s h).trans ((calm_grantTest _).trans (calm_foldl expireHeld calm_expireHeld _ _)).kept

theorem kept_storedAs (c : Bool) {s u : State} (h : Kept s u) : Kept s (storedAs c u).state := h

theorem kept_carrySetRack (f : SetRackArg) (s : State) : Kept s (carrySetRack f s).state := by
  unfold carrySetRack
  split
  · exact Kept.refl s
  · rename_i bin _
    by_cases h : s.tally = 0
    · have hn : ¬ s.tally ≠ 0 := fun e => e h
      rw [if_neg hn]
      exact kept_storedAs _ (kept_configured f bin s h)
    · rw [if_pos h]; exact Kept.refl s

theorem kept_carryLoadSlot (slot nxt : Byte) (f : SlotArg) (s : State) : Kept s (carryLoadSlot slot nxt f s).state := by
  unfold carryLoadSlot
  split
  · exact Kept.refl s
  · split
    · exact Kept.refl s
    · split
      · exact kept_storeSlot _ _ s
      · exact Kept.refl s

theorem kept_carryLoadRule (rule : Byte) (f : RuleArg) (s : State) : Kept s (carryLoadRule rule f s).state := by
  unfold carryLoadRule
  split
  · exact kept_rules _ s
  · exact Kept.refl s

theorem kept_carryLoadBin (bin : Byte) (f : BinArg) (s : State) : Kept s (carryLoadBin bin f s).state := by
  unfold carryLoadBin
  split
  · split
    · exact Kept.refl s
    · exact (kept_bins _ s).trans (calm_refreshLamps _).kept
  · exact Kept.refl s

theorem kept_carryAbortPlan (b : BayIx) (choice : Byte) (s : State) : Kept s (carryAbortPlan b choice s).state := by
  unfold carryAbortPlan
  split
  · exact Kept.refl s
  · split
    · rename_i h; exact (tame_planEnd b _ _ _ _ s h).kept
    · exact Kept.refl s

theorem kept_carryPower (b : BayIx) (field : Byte) (s : State) : Kept s (carryPower b field s).state := by
  unfold carryPower
  dsimp only
  split
  · exact Kept.refl s
  · split
    · exact Kept.refl s
    · split
      · exact Kept.refl s
      · split
        · exact Kept.refl s
        · split
          · exact Kept.refl s
          · exact (calm_ite _ (calm_askOn b s) (calm_askOff b s)).kept

theorem kept_carryZoneMark (b : BayIx) (zone : BitVec 16) (op : Byte) (s : State) : Kept s (carryZoneMark b zone op s).state := by
  unfold carryZoneMark
  dsimp only
  split
  · exact Kept.refl s
  · split
    · exact Kept.refl s
    · split
      · exact Kept.refl s
      · exact (calm_modZm b _ s (fun m h => sound_zoneMark _ _ m h)).kept

theorem kept_carrySetLine (b : BayIx) (lf af ll al : Byte) (s : State) : Kept s (carrySetLine b lf af ll al s).state := by
  unfold carrySetLine
  split
  · exact ((calm_modLines b _ s).trans (calm_refreshLamp b _)).kept
  · exact Kept.refl s

/-- A directive that is carried out, or refused, keeps each invariant but for the mailbox of a CLEAR-SESSION (R164 to R166). -/
theorem kept_carry (b : BayIx) (d : Directive) (s : State) (hd : d ≠ .clearSession) : Kept s (carry b d s).state := by
  cases d with
  | setBay f => exact kept_carrySetBay b f s
  | setRack f => exact kept_carrySetRack f s
  | loadSlot slot nxt f => exact kept_carryLoadSlot slot nxt f s
  | loadRule rule f => exact kept_carryLoadRule rule f s
  | loadBin bin f => exact kept_carryLoadBin bin f s
  | startPlan slot atEnd => exact kept_carryStartPlan b slot atEnd s
  | abortPlan choice => exact kept_carryAbortPlan b choice s
  | power field => exact kept_carryPower b field s
  | zoneMark zone op => exact kept_carryZoneMark b zone op s
  | clearSession => exact absurd rfl hd
  | setLine lf af ll al => exact kept_carrySetLine b lf af ll al s
  | ackNotice clear mask => exact kept_modAnnex b _ s (by intros; rfl) (by intros; rfl)
  | badCode code => exact Kept.refl s

/-- A signed mailbox sector (R164). -/
theorem kept_takeDirective (b : BayIx) (seq : Word) (d : Directive) (s : State) : Kept s (takeDirective b seq d s) := by
  unfold takeDirective
  split
  · rename_i hi
    by_cases hd : d = .clearSession
    · subst hd
      unfold postResult carry
      dsimp only
      split
      · exact kept_modAnnex b _ s (by intros; simp [mailboxAfter, refuse]) (by intros; rfl)
      · rename_i hr
        exact kept_beginClear b s _ (by intro a; simp [mailboxAfter, accept, storedAs]) (by intros; rfl) (by simpa using hr)
    · have h1 := kept_carry b d s hd
      refine h1.trans ?_
      unfold postResult
      exact kept_modAnnex b _ _ (by intros; simp [mailboxAfter, hd]) (by intros; rfl)
  · exact kept_modAnnex b _ s (by intros; rfl) (by intros; rfl)

theorem kept_annexWrite (b : BayIx) (off : Nat) (x : Sector) (s : State) : Kept s (annexWrite b off x s) := by
  unfold annexWrite
  split
  · exact kept_takeDirective b _ _ s
  · exact kept_modAnnex b _ s (by intros; rfl) (by intros; rfl)

theorem kept_annexWrites (b : BayIx) (off : Nat) (xs : List Sector) (s : State) : Kept s (annexWrites b off xs s) := by
  induction xs generalizing off s with
  | nil => exact Kept.refl s
  | cons x t ih => exact (kept_annexWrite b off x s).trans (ih _ _)

theorem kept_takeAnnexData (b : BayIx) (c : AnnexCmd) (payload : List Sector) (s : State) : Kept s (takeAnnexData b c payload s) :=
  (kept_annexWrites b _ _ s).trans (calm_annexTaken b c _ _).kept

end Sys2Proof.Machine
end

