-- ==== Sys2Proof/Laws/Forms.lean ====
section
/-! SUPPORT. What the shared operations come to, each as one change of a bay or of the rack: the arrival checks, the opening of
records, part tags, the mailbox's answers, discards, supply cuts, plan ends and grants, for proofs to cite. -/

namespace Sys2Proof.Machine

/-- Two changes of a bay that agree on it give one state. -/
theorem modBay_eq {s : State} {b : BayIx} {f g : Bay → Bay} (h : f (s.bay b) = g (s.bay b)) : s.modBay b f = s.modBay b g := by
  unfold State.modBay; rw [h]

/-- Two changes of a bay are one. -/
theorem modBay_modBay (s : State) (b : BayIx) (f g : Bay → Bay) : (s.modBay b f).modBay b g = s.modBay b (fun x => g (f x)) := by
  simp [State.modBay, State.setBay, State.bay]

/-- A change that leaves the bay leaves the state. -/
theorem modBay_id (s : State) (b : BayIx) (f : Bay → Bay) (h : f (s.bay b) = s.bay b) : s.modBay b f = s := by
  unfold State.modBay State.setBay
  rw [h]
  simp [State.bay]

/-- The busy test is the statements' free host tag. -/
theorem tagBusy_iff (x : Bay) (tag : Tag) (h : tag.val < 24) : x.tagBusy tag = false ↔ x.freeHostTag tag := by
  unfold Bay.tagBusy Bay.freeHostTag Tracker.rec?
  simp only [Bool.or_eq_false_iff, List.any_eq_false, decide_eq_true_eq]
  constructor
  · rintro ⟨⟨h1, h2⟩, h3⟩
    refine ⟨h, fun r hr => ?_, h2, h3⟩
    rw [hr] at h1; simpa using h1
  · rintro ⟨_, h1, h2, h3⟩
    refine ⟨⟨?_, h2⟩, h3⟩
    cases hr : x.tracker.recs[tag] with
    | none => rfl
    | some r => simpa using h1 r hr

/-- A free host tag passes the tag check. -/
theorem verdict_free (x : Bay) (tag : Tag) (h : x.freeHostTag tag) : x.tagVerdict tag = none := by
  unfold Bay.tagVerdict hostTags
  rw [if_neg (by have := h.1; omega), (tagBusy_iff x tag h.1).mpr h]
  rfl

/-- On a free host tag the command goes on. -/
theorem check_free (b : BayIx) (tag : Tag) (k : State → State) (s : State) (h : (s.bay b).freeHostTag tag) : checkTag b tag k s = k s := by
  unfold checkTag; rw [verdict_free _ _ h]

/-- A part tag is refused. -/
theorem check_refused (b : BayIx) (tag : Tag) (k : State → State) (s : State) (h : 24 ≤ tag.val) :
    checkTag b tag k s = s.modBay b (·.sends (.completion tag .tagRefused)) := by
  unfold checkTag Bay.tagVerdict hostTags; rw [if_pos h]; rfl

/-- A busy host tag is refused. -/
theorem check_busy (b : BayIx) (tag : Tag) (k : State → State) (s : State) (h : tag.val < 24) (hf : ¬ (s.bay b).freeHostTag tag) :
    checkTag b tag k s = s.modBay b (·.sends (.completion tag .tagBusy)) := by
  unfold checkTag Bay.tagVerdict hostTags; rw [if_neg (by omega)]
  have : (s.bay b).tagBusy tag = true := by
    rw [← Bool.not_eq_false, tagBusy_iff _ _ h]; exact hf
  rw [this]; rfl

theorem modRack_modBay (s : State) (b : BayIx) (f : Rack → Rack) (g : Bay → Bay) : (s.modRack f).modBay b g = (s.modBay b g).modRack f := rfl

/-- Choosing the lamp's pattern changes the lines alone. -/
theorem chooseLamp_form (r : Rack) (x : Bay) : x.chooseLamp r = { x with lines := (x.chooseLamp r).lines } := by
  unfold Bay.chooseLamp; split <;> rfl

theorem refreshLamp_form (b : BayIx) (s : State) : refreshLamp b s = s.modBay b (fun x => { x with lines := (x.chooseLamp s.rack).lines }) :=
  modBay_eq (chooseLamp_form _ _)

/-- What the first step of a plan end does to its bay. -/
def stopBay (x : Bay) : Bay :=
  { x with
      tracker := { x.tracker with waiting := x.tracker.waiting.filter (fun r => !decide (r.origin = .sweep ∨ r.origin = .rescan ∨ r.origin = .ship)) }
      sweep := x.sweep.stop
      zm := { x.zm with queue := [] }
      ship := if x.shipWaits then { x.ship with name := .failed, reissue := false } else x.ship }

theorem stopPhase_form (b : BayIx) (s : State) : stopPhase b s = s.modBay b stopBay := by
  unfold stopPhase withdraw
  simp only [modBay_modBay]
  apply modBay_eq
  unfold stopBay
  split <;> rfl

/-- What a plan end that leaves the power alone does to its bay. -/
def endBay (r : Rack) (o : PlanOutcome) (f : Option FaultCause) (e : Option SlotIx) (x : Bay) : Bay :=
  ((stopBay x).modPlan (Plan.finish o f e r.ms)).modAnnex (Annex.raise .planEnded) |>.chooseLamp r

/-- A plan end that leaves the power alone. -/
theorem planEnd_form (b : BayIx) (o : PlanOutcome) (f : Option FaultCause) (e : Option SlotIx) (s : State) (ho : o ≠ .faulted) :
    planEnd b o f e .keep s = (s.modRack (Rack.release (s.bay b).plan.reach)).modBay b (endBay (Rack.release (s.bay b).plan.reach s.rack) o f e) := by
  unfold planEnd
  simp only [if_neg ho, stopPhase_form, refreshLamp, raiseNotice, bay_modBay_same]
  simp only [modRack_modBay, modBay_modBay, rack_modRack, rack_modBay, reduceCtorEq, if_false]
  rfl

theorem bay_other (s : State) (b c : BayIx) (f : Bay → Bay) (h : c ≠ b) : (s.modBay b f).bay c = s.bay c := bay_modBay_other s b c f h

/-- What a discard leaves. -/
structure Disc (x y : Bay) : Prop where
  lane : ∃ u r w, y.lane = { x.lane with upSent := u, retired := r, downWait := w }
  trk : ∃ r i, y.tracker = { x.tracker with recs := r, idle := i }
  none : ∀ tag : Tag, x.tracker.recs[tag] = none → y.tracker.recs[tag] = none
  settings : y.settings = x.settings
  counters : y.counters = x.counters
  zm : y.zm = x.zm
  sweep : y.sweep = x.sweep
  plan : y.plan = x.plan
  grade : y.grade = x.grade
  power : ∃ l, y.power = { x.power with learnWait := l }
  lines : y.lines = x.lines
  annex : y.annex = x.annex

theorem Disc.refl (x : Bay) : Disc x x := ⟨⟨_, _, _, rfl⟩, ⟨_, _, rfl⟩, fun _ h => h, rfl, rfl, rfl, rfl, rfl, rfl, ⟨_, rfl⟩, rfl, rfl⟩

theorem Disc.trans {x y z : Bay} (h : Disc x y) (k : Disc y z) : Disc x z := by
  obtain ⟨⟨u, r, w, h1⟩, ⟨a, i, h2⟩, h3, h4, h5, h6, h7, h8, h9, ⟨l, h10⟩, h11, h12⟩ := h
  obtain ⟨⟨u', r', w', k1⟩, ⟨a', i', k2⟩, k3, k4, k5, k6, k7, k8, k9, ⟨l', k10⟩, k11, k12⟩ := k
  exact ⟨⟨u', r', w', by rw [k1, h1]⟩, ⟨a', i', by rw [k2, h2]⟩, fun t h => k3 t (h3 t h), k4.trans h4, k5.trans h5, k6.trans h6, k7.trans h7, k8.trans h8, k9.trans h9,
    ⟨l', by rw [k10, h10]⟩, k11.trans h11, k12.trans h12⟩

theorem Disc.pstate {x y : Bay} (h : Disc x y) : y.power.state = x.power.state := by obtain ⟨l, e⟩ := h.power; rw [e]

/-- One record taken from its tag, and its owner told. -/
theorem disc_owner (r : Rec) (tag : Tag) (x : Bay) : Disc x ((x.modTracker (·.setRec tag none)).ownerDiscard r) := by
  have h : ∀ g : Tag, x.tracker.recs[g] = none → (x.tracker.recs.set tag none)[g] = none := by
    intro g hg
    by_cases e : tag = g
    · subst e; simp
    · have : ¬ (tag : Nat) = g := fun hh => e (Fin.ext hh)
      have e2 : (x.tracker.recs.set tag none)[g] = x.tracker.recs[g] := by
        show (x.tracker.recs.set tag none)[(g : Nat)] = x.tracker.recs[(g : Nat)]
        rw [Vector.getElem_set_ne _ _ this]
      rw [e2]; exact hg
  unfold Bay.ownerDiscard
  cases r.origin
  case ship => simp only; split <;> (try split) <;> exact ⟨⟨_, _, _, rfl⟩, ⟨_, _, rfl⟩, h, rfl, rfl, rfl, rfl, rfl, rfl, ⟨_, rfl⟩, rfl, rfl⟩
  all_goals exact ⟨⟨_, _, _, rfl⟩, ⟨_, _, rfl⟩, h, rfl, rfl, rfl, rfl, rfl, rfl, ⟨_, rfl⟩, rfl, rfl⟩

theorem disc_sendUp (f : UpFrame) (x : Bay) : Disc x (x.modLane (·.sendUp f)) := by
  have : ∃ u, x.lane.sendUp f = { x.lane with upSent := u } := by
    unfold Lane.sendUp; split
    · exact ⟨_, rfl⟩
    · exact ⟨x.lane.upSent, rfl⟩
  obtain ⟨u, hu⟩ := this
  exact ⟨⟨_, _, _, hu⟩, ⟨_, _, rfl⟩, fun _ h => h, rfl, rfl, rfl, rfl, rfl, rfl, ⟨_, rfl⟩, rfl, rfl⟩

theorem sendUp_form (f : UpFrame) (l : Lane) : l.sendUp f = { l with upSent := if l.upUp then l.upSent ++ [f] else l.upSent } := by
  unfold Lane.sendUp; split <;> rfl

/-- The discard of one tag. -/
theorem disc_one (b : BayIx) (st : Option UpStatus) (ret : Bool) (tag : Tag) (s : State) :
    ∃ y, discardOne b st ret tag s = s.modBay b (fun _ => y) ∧ Disc (s.bay b) y ∧ y.tracker.recs[tag] = none := by
  unfold discardOne
  cases hr : (s.bay b).tracker.rec? tag with
  | none => exact ⟨s.bay b, (modBay_id _ _ _ rfl).symm, Disc.refl _, hr⟩
  | some r =>
    simp only
    have h1 := disc_owner r tag (s.bay b)
    have h1n : (((s.bay b).modTracker (·.setRec tag none)).ownerDiscard r).tracker.recs[tag] = none := by
      unfold Bay.ownerDiscard
      cases r.origin
      case ship => simp only; split <;> (try split) <;> simp [Tracker.setRec]
      all_goals simp [Tracker.setRec]
    generalize hy : ((s.bay b).modTracker (·.setRec tag none)).ownerDiscard r = y at *
    have e1 : (s.modBay b fun x => Bay.ownerDiscard r (x.modTracker fun x => Tracker.setRec tag none x)) = s.modBay b (fun _ => y) := modBay_eq hy
    rw [e1]
    have e2 : ∃ z, (if ret = true then (s.modBay b (fun _ => y)).modBay b (·.modLane (fun l => { l with retired := l.retired ++ [tag] })) else s.modBay b (fun _ => y)) = s.modBay b (fun _ => z) ∧ Disc y z ∧ z.tracker = y.tracker := by
      split
      · exact ⟨_, modBay_modBay _ _ _ _, ⟨⟨_, _, _, rfl⟩, ⟨_, _, rfl⟩, fun _ h => h, rfl, rfl, rfl, rfl, rfl, rfl, ⟨_, rfl⟩, rfl, rfl⟩, rfl⟩
      · exact ⟨y, rfl, Disc.refl _, rfl⟩
    obtain ⟨z, e2, h2, h3⟩ := e2
    rw [e2]
    split
    · refine ⟨_, by unfold complete sendUp; exact modBay_modBay _ _ _ _, (h1.trans h2).trans (disc_sendUp _ _), ?_⟩
      simp only [tracker_modLane, h3]; exact h1n
    · exact ⟨z, rfl, h1.trans h2, by rw [h3]; exact h1n⟩

/-- The discard of some tags. -/
theorem disc_fold (b : BayIx) (st : Option UpStatus) (ret : Bool) (L : List Tag) : ∀ s : State,
    ∃ y, L.foldl (fun s tag => discardOne b st ret tag s) s = s.modBay b (fun _ => y) ∧ Disc (s.bay b) y ∧ ∀ tag ∈ L, y.tracker.recs[tag] = none := by
  induction L with
  | nil => intro s; exact ⟨s.bay b, (modBay_id _ _ _ rfl).symm, Disc.refl _, by simp⟩
  | cons g t ih =>
    intro s
    obtain ⟨y, h1, h2, h3⟩ := disc_one b st ret g s
    obtain ⟨z, k1, k2, k3⟩ := ih (discardOne b st ret g s)
    have hb : (discardOne b st ret g s).bay b = y := by rw [h1]; simp
    rw [hb] at k2
    refine ⟨z, ?_, h2.trans k2, ?_⟩
    · rw [List.foldl_cons, k1, h1, modBay_modBay]
    · intro tag ht
      rcases List.mem_cons.mp ht with rfl | ht
      · exact k2.none _ h3
      · exact k3 tag ht

theorem startIdle_form (t : Tracker) : t.startIdle = { t with idle := if t.hostOpen then t.idle else some t.w } := by
  unfold Tracker.startIdle; split <;> rfl

/-- Discarding everything. -/
theorem disc_all (b : BayIx) (st : Option UpStatus) (ret : Bool) (s : State) :
    ∃ y, discardAll b st ret s = s.modBay b (fun _ => y) ∧ Disc (s.bay b) y ∧ ∀ tag : Tag, y.tracker.recs[tag] = none := by
  unfold discardAll
  obtain ⟨y, h1, h2, h3⟩ := disc_fold b st ret allTags s
  simp only [h1, modBay_modBay]
  split
  · refine ⟨_, rfl, ?_, fun tag => ?_⟩
    · refine h2.trans ?_
      exact ⟨⟨_, _, _, rfl⟩, ⟨_, _, startIdle_form _⟩, fun tag h => by simp only [tracker_modTracker, startIdle_form]; exact h, rfl, rfl, rfl, rfl, rfl, rfl, ⟨_, rfl⟩, rfl, rfl⟩
    · simp only [tracker_modTracker, startIdle_form]; exact h3 tag (List.mem_finRange tag)
  · exact ⟨_, rfl, h2.trans ⟨⟨_, _, _, rfl⟩, ⟨_, _, rfl⟩, fun _ h => h, rfl, rfl, rfl, rfl, rfl, rfl, ⟨_, rfl⟩, rfl, rfl⟩, fun tag => h3 tag (List.mem_finRange tag)⟩

/-- Refusing the held commands. -/
theorem refuseHeld_form (b : BayIx) (s : State) : ∃ u, refuseHeld b s = s.modBay b (fun x => { x with lane := { x.lane with upSent := u, held := [] } }) := by
  unfold refuseHeld
  have : ∀ (L : List Held) (s : State), ∃ u, L.foldl (fun s h => complete b h.tag .notReady s) s = s.modBay b (fun x => { x with lane := { x.lane with upSent := u } }) := by
    intro L
    induction L with
    | nil => intro s; exact ⟨_, (modBay_id _ _ _ rfl).symm⟩
    | cons h t ih =>
      intro s
      obtain ⟨u, hu⟩ := ih (complete b h.tag .notReady s)
      refine ⟨u, ?_⟩
      rw [List.foldl_cons, hu]
      unfold complete sendUp
      rw [modBay_modBay]; apply modBay_eq
      simp only [sendUp_form, Bay.modLane]
  obtain ⟨u, hu⟩ := this (s.bay b).lane.held s
  exact ⟨u, by simp only [hu, modBay_modBay]; rfl⟩

/-- The supply cut as one change of the bay. -/
theorem cutSupply_form (b : BayIx) (s : State) : cutSupply b s = s.modBay b (fun x => { x with
    lane := { x.lane with downUp := false, retired := [], downWait := [] }
    power := { x.power with spinTimer := none, learnWait := false }
    tracker := { x.tracker with waiting := x.tracker.waiting.filter (fun r => !decide (r.origin = .settle ∨ r.origin = .learn)) } }) := by
  unfold cutSupply withdrawPower withdraw
  rw [modBay_modBay]; rfl

/-- A grant leaves bays that are not queued. -/
theorem grantOne_other (s : State) (b : BayIx) (h : b ∉ s.rack.queue) : (grantOne s).bay b = s.bay b ∧ b ∉ (grantOne s).rack.queue := by
  unfold grantOne
  cases hq : s.rack.queue with
  | nil => exact ⟨rfl, by rw [hq]; simp⟩
  | cons c t =>
    rw [hq] at h
    simp only
    split
    · unfold grantBay
      simp only
      rw [bay_modBay_other _ _ _ _ (by rintro rfl; simp at h)]
      refine ⟨rfl, ?_⟩
      simp [hq]
      intro hm; exact absurd (List.mem_cons_of_mem _ hm) h
    · exact ⟨rfl, by rw [hq]; exact h⟩

/-- The grant test leaves a bay that is not in the queue. -/
theorem grantTest_other (s : State) (b : BayIx) (h : b ∉ s.rack.queue) : (grantTest s).bay b = s.bay b ∧ b ∉ (grantTest s).rack.queue := by
  have : ∀ (k : Nat) (s : State), b ∉ s.rack.queue → (grantSome k s).bay b = s.bay b ∧ b ∉ (grantSome k s).rack.queue := by
    intro k
    induction k with
    | zero => intro s h; exact ⟨rfl, h⟩
    | succ k ih =>
      intro s h
      have h1 := grantOne_other s b h
      have h2 := ih _ h1.2
      exact ⟨h2.1.trans h1.1, h2.2⟩
  exact this 8 s h

/-- A host command that opens its record is forwarded. -/
theorem openHost_eq (b : BayIx) (tag : Tag) (kind : CmdKind) (lba count : Nat) (body : List Byte) (s : State) :
    openHost b tag kind lba count body s = s.modBay b (fun x => x.forwards tag (fixRec s b (hostRec x kind lba count)) body) := by
  unfold openHost openRec
  simp only [hostRec, sendDown, modBay_modBay, ite_true]
  apply modBay_eq
  rfl

/-- On an IDLE mailbox a directive other than CLEAR-SESSION is carried out and answered. -/
theorem take_answer (b : BayIx) (seq : Word) (d : Directive) (s : State) (h : s.mailboxIdle b) (hd : d ≠ .clearSession) :
    takeDirective b seq d s = (carry b d s).state.answered b d.code seq (carry b d s).result (carry b d s).ret := by
  unfold takeDirective
  rw [if_pos (show (s.bay b).annex.mailbox = .idle from h)]
  unfold postResult State.answered resultOf mailboxAfter
  simp [hd]

/-- A refused directive changes the result sector alone. -/
theorem take_refuse (b : BayIx) (seq : Word) (d : Directive) (s : State) (r : Reason) (h : s.mailboxIdle b) (hc : carry b d s = refuse r s) :
    takeDirective b seq d s = s.answered b d.code seq (.refused r) 0#32 := by
  unfold takeDirective
  rw [if_pos (show (s.bay b).annex.mailbox = .idle from h), hc]
  unfold postResult State.answered resultOf mailboxAfter
  simp [refuse]

/-- A directive that is carried out. -/
theorem take_stored (b : BayIx) (seq : Word) (d : Directive) (s u : State) (c : Bool) (h : s.mailboxIdle b) (hd : d ≠ .clearSession)
    (hc : carry b d s = storedAs c u) :
    takeDirective b seq d s = u.answered b d.code seq (if c then .clamped else .done) 0#32 := by
  rw [take_answer b seq d s h hd, hc]; rfl

theorem binOf_ge {x : Byte} (h : 16 ≤ x.toNat) : binOf x = none := by unfold binOf; rw [dif_neg (by omega)]

theorem binOf_eq {x : Byte} {k : Fin 16} (h : x.toNat = k.val) : binOf x = some k := by
  unfold binOf; rw [dif_pos (by have := k.2; omega)]; exact congrArg some (Fin.ext h)

theorem slotOf_ge {x : Byte} (h : 96 ≤ x.toNat) : slotOf x = none := by unfold slotOf; rw [dif_neg (by omega)]

theorem slotOf_eq {x : Byte} {k : Fin 96} (h : x.toNat = k.val) : slotOf x = some k := by
  unfold slotOf; rw [dif_pos (by have := k.2; omega)]; exact congrArg some (Fin.ext h)

theorem ruleOf_ge {x : Byte} (h : 24 ≤ x.toNat) : ruleOf x = none := by unfold ruleOf; rw [dif_neg (by omega)]

theorem ruleOf_eq {x : Byte} {k : Fin 24} (h : x.toNat = k.val) : ruleOf x = some k := by
  unfold ruleOf; rw [dif_pos (by have := k.2; omega)]; exact congrArg some (Fin.ext h)

theorem nextOf_eq {x : Byte} {n : Option SlotIx} (h : x.toNat = (match n with | some j => j.val | none => 255)) : nextOf x = some n := by
  unfold nextOf
  cases n with
  | none => simp at h; rw [if_pos h]
  | some j => have := j.2; simp at h; rw [if_neg (by omega), slotOf_eq h]; rfl

theorem nextOf_bad {x : Byte} (h : 96 ≤ x.toNat) (h2 : x.toNat ≤ 254) : nextOf x = none := by
  unfold nextOf; rw [if_neg (by omega), slotOf_ge h]; rfl

theorem boolOf_lt {x : Byte} (h : x.toNat < 2) : boolOf x = some (decide (x = 1#8)) := by
  revert h; revert x; decide

theorem boolOf_ge {x : Byte} (h : 2 ≤ x.toNat) : boolOf x = none := by
  revert h; revert x; decide

theorem grantTest_empty (s : State) (h : s.rack.queue = []) : grantTest s = s := by
  simp [grantTest, grantSome, grantOne, h]

/-- Some open record satisfies a test. -/
theorem anyRec_iff (t : Tracker) (p : Rec → Bool) : t.anyRec p = true ↔ ∃ (tag : Tag) (r : Rec), t.recs[tag] = some r ∧ p r = true := by
  unfold Tracker.anyRec allTags Tracker.rec?
  simp only [List.any_eq_true, List.mem_finRange, true_and]
  constructor
  · rintro ⟨g, h⟩
    cases hr : t.recs[g] with
    | none => rw [hr] at h; simp at h
    | some r => rw [hr] at h; exact ⟨g, r, hr, h⟩
  · rintro ⟨g, r, h, hp⟩
    exact ⟨g, by rw [h]; exact hp⟩

theorem anyRec_false (t : Tracker) (p : Rec → Bool) : t.anyRec p = false ↔ ∀ (tag : Tag) (r : Rec), t.recs[tag] = some r → p r = false := by
  rw [← Bool.not_eq_true, anyRec_iff]; push Not; simp

/-- Some listed zone holds stamped sectors exactly when some zone does. -/
theorem holdsStamp_iff (m : ZoneMap) (h : m.sound) : m.zones.any (fun e => e.2.kind.holdsStamp) = true ↔ ∃ n, (m.get n).kind.holdsStamp = true := by
  have hw := h.1
  unfold ZoneMap.get
  revert hw; generalize m.zones = l
  induction l with
  | nil => intro _; simp [tblGet, ZoneRec.init, ZKind.holdsStamp]
  | cons e t ih =>
    obtain ⟨k, v⟩ := e
    intro hw
    have hw2 := hw
    rw [tblWf_cons] at hw2
    have ht : tblWf ZoneRec.init t = true := by tauto
    have ihh := ih ht
    constructor
    · intro h
      simp only [List.any_cons, Bool.or_eq_true] at h
      rcases h with h | h
      · exact ⟨k, by simpa [tblGet] using h⟩
      · obtain ⟨n, hn⟩ := ihh.mp h
        refine ⟨n, ?_⟩
        unfold tblGet
        split
        · rename_i e; subst e
          exfalso
          have : tblGet ZoneRec.init t k = ZoneRec.init := tblGet_below (by tauto)
          rw [this] at hn; simp [ZoneRec.init, ZKind.holdsStamp] at hn
        · exact hn
    · rintro ⟨n, hn⟩
      simp only [List.any_cons, Bool.or_eq_true]
      unfold tblGet at hn
      split at hn
      · exact Or.inl hn
      · exact Or.inr (ihh.mpr ⟨n, hn⟩)

/-- A timeout event is due exactly when some record's age has reached Tw. -/
theorem timeoutDue_zero (s : State) (b : BayIx) : timeoutDue s b = some 0 ↔ ¬ (s.bay b).everyRec (fun r => (s.rack.us - r.issue).toNat < (s.bay b).tracker.tw * 1000) := by
  unfold timeoutDue Bay.everyRec recAge allTags Tracker.rec?
  simp only
  rw [List.min?_eq_some_iff]
  simp only [List.mem_filterMap, List.mem_finRange, true_and, Option.map_eq_some_iff]
  push Not
  constructor
  · rintro ⟨⟨g, r, hr, h⟩, _⟩
    exact ⟨g, r, hr, by omega⟩
  · rintro ⟨g, r, hr, h⟩
    exact ⟨⟨g, r, hr, by omega⟩, fun _ _ => by omega⟩

theorem expireHeld_none (s : State) (b : BayIx) (h : (s.bay b).lane.held = []) : expireHeld s b = s := by
  unfold expireHeld
  simp only [h, List.filter_nil, List.foldl_nil]
  apply modBay_id
  simp only [Bay.modLane, ← h]

/-- A slot stored. -/
theorem slotLoaded_eq (k : SlotIx) (body : SlotBody) (n : Option SlotIx) (s : State) :
    storeSlot k { body := body, nxt := n } s = s.slotLoaded k body n := by
  unfold storeSlot State.slotLoaded
  congr 2
  funext x
  unfold Bay.modSweep Sweep.forget
  congr 2
  cases x.sweep.resume with
  | none => rfl
  | some u => by_cases h : u.slot = k <;> simp [Option.filter, h]

theorem find_sorted (p : Tag → Bool) (tag : Tag) (h : 24 ≤ tag.val) (hp : p tag = true) (hl : ∀ g : Tag, 24 ≤ g.val → g < tag → p g = false) :
    partTags.find? p = some tag := by
  unfold partTags
  have hc : tag = 24 ∨ tag = 25 ∨ tag = 26 ∨ tag = 27 ∨ tag = 28 ∨ tag = 29 ∨ tag = 30 ∨ tag = 31 := by clear hl hp; revert tag; decide
  rcases hc with rfl | rfl | rfl | rfl | rfl | rfl | rfl | rfl
  all_goals
    simp only [List.find?_cons, hp]
    try rw [hl 24 (by decide) (by decide)]
    try rw [hl 25 (by decide) (by decide)]
    try rw [hl 26 (by decide) (by decide)]
    try rw [hl 27 (by decide) (by decide)]
    try rw [hl 28 (by decide) (by decide)]
    try rw [hl 29 (by decide) (by decide)]
    try rw [hl 30 (by decide) (by decide)]

/-- The lowest free part tag is the one a request takes. -/
theorem lowest_free {x : Bay} {tag : Tag} (h : x.lowestFree tag) : x.freePartTag = some tag := by
  obtain ⟨h1, h2, h3, h4⟩ := h
  unfold Bay.freePartTag
  refine find_sorted _ tag h1 ?_ ?_
  · simp [Tracker.rec?, h2]; simpa using h3
  · intro g hg hlt
    rcases h4 g hg hlt with h | h
    · simp only [Tracker.rec?, Bool.and_eq_false_iff]; left; cases hr : x.tracker.recs[g] <;> simp_all
    · simp [h]

theorem lowest_of_free {x : Bay} {tag : Tag} (hf : x.freePartTag = some tag) : x.lowestFree tag := by
  unfold Bay.freePartTag partTags at hf
  have hm := List.mem_of_find?_eq_some hf
  have hp := List.find?_some hf
  rw [List.find?_eq_some_iff_append] at hf
  obtain ⟨_, as, bs, he, ha⟩ := hf
  refine ⟨by clear he ha; clear hp; revert hm; clear * -; revert tag; decide, ?_, ?_, ?_⟩
  · simp [Tracker.rec?] at hp; exact hp.1
  · simp at hp; exact hp.2
  · intro g hg hlt
    have hga : g ∈ as := by
      clear hp
      have hgm : g ∈ ([24, 25, 26, 27, 28, 29, 30, 31] : List Tag) := by clear he hlt hm; revert g; decide
      rw [he] at hgm
      have hs : ([24, 25, 26, 27, 28, 29, 30, 31] : List Tag).Pairwise (· < ·) := by decide
      rw [he] at hs
      rw [List.pairwise_append] at hs
      rcases List.mem_append.mp hgm with h | h
      · exact h
      · rcases List.mem_cons.mp h with rfl | h
        · exact absurd hlt (lt_irrefl _)
        · exact absurd ((List.pairwise_cons.mp hs.2.1).1 g h) (lt_asymm hlt)
    have := ha g hga
    simp [Tracker.rec?] at this
    rcases this with h | h
    · left; intro hr; rw [show x.tracker.recs[(g : Nat)] = none from hr] at h; simp at h
    · exact Or.inr h

theorem lowest_none {x : Bay} (h : ∀ tag, ¬ x.lowestFree tag) : x.freePartTag = none := by
  cases hf : x.freePartTag with
  | none => rfl
  | some tag => exact absurd (lowest_of_free hf) (h tag)

/-- A part record that opens. -/
theorem openRec_part (b : BayIx) (tag : Tag) (r : Rec) (s : State) (h : r.origin ≠ .host) :
    openRec b tag r [] s = s.modBay b (Bay.issues tag (fixRec s b r)) := by
  unfold openRec sendDown
  simp only [if_neg h, modBay_modBay]
  rfl

/-- A request that finds a free part tag and no other request opens at once. -/
theorem request_free (b : BayIx) (r : Rec) (s : State) (tag : Tag) (h : (s.bay b).power.state = .settling → r.origin = .settle) (hw : (s.bay b).tracker.waiting = [])
    (hf : (s.bay b).lowestFree tag) (ho : r.origin ≠ .host) : requestTag b r s = s.modBay b (Bay.issues tag (fixRec s b r)) := by
  unfold requestTag
  simp only
  rw [if_neg (by rintro ⟨a, c⟩; exact c (h a)), hw, lowest_free hf]
  exact openRec_part b tag r s ho

/-- The reachable set lies in every set that holds its start and is closed. -/
theorem grow_least (slots : Vector Slot 96) (P : SlotIx → Prop)
    (hc : ∀ k n : SlotIx, P k → n ∈ slots[k].leadsTo → P n) : ∀ (fuel : Nat) (todo : List SlotIx) (seen : Vector Bool 96),
    (∀ n ∈ todo, P n) → (∀ k : SlotIx, seen[k] = true → P k) → ∀ k : SlotIx, (growReach slots fuel todo seen)[k] = true → P k
  | 0, todo, seen, h1, h2, k => by rw [growReach]; exact h2 k
  | fuel + 1, [], seen, h1, h2, k => by rw [growReach]; exact h2 k
  | fuel + 1, j :: todo, seen, h1, h2, k => by
    rw [growReach]
    split
    · exact grow_least slots P hc fuel todo seen (fun n hn => h1 n (by simp [hn])) h2 k
    · refine grow_least slots P hc fuel _ _ ?_ ?_ k
      · intro n hn
        rcases List.mem_append.mp hn with hn | hn
        · exact hc j n (h1 j (by simp)) hn
        · exact h1 n (by simp [hn])
      · intro i hi
        by_cases e : j = i
        · subst e; exact h1 j (by simp)
        · apply h2
          have : ¬ (j : Nat) = i := fun hh => e (Fin.ext hh)
          rw [show (seen.set j true)[i] = (seen.set j true)[(i : Nat)] from rfl, Vector.getElem_set_ne _ _ this] at hi
          exact hi

/-- The slow commands of a histogram as a sum over its bins. -/
theorem slow_sum (h : Hist) (arg : Nat) : h.slow arg = ((List.finRange 12).map (fun k => if arg ≤ k.val then h.bins[k] else 0)).sum := by
  unfold Hist.slow
  obtain ⟨bins, w⟩ := h
  obtain ⟨⟨l⟩, hl⟩ := bins
  simp at hl
  match l, hl with
  | [a0, a1, a2, a3, a4, a5, a6, a7, a8, a9, a10, a11], _ =>
    rcases Nat.lt_or_ge arg 12 with h | h
    · have : arg = 0 ∨ arg = 1 ∨ arg = 2 ∨ arg = 3 ∨ arg = 4 ∨ arg = 5 ∨ arg = 6 ∨ arg = 7 ∨ arg = 8 ∨ arg = 9 ∨ arg = 10 ∨ arg = 11 := by omega
      rcases this with rfl | rfl | rfl | rfl | rfl | rfl | rfl | rfl | rfl | rfl | rfl | rfl <;> simp [List.finRange_succ] 
    · rw [List.drop_eq_nil_of_le (by simpa using h)]
      rw [List.map_congr_left (g := fun _ => 0) (by intro k _; have := k.2; rw [if_neg (by omega)])]
      simp

end Sys2Proof.Machine
end

