-- ==== Sys2Proof/Laws/Discards.lean ====
section
/-! SUPPORT. What discarding every record of a bay, the rewind, a lane reset and a timeout event come to, each as one change of
the bay, for proofs to cite. -/

namespace Sys2Proof.Machine

/-- The tags of a list freed. -/
def freeTags (l : List Tag) (v : Vector (Option Rec) 32) : Vector (Option Rec) 32 := l.foldl (fun v (g : Tag) => v.set g none) v

theorem freeTags_get (l : List Tag) (v : Vector (Option Rec) 32) (j : Tag) : (freeTags l v)[j] = if j ∈ l then none else v[j] := by
  induction l generalizing v with
  | nil => rfl
  | cons g t ih =>
    show (freeTags t (v.set g none))[j] = _
    rw [ih]
    by_cases h : j ∈ t
    · rw [if_pos h, if_pos (List.mem_cons_of_mem _ h)]
    · rw [if_neg h]
      show (v.set g none)[(j : Nat)] = _
      rw [Vector.getElem_set]
      by_cases e : (g : Nat) = (j : Nat)
      · rw [if_pos e, if_pos (by rw [Fin.ext e.symm]; exact List.mem_cons_self)]
      · rw [if_neg e, if_neg (by simp [h]; intro hh; exact e (by rw [hh]))]; rfl

theorem freeTags_all (v : Vector (Option Rec) 32) : freeTags allTags v = Vector.replicate 32 none := by
  ext1 j hj
  have := freeTags_get allTags v ⟨j, hj⟩
  rw [if_pos (show (⟨j, hj⟩ : Tag) ∈ allTags from List.mem_finRange _)] at this
  rw [Vector.getElem_replicate]; exact this

/-- A test of the record on a tag; a free tag fails it. -/
def Tracker.recIs (t : Tracker) (p : Rec → Bool) (g : Tag) : Bool := match t.recs[g] with
  | some r => p r
  | none => false

/-- The completion that a discarded host record gets. -/
def Bay.hostCompletion (x : Bay) (st : UpStatus) (tag : Tag) : Option UpFrame := match x.tracker.recs[tag] with
  | some r => if r.origin = .host then some (.completion tag st) else none
  | none => none

/-- The discard of the records on some tags, as one change of the bay. -/
def Bay.dropTags (st : Option UpStatus) (retire : Bool) (l : List Tag) (x : Bay) : Bay :=
  let own := l.any (x.tracker.recIs (fun r => decide (r.origin = .ship ∧ r.gen = x.plan.gen)))
  let any := l.any (x.tracker.recIs (fun r => decide (r.origin = .ship)))
  { x with
    tracker := { x.tracker with recs := freeTags l x.tracker.recs }
    lane := { x.lane with
      retired := if retire then x.lane.retired ++ l.filter (fun tag => x.tracker.recs[tag].isSome) else x.lane.retired
      upSent := match (generalizing := false) st with
        | some u => if x.lane.upUp then x.lane.upSent ++ l.filterMap (x.hostCompletion u) else x.lane.upSent
        | none => x.lane.upSent }
    power := { x.power with
      learnWait := if l.any (x.tracker.recIs (fun r => decide (r.origin = .learn))) then decide (x.power.state = .spinningUp)
        else x.power.learnWait }
    ship := if x.shipping && own then { x.ship with name := .writing, reissue := true }
      else if !x.shipping && any then { x.ship with name := .failed, reissue := false } else x.ship }

theorem dropTags_nil (st : Option UpStatus) (ret : Bool) (x : Bay) : x.dropTags st ret [] = x := by
  unfold Bay.dropTags
  cases st <;> simp [freeTags]

theorem recs_set_self (v : Vector (Option Rec) 32) (g : Tag) (h : v[g] = none) : v.set g none = v := by
  ext1 i hi
  rw [Vector.getElem_set]
  split
  · rename_i e; subst e; exact h.symm
  · rfl

/-- The discard of a tag's record, its tests spelled out. -/
theorem dropTags_one (st : Option UpStatus) (ret : Bool) (g : Tag) (x : Bay) (r : Rec) (hr : x.tracker.recs[g] = some r) :
    x.dropTags st ret [g] = { x with
      tracker := { x.tracker with recs := x.tracker.recs.set g none }
      lane := { x.lane with
        retired := if ret then x.lane.retired ++ [g] else x.lane.retired
        upSent := match (generalizing := false) st with
          | some u => if x.lane.upUp then x.lane.upSent ++ (if r.origin = Origin.host then [UpFrame.completion g u] else []) else x.lane.upSent
          | none => x.lane.upSent }
      power := { x.power with
        learnWait := if r.origin = .learn then decide (x.power.state = .spinningUp) else x.power.learnWait }
      ship := if x.shipping = true ∧ r.origin = .ship ∧ r.gen = x.plan.gen then { x.ship with name := .writing, reissue := true }
        else if x.shipping = false ∧ r.origin = .ship then { x.ship with name := .failed, reissue := false } else x.ship } := by
  have h1 : ∀ p : Rec → Bool, [g].any (x.tracker.recIs p) = p r := by
    intro p; rw [List.any_cons, List.any_nil, Bool.or_false]; unfold Tracker.recIs; rw [hr]
  have h2 : [g].filter (fun tag => x.tracker.recs[tag].isSome) = [g] := by
    rw [List.filter_cons, hr]; rfl
  have h3 : ∀ u : UpStatus, [g].filterMap (x.hostCompletion u) = if r.origin = Origin.host then [UpFrame.completion g u] else [] := by
    intro u
    rw [List.filterMap_cons, List.filterMap_nil]
    unfold Bay.hostCompletion; rw [hr]; simp only
    by_cases h : r.origin = .host
    · rw [if_pos h, if_pos h]
    · rw [if_neg h, if_neg h]
  unfold Bay.dropTags
  simp only [h1, h2, h3, Bool.and_eq_true, decide_eq_true_eq, Bool.not_eq_true']
  cases st <;> rfl

theorem dropTags_free (st : Option UpStatus) (ret : Bool) (g : Tag) (x : Bay) (hr : x.tracker.recs[g] = none) : x.dropTags st ret [g] = x := by
  have h1 : ∀ p : Rec → Bool, [g].any (x.tracker.recIs p) = false := by
    intro p; rw [List.any_cons, List.any_nil, Bool.or_false]; unfold Tracker.recIs; rw [hr]
  have h2 : [g].filter (fun tag => x.tracker.recs[tag].isSome) = [] := by
    rw [List.filter_cons, hr]; rfl
  have h3 : ∀ u : UpStatus, [g].filterMap (x.hostCompletion u) = [] := by
    intro u
    rw [List.filterMap_cons, List.filterMap_nil]
    unfold Bay.hostCompletion; rw [hr]
  have h4 : freeTags [g] x.tracker.recs = x.tracker.recs := recs_set_self _ _ hr
  unfold Bay.dropTags
  simp only [h1, h2, h3, h4, Bool.and_false, Bool.false_eq_true, if_false, List.append_nil, ite_self]
  cases st <;> rfl

/-- What a discarded SHIP record makes of the ship state (R145). -/
theorem ownerDiscard_ship (r : Rec) (x : Bay) (h : r.origin = .ship) : x.ownerDiscard r = { x with
    ship := if x.shipping = true ∧ True ∧ r.gen = x.plan.gen then { x.ship with name := .writing, reissue := true }
      else if x.shipping = false ∧ True then { x.ship with name := .failed, reissue := false } else x.ship } := by
  have hs : x.stamping r.gen = true ↔ x.shipping = true ∧ True ∧ r.gen = x.plan.gen := by
    unfold Bay.stamping Bay.shipping; simp only [decide_eq_true_eq]; constructor
    · rintro ⟨a, b, c⟩; exact ⟨⟨a, b⟩, trivial, c.symm⟩
    · rintro ⟨⟨a, b⟩, _, c⟩; exact ⟨a, b, c.symm⟩
  unfold Bay.ownerDiscard
  rw [h]
  simp only
  by_cases h1 : x.stamping r.gen = true
  · rw [if_pos h1, if_pos (hs.mp h1)]
  · rw [if_neg h1, if_neg (fun e => h1 (hs.mpr e))]
    cases h2 : x.shipping
    · simp
    · simp

/-- One record discarded. -/
theorem discardOne_eq (b : BayIx) (st : Option UpStatus) (ret : Bool) (g : Tag) (s : State) :
    discardOne b st ret g s = s.modBay b (·.dropTags st ret [g]) := by
  unfold discardOne Tracker.rec?
  cases hr : (s.bay b).tracker.recs[g] with
  | none => exact (modBay_id _ _ _ (dropTags_free st ret g _ hr)).symm
  | some r =>
    rw [show s.modBay b (·.dropTags st ret [g]) = s.modBay b (fun _ => (s.bay b).dropTags st ret [g]) from modBay_eq rfl, dropTags_one st ret g _ r hr]
    have hup : ∀ (x : Bay) (u : UpStatus), x.modLane (·.sendUp (.completion g u)) = { x with lane := { x.lane with
        upSent := if x.lane.upUp then x.lane.upSent ++ [.completion g u] else x.lane.upSent } } := by
      intro x u; unfold Bay.modLane; simp only [sendUp_form]
    unfold complete sendUp
    simp only
    by_cases ho : r.origin = .ship
    · cases ret <;> cases st <;> simp only [modBay_modBay, Bool.false_eq_true, if_false, if_true, ho] <;> apply modBay_eq <;>
        rw [ownerDiscard_ship _ _ ho] <;> simp only [reduceCtorEq, if_false, List.append_nil, ite_self] <;> rfl
    · cases ret <;> cases ho2 : r.origin <;> cases st <;>
        first
        | exact absurd ho2 ho
        | (simp only [modBay_modBay, hup, Bool.false_eq_true, if_false, if_true] <;> apply modBay_eq <;>
            simp only [Bay.ownerDiscard, ho2, Bay.modTracker, Tracker.setRec, Bay.modLane, reduceCtorEq, and_false, false_and, if_false,
              List.append_nil, ite_self] <;> rfl)

theorem dropTags_recs (x : Bay) (st : Option UpStatus) (ret : Bool) (l : List Tag) (h : Tag) :
    (x.dropTags st ret l).tracker.recs[h] = if h ∈ l then none else x.tracker.recs[h] := freeTags_get l _ h

/-- Discards one after another are one. -/
theorem dropTags_cons (st : Option UpStatus) (ret : Bool) (g : Tag) (l : List Tag) (x : Bay) (hg : g ∉ l) :
    (x.dropTags st ret [g]).dropTags st ret l = x.dropTags st ret (g :: l) := by
  have hk : ∀ h ∈ l, (x.dropTags st ret [g]).tracker.recs[h] = x.tracker.recs[h] := by
    intro h hh; rw [dropTags_recs, if_neg]; intro e; rw [List.mem_singleton.mp e] at hh; exact hg hh
  have h1 : ∀ p : Rec → Bool, l.any ((x.dropTags st ret [g]).tracker.recIs p) = l.any (x.tracker.recIs p) := by
    intro p
    rw [Bool.eq_iff_iff, List.any_eq_true, List.any_eq_true]
    constructor <;> rintro ⟨h, hm, hp⟩ <;> refine ⟨h, hm, ?_⟩ <;> unfold Tracker.recIs at * <;> rw [hk h hm] at *
    · exact hp
    · exact hp
  have h2 : l.filter (fun tag => (x.dropTags st ret [g]).tracker.recs[tag].isSome) = l.filter (fun tag => x.tracker.recs[tag].isSome) :=
    List.filter_congr (fun h hm => by rw [hk h hm])
  have h3 : ∀ u : UpStatus, l.filterMap ((x.dropTags st ret [g]).hostCompletion u) = l.filterMap (x.hostCompletion u) := by
    intro u
    apply List.filterMap_congr
    intro h hm; unfold Bay.hostCompletion; rw [hk h hm]
  cases hr : x.tracker.recs[g] with
  | none =>
    rw [dropTags_free st ret g x hr]
    have k1 : ∀ p : Rec → Bool, (g :: l).any (x.tracker.recIs p) = l.any (x.tracker.recIs p) := by
      intro p; rw [List.any_cons]; unfold Tracker.recIs; rw [hr]; rfl
    have k2 : (g :: l).filter (fun tag => x.tracker.recs[tag].isSome) = l.filter (fun tag => x.tracker.recs[tag].isSome) := by
      rw [List.filter_cons, hr]; rfl
    have k3 : ∀ u : UpStatus, (g :: l).filterMap (x.hostCompletion u) = l.filterMap (x.hostCompletion u) := by
      intro u; rw [List.filterMap_cons]; unfold Bay.hostCompletion; rw [hr]
    have k4 : freeTags (g :: l) x.tracker.recs = freeTags l x.tracker.recs := by
      show freeTags l (x.tracker.recs.set g none) = _; rw [recs_set_self _ _ hr]
    unfold Bay.dropTags
    simp only [k1, k2, k3, k4]
  | some r =>
    have hy := dropTags_one st ret g x r hr
    have k1 : ∀ p : Rec → Bool, (g :: l).any (x.tracker.recIs p) = (p r || l.any (x.tracker.recIs p)) := by
      intro p; rw [List.any_cons]; congr 1; unfold Tracker.recIs; rw [hr]
    have k2 : (g :: l).filter (fun tag => x.tracker.recs[tag].isSome) = g :: l.filter (fun tag => x.tracker.recs[tag].isSome) := by
      rw [List.filter_cons, hr]; rfl
    have k3 : ∀ u : UpStatus, (g :: l).filterMap (x.hostCompletion u)
        = (if r.origin = Origin.host then [UpFrame.completion g u] else []) ++ l.filterMap (x.hostCompletion u) := by
      intro u
      rw [List.filterMap_cons]
      conv => lhs; unfold Bay.hostCompletion
      rw [hr]; simp only
      by_cases h : r.origin = Origin.host
      · rw [if_pos h, if_pos h]; rfl
      · rw [if_neg h, if_neg h]; rfl
    have k5 : (x.dropTags st ret [g]).shipping = x.shipping := rfl
    have k6 : (x.dropTags st ret [g]).plan = x.plan := rfl
    generalize x.dropTags st ret [g] = y at h1 h2 h3 hy k5 k6 ⊢
    rw [show y.dropTags st ret l = { y with
      tracker := { y.tracker with recs := freeTags l y.tracker.recs }
      lane := { y.lane with
        retired := if ret then y.lane.retired ++ l.filter (fun tag => y.tracker.recs[tag].isSome) else y.lane.retired
        upSent := match (generalizing := false) st with
          | some u => if y.lane.upUp then y.lane.upSent ++ l.filterMap (y.hostCompletion u) else y.lane.upSent
          | none => y.lane.upSent }
      power := { y.power with
        learnWait := if l.any (y.tracker.recIs (fun r => decide (r.origin = .learn))) then decide (y.power.state = .spinningUp)
          else y.power.learnWait }
      ship := if y.shipping && l.any (y.tracker.recIs (fun r => decide (r.origin = .ship ∧ r.gen = y.plan.gen)))
          then { y.ship with name := .writing, reissue := true }
        else if !y.shipping && l.any (y.tracker.recIs (fun r => decide (r.origin = .ship)))
          then { y.ship with name := .failed, reissue := false } else y.ship } from rfl]
    simp only [h1, h2, h3, k5, k6]
    rw [hy]
    unfold Bay.dropTags
    simp only [k1, k2, k3]
    congr 1
    · congr 1
      · cases ret
        · rfl
        · simp only [if_true, List.append_assoc]; rfl
      · cases st with
        | none => rfl
        | some u => cases x.lane.upUp <;> simp
    · generalize l.any (x.tracker.recIs fun r => decide (r.origin = .ship ∧ r.gen = x.plan.gen)) = own
      generalize l.any (x.tracker.recIs fun r => decide (r.origin = .ship)) = any
      by_cases a1 : r.origin = .ship <;> by_cases a2 : r.gen = x.plan.gen <;> cases x.shipping <;> cases own <;> cases any <;> simp [a1, a2]
    · congr 1
      generalize l.any (x.tracker.recIs fun r => decide (r.origin = .learn)) = any
      by_cases a1 : r.origin = .learn <;> cases any <;> simp [a1]

theorem discardFold_eq (b : BayIx) (st : Option UpStatus) (ret : Bool) : ∀ (l : List Tag) (s : State), l.Nodup →
    l.foldl (fun s tag => discardOne b st ret tag s) s = s.modBay b (·.dropTags st ret l)
  | [], s, _ => (modBay_id _ _ _ (dropTags_nil st ret _)).symm
  | g :: l, s, h => by
    rw [List.foldl_cons, discardOne_eq, discardFold_eq b st ret l _ (List.nodup_cons.mp h).2, modBay_modBay]
    exact modBay_eq (dropTags_cons st ret g l _ (List.nodup_cons.mp h).1)

theorem anyRec_recIs (t : Tracker) (p : Rec → Bool) : allTags.any (t.recIs p) = t.anyRec p := rfl

/-- Every record of the bay discarded: what that leaves of the bay (R30, R33, R145). -/
def Bay.dropAll (st : Option UpStatus) (retire : Bool) (x : Bay) : Bay :=
  { x with
    tracker := { x.tracker with
      recs := Vector.replicate 32 none
      idle := if x.tracker.hostOpen then some x.tracker.w else x.tracker.idle }
    lane := { x.lane with
      retired := if retire then x.lane.retired ++ allTags.filter (fun tag => x.tracker.recs[tag].isSome) else x.lane.retired
      downWait := []
      upSent := match (generalizing := false) st with
        | some u => if x.lane.upUp then x.lane.upSent ++ x.hostCompletions u else x.lane.upSent
        | none => x.lane.upSent }
    power := { x.power with
      learnWait := if x.tracker.anyRec (fun r => decide (r.origin = .learn)) then decide (x.power.state = .spinningUp)
        else x.power.learnWait }
    ship := x.shipDiscarded }

/-- Discarding everything is one change of the bay. -/
theorem discardAll_eq (b : BayIx) (st : Option UpStatus) (ret : Bool) (s : State) :
    discardAll b st ret s = s.modBay b (Bay.dropAll st ret) := by
  unfold discardAll
  simp only
  rw [discardFold_eq b st ret allTags s (List.nodup_finRange 32)]
  have hfree : ((s.bay b).dropTags st ret allTags).tracker.recs = Vector.replicate 32 none := freeTags_all _
  have hh : ∀ x : Tracker, x.recs = Vector.replicate 32 none → x.hostOpen = false := by
    intro x hx; unfold Tracker.hostOpen; rw [anyRec_false]; intro tag r hr
    rw [hx] at hr; simp at hr
  have hdrop : ((s.bay b).dropTags st ret allTags).modLane (fun l => { l with downWait := [] })
      = { (s.bay b).dropAll st ret with tracker := { (s.bay b).tracker with recs := Vector.replicate 32 none } } := by
    unfold Bay.dropTags Bay.dropAll Bay.modLane Bay.shipDiscarded
    rw [freeTags_all]
    cases st <;> rfl
  by_cases h : (s.bay b).tracker.hostOpen = true
  · rw [if_pos h]
    simp only [modBay_modBay]
    apply modBay_eq
    rw [hdrop]
    unfold Bay.modTracker
    simp only [startIdle_form]
    rw [hh _ rfl]
    unfold Bay.dropAll
    simp only [h, Bool.false_eq_true, if_false, if_true]
  · rw [if_neg h]
    simp only [modBay_modBay]
    apply modBay_eq
    rw [hdrop]
    unfold Bay.dropAll
    simp only [if_neg h]

/-- A request taken back from a visit is lost in the rewind that follows. -/
theorem rewind_takeBack (r : Rec) (a : Active) : (a.takeBack r).rewind = a.rewind := by
  unfold Active.takeBack
  cases r.visit with
  | none => rfl
  | some v =>
    simp only
    unfold Active.setVisit
    split
    · rfl
    · unfold Active.rewind
      congr 1
      ext1 i hi
      rw [getElem_mapVec, getElem_mapVec, Vector.getElem_setIfInBounds]
      split
      · rename_i hlt e
        subst e
        have : v - a.frontier < 8 := hi
        unfold Active.visit
        rw [if_neg hlt]
        simp [this]
        cases a.window[v - a.frontier] <;> rfl
      · rfl

theorem rewind_takeBacks : ∀ (l : List Rec) (w : Sweep), (∀ r ∈ l, r.origin = .sweep) →
    (l.foldl (fun w r => w.takeBack r) w).active.map Active.rewind = w.active.map Active.rewind
    ∧ l.foldl (fun w r => w.takeBack r) w = { w with active := (l.foldl (fun w r => w.takeBack r) w).active }
  | [], w, _ => ⟨rfl, rfl⟩
  | r :: l, w, h => by
    have hr : w.takeBack r = { w with active := w.active.map (fun a => if a.gen = r.gen then a.takeBack r else a) } := by
      unfold Sweep.takeBack; rw [h r List.mem_cons_self]
    obtain ⟨h1, h2⟩ := rewind_takeBacks l (w.takeBack r) (fun q hq => h q (List.mem_cons_of_mem _ hq))
    rw [List.foldl_cons]
    refine ⟨?_, ?_⟩
    · rw [h1, hr]
      cases w.active with
      | none => rfl
      | some a =>
        simp only [Option.map_some]
        split
        · rw [rewind_takeBack]
        · rfl
    · rw [h2, hr]

/-- What the rewind makes of a bay, with every record of the bay discarded before (R98, R113). -/
def Bay.rewinds (x : Bay) : Bay :=
  { x with
    tracker := { x.tracker with waiting := x.tracker.waiting.filter (fun r =>
      !(r.origin = .sweep && x.sweep.status.running) && !(r.origin = .rescan && x.sweep.rescan.isSome)) }
    sweep := { x.sweep with
      active := if x.sweep.status.running then x.sweep.active.map Active.rewind else x.sweep.active
      rescan := x.sweep.rescan.map (fun q => { q with chunks := [], awaitLink := !x.lane.downUp }) } }

/-- The rescan's part of the rewind (R113). -/
theorem rewindRescan_eq (b : BayIx) (s : State) :
    (if (s.bay b).sweep.rescan.isSome then rewindRescan b s else s) = s.modBay b (fun x => { x with
      tracker := { x.tracker with waiting := x.tracker.waiting.filter (fun r => !(r.origin = .rescan && x.sweep.rescan.isSome)) }
      sweep := { x.sweep with rescan := x.sweep.rescan.map (fun q => { q with chunks := [], awaitLink := !x.lane.downUp }) } }) := by
  cases hq : (s.bay b).sweep.rescan with
  | none =>
    rw [Option.isSome_none, if_neg (by simp)]
    refine (modBay_id _ _ _ ?_).symm
    have h1 : (s.bay b).tracker.waiting.filter (fun r => !(r.origin = .rescan && (s.bay b).sweep.rescan.isSome)) = (s.bay b).tracker.waiting := by
      rw [List.filter_eq_self]; intro r _; rw [hq]; simp
    have h2 : (s.bay b).sweep.rescan.map (fun q => { q with chunks := [], awaitLink := !(s.bay b).lane.downUp }) = (s.bay b).sweep.rescan := by
      rw [hq]; rfl
    simp only [h1, h2]
  | some q =>
    rw [Option.isSome_some, if_pos rfl]
    unfold rewindRescan withdrawRescan withdraw
    rw [modBay_modBay]
    apply modBay_eq
    simp only [Bay.modTracker, Bay.modSweep, hq, Option.isSome_some, Bool.and_true]

/-- The sweep's part of the rewind (R98). -/
theorem rewindSweep_eq (b : BayIx) (s : State) (h : (s.bay b).sweep.status.running = true) :
    rewindSweep b s = drainCheck b none (s.modBay b (fun x => { x with
      tracker := { x.tracker with waiting := x.tracker.waiting.filter (fun r => !decide (r.origin = .sweep)) }
      sweep := { x.sweep with active := x.sweep.active.map Active.rewind } })) := by
  unfold rewindSweep withdrawSweep withdraw
  rw [if_pos h]
  simp only [modBay_modBay]
  congr 1
  apply modBay_eq
  have hl : ∀ r ∈ (s.bay b).tracker.waiting.filter (fun r => r.origin = .sweep), r.origin = .sweep := by
    intro r hr; simpa using (List.mem_filter.mp hr).2
  obtain ⟨h1, h2⟩ := rewind_takeBacks _ (s.bay b).sweep hl
  simp only [Bay.modTracker, Bay.modSweep, h1]
  rw [h2]

/-- The rewind is one change of the bay; a sweep that drains may then end (R98, R100). -/
theorem rewind_eq (b : BayIx) (s : State) :
    rewind b s = if (s.bay b).sweep.status.running then drainCheck b none (s.modBay b Bay.rewinds) else s.modBay b Bay.rewinds := by
  unfold rewind
  simp only
  rw [rewindRescan_eq]
  by_cases h : (s.bay b).sweep.status.running = true
  · rw [if_pos h, rewindSweep_eq _ _ (by simpa using h), modBay_modBay]
    congr 1
    apply modBay_eq
    simp only [Bay.rewinds, h, List.filter_filter, Bool.and_true, if_true]
  · rw [if_neg h]
    unfold rewindSweep
    rw [if_neg (by simpa using h)]
    apply modBay_eq
    simp only [Bay.rewinds, h, Bool.and_false, Bool.not_false, Bool.true_and, Bool.false_eq_true, if_false]

/-- A lane reset: the discard and the rewind as one change of the bay, the end of a draining sweep, the count, the LEARN query asked
again, and the waiting requests assigned. -/
theorem laneReset_eq (b : BayIx) (s : State) :
    laneReset b s =
      let u := s.modBay b (fun x =>
        let y := x.discards (decide (x.power.state = .on))
        { y with lane := { y.lane with held := [], annexSvc := [] } })
      let v := if (s.bay b).sweep.status.running then drainCheck b none u else u
      assignAll b (relearn b (v.modBay b (fun x => { x with lane := { x.lane with linkResets := inc32 x.lane.linkResets } }))) := by
  unfold laneReset
  simp only [discardAll_eq, rewind_eq]
  have hsame : ∀ u v : State, u = v → u.modBay b (·.modLane fun l => { l with linkResets := inc32 l.linkResets })
      = v.modBay b (fun x => { x with lane := { x.lane with linkResets := inc32 x.lane.linkResets } }) := by
    rintro u _ rfl; rfl
  by_cases hon : (s.bay b).power.state = .on
  · have hd : decide ((s.bay b).power.state = .on) = true := decide_eq_true hon
    simp only [hd, if_true, Bool.not_true, modBay_modBay, bay_modBay_same]
    congr 2
    apply hsame
    have hu : s.modBay b (fun x => Bay.rewinds (((Bay.dropAll none false (x.modLane Lane.resetDown))).modLane fun l => { l with held := [], annexSvc := [] }))
      = s.modBay b (fun x => let y := x.discards (decide (x.power.state = .on)); { y with lane := { y.lane with held := [], annexSvc := [] } }) := by
      apply modBay_eq
      simp only [hd]
      unfold Bay.discards Bay.rewinds Bay.dropAll Bay.modLane Lane.resetDown Lane.dropDown
      simp only [Bool.not_true, Bool.and_false, Bool.true_or, Bool.not_false, if_true, Bool.false_eq_true, if_false]
      rfl
    rw [← hu]
    rfl
  · have hd : decide ((s.bay b).power.state = .on) = false := decide_eq_false hon
    simp only [hd, Bool.not_false, modBay_modBay, bay_modBay_same, Bool.false_eq_true, if_false]
    congr 2
    apply hsame
    have hu : s.modBay b (fun x => Bay.rewinds ((Bay.dropAll none true x).modLane fun l => { l with held := [], annexSvc := [] }))
      = s.modBay b (fun x => let y := x.discards (decide (x.power.state = .on)); { y with lane := { y.lane with held := [], annexSvc := [] } }) := by
      apply modBay_eq
      simp only [hd]
      unfold Bay.discards Bay.rewinds Bay.dropAll Bay.modLane
      simp only [Bool.not_false, Bool.and_true, Bool.false_or, if_true, Bool.false_eq_true, if_false]
      rfl
    rw [← hu]
    rfl

/-- A timeout event's state before its count: the records discarded and the sweep rewound where the limit is not reached. -/
theorem takeTimeout_eq (b : BayIx) (s : State) (h : s.reachesLimit b = false) (hst : (s.bay b).power.state ≠ .settling) :
    takeTimeout b s =
      let u := s.modBay b (fun x =>
        let y := x.discards true
        { y with lane := { y.lane with
            upSent := if x.lane.upUp then x.lane.upSent ++ x.hostCompletions .timeout else x.lane.upSent } })
      let v := if (s.bay b).sweep.status.running then drainCheck b none u else u
      assignAll b (v.modBay b (fun x => { x with tracker := { x.tracker with timeouts := inc32 x.tracker.timeouts } })) := by
  unfold takeTimeout
  simp only [discardAll_eq, rewind_eq, h, hst, decide_false, Bool.false_eq_true, if_false, modBay_modBay]
  congr 1
  have hu : s.modBay b (fun x => Bay.rewinds (Bay.dropAll (some .timeout) false (x.modLane Lane.resetDown)))
      = s.modBay b (fun x => let y := x.discards true; { y with lane := { y.lane with
            upSent := if x.lane.upUp then x.lane.upSent ++ x.hostCompletions .timeout else x.lane.upSent } }) := by
    apply modBay_eq
    unfold Bay.discards Bay.rewinds Bay.dropAll Bay.modLane Lane.resetDown Lane.dropDown
    simp only [Bool.not_true, Bool.and_false, Bool.true_or, Bool.not_false, if_true, Bool.false_eq_true, if_false]
    rfl
  rw [← hu, bay_modBay_same]
  rfl

/-- A sweep that does not drain is left as it is. -/
theorem drainCheck_quiet (b : BayIx) (u : State) (h : (u.bay b).sweep.status ≠ .draining) : drainCheck b none u = u := by
  unfold drainCheck
  simp only
  split
  · rw [if_neg (fun e => h e.1)]
  · rfl

/-- A draining sweep with no record left ends TIME-LIMIT, and the cursor moves on. -/
theorem drainCheck_ends (b : BayIx) (u : State) (a : Active) (k : SlotIx) (h : (u.bay b).sweep.status = .draining) (ha : (u.bay b).sweep.active = some a)
    (hn : ∀ g : Tag, (u.bay b).tracker.recs[g] = none) (hp : (u.bay b).plan.state = .running) (hc : (u.bay b).plan.cursor = some k) :
    drainCheck b none u = travel b arrivalFuel u.rack.slots[k].nxt (u.modBay b (·.sweepEnds a .timeLimit
      (if a.cfg.order = .ascendContinue then some { slot := a.slot, passIx := a.passIx, frontier := a.frontier } else (u.bay b).sweep.resume))) := by
  unfold drainCheck
  simp only [ha]
  have ho : (u.bay b).tracker.sweepOpen a.gen none = false := by
    unfold Tracker.sweepOpen
    rw [List.any_eq_false]
    intro g _
    unfold Tracker.rec?
    rw [hn g]; simp
  rw [if_pos ⟨h, ho⟩]
  unfold endSweep advancePlan goTo State.cursorSlot Bay.running
  have hpl : ((u.modBay b (·.modSweep (Sweep.endPhase .timeLimit a.passIx a.frontier))).bay b).plan = (u.bay b).plan := by simp
  simp only [hpl, hp, hc, decide_true, if_true, rack_modBay]
  congr 1
  apply modBay_eq
  unfold Bay.modSweep Sweep.endPhase Bay.sweepEnds resumeWritten
  simp only [ha, true_and]

/-- A grant test leaves the use counts. -/
theorem grantTest_counts (s : State) : (grantTest s).rack.useCounts = s.rack.useCounts := by
  have h1 : ∀ s : State, (grantOne s).rack.useCounts = s.rack.useCounts := by
    intro s; unfold grantOne; split
    · rfl
    · split <;> rfl
  have : ∀ (k : Nat) (s : State), (grantSome k s).rack.useCounts = s.rack.useCounts := by
    intro k
    induction k with
    | zero => intro s; rfl
    | succ k ih => intro s; exact (ih _).trans (h1 s)
  exact this 8 s

/-- Refusing the held commands, their completions spelled out. -/
theorem refuseHeld_eq (b : BayIx) (s : State) : refuseHeld b s = s.modBay b (fun x => { x with lane := { x.lane with
    upSent := if x.lane.upUp then x.lane.upSent ++ x.lane.held.map (fun h => .completion h.tag .notReady) else x.lane.upSent, held := [] } }) := by
  unfold refuseHeld
  have : ∀ (L : List Held) (s : State), L.foldl (fun s h => complete b h.tag .notReady s) s = s.modBay b (fun x => { x with lane := { x.lane with
      upSent := if x.lane.upUp then x.lane.upSent ++ L.map (fun h => .completion h.tag .notReady) else x.lane.upSent } }) := by
    intro L
    induction L with
    | nil => intro s; exact (modBay_id _ _ _ (by simp)).symm
    | cons h t ih =>
      intro s
      rw [List.foldl_cons, ih]
      unfold complete sendUp
      rw [modBay_modBay]; apply modBay_eq
      simp only [sendUp_form, Bay.modLane]
      by_cases hu : (s.bay b).lane.upUp = true <;> simp [hu]
  simp only [this, modBay_modBay]
  rfl

/-- The plan end before the power is disposed of. -/
def endOnly (b : BayIx) (o : PlanOutcome) (f : Option FaultCause) (e : Option SlotIx) (s : State) : State :=
  (s.modRack (Rack.release (s.bay b).plan.reach)).modBay b (fun x => (stopBay x).modPlan (Plan.finish o f e s.rack.ms))

/-- What the plan end makes of the bay. -/
theorem endOnly_bay (b : BayIx) (o : PlanOutcome) (f : Option FaultCause) (e : Option SlotIx) (s : State) :
    (endOnly b o f e s).bay b = (stopBay (s.bay b)).modPlan (Plan.finish o f e s.rack.ms) := by
  unfold endOnly
  rw [bay_modBay_same, bay_modRack]

/-- The plan end as `planEnd` forms it. -/
theorem endOnly_eq (b : BayIx) (o : PlanOutcome) (f : Option FaultCause) (e : Option SlotIx) (s u : State)
    (hu : u = (stopPhase b s).modRack (Rack.release ((stopPhase b s).bay b).plan.reach)) :
    u.modBay b (·.modPlan (Plan.finish o f e u.rack.ms)) = endOnly b o f e s := by
  have hu : u = (s.modRack (Rack.release (s.bay b).plan.reach)).modBay b stopBay := by
    rw [hu, stopPhase_form, bay_modBay_same, ← modRack_modBay]
    rw [show (stopBay (s.bay b)).plan.reach = (s.bay b).plan.reach from rfl]
  have hms : u.rack.ms = s.rack.ms := by simp only [hu, rack_modBay, rack_modRack, Rack.release]
  unfold endOnly
  rw [hms, hu, modBay_modBay]

/-- A plan end with the power asked off. -/
theorem planEnd_off (b : BayIx) (o : PlanOutcome) (f : Option FaultCause) (e : Option SlotIx) (s : State) (ho : o ≠ .faulted) :
    planEnd b o f e .off s = refreshLamp b (raiseNotice b .planEnded (askOff b (endOnly b o f e s))) := by
  rw [← endOnly_eq b o f e s _ rfl]
  unfold planEnd
  simp only [if_neg ho, if_true]

/-- A plan end that leaves the power. -/
theorem planEnd_keep (b : BayIx) (o : PlanOutcome) (f : Option FaultCause) (e : Option SlotIx) (s : State) (ho : o ≠ .faulted) :
    planEnd b o f e .keep s = refreshLamp b (raiseNotice b .planEnded (endOnly b o f e s)) := by
  rw [← endOnly_eq b o f e s _ rfl]
  unfold planEnd
  simp only [if_neg ho, reduceCtorEq, if_false]

/-- A plan end by a fault. -/
theorem planEnd_faulted (b : BayIx) (f : Option FaultCause) (e : Option SlotIx) (s : State) :
    planEnd b .faulted f e .keep s = refreshLamp b (raiseNotice b .planEnded (faultGrade b (endOnly b .faulted f e s))) := by
  rw [← endOnly_eq b .faulted f e s _ rfl]
  unfold planEnd
  simp only [reduceCtorEq, if_false, if_true]

/-- The forced part of a power-off as one change of the bay, and the bay out of the grant queue. -/
theorem cutPower_eq (b : BayIx) (dest : PowerState) (s : State) :
    ∃ y, cutPower b dest s = (s.modBay b (fun _ => y)).modRack (fun r => { r with queue := r.queue.filter (fun c => c ≠ b) })
      ∧ y.power = { (s.bay b).power with state := dest, spinTimer := none, learnWait := false }
      ∧ y.lane.downUp = false ∧ y.lane.held = [] ∧ (∀ g : Tag, y.tracker.recs[g] = none) ∧ y.tracker.unsettled = .ranges []
      ∧ y.tracker.timeouts = (s.bay b).tracker.timeouts ∧ y.tracker.seq = (s.bay b).tracker.seq
      ∧ y.tracker.waiting = (s.bay b).tracker.waiting.filter (fun r => !decide (r.origin = .settle ∨ r.origin = .learn))
      ∧ y.annex = (s.bay b).annex ∧ y.plan = (s.bay b).plan ∧ y.sweep = (s.bay b).sweep ∧ y.grade = (s.bay b).grade
      ∧ y.ship = (s.bay b).shipDiscarded ∧ y.zm = (s.bay b).zm.suspectMark (s.bay b).tracker.unsettled := by
  unfold cutPower
  rw [discardAll_eq, cutSupply_form, refuseHeld_eq]
  unfold leaveQueue setPower
  simp only [modBay_modBay, modRack_modBay]
  refine ⟨_, rfl, ?_⟩
  refine ⟨rfl, rfl, rfl, fun g => ?_, rfl, rfl, rfl, rfl, rfl, rfl, rfl, rfl, rfl, rfl⟩
  simp [Bay.loseUnsettled, Bay.dropAll, Bay.modPower]

/-- With no record open a discard leaves the ship state. -/
theorem shipDiscarded_free (x : Bay) (h : ∀ g : Tag, x.tracker.recs[g] = none) : x.shipDiscarded = x.ship := by
  have : ∀ p : Rec → Bool, x.tracker.anyRec p = false := by
    intro p; rw [anyRec_false]; intro g r hr; rw [h g] at hr; cases hr
  unfold Bay.shipDiscarded
  simp only [this, Bool.and_false, Bool.false_eq_true, if_false]

/-- PART_TAG_ASSIGN commands, run one after another, are the assignments of that many requests. -/
theorem runs_assign (b : BayIx) : ∀ (k : Nat) (s t : State), Runs (List.replicate k (.partTagAssign b)) s t → t = assignSome b k s
  | 0, s, t, h => h
  | k + 1, s, t, h => by
    obtain ⟨u, h1, h2⟩ := h
    have : u = assignOne b s := by injection h1 with h1; exact h1.symm
    subst this
    exact runs_assign b k _ _ h2

/-- As many PART_TAG_ASSIGN commands as requests wait are the assignment of them all. -/
theorem assign_runs (b : BayIx) (s t : State) (h : Runs (List.replicate (s.bay b).tracker.waiting.length (.partTagAssign b)) s t) : t = assignAll b s :=
  runs_assign b _ s t h

/-- The forced part of a power-off to OFF is the statements' cut. -/
theorem cutPower_off (b : BayIx) (s : State) : cutPower b .off s = s.cutOff b := by
  unfold cutPower
  rw [discardAll_eq, cutSupply_form, refuseHeld_eq]
  unfold leaveQueue setPower
  simp only [modBay_modBay, modRack_modBay]
  refine congrArg (State.modRack · (fun r => { r with queue := r.queue.filter (fun c => decide (c ≠ b)) })) (modBay_eq (g := Bay.cutOff) ?_)
  unfold Bay.loseUnsettled Bay.dropAll Bay.cutOff Bay.modPower
  simp only
  congr 1
  · congr 1
    by_cases h : (s.bay b).lane.upUp = true
    · rw [if_pos h, if_pos h, if_pos h]
    · rw [if_neg h, if_neg h, if_neg h]
  · congr 1
    apply List.filter_congr
    intro r _
    cases r.origin <;> rfl

/-- A forced power-off with no fault, by the plan's phase. -/
theorem forcedOff_cases (b : BayIx) (s : State) :
    let cut := s.cutOff b
    let p := (s.bay b).plan
    (p.state ≠ .running ∨ p.step ≠ .settling → forcedOff b none s = grantTest cut)
    ∧ ∀ k : SlotIx, p.state = .running → p.step = .settling → p.cursor = some k →
      (∀ off, s.rack.slots[k].body = .powerCycle off →
        forcedOff b none s = grantTest (cut.modBay b (fun x => { x with plan := { x.plan with step := .offTime, timer := some off } })))
      ∧ (s.rack.slots[k].body = .powerOff → forcedOff b none s = grantTest (travel b arrivalFuel s.rack.slots[k].nxt cut)) := by
  intro cut p
  have hp : (cut.bay b).plan = p := by
    show ((s.modBay b Bay.cutOff).bay b).plan = p
    rw [bay_modBay_same]; rfl
  have hr : cut.rack.slots = s.rack.slots := rfl
  unfold forcedOff
  rw [cutPower_off]
  simp only
  unfold planToldOff Bay.running
  simp only [show (s.cutOff b).bay b = cut.bay b from rfl, hp, decide_eq_true_eq]
  refine ⟨fun h => ?_, fun k h1 h2 h3 => ⟨fun off h4 => ?_, fun h4 => ?_⟩⟩
  · rw [if_neg (by tauto)]
  · rw [if_pos ⟨h1, h2⟩]
    have hc : (s.cutOff b).cursorSlot b = s.rack.slots[k] := by
      unfold State.cursorSlot
      rw [show ((s.cutOff b).bay b).plan = p from hp, h3]; rfl
    rw [hc, h4]; rfl
  · rw [if_pos ⟨h1, h2⟩]
    have hc : (s.cutOff b).cursorSlot b = s.rack.slots[k] := by
      unfold State.cursorSlot
      rw [show ((s.cutOff b).bay b).plan = p from hp, h3]; rfl
    rw [hc, h4]
    simp only
    unfold advancePlan goTo Bay.running
    rw [hc, show ((s.cutOff b).bay b).plan = p from hp, if_pos (by simpa using h1)]

/-- A timeout event below the limit in SETTLING, with no sweep DRAINING: the records discarded, both counts raised, then a forced
power-off with no fault. -/
theorem takeTimeout_settling (b : BayIx) (s : State) (h : s.reachesLimit b = false) (hst : (s.bay b).power.state = .settling)
    (hnd : (s.bay b).sweep.status ≠ .draining) :
    takeTimeout b s = forcedOff b none (s.modBay b (fun x =>
      let y := x.discards true
      { y with
        lane := { y.lane with upSent := if x.lane.upUp then x.lane.upSent ++ x.hostCompletions .timeout else x.lane.upSent }
        tracker := { y.tracker with timeouts := inc32 x.tracker.timeouts }
        power := { y.power with settleFails := inc32 x.power.settleFails } })) := by
  unfold takeTimeout
  simp only [discardAll_eq, h, hst, decide_true, Bool.false_eq_true, if_false, if_true, modBay_modBay, rewind_eq, bay_modBay_same]
  have hdq : ∀ v : State, (v.bay b).sweep.status ≠ .draining → ∀ c : Bool, (if c = true then drainCheck b none v else v) = v := by
    intro v hv c; cases c
    · rfl
    · exact drainCheck_quiet b v hv
  rw [hdq _ (by rw [bay_modBay_same]; exact hnd)]
  simp only [modBay_modBay]
  congr 1
  apply modBay_eq
  unfold Bay.discards Bay.rewinds Bay.dropAll Bay.modLane Bay.modTracker Bay.modPower Lane.resetDown Lane.dropDown
  simp only [Bool.not_true, Bool.and_false, Bool.true_or, Bool.not_false, if_true, Bool.false_eq_true, if_false]
  rfl

/-- The grant test leaves the time, the slots and every plan. -/
theorem grantTest_keeps (s : State) : (grantTest s).rack.us = s.rack.us ∧ (grantTest s).rack.ms = s.rack.ms ∧ (grantTest s).rack.slots = s.rack.slots
    ∧ ∀ c, (grantTest s).bay c = { s.bay c with power := ((grantTest s).bay c).power } := by
  have h1 : ∀ s : State, (grantOne s).rack.us = s.rack.us ∧ (grantOne s).rack.ms = s.rack.ms ∧ (grantOne s).rack.slots = s.rack.slots
      ∧ ∀ c, (grantOne s).bay c = { s.bay c with power := ((grantOne s).bay c).power } := by
    intro s
    unfold grantOne
    split
    · exact ⟨rfl, rfl, rfl, fun _ => rfl⟩
    · rename_i d t _
      split
      · refine ⟨rfl, rfl, rfl, fun c => ?_⟩
        unfold grantBay
        simp only
        by_cases hc : c = d
        · subst hc; rw [bay_modBay_same]; rfl
        · rw [bay_modBay_other _ _ _ _ hc]; rfl
      · exact ⟨rfl, rfl, rfl, fun _ => rfl⟩
  have h2 : ∀ (k : Nat) (s : State), (grantSome k s).rack.us = s.rack.us ∧ (grantSome k s).rack.ms = s.rack.ms ∧ (grantSome k s).rack.slots = s.rack.slots
      ∧ ∀ c, (grantSome k s).bay c = { s.bay c with power := ((grantSome k s).bay c).power } := by
    intro k
    induction k with
    | zero => intro s; exact ⟨rfl, rfl, rfl, fun _ => rfl⟩
    | succ k ih =>
      intro s
      obtain ⟨a1, a2, a3, a4⟩ := h1 s
      obtain ⟨b1, b2, b3, b4⟩ := ih (grantOne s)
      exact ⟨b1.trans a1, b2.trans a2, b3.trans a3, fun c => by
        show (grantSome k (grantOne s)).bay c = { s.bay c with power := ((grantSome k (grantOne s)).bay c).power }
        conv_lhs => rw [b4 c, a4 c]⟩
  exact h2 8 s

end Sys2Proof.Machine
end

