-- ==== Sys2Proof/Laws/Closes.lean ====
section
/-! SUPPORT. Serving the annex, the completion window, and the closes of the part's own records, each as what it comes to; and
lists of commands run one after another. For proofs to cite. -/

namespace Sys2Proof.Machine

/-- The first element that satisfies a test, behind elements that do not. -/
theorem find_first (p : AnnexCmd → Bool) (pre post : List AnnexCmd) (c : AnnexCmd) (h : ∀ a ∈ pre, p a = false) (hc : p c = true) :
    (pre ++ c :: post).find? p = some c := by
  rw [List.find?_append, List.find?_eq_none.mpr (by intro a ha; simp [h a ha])]
  simp [hc]

/-- The next READ to serve is that of the first bay that has one. -/
theorem next_read (b : BayIx) (c : AnnexCmd) (s : State) (hb : s.readInService b = some c) (h : ∀ d, d < b → s.readInService d = none) : nextRead s = some (b, c) := by
  unfold nextRead allBays
  have key : ∀ l : List BayIx, l.Pairwise (· < ·) → b ∈ l → (l.filterMap (fun b => (s.readInService b).map (fun c => (b, c)))).head? = some (b, c) := by
    intro l
    induction l with
    | nil => intro _ h; simp at h
    | cons d t ih =>
      intro hs hm
      rw [List.pairwise_cons] at hs
      rcases List.mem_cons.mp hm with rfl | hm
      · rw [List.filterMap_cons_some (b := (b, c)) (by rw [hb]; rfl)]; rfl
      · rw [List.filterMap_cons_none (by rw [h d (hs.1 b hm)]; rfl)]; exact ih hs.2 hm
  exact key _ (by decide) (by clear * -; revert b; decide)

/-- What the annex shows does not depend on the frames sent or on the annex service. -/
theorem annexSector_lane (b : BayIx) (off : Nat) (f : Lane → Lane) (s : State) :
    annexSector b off (s.modBay b (·.modLane f)) = annexSector b off s := by
  have hp : ∀ c : BayIx, ((s.modBay b (·.modLane f)).bay c).power = (s.bay c).power ∧ ((s.modBay b (·.modLane f)).bay c).annex = (s.bay c).annex := by
    intro c
    by_cases h : c = b
    · subst h; rw [bay_modBay_same]; exact ⟨rfl, rfl⟩
    · rw [bay_modBay_other _ _ _ _ h]; exact ⟨rfl, rfl⟩
  have hc : ∀ c : BayIx, (s.modBay b (·.modLane f)).charge c = s.charge c := by
    intro c; unfold State.charge; rw [(hp c).1]; rfl
  have hr : rackFields (s.modBay b (·.modLane f)) = rackFields s := by
    unfold rackFields State.attention State.tally
    simp only [(hp _).1, (hp _).2, funext hc]
    rfl
  unfold annexSector
  rw [hr, bay_modBay_same]
  rfl

/-- The first sector of an annex READ, served as it arrives. -/
theorem begin_read (b : BayIx) (c : AnnexCmd) (s : State) (h : ∀ a ∈ (s.bay b).lane.annexSvc, a.tag ≠ c.tag) (hd : c.done = 0) (hc : 1 ≤ c.count) (sec : Sector) :
   annexTaken b c 1 (sendUp b (.readData c.tag [sec]) (beginAnnex b c s)) = s.modBay b (fun x =>
      if c.count = 1 then (x.sends (.readData c.tag [sec])).sends (.completion c.tag .good)
      else (x.sends (.readData c.tag [sec])).modLane (fun l => { l with annexSvc := l.annexSvc ++ [{ c with done := 1 }] })) := by
  unfold beginAnnex
  have e1 : ∀ n, List.map (fun a : AnnexCmd => if a.tag = c.tag then { a with done := n } else a) (s.bay b).lane.annexSvc = (s.bay b).lane.annexSvc := by
    intro n
    conv_rhs => rw [← List.map_id (s.bay b).lane.annexSvc]
    exact List.map_congr_left fun a ha => by rw [if_neg (h a ha)]; rfl
  have e2 : List.filter (fun a : AnnexCmd => decide (a.tag ≠ c.tag)) (s.bay b).lane.annexSvc = (s.bay b).lane.annexSvc := by
    apply List.filter_eq_self.mpr; intro a ha; simpa using h a ha
  unfold annexTaken complete sendUp
  rw [hd]
  by_cases h1 : c.count = 1
  · rw [if_neg (by omega)]
    simp only [modBay_modBay]
    apply modBay_eq
    rw [if_pos h1]
    simp only [Bay.modLane, Bay.sends, sendUp_form, List.filter_append, e2]
    simp
  · rw [if_pos (by omega)]
    simp only [modBay_modBay]
    apply modBay_eq
    rw [if_neg h1]
    simp only [Bay.modLane, Bay.sends, sendUp_form, List.map_append, Nat.zero_add]
    simp only [e1, List.map_cons, List.map_nil, ite_true]

/-- A number field as the sum of its bytes. -/
theorem bytesOf_sum (x : Sector) : ∀ (w i : Nat), bytesOf x i w = ((List.range w).map (fun j => (byteOf x (i + j)).toNat * 256 ^ j)).sum
  | 0, i => rfl
  | w + 1, i => by
    rw [bytesOf, bytesOf_sum x w (i + 1), List.range_succ_eq_map, List.map_cons, List.sum_cons, List.map_map]
    simp only [Nat.pow_zero, Nat.mul_one, Nat.add_zero]
    congr 1
    rw [← List.sum_map_mul_left]
    congr 1
    apply List.map_congr_left
    intro j _
    simp only [Function.comp]
    rw [show i + 1 + j = i + (j + 1) by omega, Nat.pow_succ]
    ring

/-- Payload sectors off the mailbox are misuses, one each. -/
theorem misuse_iter (b : BayIx) : ∀ (xs : List Sector) (off : Nat) (s : State), 0 < off →
    annexWrites b off xs s = s.modBay b (fun x => { x with annex := { x.annex with misuse := (fun n => if n < 2 ^ 32 - 1 then n + 1 else n)^[xs.length] x.annex.misuse } })
  | [], off, s, h => by
    unfold annexWrites
    exact (modBay_id _ _ _ rfl).symm
  | x :: t, off, s, h => by
    rw [annexWrites, misuse_iter b t (off + 1) _ (by omega)]
    have : annexWrite b off x s = misuse b s := by unfold annexWrite; rw [if_neg (by omega)]
    rw [this]
    unfold misuse
    rw [modBay_modBay]
    apply modBay_eq
    simp only [Bay.modAnnex, List.length_cons, Function.iterate_succ, Function.comp]
    rfl

/-- A hit leaves the mark. -/
theorem mark_hit (m : ZoneMap) (n : Nat) : ((m.hit n).get n).mark = (m.get n).mark := by
  unfold ZoneMap.hit ZoneMap.modify ZoneMap.put ZoneMap.get tblSet
  rw [if_neg (by
    intro e
    have key : ∀ h, satInc 255 h ≠ 0 := by intro h; unfold satInc; split <;> omega
    exact key _ (congrArg ZoneRec.hits e))]
  simp only [tblGet_put, if_true]
  rfl

/-- A visit's state: COMPLETE below the frontier, in the window as it holds, NOT-STARTED beyond. -/
theorem visit_eq (a : Active) (v : Nat) : a.visit v = if v < a.frontier then .complete else if h : v - a.frontier < 8 then a.window[v - a.frontier] else .notStarted := by
  unfold Active.visit
  split
  · rfl
  · split
    · rename_i h; simp [h]
    · rename_i h; simp [h]

/-- Setting a visit changes that visit alone, where the window holds it. -/
theorem visit_set (a : Active) (v : Nat) (st : VisitState) (w : Nat) :
    (a.setVisit v st).visit w = if w = v ∧ a.frontier ≤ v ∧ v < a.frontier + 8 then st else a.visit w := by
  unfold Active.setVisit
  split
  · rename_i h; rw [if_neg (by omega)]
  · rename_i h
    rw [visit_eq, visit_eq]
    simp only
    by_cases h1 : w < a.frontier
    · rw [if_pos h1, if_pos h1, if_neg (by omega)]
    · rw [if_neg h1, if_neg h1]
      by_cases h2 : w - a.frontier < 8
      · rw [dif_pos h2, dif_pos h2, Vector.getElem_setIfInBounds]
        by_cases h3 : v - a.frontier = w - a.frontier
        · rw [if_pos h3, if_pos ⟨by omega, by omega, by omega⟩]
        · rw [if_neg h3, if_neg (by omega)]
      · rw [dif_neg h2, dif_neg h2, if_neg (by omega)]

theorem leading_le : ∀ l : List VisitState, leading l ≤ l.length
  | [] => Nat.le_refl _
  | x :: t => by
    have := leading_le t
    cases x <;> simp [leading]; omega

theorem leading_before : ∀ (l : List VisitState) (i : Nat), i < leading l → l[i]? = some .complete
  | [], i, h => by simp [leading] at h
  | x :: t, i, h => by
    cases x <;> simp [leading] at h
    cases i with
    | zero => rfl
    | succ i => simpa using leading_before t i (by omega)

theorem leading_at : ∀ (l : List VisitState), leading l < l.length → l[leading l]? ≠ some .complete
  | [], h => by simp [leading] at h
  | x :: t, h => by
    cases x <;> simp [leading] at h ⊢
    exact leading_at t (by omega)

/-- The frontier moves to the least visit that is not COMPLETE, at most 8 on, and the window shifts with it (R94). -/
theorem moveFrontier_least : ∀ (a : Active),
    let m := a.moveFrontier
    a.frontier ≤ m.frontier ∧ m.frontier ≤ a.frontier + 8
    ∧ (∀ w, a.frontier ≤ w → w < m.frontier → a.visit w = .complete)
    ∧ (m.frontier < a.frontier + 8 → a.visit m.frontier ≠ .complete)
    ∧ (∀ w, m.frontier ≤ w → w < a.frontier + 8 → m.visit w = a.visit w)
    ∧ (∀ w, a.frontier + 8 ≤ w → m.frontier ≤ w → m.visit w = .notStarted)
    ∧ m = { a with frontier := m.frontier, window := m.window } := by
  intro a m
  have hl : leading a.window.toList ≤ 8 := by simpa using leading_le a.window.toList
  have hm : m.frontier = a.frontier + leading a.window.toList := rfl
  have hv : ∀ w, a.frontier ≤ w → a.visit w = (a.window.toList[w - a.frontier]?).getD .notStarted := by
    intro w h; unfold Active.visit; rw [if_neg (by omega)]; simp
  have hmv : ∀ w, m.frontier ≤ w → m.visit w = if w < m.frontier + 8 then a.visit w else .notStarted := by
    intro w h
    rw [visit_eq, if_neg (by omega)]
    by_cases h2 : w < m.frontier + 8
    · rw [dif_pos (by omega), if_pos h2]
      show (shiftWindow a.window _)[w - m.frontier] = _
      unfold shiftWindow
      rw [Vector.getElem_ofFn]
      unfold Active.visit
      rw [if_neg (by omega)]
      congr 2
      simp only
      omega
    · rw [dif_neg (by omega), if_neg h2]
  refine ⟨by omega, by omega, fun w h1 h2 => ?_, fun h => ?_, fun w h1 h2 => ?_, fun w h1 h2 => ?_, rfl⟩
  · rw [hv w h1, leading_before _ _ (by omega)]; rfl
  · rw [hv _ (by omega)]
    have := leading_at a.window.toList (by simp; omega)
    rw [show m.frontier - a.frontier = leading a.window.toList by omega]
    cases hx : a.window.toList[leading a.window.toList]? with
    | none => simp
    | some z => simp; intro e; exact this (by rw [hx, e])
  · rw [hmv w h1, if_pos (by omega)]
  · rw [hmv w h2]; split
    · rw [hv w (by omega), List.getElem?_eq_none (by simp; omega)]; rfl
    · rfl

/-- Copies of one command, run one after another, are its meaning repeated. -/
theorem runs_repeat (b : BayIx) (c : Instr) (f : State → State) (hf : ∀ s, exec c s = .next (f s)) : ∀ (k : Nat) (s t : State), Runs (List.replicate k c) s t → t = repeatBay f k s
  | 0, s, t, h => h
  | k + 1, s, t, h => by
    obtain ⟨u, h1, h2⟩ := h
    have : u = f s := by rw [hf] at h1; injection h1 with h1; exact h1.symm
    subst this
    exact runs_repeat b c f hf k _ _ h2

/-- The close of a record of the part's own: its effects, its owner's step, the tag freed, a waiting request's assignment, and the read
that a closed write makes due. -/
theorem close_part (b : BayIx) (tag : Tag) (r : Rec) (st : DriveStatus) (s : State) (hr : (s.bay b).tracker.recs[tag] = some r) (ho : r.origin ≠ .host) :
    exec (.completion b tag st) s = .next (readAtOnce b r (assignOne b ((tellOwner b tag r st (closeEffects b r st (s.binned b r))).modBay b (·.freed tag)))) := by
  refine congrArg Host.Outcome.next ?_
  rw [show (s.bay b).tracker.rec? tag = some r from hr]
  simp only
  unfold closeRec
  simp only [if_neg ho]
  unfold startPulse
  rw [modBay_modBay]
  rfl

/-- The close of a sweep's record through COMPLETION, from what the sweep makes of it. -/
theorem sweep_told (b : BayIx) (tag : Tag) (r : Rec) (st : DriveStatus) (s t t' : State) (hr : (s.bay b).tracker.recs[tag] = some r) (ho : r.origin = .sweep)
    (ht : sweepClosed b tag r (closeEffects b r st (s.binned b r)) = t)
    (hr' : Runs (.partTagAssign b :: if r.kind = .write then List.replicate 8 (Instr.visitReadIssue b) else []) (t.modBay b (·.freed tag)) t') :
    exec (.completion b tag st) s = .next t' := by
  obtain ⟨w, h1, h2⟩ := hr'
  have hw : w = assignOne b (t.modBay b (·.freed tag)) := by injection h1 with h1; exact h1.symm
  rw [close_part b tag r st s hr (by rw [ho]; simp)]
  have : tellOwner b tag r st (closeEffects b r st (s.binned b r)) = t := by unfold tellOwner; rw [ho]; exact ht
  rw [this, ← hw]
  unfold readAtOnce
  rw [ho]
  by_cases hk : r.kind = .write
  · rw [if_pos hk] at h2
    rw [hk]; simp only
    exact congrArg _ (runs_repeat b (.visitReadIssue b) (issueRead b) (fun _ => rfl) 8 w t' h2).symm
  · rw [if_neg hk] at h2
    have h2 : t' = w := h2
    rw [h2]
    cases hkk : r.kind <;> simp_all

/-- No other record of the phase is open. -/
theorem sweepOpen_iff (t : Tracker) (gen : Nat) (tag : Tag) : t.sweepOpen gen (some tag) = false ↔ ∀ (g : Tag) (q : Rec), g ≠ tag → t.recs[g] = some q → q.origin = .sweep → q.gen ≠ gen := by
  unfold Tracker.sweepOpen allTags Tracker.rec?
  rw [List.any_eq_false]
  constructor
  · intro h g q hg hq ho hgen
    have := h g (List.mem_finRange g)
    rw [hq] at this
    exact this (by simp [ho, hgen, hg])
  · intro h g _
    cases hq : t.recs[g] with
    | none => simp
    | some q =>
      simp only [decide_eq_true_eq]
      rintro ⟨h1, h2, h3⟩
      exact h g q (by simpa using h3) hq h1 h2

/-- A list of commands runs in two parts. -/
theorem runs_append {l m : List Instr} : ∀ {s t : State}, Runs (l ++ m) s t → ∃ u, Runs l s u ∧ Runs m u t := by
  induction l with
  | nil => intro s t h; exact ⟨s, rfl, h⟩
  | cons c l ih =>
    intro s t h
    obtain ⟨u, h1, h2⟩ := h
    obtain ⟨w, k1, k2⟩ := ih h2
    exact ⟨w, ⟨u, h1, k1⟩, k2⟩

/-- One command of known effect. -/
theorem runs_one {c : Instr} {f : State → State} (hf : ∀ s, exec c s = .next (f s)) {s t : State} (h : Runs [c] s t) : t = f s := by
  obtain ⟨u, h1, h2⟩ := h
  have h2 : t = u := h2
  rw [hf] at h1; injection h1 with h1; rw [h2, ← h1]

/-- The close of a rescan's record through COMPLETION, from what the rescan makes of it. -/
theorem rescan_told : ∀ (b : BayIx) (tag : Tag) (r : Rec) (st : DriveStatus) (s t : State),
    (s.bay b).tracker.recs[tag] = some r → r.origin = .rescan →
    rescanClosed b r (closeEffects b r st (s.binned b r)) = t →
    (r.kind = .read → exec (.completion b tag st) s = exec (.partTagAssign b) (t.modBay b (·.freed tag)))
    ∧ (r.kind = .write → (t.bay b).tracker.waiting = [] → (∃ q, (t.bay b).sweep.rescan = some q ∧ q.waitingRead.isSome) →
          exec (.completion b tag st) s = exec (.rescanChunkIssue b) (t.modBay b (·.freed tag))) := by
  intro b tag r st s t hr ho ht
  have h := close_part b tag r st s hr (by rw [ho]; simp)
  have : tellOwner b tag r st (closeEffects b r st (s.binned b r)) = t := by unfold tellOwner; rw [ho]; exact ht
  rw [this] at h
  refine ⟨fun hk => ?_, fun hk hw hq => ?_⟩
  · rw [h]; unfold readAtOnce; rw [ho, hk]; rfl
  · rw [h]
    have e : assignOne b (t.modBay b (·.freed tag)) = t.modBay b (·.freed tag) := by
      unfold assignOne
      simp only [bay_modBay_same]
      rw [show ((t.bay b).freed tag).tracker.waiting = [] from hw]
    rw [e]
    unfold readAtOnce
    rw [ho, hk]
    refine congrArg Host.Outcome.next ?_
    obtain ⟨q, h1, h2⟩ := hq
    simp only
    unfold issueChunkRead
    rw [bay_modBay_same, show ((t.bay b).freed tag).sweep.rescan = some q from h1]
    simp only
    rw [if_pos h2]

/-- A chunk put to WRITTEN is found. -/
theorem find_put (j : Nat) (l : List (Nat × VisitState)) : ((tblSet .notStarted j .written l).find? (fun e => e.2 = .written)).isSome = true := by
  unfold tblSet
  rw [if_neg (by simp)]
  induction l with
  | nil => simp [tblPut]
  | cons e t ih =>
    obtain ⟨k, w⟩ := e
    unfold tblPut
    split
    · simp
    · split
      · simp
      · rw [List.find?_cons]; split
        · rfl
        · exact ih

/-- The latency of a CAPACITY command is not binned. -/
theorem binned_quiet (b : BayIx) (r : Rec) (s : State) (h : r.kind = .capacity) : s.binned b r = s := by
  unfold State.binned
  apply modBay_id
  rw [h]; rfl

/-- One entry of the hold list at the drain, as one change of the bay. -/
def drainBay (us : Word) (x : Bay) (h : Held) : Bay :=
  if h.kind = .flush ∨ h.lba + h.count ≤ x.lane.rc then
    x.forwards h.tag (hostRecord h.kind h.lba h.count us
      (if h.kind = .write ∧ x.settings.overlay = true then some x.sweep.passCounter else none)
      (decide (h.kind = .read) && x.settings.checking && x.annex.wipe.isNone) x.settings.tolerance
      (if h.kind = .flush then some x.tracker.seq else none)) []
  else x.sends (.completion h.tag .range)

theorem drainOne_eq (b : BayIx) (us : Word) (u : State) (h : Held) (hu : u.rack.us = us) : drainOne b u h = u.modBay b (fun x => drainBay us x h) := by
  unfold drainOne
  by_cases hc : h.kind = .flush ∨ h.lba + h.count ≤ (u.bay b).lane.rc
  · rw [if_pos hc, openHost_eq]
    apply modBay_eq
    unfold drainBay
    rw [if_pos hc]
    congr 1
    unfold fixRec hostRec hostRecord
    simp only [hu, Bay.wiping, Rec.blank]
    cases h.kind <;> simp
  · rw [if_neg hc]
    unfold complete sendUp
    apply modBay_eq
    unfold drainBay
    rw [if_neg hc]; rfl

/-- The drain of the hold list, as one change of the bay. -/
theorem drainHeld_eq (b : BayIx) (u : State) :
    drainHeld b u = u.modBay b (fun x => (u.bay b).lane.held.foldl (drainBay u.rack.us) { x with lane := { x.lane with held := [] } }) := by
  have hfold : ∀ (l : List Held) (v : State), v.rack = u.rack → l.foldl (drainOne b) v = v.modBay b (fun x => l.foldl (drainBay u.rack.us) x) := by
    intro l
    induction l with
    | nil => intro v _; exact (modBay_id _ _ _ rfl).symm
    | cons h t ih =>
      intro v hv
      rw [List.foldl_cons, drainOne_eq b u.rack.us v h (by rw [hv]), ih _ (by rw [rack_modBay, hv]), modBay_modBay]
      rfl
  unfold drainHeld
  simp only
  rw [hfold _ _ (by rfl), modBay_modBay]
  rfl

/-- The drain leaves the plan and the power. -/
theorem drainBay_keeps (us : Word) : ∀ (l : List Held) (x : Bay), (l.foldl (drainBay us) x).plan = x.plan ∧ (l.foldl (drainBay us) x).power = x.power
  | [], x => ⟨rfl, rfl⟩
  | h :: t, x => by
    rw [List.foldl_cons]
    have := drainBay_keeps us t (drainBay us x h)
    rw [this.1, this.2]
    unfold drainBay; split <;> exact ⟨rfl, rfl⟩

end Sys2Proof.Machine
end

