-- ==== Sys2Proof/Laws/Due.lean ====
section
/-! SUPPORT. What is due with no command waiting, condition by condition (log entry 1), and what the passing of time changes. -/

namespace Sys2Proof.Machine

/-- A selection that maps what it takes by `g` is a sublist of the whole list mapped by `g`. -/
theorem filterMap_sublist {α γ : Type} (f : α → Option γ) (g : α → γ) (hf : ∀ a, f a = none ∨ f a = some (g a)) (l : List α) :
    (l.filterMap f).Sublist (l.map g) := by
  induction l with
  | nil => exact List.Sublist.refl _
  | cons a t ih =>
    rcases hf a with h | h
    · rw [List.filterMap_cons_none h]; exact ih.cons _
    · rw [List.filterMap_cons_some h]; exact ih.cons_cons _

/-- Some offset of the window passes a test. -/
theorem find_isSome_fin {p : Fin 8 → Bool} : (winIxs.find? p).isSome = true ↔ ∃ i, p i = true := by
  rw [List.find?_isSome]
  constructor
  · rintro ⟨i, _, h⟩; exact ⟨i, h⟩
  · rintro ⟨i, h⟩
    refine ⟨i, ?_, h⟩
    have : ∀ i : Fin 8, i ∈ winIxs := by decide
    exact this i

/-- A read waits exactly where a visit of the window is WRITTEN (R93). -/
theorem waitingRead_isSome (a : Active) : a.waitingRead.isSome = true ↔ ∃ i : Fin 8, a.window[i] = .written := by
  unfold Active.waitingRead
  rw [Option.isSome_map, find_isSome_fin]
  simp

/-- No read waits exactly where no visit of the window is WRITTEN. -/
theorem waitingRead_isNone (a : Active) : a.waitingRead.isNone = true ↔ ∀ i : Fin 8, a.window[i] ≠ .written := by
  have := waitingRead_isSome a
  rw [← Option.not_isSome, Bool.not_eq_true', ← Bool.not_eq_true, this]; push Not; rfl

theorem winIxs_fin : winIxs = List.finRange 8 := by decide

/-- In flight counts the visits of the window that are started and not COMPLETE (R84). -/
theorem inFlight_eq (a : Active) :
    a.inFlight = ((List.finRange 8).filter (fun i => decide (a.window[i] ≠ .notStarted ∧ a.window[i] ≠ .complete))).length := by
  unfold Active.inFlight
  rw [winIxs_fin]
  congr 2
  funext i
  cases a.window[i] <;> rfl

/-- The next visit is one that may start: the lowest NOT-STARTED visit lies in the window and in the pass. -/
theorem nextVisit_iff (a : Active) : (a.nextVisit < a.n ∧ a.nextVisit < a.frontier + 8) ↔ ∃ i : Fin 8, a.window[i] = .notStarted ∧ a.frontier + i.val < a.n := by
  have hv : ∀ o, winIxs.find? (fun i => decide (a.window[i] = .notStarted)) = o → a.nextVisit = min a.n (a.frontier + match o with
      | some i => i.val
      | none => 8) := by
    rintro _ rfl; rfl
  rcases hf : winIxs.find? (fun i => decide (a.window[i] = .notStarted)) with _ | i0
  all_goals
    have hw := hv _ hf
    simp only at hw
    rw [hw]
  · constructor
    · omega
    · rintro ⟨i, h, _⟩
      have := (find_isSome_fin (p := fun i => decide (a.window[i] = .notStarted))).mpr ⟨i, by simpa using h⟩
      rw [hf] at this; simp at this
  · have h0 := List.find?_some hf
    constructor
    · intro h
      exact ⟨i0, by simpa using h0, by omega⟩
    · rintro ⟨i, h, hn⟩
      have hle : i0.val ≤ i.val := by
        by_contra hlt
        have : ∀ j i : Fin 8, ∀ p : Fin 8 → Bool, winIxs.find? p = some j → i.val < j.val → p i = false := by
          intro j i p hp hij
          rw [List.find?_eq_some_iff_append] at hp
          obtain ⟨_, as, bs, he, ha⟩ := hp
          have hpw : (winIxs.map Fin.val).Pairwise (· < ·) := by decide
          have hi : i ∈ winIxs := (by decide : ∀ i : Fin 8, i ∈ winIxs) i
          rw [he] at hi
          rcases List.mem_append.mp hi with h | h
          · simpa using ha i h
          · exfalso
            rw [he, List.map_append, List.pairwise_append] at hpw
            rcases List.mem_cons.mp h with h | h
            · subst h; omega
            · have := hpw.2.1
              rw [List.map_cons, List.pairwise_cons] at this
              have := this.1 i.val (List.mem_map_of_mem h)
              omega
        have := this i0 i _ hf (by omega)
        simp [h] at this
      have := i0.2
      omega

/-- A step is due exactly where its condition holds. -/
theorem mem_steps (l : List (Bool × Instr)) (c : Instr) :
    c ∈ l.filterMap (fun (p : Bool × Instr) => if p.1 then some p.2 else none) ↔ (true, c) ∈ l := by
  rw [List.mem_filterMap]
  constructor
  · rintro ⟨⟨p, d⟩, h, e⟩
    cases p
    · simp at e
    · simp at e; rw [← e]; exact h
  · intro h; exact ⟨_, h, by simp⟩

/-- An expiry is due exactly where its timer shows 0. -/
theorem mem_expiries (l : List (Option Nat × Instr)) (c : Instr) :
    c ∈ l.filterMap (fun (p : Option Nat × Instr) => if p.1 = some 0 then some p.2 else none) ↔ (some 0, c) ∈ l := by
  rw [List.mem_filterMap]
  constructor
  · rintro ⟨⟨p, d⟩, h, e⟩
    by_cases hp : p = some 0
    · subst hp; simp at e; rw [← e]; exact h
    · simp [hp] at e
  · intro h; exact ⟨_, h, by simp⟩

/-- In a rising table the lowest unlisted number is unlisted, and all below it are listed. -/
theorem lowestUnlisted_spec : ∀ (l : List (Nat × VisitState)) (k : Nat), l.Pairwise (fun e f => e.1 < f.1) → (∀ e ∈ l, k ≤ e.1) →
    k ≤ lowestUnlisted k l ∧ (∀ e ∈ l, e.1 ≠ lowestUnlisted k l) ∧ ∀ i, k ≤ i → i < lowestUnlisted k l → ∃ e ∈ l, e.1 = i := by
  intro l
  induction l with
  | nil => intro k _ _; refine ⟨Nat.le_refl _, by simp, fun i h1 h2 => ?_⟩; simp only [lowestUnlisted] at h2; omega
  | cons e t ih =>
    obtain ⟨m, v⟩ := e
    intro k hs hk
    rw [List.pairwise_cons] at hs
    unfold lowestUnlisted
    split
    · rename_i he; subst he
      obtain ⟨h1, h2, h3⟩ := ih (m + 1) hs.2 (fun e h => hs.1 e h)
      refine ⟨by omega, ?_, ?_⟩
      · intro e h
        rcases List.mem_cons.mp h with rfl | h
        · simp only; omega
        · exact h2 e h
      · intro i hi hj
        by_cases hm : i = m
        · exact ⟨(m, v), by simp, hm.symm⟩
        · obtain ⟨e, h, he⟩ := h3 i (by omega) hj
          exact ⟨e, List.mem_cons_of_mem _ h, he⟩
    · rename_i hne
      have hm := hk (m, v) (by simp)
      simp only at hm
      refine ⟨by omega, ?_, fun i _ _ => by omega⟩
      intro e h
      rcases List.mem_cons.mp h with rfl | h
      · simp only; omega
      · have := hs.1 e h; simp only at this; omega

/-- The next chunk of a rescan is its lowest NOT-STARTED one (R108). -/
theorem nextChunk_iff (q : Rescan) (hs : q.chunks.Pairwise (fun e f => e.1 < f.1)) (j : Nat) : q.nextChunk = some j ↔
        j < q.m ∧ (∀ e ∈ q.chunks, e.1 ≠ j) ∧ ∀ i, i < j → ∃ e ∈ q.chunks, e.1 = i := by
  obtain ⟨_, h2, h3⟩ := lowestUnlisted_spec q.chunks 0 hs (fun _ _ => Nat.zero_le _)
  unfold Rescan.nextChunk
  simp only
  constructor
  · intro h
    split at h
    · rename_i hl
      simp only [Option.some.injEq] at h
      subst h
      exact ⟨hl, h2, fun i hi => h3 i (Nat.zero_le _) hi⟩
    · simp at h
  · rintro ⟨hj, h4, h5⟩
    have : lowestUnlisted 0 q.chunks = j := by
      rcases Nat.lt_trichotomy (lowestUnlisted 0 q.chunks) j with h | h | h
      · obtain ⟨e, he, hi⟩ := h5 _ h
        exact absurd hi (h2 e he)
      · exact h
      · obtain ⟨e, he, hi⟩ := h3 j (Nat.zero_le _) h
        exact absurd hi (h4 e he)
    rw [this, if_pos hj]

/-- In flight of a rescan counts the chunks whose write or read is requested (R104). -/
theorem rescanInFlight_eq (q : Rescan) : q.inFlight = (q.chunks.filter (fun e => decide (e.2 = .writing ∨ e.2 = .reading))).length := by
  unfold Rescan.inFlight Rescan.countOf
  induction q.chunks with
  | nil => rfl
  | cons e t ih =>
    obtain ⟨k, v⟩ := e
    cases v <;> simp at ih ⊢ <;> omega

theorem rescanWaiting_isSome (q : Rescan) : q.waitingRead.isSome = true ↔ ∃ j, (j, VisitState.written) ∈ q.chunks := by
  unfold Rescan.waitingRead
  rw [Option.isSome_map, List.find?_isSome]
  constructor
  · rintro ⟨⟨j, v⟩, h, hv⟩
    simp only [decide_eq_true_eq] at hv
    subst hv
    exact ⟨j, h⟩
  · rintro ⟨j, h⟩; exact ⟨_, h, by simp⟩

/-- The unsettled-write list is empty. -/
theorem noneUnsettled_iff (u : Unsettled) : u.isEmpty = true ↔ u = .ranges [] := by
  cases u with
  | ranges l => cases l <;> simp [Unsettled.isEmpty]
  | whole q => simp [Unsettled.isEmpty]

/-- A part tag is to be had exactly where one is the lowest free one (R24). -/
theorem free_iff (x : Bay) : x.freePartTag.isSome = true ↔ ∃ tag, x.lowestFree tag := by
  constructor
  · intro h
    obtain ⟨t, ht⟩ := Option.isSome_iff_exists.mp h
    exact ⟨t, lowest_of_free ht⟩
  · rintro ⟨t, h⟩; rw [lowest_free h]; rfl

/-- Some credit is left unless it is the number 0 (R92). -/
theorem some_iff (c : Credit) : c.some? = true ↔ c ≠ .count 0 := by
  cases c with
  | unbounded => simp [Credit.some?]
  | count n => cases n <;> simp [Credit.some?]

/-- Where 0 ms pass, a bay's timers stand. -/
theorem elapse_zero (x : Bay) : x.elapse 0 = x := by
  have hf : ∀ t : Option Nat, tickDown 0 t = t := by intro t; cases t <;> simp [tickDown]
  have ha : (x.sweep.active.map fun a => ({ a with timeLeft := tickDown 0 a.timeLeft } : Active)) = x.sweep.active := by
    cases x.sweep.active with
    | none => rfl
    | some a => simp only [Option.map_some, hf]
  have hp : x.plan.elapse 0 = x.plan := by unfold Plan.elapse; rw [hf]; split <;> rfl
  have hs : x.sweep.elapse 0 = x.sweep := by unfold Sweep.elapse; rw [ha, hf, ite_self]
  unfold Bay.elapse
  simp only [hf, hp, hs]

/-- Less than a full ms changes the µs timestamp alone. -/
theorem advance_within (n : Nat) (s : State) (h : s.rack.sub + n < 1000) :
    advance n s = { s with rack := { s.rack with us := s.rack.us + BitVec.ofNat 32 n, sub := s.rack.sub + n } } := by
  unfold advance
  rw [Nat.div_eq_of_lt h, Nat.mod_eq_of_lt h]
  have hb : mapVec (Bay.elapse 0) s.bays = s.bays := by ext i hi; simp [mapVec, elapse_zero]
  have hm : s.rack.ms + BitVec.ofNat 32 0 = s.rack.ms := by simp
  simp only [hb, hm]

/-- The ms a timer has left. -/
theorem advanceMs_form (k : Nat) (s : State) (hk : 1 ≤ k) (h : s.rack.sub ≤ 1000 * k) :
    advanceMs k s = { s with
      bays := mapVec (Bay.elapse k) s.bays
      rack := { s.rack with us := s.rack.us + BitVec.ofNat 32 (1000 * k - s.rack.sub), ms := s.rack.ms + BitVec.ofNat 32 k, sub := 0 } } := by
  unfold advanceMs usUntil advance
  rw [if_neg (by omega)]
  have e : s.rack.sub + (k * 1000 - s.rack.sub) = k * 1000 := by omega
  rw [e, Nat.mul_div_cancel _ (by omega), Nat.mul_mod_left, Nat.mul_comm k]

end Sys2Proof.Machine
end

