-- ==== Sys2Proof/Laws/Layouts.lean ====
section
/-! SUPPORT. Layouts of sectors: fields laid one after another lie within a sector and do not overlap, said once for rows,
shifts, blocks and lists put together; for proofs that a report's fields fit. -/

namespace Sys2Proof.Machine

/-- The fields stand one after another from byte `lo` on and end by byte `hi`. -/
inductive Laid : Nat → List Field → Nat → Prop where
  | nil {lo hi : Nat} (h : lo ≤ hi) : Laid lo [] hi
  | cons {lo hi : Nat} {f : Field} {t : List Field} (h : lo ≤ f.pos) (k : Laid (f.pos + f.width) t hi) : Laid lo (f :: t) hi

theorem laid_nil (a c : Nat) : Laid a [] c ↔ a ≤ c := ⟨fun h => by cases h; assumption, .nil⟩

theorem laid_cons (f : Field) (t : List Field) (a c : Nat) : Laid a (f :: t) c ↔ a ≤ f.pos ∧ Laid (f.pos + f.width) t c :=
  ⟨fun h => by cases h; exact ⟨by assumption, by assumption⟩, fun h => .cons h.1 h.2⟩

theorem Laid.le {fs : List Field} : ∀ {lo hi : Nat}, Laid lo fs hi → lo ≤ hi := by
  induction fs with
  | nil => intro lo hi h; exact (laid_nil _ _).mp h
  | cons f t ih =>
    intro lo hi h
    have h2 := (laid_cons _ _ _ _).mp h
    have := ih h2.2
    omega

theorem Laid.mono {fs : List Field} : ∀ {lo lo' hi hi' : Nat}, Laid lo fs hi → lo' ≤ lo → hi ≤ hi' → Laid lo' fs hi' := by
  induction fs with
  | nil => intro lo lo' hi hi' h h1 h2; rw [laid_nil] at *; omega
  | cons f t ih =>
    intro lo lo' hi hi' h h1 h2
    rw [laid_cons] at *
    exact ⟨Nat.le_trans h1 h.1, ih h.2 (Nat.le_refl _) h2⟩

theorem Laid.append {fs gs : List Field} : ∀ {a m c : Nat}, Laid a fs m → Laid m gs c → Laid a (fs ++ gs) c := by
  induction fs with
  | nil => intro a m c h k; exact k.mono ((laid_nil _ _).mp h) (Nat.le_refl _)
  | cons f t ih =>
    intro a m c h k
    rw [laid_cons] at h
    rw [List.cons_append, laid_cons]
    exact ⟨h.1, ih h.2 k⟩

theorem Laid.shift (k : Nat) {fs : List Field} : ∀ {a c : Nat}, Laid a fs c → Laid (a + k) (shiftFields k fs) (c + k) := by
  induction fs with
  | nil =>
    intro a c h
    have h2 := (laid_nil _ _).mp h
    exact (laid_nil _ _).mpr (by omega)
  | cons f t ih =>
    intro a c h
    rw [laid_cons] at h
    have h2 := ih h.2
    have e : f.pos + f.width + k = f.pos + k + f.width := by omega
    rw [e] at h2
    exact (laid_cons _ _ _ _).mpr ⟨Nat.add_le_add_right h.1 k, h2⟩

/-- A row of fields of one width ends after all of them. -/
theorem Laid.row (w : Nat) : ∀ (l : List Nat) (o : Nat), Laid o (fieldRow w o l) (o + w * l.length)
  | [], o => by simp [fieldRow, laid_nil]
  | _ :: t, o => by
    refine (laid_cons _ _ _ _).mpr ⟨Nat.le_refl _, ?_⟩
    have := Laid.row w t (o + w)
    simp only [List.length_cons]
    exact this.mono (Nat.le_refl _) (by rw [Nat.mul_add]; omega)

/-- Blocks of `w` bytes, each with its own fields. -/
theorem Laid.blocks {α : Type} (w o : Nat) (g : α → List Field) (pos : α → Nat) : ∀ (l : List α) (k : Nat),
    (∀ a ∈ l, Laid 0 (g a) w) → (∀ (i : Nat) (h : i < l.length), pos l[i] = o + w * (k + i)) →
    Laid (o + w * k) (l.flatMap (fun a => shiftFields (pos a) (g a))) (o + w * (k + l.length))
  | [], k, _, _ => by simp [laid_nil]
  | a :: t, k, h, hp => by
    rw [List.flatMap_cons]
    have h0 := hp 0 (by simp)
    simp only [List.getElem_cons_zero, Nat.add_zero] at h0
    have h1 := (h a (by simp)).shift (pos a)
    rw [h0] at h1 ⊢
    have h2 := Laid.blocks w o g pos t (k + 1) (fun a ha => h a (by simp [ha])) (fun i hi => by
      have := hp (i + 1) (by simp; omega)
      simp only [List.getElem_cons_succ] at this
      rw [this]; congr 2; omega)
    refine Laid.append (h1.mono (by omega) (Nat.le_refl _)) (h2.mono (by rw [Nat.mul_add]; omega) ?_)
    simp only [List.length_cons]
    exact Nat.le_of_eq (by congr 2; omega)

/-- Blocks of `w` bytes, numbered from 0. -/
theorem Laid.range (w : Nat) (g : Nat → List Field) (h : ∀ i, Laid 0 (g i) w) (n : Nat) :
    Laid 0 ((List.range n).flatMap (fun i => shiftFields (w * i) (g i))) (w * n) := by
  have h := Laid.blocks w 0 g (fun i => w * i) (List.range n) 0 (fun a _ => h a) (by intro i hi; rw [List.getElem_range]; simp)
  rw [List.length_range] at h
  simpa using h

/-- Each field of a list so laid lies between its ends. -/
theorem Laid.mem {fs : List Field} : ∀ {a c : Nat}, Laid a fs c → ∀ f ∈ fs, a ≤ f.pos ∧ f.pos + f.width ≤ c := by
  induction fs with
  | nil => intro a c _ f hf; cases hf
  | cons g t ih =>
    intro a c hl f hf
    rw [laid_cons] at hl
    rcases List.mem_cons.mp hf with rfl | hf
    · exact ⟨hl.1, hl.2.le⟩
    · have := ih hl.2 f hf
      exact ⟨by have := hl.1; omega, this.2⟩

/-- Fields laid within 4096 bytes fit a sector. -/
theorem Laid.fits {fs : List Field} {a c : Nat} (hl : Laid a fs c) (hc : c ≤ 4096) : fitsSector fs := by
  refine ⟨fun f hf => Nat.le_trans (hl.mem f hf).2 hc, ?_⟩
  clear hc
  induction fs generalizing a with
  | nil => exact List.Pairwise.nil
  | cons g t ih =>
    rw [laid_cons] at hl
    exact List.Pairwise.cons (fun f hf => Or.inl (hl.2.mem f hf).1) (ih hl.2)

/-- A list of flags as a number: flag k is bit k. -/
theorem bitsToNat_bit : ∀ (l : List Bool) (k : Nat), (bitsToNat l).testBit k = l[k]?.getD false
  | [], k => by simp [bitsToNat]
  | b :: t, 0 => by cases b <;> simp [bitsToNat, codeOfBool, Nat.testBit_zero]
  | b :: t, k + 1 => by
    have : bitsToNat (b :: t) / 2 = bitsToNat t := by cases b <;> simp [bitsToNat, codeOfBool] <;> omega
    rw [Nat.testBit_succ, this, bitsToNat_bit t k]; simp

/-! ### The sectors that the annex shows, and the ship record -/

/-- A slot record lies in its 64 bytes (R175). -/
theorem slotFields_laid (r : Rack) (k : SlotIx) : Laid 0 (slotFields r k) 64 := by
  unfold slotFields bodyFields
  refine Laid.append (m := 3) (by simp [laid_nil, laid_cons]) ?_
  split <;> simp [laid_nil, laid_cons, fieldRow]

/-- The rule and bin records (R175). -/
theorem ruleBinFields_laid (r : Rack) : Laid 0 (ruleBinFields r) 4096 := by
  unfold ruleBinFields
  refine Laid.append (m := 384) ?_ (Laid.mono (lo := 384) (hi := 448) ?_ (by simp) (by simp))
  · exact (Laid.blocks 16 0 (fun k => ruleFields r.rules[k]) (fun k : Fin 24 => 16 * k.val) _ 0 (fun a _ => by simp [laid_nil, laid_cons, ruleFields]) (by intro i hi; simp)).mono (by simp) (by simp)
  · exact (Laid.blocks 4 384 (fun k => binFields r.bins[k]) (fun k : Fin 16 => 384 + 4 * k.val) _ 0 (fun a _ => by simp [laid_nil, laid_cons, binFields, fieldRow]) (by intro i hi; simp)).mono (by simp) (by simp)

/-- The rack report, whose queue has at most the 8 bays (R177). -/
theorem rackFields_laid (s : State) (h : s.rack.queue.length ≤ 8) : Laid 0 (rackFields s) 4096 := by
  unfold rackFields
  dsimp only
  refine Laid.append (m := 80) (Laid.append (m := 48) (Laid.append (m := 40) (Laid.append (m := 36) (Laid.append (m := 28) (Laid.append (m := 24) ?_ ?_) ?_) ?_) ?_) ?_) ?_
  · simp [laid_nil, laid_cons, fieldRow]
  · simp [laid_nil, laid_cons, fieldRow]
  · exact (Laid.row 1 _ 28).mono (by simp) (by simp; omega)
  · simp [laid_nil, laid_cons]
  · exact (Laid.row 1 _ 40).mono (by simp) (by simp [allBays])
  · exact (Laid.row 4 _ 48).mono (by simp) (by simp [allBays])
  · simp [laid_nil, laid_cons]

/-- A zone record lies in its 8 bytes (R176). -/
theorem zoneFields_laid (x : Bay) (n : Nat) : Laid 0 (zoneFields x n) 8 := by simp [zoneFields, laid_nil, laid_cons]

/-- A sector of zone records (R176). -/
theorem zonePage_laid (x : Bay) (page : Nat) : Laid 0 (zonePage x page) 4096 := by
  unfold zonePage
  exact Laid.mono (Laid.range 8 (fun i => zoneFields x (512 * page + i)) (fun _ => zoneFields_laid _ _) 512) (Nat.le_refl 0) (by norm_num)

/-- The sectors of zone records stand from annex offset 32 on (R163). -/
theorem annexSector_zones (b : BayIx) (page : Nat) (s : State) (hp : page < 8) : annexSector b (32 + page) s = sectorOf (zonePage (s.bay b) page) := by
  have above : ∀ k, k < 32 → 32 + page ≠ k := fun k hk => by omega
  have inside : 32 ≤ 32 + page ∧ 32 + page < 40 := by omega
  simp [annexSector, above, inside]

/-- The ship record (R173). -/
theorem shipFields_laid (r : Rack) (x : Bay) (b : BayIx) (l : Nat) : Laid 0 (shipFields r x b l) 4096 := by
  unfold shipFields
  refine Laid.append (m := 112) (Laid.append (m := 92) (Laid.append (m := 48) (Laid.append (m := 40) (Laid.append (m := 30) ?_ ?_) ?_) ?_) ?_) ?_
  · simp [laid_nil, laid_cons]
  · unfold shipGradeFields; split <;> simp [laid_nil, laid_cons]
  all_goals simp [laid_nil, laid_cons, fieldRow, Counters.list, ZoneMap.counts]

/-- The status and the position of a sweep (R176). -/
theorem positionFields_laid (w : Sweep) : Laid 2 (positionFields w) 76 := by
  unfold positionFields
  refine Laid.append (m := 4) (by simp [laid_nil, laid_cons]) ?_
  split
  · simp [laid_nil]
  · rename_i a _
    refine Laid.append (m := 68) (Laid.append (m := 62) (Laid.append (m := 56) (Laid.append (m := 8) ?_ ?_) ?_) ?_) ?_
    · simp [laid_nil, laid_cons]
    · simp [laid_nil, laid_cons, fieldRow]
    · simp [laid_nil, laid_cons, fieldRow]
    · simp [laid_nil, laid_cons]
    · exact (Laid.row 1 _ 68).mono (by simp) (by simp)

/-- The sweep state (R176). -/
theorem sweepFields_laid (x : Bay) : Laid 0 (sweepFields x) 4096 := by
  unfold sweepFields
  refine Laid.append (m := 516) (Laid.append (m := 512) (Laid.append (m := 136) (Laid.append (m := 96) (Laid.append (m := 76) (Laid.append (m := 2) ?_ (positionFields_laid _)) ?_) ?_) ?_) ?_) ?_
  · simp [laid_nil, laid_cons]
  · unfold resumeFields; split <;> simp [laid_nil, laid_cons]
  · unfold rescanFields; split <;> simp [laid_nil, laid_cons, fieldRow]
  · unfold savedFields
    split
    · simp [laid_nil, laid_cons]
    · refine Laid.append (m := 140) (by simp [laid_nil, laid_cons, fieldRow]) ?_
      split
      · exact ((positionFields_laid _).shift 256).mono (by simp) (by simp)
      · simp [laid_nil, laid_cons]
  · simp [laid_nil, laid_cons]
  · unfold queueFields rescanQueueMax
    simp [laid_nil, laid_cons, List.range_succ]

/-- The bay report (R177). -/
theorem reportFields_laid (s : State) (b : BayIx) (no : Word) : Laid 0 (reportFields s b no) 4096 := by
  unfold reportFields
  dsimp only
  refine Laid.append (m := 800) (Laid.append (m := 219) (Laid.append (m := 128) (Laid.append (m := 100) (Laid.append (m := 56) ?_ ?_) ?_) ?_) ?_) ?_
  · unfold identityFields; dsimp only; refine Laid.append (m := 40) ?_ ?_ <;> simp [laid_nil, laid_cons, fieldRow]
  · unfold planFields; refine Laid.append (m := 72) ?_ ?_ <;> simp [laid_nil, laid_cons, fieldRow]
  · unfold gradeFields; simp [laid_nil, laid_cons]
  · unfold countFields Counters.list ZoneMap.counts
    refine Laid.append (m := 200) (Laid.append (m := 180) ?_ ?_) ?_ <;> simp [laid_nil, laid_cons, fieldRow]
  · unfold originFields
    exact (Laid.row 1 _ 220).mono (by simp) (by simp)
  · unfold setupFields
    refine Laid.append (m := 848) (Laid.append (m := 828) (Laid.append (m := 824) (Laid.append (m := 816) (Laid.append (m := 808) (Laid.append (m := 804) ?_ ?_) ?_) ?_) ?_) ?_) ?_
    all_goals first
      | exact (Laid.row 4 _ 828).mono (by simp) (by simp)
      | simp [laid_nil, laid_cons, fieldRow]

/-- A row in two parts. -/
theorem fieldRow_append (w : Nat) : ∀ (l m : List Nat) (o : Nat), fieldRow w o (l ++ m) = fieldRow w o l ++ fieldRow w (o + w * l.length) m
  | [], m, o => by simp [fieldRow]
  | a :: t, m, o => by
    simp only [List.cons_append, fieldRow, fieldRow_append w t m, List.length_cons]
    congr 3; rw [Nat.mul_add]; omega

/-- The unsettled-write entries are one row of 8-byte numbers (R177). -/
theorem rangeFields_row : ∀ (l : List URange) (o : Nat), rangeFields o l = fieldRow 8 o (l.flatMap (fun u => [u.lo, u.hi, u.seq.toNat]))
  | [], o => rfl
  | u :: t, o => by
    rw [List.flatMap_cons, fieldRow_append, rangeFields, rangeFields_row t]; rfl

end Sys2Proof.Machine
end

