-- ==== Sys2Proof/Laws/OpenRecords.lean ====
section
/-! SUPPORT. An outcome that reaches the Zone Map, and all that follows from it in the same event, closes and discards no record of a
bay that is ON or SETTLING; so the record of a READ is still open when the next sector of its payload is judged. -/

namespace Sys2Proof.Machine

/-- The bay is ON or SETTLING. -/
def Bay.awake (x : Bay) : Prop := x.power.state = .on ∨ x.power.state = .settling

/-- In a bay that is ON or SETTLING every open record stays open as it is, and the bay stays ON or SETTLING. -/
def KeepsOpen (b : BayIx) (s t : State) : Prop :=
  (s.bay b).awake → (t.bay b).awake ∧ ∀ (g : Tag) (r : Rec), (s.bay b).tracker.recs[g] = some r → (t.bay b).tracker.recs[g] = some r

theorem KeepsOpen.refl (b : BayIx) (s : State) : KeepsOpen b s s := fun h => ⟨h, fun _ _ => id⟩

theorem KeepsOpen.trans {b : BayIx} {s t u : State} (h : KeepsOpen b s t) (k : KeepsOpen b t u) : KeepsOpen b s u := fun ha =>
  ⟨(k (h ha).1).1, fun g r e => (k (h ha).1).2 g r ((h ha).2 g r e)⟩

theorem open_ite (b : BayIx) (p : Prop) [Decidable p] {s t u : State} (h : KeepsOpen b s t) (k : KeepsOpen b s u) :
    KeepsOpen b s (if p then t else u) := by
  split
  · exact h
  · exact k

/-- A change of the bay that leaves its records and its power state. -/
theorem open_modBay (b : BayIx) (f : Bay → Bay) (s : State) (hr : (f (s.bay b)).tracker.recs = (s.bay b).tracker.recs := by rfl)
    (hp : (f (s.bay b)).power.state = (s.bay b).power.state := by rfl) : KeepsOpen b s (s.modBay b f) := by
  intro ha
  unfold Bay.awake
  rw [bay_modBay_same, hr, hp]
  exact ⟨ha, fun _ _ => id⟩

theorem open_modPlan (b : BayIx) (f : Plan → Plan) (s : State) : KeepsOpen b s (s.modBay b (·.modPlan f)) := open_modBay b _ s

theorem open_modRack (b : BayIx) (f : Rack → Rack) (s : State) : KeepsOpen b s (s.modRack f) := KeepsOpen.refl b s

/-! ### Requests -/

theorem freePartTag_free {x : Bay} {tag : Tag} (h : x.freePartTag = some tag) : x.tracker.recs[tag] = none := by
  have hp := List.find?_some h
  simp only [Bool.and_eq_true] at hp
  exact Option.isNone_iff_eq_none.mp hp.1

theorem open_openRec (b : BayIx) (tag : Tag) (r : Rec) (body : List Byte) (s : State) (h : (s.bay b).tracker.recs[tag] = none) :
    KeepsOpen b s (openRec b tag r body s) := by
  have h1 : KeepsOpen b s (s.modBay b (·.modTracker (·.setRec tag (some (fixRec s b r))))) := by
    intro ha
    unfold Bay.awake
    rw [bay_modBay_same]
    refine ⟨ha, fun g q hq => ?_⟩
    have hne : g ≠ tag := by rintro rfl; rw [h] at hq; cases hq
    show ((s.bay b).tracker.recs.set tag _)[g.val] = _
    rw [Vector.getElem_set_ne _ _ (fun e => hne (Fin.ext e.symm))]
    exact hq
  exact h1.trans (KeepsOpen.trans (open_ite b _ (open_modBay b _ _) (KeepsOpen.refl b _)) (open_modBay b _ _))

theorem open_requestTag (b : BayIx) (r : Rec) (s : State) : KeepsOpen b s (requestTag b r s) := by
  unfold requestTag
  refine open_ite b _ (open_modBay b _ s) ?_
  split
  · rename_i h; exact open_openRec b _ r [] s (freePartTag_free h)
  · exact open_modBay b _ s

theorem open_withdraw (b : BayIx) (p : Rec → Bool) (s : State) : KeepsOpen b s (withdraw b p s) := open_modBay b _ s

theorem open_withdrawSweep (b : BayIx) (s : State) : KeepsOpen b s (withdrawSweep b s) :=
  (open_modBay b _ s).trans (open_withdraw b _ _)

/-! ### Visits and rescans -/

theorem open_setActive (b : BayIx) (a : Active) (s : State) : KeepsOpen b s (setActive b a s) := open_modBay b _ s

theorem open_setRescan (b : BayIx) (q : Option Rescan) (s : State) : KeepsOpen b s (setRescan b q s) := open_modBay b _ s

theorem open_startVisit (b : BayIx) (s : State) : KeepsOpen b s (startVisit b s) := by
  unfold startVisit
  split
  · exact open_ite b _ ((open_setActive b _ s).trans (open_requestTag b _ _)) (KeepsOpen.refl b s)
  · exact KeepsOpen.refl b s

theorem open_issueRead (b : BayIx) (s : State) : KeepsOpen b s (issueRead b s) := by
  unfold issueRead
  split
  · split
    · exact open_ite b _ ((open_setActive b _ s).trans (open_requestTag b _ _)) (KeepsOpen.refl b s)
    · exact KeepsOpen.refl b s
  · exact KeepsOpen.refl b s

theorem open_repeat (b : BayIx) (f : State → State) (h : ∀ s, KeepsOpen b s (f s)) (k : Nat) (s : State) :
    KeepsOpen b s (repeatBay f k s) := by
  induction k generalizing s with
  | zero => exact KeepsOpen.refl b s
  | succ k ih => exact (h s).trans (ih _)

theorem open_pumpSweep (b : BayIx) (s : State) : KeepsOpen b s (pumpSweep b s) :=
  (open_repeat b _ (open_issueRead b) 8 s).trans (open_repeat b _ (open_startVisit b) 8 _)

theorem open_issueChunk (b : BayIx) (s : State) : KeepsOpen b s (issueChunk b s) := by
  have asked : ∀ (q : Rescan) (r : Rec), KeepsOpen b s (requestTag b r (setRescan b (some q) s)) := fun q r =>
    (open_setRescan b _ s).trans (open_requestTag b r _)
  unfold issueChunk
  dsimp only
  split
  · refine open_ite b _ ?_ (KeepsOpen.refl b s)
    split
    · exact asked _ _
    · split
      · exact open_ite b _ (asked _ _) (KeepsOpen.refl b s)
      · exact KeepsOpen.refl b s
  · exact KeepsOpen.refl b s

theorem open_takeRescan (b : BayIx) (isSweep : Bool) (s : State) : KeepsOpen b s (takeRescan b isSweep s) := by
  unfold takeRescan
  split
  · exact KeepsOpen.refl b s
  · exact (open_modBay b _ s).trans (open_repeat b _ (open_issueChunk b) 16 _)

theorem open_suspendPhase (b : BayIx) (isSweep : Bool) (s : State) : KeepsOpen b s (suspendPhase b isSweep s) := by
  unfold suspendPhase
  split
  · exact KeepsOpen.refl b s
  · exact KeepsOpen.trans (open_ite b _ (open_withdrawSweep b s) (KeepsOpen.refl b s)) (open_modBay b _ _)

theorem open_testRescan (b : BayIx) (s : State) : KeepsOpen b s (testRescan b s) :=
  open_ite b _ ((open_suspendPhase b _ s).trans (open_takeRescan b _ _)) (KeepsOpen.refl b s)

/-! ### The plan -/

theorem open_askOff (b : BayIx) (s : State) : KeepsOpen b s (askOff b s) := by
  intro ha
  unfold askOff
  rcases ha with h | h
  · rw [h]
    refine ⟨.inr (by simp [setPower]), fun g r e => ?_⟩
    simpa [setPower] using e
  · rw [h]
    exact ⟨.inr h, fun _ _ => id⟩

theorem open_stopPhase (b : BayIx) (s : State) : KeepsOpen b s (stopPhase b s) := by
  unfold stopPhase
  exact (open_withdraw b _ s).trans (open_modBay b _ _ (by dsimp only; split <;> rfl) (by dsimp only; split <;> rfl))

theorem recs_chooseLamp (r : Rack) (x : Bay) : (x.chooseLamp r).tracker = x.tracker := by
  unfold Bay.chooseLamp
  split <;> rfl

theorem open_refreshLamp (b : BayIx) (s : State) : KeepsOpen b s (refreshLamp b s) :=
  open_modBay b _ s (by rw [recs_chooseLamp]) (by rw [power_chooseLamp])

theorem open_raiseNotice (b : BayIx) (k : Notice) (s : State) : KeepsOpen b s (raiseNotice b k s) := open_modBay b _ s

theorem open_faultGrade (b : BayIx) (s : State) : KeepsOpen b s (faultGrade b s) := by
  unfold faultGrade
  exact open_modBay b _ s

theorem open_recordGrade (b : BayIx) (bin : Fin 16) (s : State) : KeepsOpen b s (recordGrade b bin s) := by
  unfold recordGrade
  exact open_modBay b _ s

theorem open_planEnd (b : BayIx) (o : PlanOutcome) (fault : Option FaultCause) (slot : Option SlotIx) (disp : Choice) (s : State) :
    KeepsOpen b s (planEnd b o fault slot disp s) := by
  unfold planEnd
  dsimp only
  refine KeepsOpen.trans ?_ ((open_raiseNotice b _ _).trans (open_refreshLamp b _))
  have asked : ∀ u v : State, KeepsOpen b u v → KeepsOpen b u (if disp = .off then askOff b v else v) := fun u v h =>
    open_ite b _ (h.trans (open_askOff b v)) h
  have graded : ∀ u v : State, KeepsOpen b u v → KeepsOpen b u (if o = .faulted then faultGrade b v else v) := fun u v h =>
    open_ite b _ (h.trans (open_faultGrade b v)) h
  exact asked _ _ (graded _ _ (((open_stopPhase b s).trans (open_modRack b _ _)).trans (open_modPlan b _ _)))

theorem open_setStep (b : BayIx) (st : PhaseStep) (timer : Option Nat) (s : State) : KeepsOpen b s (setStep b st timer s) :=
  open_modBay b _ s

theorem open_arriveLoop (b : BayIx) (k target : SlotIx) (count : Nat) (nxt : Option SlotIx) (s : State) :
    KeepsOpen b s (arriveLoop b k target count nxt s).inner := by
  unfold arriveLoop
  dsimp only
  split
  · exact KeepsOpen.refl b s
  · split <;> exact open_modPlan b _ s

theorem open_arriveStamp (b : BayIx) (lba : Nat) (s : State) : KeepsOpen b s (arriveStamp b lba s).inner := by
  unfold arriveStamp
  split
  · exact KeepsOpen.refl b s
  · split
    · exact KeepsOpen.refl b s
    · exact ((open_modBay b _ s).trans (open_setStep b .writing none _)).trans (open_requestTag b _ _)

theorem open_arriveCycle (b : BayIx) (off : Nat) (s : State) : KeepsOpen b s (arriveCycle b off s).inner := by
  unfold arriveCycle
  split
  · exact (open_setStep b _ _ s).trans (open_askOff b _)
  · exact open_setStep b _ _ s

theorem open_arriveOff (b : BayIx) (nxt : Option SlotIx) (s : State) : KeepsOpen b s (arriveOff b nxt s).inner := by
  unfold arriveOff
  split
  · exact (open_setStep b _ _ s).trans (open_askOff b _)
  · exact KeepsOpen.refl b s

theorem open_arriveSweep (b : BayIx) (k : SlotIx) (f : SweepCfg) (nxt : Option SlotIx) (s : State) :
    KeepsOpen b s (arriveSweep b k f nxt s).inner := by
  have h : KeepsOpen b s (setStep b .running none (s.modBay b (fun x => x.modSweep (Sweep.startPhase k f (x.power.cap.getD 0))))) :=
    (open_modBay b _ s).trans (open_setStep b _ _ _)
  unfold arriveSweep
  split
  · exact KeepsOpen.refl b s
  · dsimp only
    split <;> exact h

theorem open_arriveAt (b : BayIx) (k : SlotIx) (s : State) : KeepsOpen b s (arriveAt b k s).inner := by
  refine (open_modBay b _ s : KeepsOpen b s (setCursor b k s)).trans ?_
  unfold arriveAt
  dsimp only
  split
  · exact KeepsOpen.refl b _
  · exact open_arriveSweep b k _ _ _
  · split <;> exact open_setStep b _ _ _
  · exact open_arriveCycle b _ _
  · exact open_arriveOff b _ _
  · exact open_arriveLoop b k _ _ _ _
  · exact open_recordGrade b _ _
  · exact open_arriveStamp b _ _

theorem open_travel (b : BayIx) (fuel : Nat) (nxt : Option SlotIx) (s : State) : KeepsOpen b s (travel b fuel nxt s) := by
  induction fuel generalizing nxt s with
  | zero => cases nxt <;> exact KeepsOpen.refl b s
  | succ fuel ih =>
    cases nxt with
    | none => exact open_planEnd b _ _ _ _ s
    | some k =>
      have hc := open_arriveAt b k s
      rw [travel]
      split <;> rename_i e <;> rw [e] at hc
      · exact KeepsOpen.trans hc (open_testRescan b _)
      · exact KeepsOpen.trans hc (ih _ _)
      · exact KeepsOpen.trans hc (open_planEnd b _ _ _ _ _)

theorem open_advancePlan (b : BayIx) (s : State) : KeepsOpen b s (advancePlan b s) :=
  open_ite b _ (open_travel b _ _ s) (KeepsOpen.refl b s)

/-! ### The end of a sweep's pass and phase -/

theorem open_endSweep (b : BayIx) (r : EndReason) (i f : Nat) (s : State) : KeepsOpen b s (endSweep b r i f s) :=
  (open_modBay b _ s).trans (open_advancePlan b _)

theorem open_nextPass (b : BayIx) (a : Active) (s : State) : KeepsOpen b s (nextPass b a s) :=
  open_ite b _ ((open_modBay b _ s).trans (open_testRescan b _)) (open_endSweep b _ _ _ s)

theorem open_drainCheck (b : BayIx) (but : Option Tag) (s : State) : KeepsOpen b s (drainCheck b but s) := by
  unfold drainCheck
  dsimp only
  split
  · exact open_ite b _ (open_endSweep b _ _ _ s) (KeepsOpen.refl b s)
  · exact KeepsOpen.refl b s

theorem open_expireLimit (b : BayIx) (s : State) : KeepsOpen b s (expireLimit b s) :=
  ((open_withdrawSweep b s).trans (open_modBay b _ _)).trans (open_drainCheck b none _)

/-! ### The end of a rescan -/

theorem open_restoreSweep (b : BayIx) (v : Saved) (s : State) : KeepsOpen b s (restoreSweep b v s) := by
  refine (open_modBay b _ s : KeepsOpen b s (resumeSweep b s)).trans ?_
  unfold restoreSweep
  dsimp only
  split
  · exact KeepsOpen.refl b _
  · split
    · exact open_pumpSweep b _
    · exact open_ite b _ ((open_nextPass b _ _).trans (open_pumpSweep b _)) (open_nextPass b _ _)
    · exact open_expireLimit b _
    · exact open_endSweep b _ _ _ _

theorem open_restore (b : BayIx) (v : Saved) (s : State) : KeepsOpen b s (restore b v s) := by
  refine KeepsOpen.trans (open_modBay b (·.modSweep (fun w => { w with saved := none })) s) (KeepsOpen.trans ?_ (open_testRescan b _))
  exact open_ite b _ (open_restoreSweep b v _) (open_ite b _ (open_advancePlan b _) (KeepsOpen.refl b _))

theorem open_rescanEnd (b : BayIx) (s : State) : KeepsOpen b s (rescanEnd b s) := by
  refine (open_setRescan b none s).trans ?_
  unfold rescanEnd
  dsimp only
  split
  · exact KeepsOpen.refl b _
  · exact open_ite b _ (open_takeRescan b _ _) (open_restore b _ _)

/-! ### Outcomes -/

theorem open_zoneDefect (b : BayIx) (n : Nat) (o : Origin) (r : Nat) (s : State) : KeepsOpen b s (zoneDefect b n o r s) := by
  refine KeepsOpen.trans (open_modBay b (·.modZm (ZoneMap.hit n)) s) ?_
  unfold zoneDefect
  dsimp only
  refine open_ite b _ ?_ (open_ite b _ (open_modBay b _ _) ?_)
  · exact KeepsOpen.trans (KeepsOpen.trans (open_modBay b _ _) (open_withdraw b _ _)) (open_rescanEnd b _)
  · exact KeepsOpen.trans (open_modBay b _ _)
      (open_ite b _ (KeepsOpen.trans (open_modBay b _ _) (open_testRescan b _)) (KeepsOpen.refl b _))

/-- An outcome closes and discards no record of a bay that is ON or SETTLING. -/
theorem open_giveOutcome (b : BayIx) (l : Nat) (v : Verdict) (o : Origin) (r : Nat) (s : State) :
    KeepsOpen b s (giveOutcome b l v o r s) := by
  refine KeepsOpen.trans (open_modBay b (fun x => { x with counters := x.counters.note v }) s) ?_
  unfold giveOutcome
  dsimp only
  refine open_ite b _ ?_ (KeepsOpen.refl b _)
  split
  · exact open_zoneDefect b _ o r _
  · exact KeepsOpen.refl b _

/-! ### The sectors of a judged READ -/

/-- One sector of an open judged READ that is not past its count: counted, judged, and its outcome given (R25, R50, R59). -/
theorem deliverOne_judged (b : BayIx) (tag : Tag) (r : Rec) (sec : Sector) (s : State) (h : (s.bay b).tracker.recs[tag] = some r)
    (hj : r.judged = true) (hd : r.delivered < r.count) :
    deliverOne b tag s sec = giveOutcome b (r.lba + r.delivered) (judge (s.bay b) r.tol (r.lba + r.delivered) sec) r.origin r.rescans
      (s.modBay b (·.modTracker (·.setRec tag (some { r with delivered := r.delivered + 1 })))) := by
  unfold deliverOne Tracker.rec?
  rw [h]
  simp only [if_pos hd, if_pos hj]

theorem open_deliverOne (b : BayIx) (tag : Tag) (r : Rec) (sec : Sector) (s : State) (ha : (s.bay b).awake)
    (h : (s.bay b).tracker.recs[tag] = some r) (hj : r.judged = true) (hd : r.delivered < r.count) :
    ((deliverOne b tag s sec).bay b).awake
    ∧ ((deliverOne b tag s sec).bay b).tracker.recs[tag] = some { r with delivered := r.delivered + 1 } := by
  rw [deliverOne_judged b tag r sec s h hj hd]
  have h0 : ((s.modBay b (·.modTracker (·.setRec tag (some { r with delivered := r.delivered + 1 })))).bay b).awake := by
    unfold Bay.awake
    rw [bay_modBay_same]
    exact ha
  have k := open_giveOutcome b (r.lba + r.delivered) (judge (s.bay b) r.tol (r.lba + r.delivered) sec) r.origin r.rescans _ h0
  exact ⟨k.1, k.2 tag _ (by rw [bay_modBay_same]; exact Vector.getElem_set_self _)⟩

/-- The sectors of a payload within the count of an open judged READ, each in turn at its own LBA. -/
theorem deliver_judged (b : BayIx) (tag : Tag) (r : Rec) (hj : r.judged = true) : ∀ (l : List Sector) (k : Nat) (s : State),
    (s.bay b).awake → (s.bay b).tracker.recs[tag] = some { r with delivered := r.delivered + k } → r.delivered + k + l.length ≤ r.count →
    l.foldl (deliverOne b tag) s = (l.zipIdx k).foldl (fun (u : State) (e : Sector × Nat) =>
      giveOutcome b (r.lba + r.delivered + e.2) (judge (u.bay b) r.tol (r.lba + r.delivered + e.2) e.1) r.origin r.rescans
        (u.modBay b (·.modTracker (·.setRec tag (some { r with delivered := r.delivered + e.2 + 1 }))))) s
  | [], _, _, _, _, _ => rfl
  | x :: t, k, s, ha, h, hl => by
    have hd : r.delivered + k < r.count := by rw [List.length_cons] at hl; omega
    have o := open_deliverOne b tag _ x s ha h hj hd
    have e := deliverOne_judged b tag _ x s h hj hd
    rw [List.foldl_cons, deliver_judged b tag r hj t (k + 1) _ o.1 o.2 (by rw [List.length_cons] at hl; omega), List.zipIdx_cons, List.foldl_cons, e]
    simp only [Nat.add_assoc]

end Sys2Proof.Machine
end

