-- ==== Sys2Proof/Tests/Slice0.lean ====
section
/-! SUPPORT. The tests: the well-formedness smoke tests, figures worked by hand from the rules, and for every statement with
hypotheses a concrete state and operands that meet them, clause by clause. -/

namespace Sys2Proof.Tests

set_option Elab.async false

open Sys2Proof.Machine

/-! ### Well-formedness: each check refuses an ill-formed term -/

theorem test_wf_read_lba : (Instr.commandRead 2 5 (2 ^ 48) 1).wf = false ∧ (Instr.commandRead 2 5 (2 ^ 48 - 1) 1).wf = true := by decide
theorem test_wf_read_count :
    (Instr.commandRead 2 5 0 0).wf = false ∧ (Instr.commandRead 2 5 0 65537).wf = false ∧ (Instr.commandRead 2 5 0 65536).wf = true := by
  decide
theorem test_wf_write_lba : (Instr.commandWrite 2 5 (2 ^ 48) 1).wf = false ∧ (Instr.commandWrite 2 5 0 1).wf = true := by decide
theorem test_wf_write_count : (Instr.commandWrite 2 5 0 0).wf = false ∧ (Instr.commandWrite 2 5 0 65537).wf = false := by decide
theorem test_wf_latch_count :
    (Instr.bayReportLatch 2 5 0).wf = false ∧ (Instr.bayReportLatch 2 5 255).wf = false ∧ (Instr.bayReportLatch 2 5 254).wf = true := by
  decide
theorem test_wf_writeData_empty : (Instr.writeData 2 5 []).wf = false ∧ (Instr.writeData 2 5 [zeroSector]).wf = true := ⟨rfl, rfl⟩
theorem test_wf_readData_empty : (Instr.readData 2 5 []).wf = false ∧ (Instr.readData 2 5 [zeroSector]).wf = true := ⟨rfl, rfl⟩
theorem test_wf_dataRequest_none : (Instr.dataRequest 2 5 0).wf = false ∧ (Instr.dataRequest 2 5 1).wf = true := by decide
theorem test_wf_badCode_known :
    (Instr.badCode 2 0#32 1#32).wf = false ∧ (Instr.badCode 2 0#32 12#32).wf = false ∧ (Instr.badCode 2 0#32 0#32).wf = true
    ∧ (Instr.badCode 2 0#32 13#32).wf = true := by decide
theorem test_wf_failing_lba :
    (Instr.completion 2 5 (.mediaError (2 ^ 48))).wf = false ∧ (Instr.completion 2 5 (.mediaError (2 ^ 48 - 1))).wf = true := by decide

/-- The table's rows give no bits, so no word spells a command. -/
theorem test_no_row_has_bits : decodeTableWord 32 0x454B4438 = none ∧ State.reset.withFetchWord 32 1 = State.reset := ⟨rfl, rfl⟩

/-! ### Figures worked by hand from the rules -/

/-- Words of the stamped sector for S = 0x1000, P = 1, L = 5. -/
theorem test_stamp_words :
    stampWord 0x1000#32 1 5 0 = 0x454B5438#32 ∧ stampWord 0x1000#32 1 5 1 = 5#32 ∧ stampWord 0x1000#32 1 5 2 = 0x10000#32
    ∧ stampWord 0x1000#32 1 5 3 = 0x454C643D#32 ∧ stampWord 0x1000#32 1 5 4 = 0xFF66FC5F#32
    ∧ stampWord 0x1000#32 1 5 5 = 0xFE89F71F#32 ∧ stampWord 0x1000#32 1 5 1023 = 0x7BC06E03#32 := by decide

/-- The bins of latencies in µs, at the bins' ends. -/
theorem test_latency_bins :
    [0, 640, 999, 1000, 1500, 1999, 2000, 4500, 9000, 700000, 1023999, 1024000, 9950000].map latencyBin
      = [0, 0, 0, 1, 1, 1, 2, 3, 4, 10, 10, 11, 11] := by decide

/-- The visiting orders over five chunks. -/
theorem test_orders :
    (List.range 5).map (chunkOf .descend 5) = [4, 3, 2, 1, 0] ∧ (List.range 5).map (chunkOf .butterfly 5) = [0, 4, 1, 3, 2]
    ∧ (List.range 4).map (chunkOf .butterfly 4) = [0, 3, 1, 2] := by decide

/-- The zone shift and the zones used, at the smallest and the largest capacity and beside a power of two. -/
theorem test_geometry :
    zoneShift 1048576 = 8 ∧ zonesUsed 1048576 = 4096 ∧ zoneShift 1048577 = 9 ∧ zonesUsed 1048577 = 2049
    ∧ zoneShift 68719476736 = 24 ∧ zonesUsed 68719476736 = 4096 := by decide +kernel

/-- The unsettled-write list: two ranges that touch merge, one apart stays apart. -/
theorem test_unsettled_join :
    (Unsettled.ranges [⟨10, 19, 1#64⟩, ⟨40, 49, 2#64⟩]).join 20 30 3#64 = .ranges [⟨10, 30, 3#64⟩, ⟨40, 49, 2#64⟩]
    ∧ (Unsettled.ranges [⟨10, 19, 1#64⟩, ⟨40, 49, 2#64⟩]).join 20 39 3#64 = .ranges [⟨10, 49, 3#64⟩]
    ∧ (Unsettled.ranges [⟨10, 19, 1#64⟩]).join 0 8 3#64 = .ranges [⟨0, 8, 3#64⟩, ⟨10, 19, 1#64⟩] := by decide

/-- A read-back check: a stamped sector is good, with one bit of its body flipped it is soft within the tolerance and corrupt
beyond it. -/
theorem test_body_bit :
    let x := (stampSector 0x1000#32 1 5).set 100 (stampWord 0x1000#32 1 5 100 ^^^ 0x10#32)
    stampedCheck 0x1000#32 1 0 3 5 x = .soft ∧ stampedCheck 0x1000#32 0 0 3 5 x = .corrupt := by decide +kernel

/-! ### Small states -/

/-- The state after reset with bay 2 as given. -/
def at2 (x : Bay) : State := State.reset.modBay 2 (fun _ => x)

/-- A bay in ON with a drive of 2^20 sectors and both links UP. -/
def onBay : Bay :=
  { Bay.init with
    lane := { Lane.init with upUp := true, upRisen := true, downUp := true, rc := 1048320 }
    power := { Power.init with state := .on, session := .active, cap := some 1048576 }
    zm := { ZoneMap.init with z := some 8, used := 4096 } }

/-- The same bay in another power state. -/
def inState (p : PowerState) : Bay := { onBay with power := { onBay.power with state := p } }

/-- The bay with a record on a tag. -/
def withRec (tag : Tag) (r : Rec) (x : Bay) : Bay := x.withRec tag (some r)

/-- A host record of a READ, WRITE or FLUSH at LBA 77. -/
def host (kind : CmdKind) : Rec := hostRecord kind 77 8 1#32 none false 0 (if kind = .flush then some 4#64 else none)

/-- The state whose rack is changed. -/
def inRack (f : Rack → Rack) (s : State) : State := s.modRack f

theorem free {x : Bay} {tag : Tag} (h : tag.val < 24) (hb : x.tagBusy tag = false) : x.freeHostTag tag := (tagBusy_iff x tag h).mp hb

theorem every {x : Bay} {p : Rec → Prop} (q : Rec → Bool) (hq : ∀ r, q r = false → p r) (h : x.tracker.anyRec q = false) : x.everyRec p :=
  fun tag r hr => hq r ((anyRec_false _ _).mp h tag r hr)

theorem some_rec {x : Bay} {p : Rec → Prop} (tag : Tag) (r : Rec) (h : x.tracker.recs[tag] = some r) (hp : ¬ p r) : ¬ x.everyRec p :=
  fun hh => hp (hh tag r h)

theorem every_at2 {P : Bay → Prop} {x : Bay} (h0 : P Bay.init) (h : P x) : EveryBay P (at2 x) := by
  intro b
  unfold at2
  rw [bay_modBay]
  split
  · exact h
  · have : State.reset.bay b = Bay.init := by simp [State.bay, State.reset]
    rw [this]; exact h0

/-! ### The hypotheses of every statement are met -/

theorem test_meets_EmptyQueueTakesDueEvent :
    (at2 { onBay with annex := { Annex.init with mailbox := .busyWipe, wipe := some 4095 } }).pending = []
    ∧ due (at2 { onBay with annex := { Annex.init with mailbox := .busyWipe, wipe := some 4095 } }) = some (.wipeZoneReset 2)
    ∧ State.reset.pending = [] ∧ due State.reset = none := by
  refine ⟨rfl, ?_, rfl, ?_⟩ <;> decide +kernel

/-- A bay with a marked zone, a queued sector range and a learned capacity, in the grant queue with a RUNNING plan. -/
def busyBay : Bay :=
  { onBay with
    zm := { onBay.zm with zones := [(7, { ZoneRec.init with cls := .unconfirmed, hits := 1 })], distinct := 1 }
    tracker := { onBay.tracker with seq := 1#64, unsettled := .ranges [⟨10, 19, 1#64⟩] }
    power := { onBay.power with state := .queued }
    plan := { Plan.init with state := .running, reach := (Vector.replicate 96 false).set 5 true } }

def busy : State :=
  { (at2 busyBay).modRack (fun r => { r with queue := [2], useCounts := r.useCounts.set 5 1 }) with
    pending := [.upstreamLinkDown 2] }

theorem test_meets_bay_invariants :
    EveryBay (fun x => x.zm.sound) busy ∧ EveryBay Bay.rangesSound busy ∧ EveryBay Bay.capacitySound busy
    ∧ EveryBay Bay.mailboxSound busy ∧ EveryBay Bay.unsettledSound busy ∧ ∃ t, step busy = .next t := by
  have h (P : Bay → Prop) (h0 : P Bay.init) (hb : P busyBay) : EveryBay P busy := every_at2 (x := busyBay) h0 hb
  refine ⟨h _ ⟨rfl, rfl⟩ ⟨rfl, rfl⟩, h _ ?_ ?_, h _ rfl rfl, h _ ?_ ?_, h _ ?_ ?_, _, rfl⟩
  · simp [Bay.rangesSound, Bay.init, Settings.init, Tracker.init, Sweep.init]
  · simp [Bay.rangesSound, busyBay, onBay, Bay.init, Settings.init, Tracker.init, Sweep.init]
  · simp [Bay.mailboxSound, Bay.init, Annex.init]
  · simp [Bay.mailboxSound, busyBay, onBay, Bay.init, Annex.init]
  · exact ⟨by simp, by simp, List.Pairwise.nil⟩
  · exact ⟨by simp, by simp, by simp⟩

theorem test_meets_rack_invariants :
    busy.useCountsSound ∧ EveryBay Bay.sessionSound busy ∧ busy.budgetSound ∧ busy.queueSound ∧ ∃ t, step busy = .next t := by
  refine ⟨?_, every_at2 (x := busyBay) ?_ ?_, ⟨?_, ?_⟩, ⟨?_, ?_⟩, _, rfl⟩
  · unfold State.useCountsSound; decide +kernel
  · simp [Bay.sessionSound, Bay.init, Power.init, Plan.init]
  · simp [Bay.sessionSound, busyBay, onBay]
  · simp [Rack.configSound, busy, at2, State.reset, Rack.init]
  · decide +kernel
  · decide
  · decide +kernel

theorem test_meets_StampHeader : 65535 < 65536 ∧ 2 ^ 36 - 1 < 2 ^ 36 ∧ 0 < 65536 ∧ 3 < 4 := by decide

theorem test_meets_StampBody : 4 ≤ (4 : Fin 1024).val ∧ 4 ≤ (1023 : Fin 1024).val ∧ 5 % 2 ^ 32 = (2 ^ 32 + 5) % 2 ^ 32
    ∧ 5 ≠ 2 ^ 32 + 5 ∧ 5 < 2 ^ 36 ∧ 2 ^ 32 + 5 < 2 ^ 36 := by decide

theorem test_meets_StampedSectorJudgesGood :
    65535 < 65536 ∧ 2 ^ 48 - 1 < 2 ^ 48 ∧ 65535 ≤ 65535 ∧ (0 : Nat) ≤ 65535 ∧ (2 ^ 48 - 2 : Nat) ≠ 2 ^ 48 - 1 := by decide

theorem test_meets_StampedCheckOrder_blank : bearsSignature zeroSector = false ∧ ∀ k : Fin 1024, zeroSector[k] = 0#32 :=
  ⟨by decide +kernel, fun k => by simp [zeroSector]⟩

/-- One sector for each further case of the stamped check, at LBA 5 with the window 1 to 3. -/
theorem test_meets_StampedCheckOrder :
    let x (p l : Nat) : Sector := stampSector 0x1000#32 p l
    (bearsSignature (zeroSector.set 1023 1#32) = false ∧ (zeroSector.set 1023 1#32)[(1023 : Fin 1024)] ≠ 0#32)
    ∧ (bearsSignature ((x 1 5).set 3 0#32) = true ∧ headerSumHolds 0x1000#32 ((x 1 5).set 3 0#32) = false)
    ∧ (bearsSignature (x 1 6) = true ∧ headerSumHolds 0x1000#32 (x 1 6) = true ∧ headerLba (x 1 6) ≠ 5)
    ∧ (headerSumHolds 0x1000#32 (x 0 5) = true ∧ headerLba (x 0 5) = 5 ∧ headerPass (x 0 5) < 1)
    ∧ (headerSumHolds 0x1000#32 (x 4 5) = true ∧ headerLba (x 4 5) = 5 ∧ 1 ≤ headerPass (x 4 5) ∧ 3 < headerPass (x 4 5))
    ∧ (bearsSignature (x 3 5) = true ∧ headerSumHolds 0x1000#32 (x 3 5) = true ∧ headerLba (x 3 5) = 5 ∧ 1 ≤ headerPass (x 3 5)
        ∧ headerPass (x 3 5) ≤ 3) := by decide +kernel

theorem test_meets_BitErrorsDecide_stamped :
    let x : Sector := stampSector 0x1000#32 3 5
    bearsSignature x = true ∧ headerSumHolds 0x1000#32 x = true ∧ headerLba x = 5 ∧ 1 ≤ headerPass x ∧ headerPass x ≤ 3 := by
  decide +kernel

theorem test_meets_BitErrorsDecide : (0 = 0) ∧ (1 ≤ 1 ∧ 1 ≤ 1) ∧ (1 ≤ 2 ∧ 1 < 2) ∧ gradeErrors 1 0 = .good ∧ gradeErrors 1 1 = .soft
    ∧ gradeErrors 1 2 = .corrupt := by decide

/-- A wipe, an open host write, an open ERASE write, and neither, over LBA 80. -/
theorem test_meets_JudgingSteps :
    ({ onBay with annex := { Annex.init with wipe := some 0 } } : Bay).annex.wipe.isSome
    ∧ (onBay.annex.wipe = none ∧ (withRec 3 (host .write) onBay).tracker.recs[(3 : Tag)] = some (host .write)
        ∧ (host .write).kind = .write ∧ (host .write).lba ≤ 80 ∧ 80 < (host .write).lba + (host .write).count
        ∧ (host .write).origin = .host ∧ (host .write).pass = none)
    ∧ ((withRec 24 { host .write with origin := .sweep } onBay).everyRec (fun r => ¬ ((r.origin = .host ∧ r.pass = none) ∨ r.origin = .ship))
        ∧ (withRec 24 { host .write with origin := .sweep } onBay).tracker.recs[(24 : Tag)] = some { host .write with origin := .sweep }
        ∧ allZero zeroSector = true)
    ∧ (onBay.everyRec (fun _ => False) ∧ allZero (zeroSector.set 5 1#32) = false) := by
  refine ⟨by decide, by decide +kernel, ⟨every (fun r => decide ((r.origin = .host ∧ r.pass = none) ∨ r.origin = .ship)) ?_ ?_, ?_, ?_⟩,
    every (fun _ => true) ?_ ?_, ?_⟩
  · intro r h; simpa using h
  all_goals first | decide +kernel | (intro r h; simp at h)

theorem test_meets_LatencyBinned :
    999 < 1000 ∧ (1 ≤ 1 ∧ 1 ≤ 10 ∧ 1000 * 2 ^ (1 - 1) ≤ 1000 ∧ 1000 < 1000 * 2 ^ 1)
    ∧ (1 ≤ 10 ∧ 10 ≤ 10 ∧ 1000 * 2 ^ (10 - 1) ≤ 1023999 ∧ 1023999 < 1000 * 2 ^ 10) ∧ 1024000 ≤ 1024000 := by decide

theorem test_meets_ErrorRates :
    onBay.counters.verified = 0 ∧ 0 < ({ onBay with counters := { Counters.init with verified := 1 } } : Bay).counters.verified := by decide

theorem test_meets_VisitingOrders :
    (0 % 2 = 0 ∧ 1 % 2 = 1) ∧ (SweepOrder.butterfly ≠ .fixed ∧ 4 < 5 ∧ chunkOf .butterfly 5 1 = 4) := by decide

theorem test_meets_ArrivalChecks :
    24 ≤ (24 : Tag).val ∧ Instr.commandFlush 2 24 ∈ arrivalsOn 2 24 0 1 []
    ∧ ((3 : Tag).val < 24 ∧ ¬ (withRec 3 (host .read) onBay).freeHostTag 3)
    ∧ (1 ≤ 1 ∧ 1048319 + 1 ≤ 1048320) ∧ (1048320 ≤ 1048575 ∧ 1048575 + 1 ≤ 1048320 + 256)
    ∧ (1048320 < 1048319 + 2 ∧ 1048319 < 1048320) ∧ (1048320 < 1048575 + 2 ∧ 1048320 + 256 < 1048575 + 2)
    ∧ (onBay.freeHostTag 23 ∧ onBay.lane.rc < 1048319 + 2 ∧ 1048319 < onBay.lane.rc) := by
  refine ⟨by decide, by simp [arrivalsOn], ⟨by decide, fun h => h.2.1 (host .read) (by decide +kernel) rfl⟩, by decide, by decide,
    by decide, by decide, free (by decide) (by decide +kernel), by decide, by decide⟩

theorem test_meets_HostCommandsInOnAreForwarded :
    ((at2 onBay).bay 2).freeHostTag 23 ∧ ((at2 onBay).bay 2).power.state = .on ∧ 1048319 + 1 ≤ ((at2 onBay).bay 2).lane.rc :=
  ⟨free (by decide) (by decide +kernel), by decide +kernel, by decide +kernel⟩

theorem test_meets_HeldDuringSpinUp :
    (((at2 (inState .queued)).bay 2).freeHostTag 0 ∧ ((at2 (inState .queued)).bay 2).power.state = .queued)
    ∧ (((at2 (inState .spinningUp)).bay 2).freeHostTag 0 ∧ ((at2 (inState .spinningUp)).bay 2).power.state = .spinningUp)
    ∧ ((at2 (inState .spinningUp)).bay 2).power.cap ≠ none ∧ 1048319 + 1 ≤ ((at2 (inState .queued)).bay 2).lane.rc := by
  refine ⟨⟨free (by decide) (by decide +kernel), by decide +kernel⟩, ⟨free (by decide) (by decide +kernel), by decide +kernel⟩,
    by decide +kernel, by decide +kernel⟩

theorem test_meets_AnsweredOutsideOn :
    ((inState .off).freeHostTag 1 ∧ (inState .off).power.state ≠ .on ∧ 1048319 + 1 ≤ (inState .off).lane.rc)
    ∧ (Bay.init.freeHostTag 1 ∧ Bay.init.power.state = .empty ∧ Bay.init.power.cap = none) ∧ (inState .settling).power.state = .settling := by
  refine ⟨⟨free (by decide) (by decide +kernel), by decide, by decide⟩, ⟨free (by decide) (by decide +kernel), rfl, rfl⟩, rfl⟩

theorem test_meets_AnnexReadsServed :
    onBay.freeHostTag 4 ∧ (1 ≤ 1 ∧ onBay.lane.rc ≤ 1048320 ∧ 1048320 + 1 ≤ onBay.lane.rc + 256 ∧ 1048320 ≠ onBay.lane.rc + 2)
    ∧ (1 ≤ 254 ∧ 254 ≤ 254) ∧ (5 ≤ 15 ∧ 15 ≤ 15) ∧ 40 ≤ 255 ∧ onBay.annex.snapshot = none :=
  ⟨free (by decide) (by decide +kernel), by decide, by decide, by decide, by decide, rfl⟩

theorem test_meets_SectorFieldsReadBack :
    let fs : List Field := [⟨0, 4, 5⟩, ⟨4095, 1, 255⟩]
    fs.Pairwise (fun f g => f.pos + f.width ≤ g.pos ∨ g.pos + g.width ≤ f.pos) ∧ (∀ f ∈ fs, f.pos + f.width ≤ 4096)
    ∧ 4 < 4096 ∧ ∀ f ∈ fs, 4 < f.pos ∨ f.pos + f.width ≤ 4 := by decide

theorem test_meets_AnnexWritesTaken :
    let c (off : Nat) : AnnexCmd := { tag := 4, isWrite := true, offset := off, count := 1, done := 0 }
    let x (off : Nat) : Bay := { onBay with lane := { onBay.lane with annexSvc := [c off] } }
    let bad : Sector := (zeroSector.set 0 0x454B4438#32).set 1 13#32
    let ack : Sector := (zeroSector.set 0 0x454B4438#32).set 1 12#32
    (onBay.freeHostTag 4 ∧ 1 ≤ 256 ∧ onBay.lane.rc ≤ 1048320 ∧ 1048320 + 256 ≤ onBay.lane.rc + 256)
    ∧ ((at2 (x 1)).bay 2).lane.annexSvc = [c 1] ∧ ((at2 (x 0)).bay 2).lane.annexSvc = [c 0] ∧ (at2 (x 0)).mailboxIdle 2
    ∧ zeroSector[0] ≠ 0x454B4438#32 ∧ bad[0] = 0x454B4438#32 ∧ directiveOf bad = .badCode bad[1]
    ∧ directiveOf ack = .ackNotice 0#8 0#8 ∧ ∃ t, exec (.ackNotice 2 ack[2] 0#8 0#8) (at2 (x 0)) = .next t := by
  refine ⟨⟨free (by decide) (by decide +kernel), by decide, by decide, by decide⟩, by decide +kernel, by decide +kernel,
    by unfold State.mailboxIdle; decide +kernel, by decide +kernel, by decide +kernel, by decide +kernel, by decide +kernel, _, rfl⟩

theorem test_meets_PayloadsGoDown :
    let sweepWrite : Rec := { host .write with origin := .sweep }
    (∀ a ∈ onBay.lane.annexSvc, a.tag ≠ (3 : Tag)) ∧ onBay.tracker.recs[(3 : Tag)] = none
    ∧ ((withRec 3 (host .write) onBay).tracker.recs[(3 : Tag)] = some (host .write) ∧ (host .write).origin = .host
        ∧ (host .write).kind = .write ∧ (host .write).sent + 8 ≤ (host .write).count)
    ∧ ({ host .write with sent := 8 } : Rec).count ≤ ({ host .write with sent := 8 } : Rec).sent
    ∧ ((withRec 24 sweepWrite onBay).tracker.recs[(24 : Tag)] = some sweepWrite ∧ sweepWrite.origin ≠ .host ∧ sweepWrite.kind = .write
        ∧ 1 ≤ 8 ∧ sweepWrite.sent < sweepWrite.count ∧ sweepWrite.ship = none ∧ sweepWrite.pass = none)
    ∧ ({ sweepWrite with kind := .read } : Rec).kind ≠ .write ∧ ({ sweepWrite with pass := some 9 } : Rec).pass = some 9
    ∧ (({ sweepWrite with ship := some zeroSector, count := 1 } : Rec).ship = some zeroSector
        ∧ ({ sweepWrite with ship := some zeroSector, count := 1 } : Rec).count = 1) := by
  refine ⟨by decide, by decide +kernel, by decide +kernel, by decide, by decide +kernel, by decide, by decide, rfl, rfl⟩

theorem test_meets_ReadDataTaken :
    let r : Rec := { host .read with judged := true, lba := 1792 }
    let marked : Bay := { withRec 3 r onBay with
      zm := { onBay.zm with zones := [(7, { ZoneRec.init with kind := .stamped 1 1, cls := .unconfirmed })], distinct := 1 } }
    let clean : Bay := { withRec 3 r onBay with zm := { onBay.zm with zones := [(7, { ZoneRec.init with kind := .stamped 1 1 })] } }
    onBay.tracker.recs[(3 : Tag)] = none
    ∧ ((withRec 3 (host .read) onBay).tracker.recs[(3 : Tag)] = some (host .read) ∧ (host .read).origin = .host
        ∧ (host .read).kind = .read ∧ (host .read).judged = false ∧ (host .read).delivered + 8 ≤ (host .read).count)
    ∧ (marked.tracker.recs[(3 : Tag)] = some r ∧ r.kind = .read ∧ r.judged = true ∧ r.delivered < r.count ∧ marked.zm.z = some 8)
    ∧ ((judge (withRec 3 r onBay) 0 1792 zeroSector).isDefect = false)
    ∧ ((judge marked 0 1792 zeroSector).isDefect = true ∧ marked.sweep.rescan = none ∧ (marked.zm.get (1792 / 2 ^ 8)).mark = true)
    ∧ ((judge clean 0 1792 zeroSector).isDefect = true ∧ (clean.zm.get 7).mark = false ∧ clean.plan.state ≠ .running) := by
  decide +kernel

theorem test_meets_OutcomeCounters : Verdict.soft ≠ .unchecked := by decide

theorem test_meets_HostRecordsClose :
    (onBay.tracker.recs[(3 : Tag)] = none ∧ (3 : Tag) ∉ onBay.lane.retired)
    ∧ (∀ kind ∈ [CmdKind.read, .write, .flush, .capacity, .other],
        (withRec 3 (host kind) onBay).tracker.recs[(3 : Tag)] = some (host kind) ∧ (host kind).origin = .host)
    ∧ (host .read).judged = false ∧ (host .flush).flushMark = some 4#64 ∧ 1 ≤ (host .write).count := by
  decide +kernel

/-- A Zone Map with one stamped and marked zone. -/
def zoned : ZoneMap :=
  { onBay.zm with zones := [(7, { ZoneRec.init with kind := .stamped 1 1, cls := .unconfirmed })], distinct := 1 }

theorem zoned_sound : zoned.sound := ⟨rfl, rfl⟩

theorem test_meets_WritesChangeZoneKinds :
    (3 ≤ 3 ∧ 3 < 4) ∧ zoned.sound ∧ ZoneMap.init.sound ∧ 10 ≤ 10 ∧ ZoneMap.init.z = none ∧ zoned.z = some 8 := by
  exact ⟨by decide, zoned_sound, ⟨rfl, rfl⟩, by decide, rfl, rfl⟩

theorem test_meets_PassCloseAndGeometry :
    zoned.sound ∧ zoned.z = some 8 ∧ zoned.used = (1048576 + 2 ^ 8 - 1) / 2 ^ 8 ∧ 1048576 ≤ 1048576
    ∧ (4095 < zoned.used ∧ 1048320 ≤ 4095 * 2 ^ 8 ∧ min ((4095 + 1) * 2 ^ 8) 1048576 ≤ 1048576)
    ∧ (4095 < zoned.used ∧ ¬ (1048321 ≤ 4095 * 2 ^ 8)) ∧ (2 ^ 20 ≤ 2 ^ 20 ∧ 2 ^ 20 ≤ 2 ^ 36) := by
  exact ⟨zoned_sound, rfl, by decide, by decide, by decide, by decide, by decide⟩

theorem idle_at2 {x : Bay} (h : x.annex.mailbox = .idle) : (at2 x).mailboxIdle 2 := by
  unfold State.mailboxIdle at2; rw [bay_modBay_same]; exact h

theorem bay_at2 (x : Bay) : (at2 x).bay 2 = x := by unfold at2; rw [bay_modBay_same]

theorem test_meets_ZoneMarkDirectives :
    let x : Bay := { onBay with zm := { zoned with queue := [{ zone := 4095, r := 1 }] } }
    (at2 x).mailboxIdle 2 ∧ Bay.init.zm.used ≤ (0#16 : BitVec 16).toNat ∧ 4095 < (4096#16 : BitVec 16).toNat
    ∧ ((4095#16 : BitVec 16).toNat < x.zm.used ∧ (4095#16 : BitVec 16).toNat ≤ 4095 ∧ ∃ q ∈ x.zm.queue, q.zone = (4095#16 : BitVec 16).toNat)
    ∧ ((7#16 : BitVec 16).toNat < x.zm.used ∧ (¬ ∃ q ∈ x.zm.queue, q.zone = (7#16 : BitVec 16).toNat) ∧ x.sweep.rescan = none
        ∧ (x.zm.get 7).mark = true ∧ (x.zm.get 8).mark = false) := by
  refine ⟨idle_at2 rfl, by decide, by decide, ⟨by decide, by decide, by decide⟩, by decide +kernel⟩

/-- SET-BAY's fields at their ends. -/
def setBayArg : SetBayArg := { seed := 0#32, overlay := 1#8, checking := 0#8, tolerance := 255#8, rescans := 4#8, w := 10000#32, tw := 1000#32 }

theorem test_meets_SetBayDirective :
    (at2 onBay).mailboxIdle 2 ∧ onBay.zm.sound ∧ zoned.sound
    ∧ 2 ≤ ({ setBayArg with overlay := 2#8 } : SetBayArg).overlay.toNat ∧ setBayArg.overlay.toNat < 2 ∧ setBayArg.checking.toNat < 2
    ∧ ({ setBayArg with seed := 1#32 } : SetBayArg).seed ≠ onBay.settings.seed ∧ (zoned.get 7).kind.holdsStamp = true
    ∧ setBayArg.seed = onBay.settings.seed
    ∧ (onBay.tracker.tw ≤ max 1000 (min 60000 ({ setBayArg with tw := 10000#32 } : SetBayArg).tw.toNat))
    ∧ (onBay.everyRec (fun r => ((at2 onBay).rack.us - r.issue).toNat < 1000 * 1000))
    ∧ (max 1000 (min 60000 setBayArg.tw.toNat) < (withRec 3 (host .read) onBay).tracker.tw
        ∧ ¬ (withRec 3 (host .read) onBay).everyRec (fun r => (1000001#32 - r.issue).toNat < 1000 * 1000)) := by
  refine ⟨idle_at2 rfl, ⟨rfl, rfl⟩, zoned_sound, by decide, by decide, by decide, by decide, by decide +kernel, by decide, by decide,
    every (fun _ => true) (by simp) (by decide +kernel), by decide, some_rec 3 (host .read) (by decide +kernel) (by decide)⟩

/-- SET-RACK's fields with every one in range. -/
def setRackArg : SetRackArg :=
  { budget := 1000#32, spin := 1000#32, run := 1000#32, spinTimeout := 5000#32, hold := 60000#32, limit := 15#8, faultBin := 15#8 }

theorem test_meets_SetRackDirective :
    (at2 Bay.init).mailboxIdle 2 ∧ 16 ≤ ({ setRackArg with faultBin := 16#8 } : SetRackArg).faultBin.toNat ∧ setRackArg.faultBin.toNat < 16
    ∧ (at2 onBay).tally ≠ 0 ∧ setRackArg.faultBin.toNat = (15 : Fin 16).val ∧ (at2 Bay.init).tally = 0
    ∧ min (max 100 (min 3000 setRackArg.run.toNat)) (min (max 100 (min 5000 setRackArg.spin.toNat)) 1000) = setRackArg.run.toNat
    ∧ (at2 Bay.init).rack.queue = [] ∧ ∀ c, ((at2 Bay.init).bay c).lane.held = [] := by
  refine ⟨idle_at2 rfl, by decide, by decide, by decide +kernel, by decide, by decide +kernel, by decide, rfl, by decide +kernel⟩

theorem test_meets_LoadSlotDirective :
    State.reset.mailboxIdle 2 ∧ 96 ≤ (96#8 : Byte).toNat ∧ (95#8 : Byte).toNat = (95 : SlotIx).val ∧ busy.rack.useCounts[(5 : SlotIx)] ≠ 0
    ∧ State.reset.rack.useCounts[(95 : SlotIx)] = 0 ∧ (96 ≤ (254#8 : Byte).toNat ∧ (254#8 : Byte).toNat ≤ 254)
    ∧ (255#8 : Byte).toNat = (match (none : Option SlotIx) with | some j => j.val | none => 255)
    ∧ (95#8 : Byte).toNat = (match (some 95 : Option SlotIx) with | some j => j.val | none => 255) ∧ 16 ≤ (16#8 : Byte).toNat := by
  refine ⟨by unfold State.mailboxIdle; decide +kernel, by decide, by decide, by decide +kernel, by decide +kernel, by decide, rfl, rfl, by decide⟩

/-- A SWEEP slot's fields that pass every check at its end. -/
def sweepArg : SweepArg :=
  { op := 3#8, order := 4#8, pacing := 2#8, trigger := 0#8, start := 0#48, length := 0#48, chunk := 256#16, block := 0#8
    maxInFlight := 8#8, passes := 1#8, tolerance := 255#8, rescans := 4#8, interval := 0#32, limit := 0#32 }

theorem test_meets_SweepSlotChecks :
    let ok (f : SweepArg) : Prop := f.op.toNat ≤ 3 ∧ f.order.toNat ≤ 4 ∧ f.pacing.toNat ≤ 2 ∧ f.trigger.toNat ≤ 2
      ∧ (f.trigger.toNat = 0 → f.pacing.toNat = 2) ∧ 1 ≤ f.chunk.toNat ∧ f.chunk.toNat ≤ 256
      ∧ (f.pacing.toNat = 1 → f.block.toNat ≠ 0) ∧ 1 ≤ f.maxInFlight.toNat ∧ f.maxInFlight.toNat ≤ 8 ∧ f.passes.toNat ≠ 0
    State.reset.mailboxIdle 2 ∧ (95#8 : Byte).toNat = (95 : SlotIx).val ∧ State.reset.rack.useCounts[(95 : SlotIx)] = 0 ∧ ok sweepArg
    ∧ ¬ ok { sweepArg with pacing := 1#8 } ∧ ¬ ok { sweepArg with chunk := 257#16 } ∧ ¬ ok { sweepArg with passes := 0#8 } := by
  refine ⟨by unfold State.mailboxIdle; decide +kernel, by decide, by decide +kernel, by decide, by decide, by decide, by decide⟩

theorem test_meets_LoadRuleAndBinDirectives :
    let f : RuleArg := { enable := 1#8, selector := 24#8, argument := 0#8, comparison := 5#8, threshold := 0#32, target := 15#8, stop := 1#8 }
    let g : BinArg := { shippable := 1#8, pattern := 3#8, name := 0#8 }
    let x : Bay := { onBay with
      plan := { Plan.init with state := .running, step := .writing }, grade := some { bin := 15, rules := true, rule := none, time := 0#32 } }
    State.reset.mailboxIdle 2
    ∧ ((23#8 : Byte).toNat = (23 : Fin 24).val ∧ f.target.toNat = (15 : Fin 16).val ∧ f.comparison.toNat = Comparison.notEqual.code
        ∧ f.enable.toNat < 2 ∧ f.stop.toNat < 2 ∧ f.selector.toNat ≤ 24)
    ∧ ¬ ((24#8 : Byte).toNat < 24) ∧ ¬ ((16#8 : Byte).toNat < 16)
    ∧ ((15#8 : Byte).toNat = (15 : Fin 16).val ∧ g.pattern.toNat = LampPattern.fast.code ∧ g.shippable.toNat < 2)
    ∧ ((at2 x).bay 2).plan.state = .running ∧ ((at2 x).bay 2).plan.step = .writing
    ∧ (∀ c : BayIx, (State.reset.bay c).plan.state ≠ .running) := by
  refine ⟨by unfold State.mailboxIdle; decide +kernel, by decide, by decide, by decide, by decide, by rw [bay_at2], by rw [bay_at2], by decide +kernel⟩

/-- The tables with a DWELL in slot 94 that goes on to a POWER-OFF in slot 95. -/
def withPlan (s : State) : State :=
  s.modRack (fun r => { r with slots := (r.slots.set 94 { body := .dwell 100, nxt := some 95 }).set 95 { body := .powerOff, nxt := none } })

theorem test_meets_StartPlanDirective :
    (withPlan (at2 onBay)).mailboxIdle 2 ∧ 96 ≤ (96#8 : Byte).toNat ∧ 2 ≤ (2#8 : Byte).toNat
    ∧ ((94#8 : Byte).toNat = (94 : SlotIx).val ∧ (1#8 : Byte).toNat = Choice.off.code)
    ∧ (busyBay.plan.state = .running ∧ onBay.plan.state ≠ .running) ∧ (Bay.init.power.session ≠ .active ∧ onBay.power.session = .active)
    ∧ onBay.power.unsupported = false ∧ (inState .settling).power.state = .settling
    ∧ chainValid (withPlan (at2 onBay)).rack.slots 93 (reachOf (withPlan (at2 onBay)).rack.slots 93) = false
    ∧ chainValid (withPlan (at2 onBay)).rack.slots 94 (reachOf (withPlan (at2 onBay)).rack.slots 94) = true
    ∧ ∀ p : PowerState, (inState p).power.state = p ∧ (inState p).power.session = .active := by
  refine ⟨idle_at2 (x := onBay) rfl, by decide, by decide, by decide, by decide, by decide, rfl, rfl, by decide +kernel, by decide +kernel,
    fun p => ⟨rfl, rfl⟩⟩

theorem test_meets_ChainCheck :
    let slots := (withPlan State.reset).rack.slots
    (reachOf slots 94)[(94 : SlotIx)] = true ∧ slots[(94 : SlotIx)].nxt = some 95 ∧ (reachOf slots 94)[(95 : SlotIx)] = true := by
  decide +kernel

theorem test_meets_AbortPlanDirective :
    (at2 busyBay).mailboxIdle 2 ∧ 2 ≤ (2#8 : Byte).toNat ∧ (1#8 : Byte).toNat < 2 ∧ onBay.plan.state ≠ .running ∧ busyBay.plan.state = .running
    ∧ busyBay.sweep.status.running = false ∧ ({ busyBay.sweep with status := .draining } : Sweep).status.running = true :=
  ⟨idle_at2 rfl, by decide, by decide, by decide, rfl, rfl, rfl⟩

theorem test_meets_PowerDirectives :
    (at2 onBay).mailboxIdle 2 ∧ busyBay.plan.state = .running ∧ (onBay.plan.state ≠ .running ∧ Bay.init.power.session ≠ .active)
    ∧ ({ onBay.power with unsupported := true } : Power).unsupported = true ∧ onBay.power.unsupported = false
    ∧ (∀ p : PowerState, (inState p).power.state = p ∧ (inState p).plan.state ≠ .running ∧ (inState p).power.session = .active)
    ∧ (2 : BayIx) ∉ (at2 (inState .spinningUp)).rack.queue := by
  refine ⟨idle_at2 rfl, rfl, by decide, rfl, rfl, fun p => ⟨rfl, by show PlanState.none ≠ .running; decide, rfl⟩, ?_⟩
  show (2 : BayIx) ∉ ([] : List BayIx)
  simp

theorem test_meets_ClearSessionDirective :
    (at2 onBay).mailboxIdle 2 ∧ (inState .queued).power.state = .queued
    ∧ (onBay.plan.state ≠ .running ∧ onBay.power.state ≠ .queued ∧ onBay.power.state ≠ .spinningUp ∧ onBay.power.state ≠ .settling) :=
  ⟨idle_at2 rfl, rfl, by decide⟩

theorem test_meets_LineAndNoticeDirectives :
    State.reset.mailboxIdle 2 ∧ 3 ≤ (3#8 : Byte).toNat ∧ 4 ≤ (4#8 : Byte).toNat ∧ (2#8 : Byte).toNat = LampFn.latch.code
    ∧ (3#8 : Byte).toNat = AuxFn.lock.code ∧ (1#8 : Byte).toNat < 2 :=
  ⟨by unfold State.mailboxIdle; decide +kernel, by decide, by decide, by decide, by decide, by decide⟩

theorem test_meets_BadCodesAndCollisions :
    State.reset.mailboxIdle 2 ∧ (0#32 : Word).toNat = 0 ∧ 13 ≤ (13#32 : Word).toNat
    ∧ ¬ (at2 { onBay with annex := { Annex.init with mailbox := .busyWipe } }).mailboxIdle 2 := by
  refine ⟨by unfold State.mailboxIdle; decide +kernel, by decide, by decide, ?_⟩
  unfold State.mailboxIdle; rw [bay_at2]; simp

/-- A settling bay whose drive has a write to settle. -/
def settleBay : Bay :=
  { inState .settling with tracker := { Tracker.init with seq := 1#64, unsettled := .ranges [⟨10, 19, 1#64⟩] } }

theorem test_meets_SettlingAndGrantSteps :
    (settleBay.power.state = .settling ∧ settleBay.everyRec (fun r => r.kind ≠ .write ∧ r.origin ≠ .settle)
        ∧ settleBay.tracker.unsettled ≠ .ranges [] ∧ settleBay.tracker.waiting = [] ∧ settleBay.lowestFree 24)
    ∧ ((inState .settling).everyRec (fun _ => False) ∧ (inState .settling).tracker.unsettled = .ranges []
        ∧ (inState .settling).plan.state ≠ .running)
    ∧ (withPlan State.reset).rack.slots[(94 : SlotIx)].body = .dwell 100
    ∧ (let s := (at2 (inState .queued)).modRack (fun r => { r with queue := [2], budget := 2000 })
      s.rack.queue = 2 :: [] ∧ (s.bay 2).power.state = .queued ∧ s.tally + s.rack.spin ≤ s.rack.budget)
    ∧ (let s := (at2 onBay).modRack (fun r => { r with queue := [1], budget := 2799 })
      s.rack.budget < s.tally + s.rack.spin) := by
  refine ⟨⟨rfl, every (fun _ => true) (by simp) (by decide +kernel), by decide, rfl, lowest_of_free (by decide +kernel)⟩,
    ⟨every (fun _ => true) (by simp) (by decide +kernel), rfl, by decide⟩, by decide +kernel, by decide +kernel, by decide +kernel⟩

/-- A POWER-CYCLE in slot 95 whose settling is done. -/
theorem test_meets_SettledPowerCycle :
    let x : Bay := { inState .settling with plan := { Plan.init with state := .running, step := .settling, cursor := some 95 } }
    let s : State := (at2 x).modRack (fun r => { r with slots := r.slots.set 95 { body := .powerCycle 1000, nxt := none } })
    (s.bay 2).plan.state = .running ∧ (s.bay 2).plan.step = .settling ∧ (s.bay 2).plan.cursor = some 95
    ∧ s.rack.slots[(95 : SlotIx)].body = .powerCycle 1000 ∧ s.rack.queue = [] := by decide +kernel

/-- A sweep of single 256-sector visits, IDLE-triggered, with visits 10 and 12 done or under way. -/
def sweepCfg : SweepCfg :=
  { op := .writeVerify, order := .butterfly, pacing := .single, trigger := .idle, start := 0, length := 0, chunk := 256, block := 3
    maxInFlight := 8, passes := 2, tolerance := 7, rescans := 1, interval := 50, limit := 0 }

def active : Active :=
  { slot := 5, cfg := sweepCfg, lo := 0, hi := 1048576, clipped := false, empty := false, n := 4096, passIx := 0, p := some 9
    firstVisit := 0, frontier := 10, window := (Vector.replicate 8 .notStarted).set 0 .issued, credit := .count 1, yielding := false
    missed := 0, timeLeft := none, endReason := none, gen := 3 }

def sweepBay (a : Active) : Bay :=
  { onBay with sweep := { Sweep.init with status := .active, active := some a, passCounter := 9, gen := 3 } }

theorem test_meets_TagAndVisitSteps :
    (let r : Rec := { host .write with origin := .ship }
     let x : Bay := { onBay with tracker := { onBay.tracker with waiting := [r] } }
     x.tracker.waiting = r :: [] ∧ x.lowestFree 24 ∧ x.power.state ≠ .settling ∧ r.origin ≠ .host)
    ∧ ((sweepBay active).sweep.active = some active ∧ (sweepBay active).sweep.status = .active ∧ (sweepBay active).power.state = .on
        ∧ active.yielding = false ∧ (sweepBay active).tracker.waiting = [] ∧ (sweepBay active).lowestFree 24)
    ∧ (active.nextVisit = 11 ∧ 11 < active.n ∧ 11 < active.frontier + 8 ∧ active.waitingRead = none ∧ active.inFlight < active.cfg.maxInFlight
        ∧ active.credit = .count (0 + 1))
    ∧ ({ active with window := (Vector.replicate 8 .notStarted).set 7 .written } : Active).waitingRead = some 17 := by
  refine ⟨⟨rfl, lowest_of_free (by decide +kernel), by decide, by decide⟩,
    ⟨rfl, rfl, rfl, rfl, rfl, lowest_of_free (by decide +kernel)⟩, by decide +kernel, by decide +kernel⟩

/-- A rescan of zone 4095, one chunk. -/
def rescan : Rescan :=
  { zone := 4095, r := 4, done := 0, p := 9, tol := 7, limit := 1, m := 1, chunks := [], awaitLink := false, gen := 4 }

theorem test_meets_RescanSteps :
    (let x : Bay := { onBay with
        zm := { onBay.zm with queue := [{ zone := 4095, r := 4 }] }
        plan := { Plan.init with state := .running, step := .timing, cursor := some 94 } }
     let s := withPlan (at2 x)
     (s.bay 2).plan.state = .running ∧ (s.bay 2).plan.cursor = some 94 ∧ (s.bay 2).power.state = .on
     ∧ (s.bay 2).zm.queue = { zone := 4095, r := 4 } :: [] ∧ (s.bay 2).sweep.rescan = none ∧ (s.bay 2).zm.z = some 8
     ∧ (s.bay 2).power.cap = some 1048576 ∧ s.rack.slots[(94 : SlotIx)].body = .dwell 100 ∧ (s.bay 2).plan.step = .timing)
    ∧ (let s := (at2 (sweepBay active)).modRack (fun r => { r with slots := r.slots.set 94 { body := .sweep sweepCfg, nxt := none } })
       s.rack.slots[(94 : SlotIx)].body = .sweep sweepCfg ∧ (s.bay 2).sweep.status = .active ∧ active.cfg.op ≠ .erase)
    ∧ (rescan.awaitLink = false ∧ rescan.waitingRead = none ∧ rescan.nextChunk = some 0 ∧ rescan.inFlight < rescan.limit)
    ∧ ({ rescan with chunks := [(0, .written)] } : Rescan).waitingRead = some 0 ∧ onBay.lowestFree 24 := by
  refine ⟨by decide +kernel, by decide +kernel, by decide, by decide, lowest_of_free (by decide +kernel)⟩

theorem test_meets_LaneResets :
    (withRec 3 (host .read) (sweepBay active)).plainDiscard ∧ (sweepBay active).power.state = .on
    ∧ ((inState .settling).power.state ≠ .on ∧ (inState .settling).power.learnWait = false ∧ (inState .settling).plainDiscard)
    ∧ (Bay.init.lane.upUp = false ∧ Bay.init.lane.upRisen = false)
    ∧ (({ onBay.lane with upUp := false } : Lane).upUp = false ∧ ({ onBay.lane with upUp := false } : Lane).upRisen = true) := by
  refine ⟨⟨rfl, by decide⟩, rfl, ⟨by decide, rfl, ⟨rfl, by decide⟩⟩, ⟨rfl, rfl⟩, rfl, rfl⟩

/-- A bay in SPINNING-UP whose link is DOWN and whose LEARN query waits for it. -/
def spinBay : Bay :=
  { inState .spinningUp with
    lane := { onBay.lane with downUp := false }
    power := { Power.init with state := .spinningUp, session := .active, spinTimer := some 30000, learnWait := true } }

theorem test_meets_DownstreamLinkEvents :
    onBay.lane.downUp = true ∧ (inState .queued).power.state.powered = false
    ∧ (spinBay.lane.downUp = false ∧ spinBay.power.state.powered = true ∧ spinBay.ship.reissue = false ∧ spinBay.power.learnWait = true
        ∧ spinBay.power.state = .spinningUp ∧ spinBay.tracker.waiting = [] ∧ spinBay.lowestFree 24)
    ∧ ({ onBay.lane with downUp := false } : Lane).downUp = false ∧ onBay.power.learnWait = false ∧ onBay.tracker.waiting = [] := by
  refine ⟨rfl, rfl, ⟨rfl, rfl, rfl, rfl, rfl, rfl, lowest_of_free (by decide +kernel)⟩, rfl, rfl, rfl⟩

theorem test_meets_PresenceAndWipeEvents :
    let there (x : Bay) : Bay := { x with lines := { Lines.init with present := true, debounce := some 500 } }
    onBay.lines.present = false ∧ ((there Bay.init).lines.present = true ∧ (there Bay.init).power.state = .empty)
    ∧ ((there busyBay).lines.present = true ∧ (there busyBay).power.state ≠ .empty ∧ (there busyBay).plan.state = .running)
    ∧ ((there onBay).plan.state ≠ .running ∧ onBay.lane.upUp = true) ∧ (there Bay.init).lines.debounce = some 500
    ∧ (zoned.sound ∧ onBay.annex.wipe = none ∧ ({ Annex.init with wipe := some 4094 } : Annex).wipe = some 4094
        ∧ ({ Annex.init with wipe := some 4095 } : Annex).wipe = some 4095 ∧ 4094 < 4095 ∧ 4095 ≤ 4095) := by
  refine ⟨rfl, ⟨rfl, rfl⟩, ⟨rfl, by decide, rfl⟩, ⟨by decide, rfl⟩, rfl, zoned_sound, rfl, rfl, rfl, by decide, by decide⟩

theorem test_meets_HoldSpinUpAndTimeoutExpiries :
    let h : Held := { tag := 3, kind := .flush, lba := 0, count := 0, arrival := 0#32 }
    let s : State := (at2 (withRec 3 (host .read) onBay)).modRack (fun r => { r with us := 10000001#32 })
    onBay.lane.held = [] ∧ ({ onBay.lane with held := [h] } : Lane).held = h :: []
    ∧ (spinBay.power.state = .spinningUp ∧ spinBay.power.spinTimer = some 30000 ∧ spinBay.plan.state ≠ .running)
    ∧ onBay.everyRec (fun _ => False)
    ∧ ((s.bay 2).tracker.recs[(3 : Tag)] = some (host .read) ∧ (s.bay 2).tracker.tw * 1000 ≤ (s.rack.us - (host .read).issue).toNat
        ∧ 1 < s.rack.limit ∧ (s.bay 2).power.state ≠ .settling)
    ∧ (withRec 3 (host .read) onBay).plainDiscard ∧ (s.modRack (fun r => { r with limit := 1 })).rack.limit ≤ 1 := by
  refine ⟨rfl, rfl, ⟨rfl, rfl, by decide⟩, every (fun _ => true) (by simp) (by decide +kernel), by decide +kernel,
    ⟨rfl, by decide⟩, by decide +kernel⟩

theorem test_meets_PhaseAndSweepExpiries :
    let p (st : PhaseStep) : Plan := { Plan.init with state := .running, step := st, cursor := some 94, timer := some 0 }
    let a (c : Credit) (pc : Pacing) : Active := { active with cfg := { sweepCfg with trigger := .interval, pacing := pc }, credit := c, timeLeft := some 0 }
    let saved : Saved := { isSweep := true, slot := 94, passClosed := false, timeExpired := false }
    let x (st : SweepStatus) : Bay := { sweepBay (a (.count 0) .single) with
      plan := p .running
      sweep := { (sweepBay (a (.count 0) .single)).sweep with status := st, intervalTimer := some 0, saved := some saved } }
    ((p .timing).state = .running ∧ (p .timing).step = .timing ∧ (p .timing).timer = some 0 ∧ (p .timing).cursor = some 94 ∧ onBay.sweep.rescan = none)
    ∧ (({ onBay.sweep with rescan := some rescan } : Sweep).rescan ≠ none)
    ∧ ((p .offTime).step = .offTime ∧ (inState .off).power.state = .off)
    ∧ ((x .active).sweep.intervalTimer = some 0 ∧ ((advanceMs 0 (at2 (x .active))).bay 2).sweep.active = some (a (.count 0) .single)
        ∧ (x .active).sweep.status = .active ∧ (x .suspended).sweep.status = .suspended)
    ∧ ((a (.count 0) .successive).cfg.pacing = .successive ∧ (a (.count 0) .single).credit = .count 0 ∧ (a (.count 0) .block).cfg.pacing = .block
        ∧ (a (.count 1) .block).credit = .count (0 + 1))
    ∧ ((a (.count 0) .single).timeLeft = some 0 ∧ (x .suspended).sweep.saved = some saved ∧ (x .active).tracker.waiting = [])
    ∧ ((withRec 24 { host .read with origin := .sweep, gen := 3 } (x .active)).tracker.recs[(24 : Tag)] = some { host .read with origin := .sweep, gen := 3 })
    ∧ ((x .active).everyRec (fun r => r.origin ≠ .sweep) ∧ (x .active).plan.state = .running ∧ (x .active).plan.cursor = some 94) := by
  refine ⟨by decide, by decide, by decide, ⟨rfl, by decide +kernel, rfl, rfl⟩, by decide, by decide, by decide +kernel,
    every (fun _ => true) (by simp) (by decide +kernel), rfl, rfl⟩

theorem test_meets_IdleAndLampExpiries :
    let a (c : Credit) (pc : Pacing) : Active := { active with cfg := { sweepCfg with pacing := pc }, credit := c }
    (onBay.tracker.idle = some 50 ∧ onBay.sweep.status ≠ .active)
    ∧ (((advanceMs 50 (at2 (sweepBay (a (.count 0) .block)))).bay 2).sweep.active = some (a (.count 0) .block)
        ∧ (sweepBay active).sweep.status = .active ∧ (a (.count 0) .block).cfg.trigger = .idle ∧ (a (.count 0) .block).cfg.pacing = .block)
    ∧ ((a (.count 1) .single).credit = .count (0 + 1) ∧ (a (.count 0) .successive).cfg.pacing = .successive
        ∧ (a (.count 0) .single).cfg.pacing = .single)
    ∧ ({ sweepCfg with trigger := .interval } : SweepCfg).trigger ≠ .idle
    ∧ ({ Lines.init with pulse := some 50 } : Lines).pulse = some 50 ∧ ({ Lines.init with blink := some 125 } : Lines).blink = some 125 := by
  refine ⟨by decide, ⟨by decide +kernel, rfl, rfl, rfl⟩, by decide, by decide, rfl, rfl⟩

theorem test_meets_PlanArrivals :
    let tab (v : SlotBody) : State := (at2 onBay).modRack (fun r => { r with slots := r.slots.set 94 { body := v, nxt := some 95 } })
    let body (v : SlotBody) : SlotBody := (tab v).rack.slots[(94 : SlotIx)].body
    let g : Grade := { bin := 0, rules := true, rule := none, time := 0#32 }
    let graded : Bay := { onBay with grade := some g }
    (body (.dwell 0) = .dwell 0 ∧ body (.dwell 1) = .dwell 1 ∧ 0 < 1) ∧ body (.powerCycle 1000) = .powerCycle 1000 ∧ body .powerOff = .powerOff
    ∧ (((tab .empty).bay 2).power.state = .on ∧ (inState .off).power.state ≠ .on) ∧ body (.loop 93 0) = .loop 93 0 ∧ onBay.plan.loopReg = none
    ∧ ({ onBay.plan with loopReg := some (94, 0) } : Plan).loopReg = some (94, 0) ∧ (93 : SlotIx) ≠ 94
    ∧ body (.sweep sweepCfg) = .sweep sweepCfg ∧ body (.stamp 1048576) = .stamp 1048576 ∧ onBay.grade = none
    ∧ (graded.grade = some g ∧ (at2 graded).rack.bins[g.bin].shippable = true ∧ (at2 graded).rack.bins[(1 : Fin 16)].shippable = false
        ∧ graded.power.cap = some 1048576 ∧ graded.tracker.waiting = [] ∧ graded.lowestFree 24)
    ∧ body (.grade 1 none) = .grade 1 none := by
  refine ⟨by decide +kernel, by decide +kernel, by decide +kernel, by decide +kernel, by decide +kernel, rfl, rfl, by decide, by decide +kernel,
    by decide +kernel, rfl, ⟨rfl, by decide +kernel, by decide +kernel, rfl, rfl, lowest_of_free (by decide +kernel)⟩, by decide +kernel⟩

/-- An arrival that moves on, one that stays and one that ends the plan. -/
theorem test_meets_PlanTravel :
    let tab (v : SlotBody) : State := (at2 onBay).modRack (fun r => { r with slots := r.slots.set 94 { body := v, nxt := some 95 } })
    (∃ t, arriveAt 2 94 (tab (.dwell 0)) = .move (some 95) t) ∧ (∃ t, arriveAt 2 94 (tab (.dwell 1)) = .stay t)
    ∧ ∃ t, arriveAt 2 94 (tab (.stamp 0)) = .finish .stampRefused t := ⟨⟨_, rfl⟩, ⟨_, rfl⟩, ⟨_, rfl⟩⟩

/-- Rules 3 and 5 are true of a bay with a soft error; rule 5 is the last. -/
theorem test_meets_GradeFromRules :
    let x : Bay := { onBay with counters := { Counters.init with verified := 9, soft := 1 } }
    let rule (t : Fin 16) : Rule := { Rule.init with enable := true, selector := 1, comparison := .atLeast, threshold := 1, target := t }
    let r : Rack := { Rack.init with rules := (Rack.init.rules.set 3 (rule 2)).set 5 (rule 4) }
    (∀ k : Fin 24, Rack.init.rules[k].enable = false)
    ∧ (∀ k : Fin 24, (r.rules[k].enable = true ∧ r.rules[k].comparison.holds (metric x r.rules[k].selector r.rules[k].argument) r.rules[k].threshold) ↔ (k = 3 ∨ k = 5))
    ∧ (∀ j : Fin 24, r.rules[j].stop = false) ∧ gradeOf r x 0 = (4, some 5) := by decide +kernel

theorem test_meets_PartRecordsClose :
    let learn : Rec := { hostRecord .capacity 0 0 3#32 none false 0 none with origin := .learn }
    let a (c : Nat) : CapacityAnswer := { capacity := c, sectorSize := 4096, queueDepth := 32 }
    let x : Bay := withRec 24 learn spinBay
    let read : Rec := { host .read with origin := .sweep, visit := some 10, gen := 3 }
    let closed : Active := (active.setVisit 10 .complete).moveFrontier
    (x.tracker.recs[(24 : Tag)] = some learn ∧ learn.origin = .learn ∧ learn.kind = .capacity ∧ x.power.state = .spinningUp
        ∧ x.lane.held = [] ∧ x.plan.state ≠ .running ∧ x.tracker.waiting = [] ∧ (at2 x).rack.queue = [] ∧ x.power.cap = none)
    ∧ ((a 1048576).sectorSize = 4096 ∧ (a 1048576).queueDepth = 32 ∧ 1048576 ≤ (a 1048576).capacity ∧ (a 68719476736).capacity ≤ 68719476736)
    ∧ ¬ 1048576 ≤ (a 1048575).capacity
    ∧ (({ x.power with cap := some 1048576 } : Power).cap = some (a 1048576).capacity ∧ 1048576 ≠ (a 1048577).capacity) ∧ x.lowestFree 25
    ∧ ((withRec 24 read (sweepBay active)).tracker.recs[(24 : Tag)] = some read ∧ read.origin = .sweep ∧ read.visit = some 10 ∧ read.gen = active.gen
        ∧ (withRec 24 read (sweepBay active)).sweep.status = .active ∧ closed.frontier < closed.n ∧ closed.waitingRead = none)
    ∧ ({ sweepCfg with op := .write } : SweepCfg).op ≠ .writeVerify ∧ 1 ≤ read.count := by
  refine ⟨by decide +kernel, by decide, by decide, by decide, lowest_of_free (by decide +kernel), by decide +kernel, by decide, by decide⟩

/-! ### The clauses on serving, closes, discards and restorations are met -/

/-- An annex READ in service behind a WRITE. -/
def readSvc (off count done : Nat) : Bay :=
  { onBay with lane := { onBay.lane with annexSvc := [{ tag := 4, isWrite := true, offset := 0, count := 1, done := 0 },
      { tag := 5, isWrite := false, offset := off, count := count, done := done }] } }

theorem test_meets_EmptyQueueTakesDueEvent_read :
    nextRead (at2 (readSvc 2 3 1)) = some (2, { tag := 5, isWrite := false, offset := 2, count := 3, done := 1 })
    ∧ nextRead State.reset = none := by decide +kernel

theorem test_meets_AnnexReadsServed_next :
    ((at2 (readSvc 2 3 1)).bay 2).lane.annexSvc = [{ tag := 4, isWrite := true, offset := 0, count := 1, done := 0 }]
        ++ { tag := 5, isWrite := false, offset := 2, count := 3, done := 1 } :: []
    ∧ (∀ d : BayIx, d < 2 → ∀ a ∈ ((at2 (readSvc 2 3 1)).bay d).lane.annexSvc, a.isWrite = true)
    ∧ (1 + 1 < 3 ∧ 3 ≤ 2 + 1 ∧ (2 ≠ 2 ∨ 1 ≤ 1) ∧ 2 ≤ 2 ∧ 2 ≤ 254) ∧ (0 ≠ 2 ∧ 1048320 ≠ onBay.lane.rc + 2)
    ∧ ({ Annex.init with snapshot := some (zeroSector, zeroSector) } : Annex).snapshot = some (zeroSector, zeroSector) := by
  refine ⟨by decide +kernel, by decide +kernel, by decide, by decide, rfl⟩

theorem test_meets_SectorFieldsReadBack_layouts :
    fitsSector [⟨0, 4, 5⟩, ⟨4095, 1, 255⟩] ∧ (at2 onBay).rack.queue.length ≤ 8 ∧ 7 < 8 ∧ ([] : List URange).length ≤ 16
    ∧ onBay.tracker.unsettled = .ranges [] ∧ ({ onBay.tracker with unsettled := .whole 3#64 } : Tracker).unsettled = .whole 3#64 := by
  unfold fitsSector; decide

/-- A signed sector with a code in word 1 and bytes 12 to 15 as given. -/
def signed (code w : Word) : Sector := ((zeroSector.set 0 0x454B4438#32).set 1 code).set 3 w

theorem test_meets_AnnexWritesTaken_codes :
    (∀ n : Fin 14, (signed (BitVec.ofNat 32 n.val) 0#32)[0] = 0x454B4438#32 ∧ ((signed (BitVec.ofNat 32 n.val) 0#32)[1]).toNat = n.val)
    ∧ (byteOf (signed 8#32 0#32) 12 = 0#8 ∧ byteOf (signed 8#32 1#32) 12 = 1#8 ∧ 2 ≤ (byteOf (signed 8#32 2#32) 12).toNat)
    ∧ (byteOf (signed 9#32 0x30000#32) 14 = 3#8 ∧ 4 ≤ (byteOf (signed 9#32 0x40000#32) 14).toNat)
    ∧ (byteOf ((signed 3#32 0#32).set 4 7#32) 16).toNat = 7 ∧ 8 ≤ (byteOf ((signed 3#32 0#32).set 4 8#32) 16).toNat
    ∧ (([zeroSector] : List Sector).head? = some zeroSector ∧ zeroSector[0] ≠ 0x454B4438#32) := by
  refine ⟨by decide +kernel, by decide +kernel, by decide +kernel, by decide +kernel, by decide +kernel, rfl, by decide +kernel⟩

theorem test_meets_JudgingSteps_zone : ZoneMap.init.z = none ∧ zoned.z = some 8 := ⟨rfl, rfl⟩

theorem test_meets_HostCommandsInOnAreForwarded_idle :
    (sweepBay active).sweep.active = some active ∧ (sweepBay active).sweep.status = .active ∧ active.cfg.trigger = .idle
    ∧ onBay.sweep.active = none := ⟨rfl, rfl, rfl, rfl⟩

/-- A bay in SPINNING-UP with the LEARN query open and the capacity known. -/
def learning : Rec := { hostRecord .capacity 0 0 3#32 none false 0 none with origin := .learn }
def learnBay : Bay := withRec 24 learning { spinBay with power := { spinBay.power with cap := some 1048576 } }

theorem test_meets_HeldDuringSpinUp_drain :
    learnBay.tracker.recs[(24 : Tag)] = some learning ∧ learning.origin = .learn ∧ learning.kind = .capacity
    ∧ learnBay.power.state = .spinningUp ∧ learnBay.power.cap = some 1048576 ∧ learnBay.plan.state ≠ .running
    ∧ learnBay.tracker.waiting = [] ∧ (at2 learnBay).rack.queue = [] := by decide +kernel

theorem test_meets_PayloadsGoDown_straddle :
    let r : Rec := { host .write with sent := 7 }
    ([zeroSector, zeroSector] : List Sector) ≠ [] ∧ r.sent < r.count ∧ r.count < r.sent + 2
    ∧ ({ r with sent := 8 } : Rec).count ≤ ({ r with sent := 8 } : Rec).sent ∧ (host .other).kind = .other
    ∧ ((host .read).kind ≠ .write ∧ (host .read).kind ≠ .other) := ⟨by simp, by decide, by decide, by decide, rfl, by decide⟩

/-- Zone 7 under rescan, marked, and not marked; and a RUNNING plan. -/
theorem test_meets_ReadDataTaken_outcome :
    let plan : Plan := { Plan.init with state := .running }
    Verdict.isDefect .good = false ∧ Verdict.isDefect .unreadable = true ∧ onBay.zm.z = some 8 ∧ 1792 / 2 ^ 8 = 7
    ∧ (({ onBay.sweep with rescan := some { rescan with zone := 7 } } : Sweep).rescan = some { rescan with zone := 7 }
        ∧ ({ rescan with zone := 7 } : Rescan).zone = 7)
    ∧ (onBay.sweep.rescan = none ∧ (zoned.get 7).mark = true ∧ (onBay.zm.get 7).mark = false)
    ∧ (plan.state = .running ∧ onBay.plan.state ≠ .running ∧ 0 < 1)
    ∧ ∃ t, Runs [.rescanStart 2] (at2 onBay) t := by
  exact ⟨rfl, rfl, rfl, by decide, ⟨rfl, rfl⟩, ⟨rfl, by decide, by decide⟩, ⟨rfl, by decide, by decide⟩, _, _, rfl, rfl⟩

/-- A bay with the judged HOST READ `r` of zone 7 on tag 3, passes asked for by SET-BAY, a rescan and a plan as given. -/
def hitBay (r : Rec) (q : Option Rescan) (state : PlanState) (rescans : Nat) : Bay :=
  let x := withRec 3 r onBay
  { x with
    zm := { x.zm with zones := [(7, { ZoneRec.init with kind := .stamped 1 1 })] }
    sweep := { x.sweep with rescan := q }
    plan := { x.plan with state := state }
    settings := { x.settings with rescans := rescans } }

theorem test_meets_ReadDataTaken_hits :
    let r : Rec := { host .read with judged := true, lba := 1792 }
    let x (q : Option Rescan) (state : PlanState) (rescans : Nat) : Bay := hitBay r q state rescans
    (∀ q ∈ [none, some { rescan with zone := 7 }, some { rescan with zone := 6 }], ∀ state ∈ [PlanState.none, .running], ∀ n ∈ [0, 1],
      (x q state n).tracker.recs[(3 : Tag)] = some r ∧ (judge (x q state n) r.tol 1792 zeroSector).isDefect = true
      ∧ (x q state n).zm.z = some 8 ∧ ((x q state n).zm.get 7).mark = false ∧ (x q state n).settings.rescans = n
      ∧ (x q state n).plan.state = state ∧ (x q state n).sweep.rescan = q)
    ∧ (r.kind = .read ∧ r.judged = true ∧ r.delivered < r.count ∧ 1792 / 2 ^ 8 = 7) := by
  decide +kernel

theorem test_meets_ReadDataTaken_several :
    let r : Rec := { host .read with judged := true }
    let two : List Sector := [zeroSector, zeroSector]
    (withRec 3 r onBay).tracker.recs[(3 : Tag)] = some r ∧ r.kind = .read ∧ r.judged = true ∧ two ≠ []
    ∧ r.delivered + two.length ≤ r.count ∧ (withRec 3 r onBay).power.state = .on
    ∧ ({ onBay.power with state := .settling } : Power).state = .settling :=
  ⟨by decide +kernel, rfl, rfl, by simp, by decide, rfl, rfl⟩

theorem test_meets_HostRecordsClose_faults :
    let r : Rec := { host .read with judged := true }
    (r.judged = true ∧ r.delivered < r.count ∧ onBay.annex.wipe = none) ∧ ¬ ({ r with delivered := 8 } : Rec).delivered < r.count
    ∧ ({ Annex.init with wipe := some 0 } : Annex).wipe ≠ none
    ∧ ((host .write).lba ≤ 84 ∧ 84 < (host .write).lba + (host .write).count) ∧ ¬ 85 < (host .write).lba + (host .write).count
    ∧ ({ onBay.lane with retired := [24] } : Lane).retired = [24]
    ∧ ∃ t, Runs (List.replicate onBay.tracker.waiting.length (.partTagAssign 2)) (at2 onBay) t := by
  exact ⟨by decide, by decide, by decide, by decide, by decide, rfl, _, rfl⟩

/-- Every command of the list answers a next state, so the list runs. -/
theorem runs_some {l : List Instr} (h : ∀ c ∈ l, ∀ s : State, ∃ u, exec c s = .next u) (s : State) : ∃ t, Runs l s t := by
  induction l generalizing s with
  | nil => exact ⟨s, rfl⟩
  | cons c l ih =>
    obtain ⟨u, hu⟩ := h c (by simp) s
    obtain ⟨t, ht⟩ := ih (fun d hd => h d (by simp [hd])) u
    exact ⟨t, u, hu, ht⟩

/-- The sweep of `active` with a status, its plan RUNNING at its slot, and the record of one of its visits. -/
def closing (st : SweepStatus) (a : Active) : Bay :=
  withRec 24 { host .read with origin := .sweep, visit := some 10, gen := 3 }
    { sweepBay a with
      plan := { Plan.init with state := .running, cursor := some 5, step := .running }
      sweep := { (sweepBay a).sweep with status := st } }

theorem test_meets_PassCloseAndGeometry_close :
    let r : Rec := { host .read with origin := .sweep, visit := some 10, gen := 3 }
    let last (passIx : Nat) : Active := { active with n := 11, passIx := passIx }
    (∀ st ∈ [SweepStatus.active, .suspended, .draining, .ended],
      (closing st active).tracker.recs[(24 : Tag)] = some r ∧ r.origin = .sweep ∧ r.visit = some 10 ∧ r.gen = active.gen
      ∧ (closing st active).sweep.status = st ∧ (closing st active).sweep.active = some active
      ∧ (closing st active).plan.state = .running ∧ (closing st active).plan.cursor = some 5)
    ∧ (active.cfg.op = .writeVerify ∧ ({ r with kind := .write } : Rec).kind = .write ∧ r.kind ≠ .write)
    ∧ (((active.setVisit 10 .complete).moveFrontier).frontier < ((active.setVisit 10 .complete).moveFrontier).n)
    ∧ (((last 0).setVisit 10 .complete).moveFrontier.n ≤ ((last 0).setVisit 10 .complete).moveFrontier.frontier
        ∧ (last 0).passIx + 1 < (last 0).cfg.passes ∧ (last 1).cfg.passes ≤ (last 1).passIx + 1)
    ∧ ∃ t, Runs (.partTagAssign 2 :: List.replicate 8 (Instr.visitReadIssue 2)) (at2 onBay) t := by
  refine ⟨by decide +kernel, by decide, by decide +kernel, by decide +kernel, runs_some (fun c hc s => ?_) _⟩
  rcases List.mem_cons.mp hc with rfl | hc
  · exact ⟨_, rfl⟩
  · rw [List.eq_of_mem_replicate hc]; exact ⟨_, rfl⟩

theorem test_meets_ChainCheck_least :
    let slots := (withPlan State.reset).rack.slots
    (94 : Nat) ≤ (94 : SlotIx).val ∧ ∀ k n : SlotIx, 94 ≤ k.val →
      (slots[k].nxt = some n ∨ (∃ bin, slots[k].body = .grade bin (some n)) ∨ ∃ c, slots[k].body = .loop n c) → 94 ≤ n.val := by
  have h1 : ((withPlan State.reset).rack.slots[(94 : SlotIx)]).nxt = some 95
      ∧ ((withPlan State.reset).rack.slots[(94 : SlotIx)]).body = .dwell 100
      ∧ ((withPlan State.reset).rack.slots[(95 : SlotIx)]).nxt = none
      ∧ ((withPlan State.reset).rack.slots[(95 : SlotIx)]).body = .powerOff := by decide +kernel
  refine ⟨by decide, fun k n hk h => ?_⟩
  have hk : k = 94 ∨ k = 95 := by
    have := k.isLt
    rcases (show k.val = 94 ∨ k.val = 95 by omega) with e | e
    · exact Or.inl (Fin.ext e)
    · exact Or.inr (Fin.ext e)
  rcases hk with rfl | rfl
  · rw [h1.1, h1.2.1] at h; simp at h; subst h; decide
  · rw [h1.2.2.1, h1.2.2.2] at h; simp at h

theorem test_meets_AbortPlanDirective_off :
    (∃ t, exec (.abortPlan 2 0#32 0#8) (at2 busyBay) = .next t) ∧ busyBay.power.state = .queued
    ∧ (∀ p : PowerState, ({ busyBay with power := { busyBay.power with state := p } } : Bay).power.state = p)
    ∧ (2 : BayIx) ∉ (at2 busyBay).rack.queue := ⟨⟨_, rfl⟩, rfl, fun _ => rfl, by show (2 : BayIx) ∉ ([] : List BayIx); simp⟩

theorem test_meets_LineAndNoticeDirectives_lamp :
    onBay.lines.lampFn = .sort ∧ ({ Lines.init with lampFn := .latch } : Lines).lampFn ≠ .sort ∧ Bay.init.power.state = .empty
    ∧ onBay.power.state ≠ .empty ∧ busyBay.plan.state = .running ∧ onBay.plan.state ≠ .running ∧ onBay.grade = none
    ∧ Bay.init.lines.pattern = .off ∧ Bay.init.lines.pattern ≠ .slow := by decide

theorem test_meets_BadCodesAndCollisions_codes :
    (at2 onBay).mailboxIdle 2 ∧ (0#32 : Word).toNat = 0 ∧ 13 ≤ (13#32 : Word).toNat ∧ (1 ≤ (1#32 : Word).toNat ∧ (12#32 : Word).toNat ≤ 12) :=
  ⟨idle_at2 rfl, by decide, by decide, by decide⟩

/-- A bay in SETTLING with its flush open. -/
def settleRec : Rec := { hostRecord .flush 0 0 3#32 none false 0 (some 1#64) with origin := .settle }

theorem test_meets_SettlingAndGrantSteps_flush :
    let x : Bay := withRec 24 settleRec { settleBay with zm := zoned }
    let p : Bay := { inState .settling with plan := { Plan.init with state := .running, step := .settling, cursor := some 95 } }
    (x.tracker.recs[(24 : Tag)] = some settleRec ∧ settleRec.origin = .settle ∧ settleRec.kind = .flush
        ∧ settleRec.flushMark = some 1#64 ∧ x.power.state = .settling ∧ x.plan.state ≠ .running ∧ x.tracker.waiting = [])
    ∧ ((2 : BayIx) ∉ (at2 x).rack.queue ∧ x.zm.sound ∧ x.zm.z = some 8 ∧ x.tracker.unsettled = .ranges [⟨10, 19, 1#64⟩]
        ∧ 10 / 2 ^ 8 ≤ 0 ∧ 0 ≤ 19 / 2 ^ 8 ∧ ¬ 1 ≤ 19 / 2 ^ 8)
    ∧ (p.everyRec (fun _ => False) ∧ p.tracker.unsettled = .ranges [] ∧ p.plan.step = .settling ∧ p.plan.cursor = some 95
        ∧ (withPlan (at2 p)).rack.slots[(95 : SlotIx)].body = .powerOff ∧ (withPlan (at2 p)).rack.queue = []) := by
  refine ⟨by decide +kernel, ⟨by show (2 : BayIx) ∉ ([] : List BayIx); simp, zoned_sound, rfl, rfl, by decide⟩,
    every (fun _ => true) (by simp) (by decide +kernel), rfl, rfl, rfl, by decide +kernel, rfl⟩

/-- A rescan's record on its one chunk, and the saved contexts it can return to. -/
theorem test_meets_RescanSteps_close :
    let r : Rec := { host .read with origin := .rescan, visit := some 0, gen := 4 }
    let x (q : Rescan) (sw : Bool) (pc te : Bool) : Bay := { withRec 24 r (sweepBay active) with
      plan := { Plan.init with state := .running, cursor := some 94 }
      sweep := { (sweepBay active).sweep with
        rescan := some q, saved := some { isSweep := sw, slot := 94, passClosed := pc, timeExpired := te } } }
    let done (q : Rescan) : Nat := ((tblSet .notStarted 0 .complete q.chunks).filter (fun e => e.2 = .complete)).length
    ((x rescan true false false).tracker.recs[(24 : Tag)] = some r ∧ r.origin = .rescan ∧ r.visit = some 0 ∧ r.gen = rescan.gen
        ∧ (x rescan true false false).tracker.waiting = [] ∧ r.kind = .read)
    ∧ (rescan.m ≤ done rescan ∧ done { rescan with m := 2 } < ({ rescan with m := 2 } : Rescan).m ∧ rescan.done + 1 < rescan.r
        ∧ ({ rescan with done := 3 } : Rescan).r ≤ ({ rescan with done := 3 } : Rescan).done + 1)
    ∧ (∀ sw pc te : Bool, (x rescan sw pc te).sweep.saved = some { isSweep := sw, slot := 94, passClosed := pc, timeExpired := te }
        ∧ (x rescan sw pc te).plan.state = .running ∧ (x rescan sw pc te).plan.cursor = some 94 ∧ (x rescan sw pc te).zm.queue = [])
    ∧ ((x rescan true false false).zm.z = some 8 ∧ (x rescan true false false).power.cap = some 1048576
        ∧ (x rescan true false false).sweep.active = some active ∧ (x rescan true false false).power.state = .on)
    ∧ (active.passIx + 1 < active.cfg.passes ∧ ¬ ({ active with passIx := 1 } : Active).passIx + 1 < active.cfg.passes)
    ∧ ∃ t, Runs (.rescanStart 2 :: (List.replicate 8 (.visitReadIssue 2) ++ List.replicate 8 (.visitStart 2)) ++ [.rescanStart 2])
        (at2 onBay) t := by
  refine ⟨by decide +kernel, by decide +kernel, fun _ _ _ => ⟨rfl, rfl, rfl, rfl⟩, by decide +kernel, by decide, runs_some (fun c hc s => ?_) _⟩
  simp only [List.cons_append, List.mem_cons, List.mem_append, List.mem_replicate, List.not_mem_nil, or_false] at hc
  rcases hc with rfl | (⟨_, rfl⟩ | ⟨_, rfl⟩) | rfl <;> exact ⟨_, rfl⟩

/-- Discards of a LEARN query, of a SHIP write, under a rescan, of a draining sweep and with a waiting request. -/
theorem test_meets_LaneResets_discards :
    let drain : Bay := closing .draining active
    let wait : Bay := { onBay with tracker := { onBay.tracker with waiting := [{ host .write with origin := .ship }] } }
    learnBay.plainDiscard ∧ learnBay.power.state ≠ .on ∧ (learnBay.discards false).power.learnWait = true
    ∧ (learnBay.discards false).lane.downUp = false ∧ (inState .settling).power.learnWait = false
    ∧ ({ onBay with sweep := { onBay.sweep with rescan := some rescan } } : Bay).plainDiscard
    ∧ (drain.sweep.status = .draining ∧ drain.sweep.active = some active ∧ drain.plan.state = .running ∧ drain.plan.cursor = some 5)
    ∧ (wait.sweep.status ≠ .draining ∧ wait.tracker.waiting.length = 1)
    ∧ ∃ t, Runs (List.replicate 1 (.partTagAssign 2)) (at2 wait) t := by
  exact ⟨⟨rfl, by decide⟩, by decide, by decide +kernel, rfl, rfl, ⟨rfl, by decide⟩, ⟨rfl, rfl, rfl, rfl⟩, ⟨by decide, rfl⟩, _, _, rfl, rfl⟩

/-- A LEARN query open on a link that is UP, outside ON. -/
theorem test_meets_LaneResets_relearn :
    let x : Bay := { learnBay with lane := { learnBay.lane with downUp := true } }
    (x.discards false).power.learnWait = true ∧ (x.discards false).lane.downUp = true ∧ (x.discards false).power.state ≠ .settling
    ∧ (x.discards false).lowestFree 25 := by
  refine ⟨by decide +kernel, rfl, by decide, lowest_of_free (by decide +kernel)⟩

theorem test_meets_DownstreamLinkEvents_ship :
    let x : Bay := { onBay with
      lane := { onBay.lane with downUp := false }, ship := { name := .writing, lba := some 1048575, clipped := false, reissue := true } }
    x.lane.downUp = false ∧ x.power.state = .on ∧ x.ship.reissue = true ∧ x.ship.lba = some 1048575 ∧ x.tracker.waiting = []
    ∧ x.lowestFree 24 ∧ ∃ t, Runs (List.replicate onBay.tracker.waiting.length (.partTagAssign 2)) (at2 onBay) t :=
  ⟨rfl, rfl, rfl, rfl, rfl, lowest_of_free (by decide +kernel), _, rfl⟩

/-- Timeouts below the limit and at it, with each owner's record. -/
theorem test_meets_HoldSpinUpAndTimeoutExpiries_timeout :
    let late (x : Bay) (limit : Nat) : State := (at2 x).modRack (fun r => { r with us := 10000003#32, limit := limit })
    let r : Rec := { host .write with origin := .ship, gen := 0 }
    let x : Bay := { withRec 24 r (closing .draining active) with plan := { (closing .draining active).plan with step := .writing } }
    let t : Bay := withRec 24 settleRec (inState .settling)
    ((late x 1).bay 2).tracker.recs[(24 : Tag)] = some r
    ∧ ((late x 1).bay 2).tracker.tw * 1000 ≤ ((late x 1).rack.us - r.issue).toNat
    ∧ (1 < (late x 2).rack.limit ∧ x.power.state ≠ .settling ∧ x.sweep.status = .draining ∧ x.plan.state = .running)
    ∧ ((late x 1).rack.limit ≤ 1 ∧ x.plan.step = .writing ∧ x.sweep.status.running = true
        ∧ x.tracker.anyRec (fun r => decide (r.origin = .ship ∧ r.gen = x.plan.gen)) = true)
    ∧ (t.power.state = .settling ∧ t.plan.state ≠ .running ∧ t.sweep.status ≠ .draining
        ∧ 10000 * 1000 ≤ (10000003#32 - settleRec.issue).toNat) ∧ (2 : BayIx) ∉ (late x 1).rack.queue := by
  refine ⟨by decide +kernel, by decide +kernel, by decide +kernel, by decide +kernel, by decide +kernel, ?_⟩
  show (2 : BayIx) ∉ ([] : List BayIx)
  simp

theorem test_meets_PlanArrivals_sweepAndStamp :
    let f : SweepCfg := { sweepCfg with order := .ascendContinue, start := 1048575, length := 2 }
    let x (u : Option Resume) : Bay := { onBay with sweep := { onBay.sweep with resume := u } }
    let here : Resume := { slot := 94, passIx := 1, frontier := 3 }
    let wait : Bay := { onBay with tracker := { onBay.tracker with waiting := [host .write] } }
    (1048576 ≤ ({ f with start := 1048576 } : SweepCfg).start ∧ f.start < 1048576 ∧ 1048576 < f.start + f.length)
    ∧ ((x (some here)).sweep.resume = some here ∧ f.order = .ascendContinue ∧ here.slot = 94 ∧ sweepCfg.order ≠ .ascendContinue)
    ∧ (x none).sweep.resume = none ∧ onBay.power.state = .on ∧ onBay.power.cap = some 1048576
    ∧ wait.tracker.waiting ≠ [] ∧ onBay.lowestFree 24 := by
  refine ⟨by decide, by decide, rfl, rfl, rfl, by decide, lowest_of_free (by decide +kernel)⟩

theorem test_meets_PartRecordsClose_shipAndPlan :
    let r : Rec := { host .write with origin := .ship, gen := 7 }
    let x (g : Nat) : Bay := { withRec 24 r onBay with plan := { Plan.init with state := .running, step := .writing, cursor := some 94, gen := g } }
    let y (st : PhaseStep) : Bay := { learnBay with plan := { Plan.init with state := .running, step := st, cursor := some 94 } }
    ((x 7).tracker.recs[(24 : Tag)] = some r ∧ r.origin = .ship ∧ (x 7).plan.gen = r.gen ∧ (x 8).plan.gen ≠ r.gen
        ∧ (x 7).plan.state = .running ∧ (x 7).plan.step = .writing ∧ (x 7).plan.cursor = some 94)
    ∧ ((y .waitingForOn).plan.step = .waitingForOn ∧ (y .poweringUp).plan.step = .poweringUp ∧ (y .poweringUp).lane.held = []
        ∧ (y .poweringUp).power.cap = some 1048576)
    ∧ ∃ t, Runs [.rescanStart 2] (at2 onBay) t := by
  refine ⟨by decide +kernel, by decide +kernel, _, _, rfl, rfl⟩

/-- One run of each list that the widened statements name. -/
theorem grant_runs (s : State) : ∃ t, Runs [.grant] s t := ⟨_, _, rfl, rfl⟩

theorem test_meets_EmptyQueueTakesDueEvent_conditions :
    let q : Rescan := { rescan with chunks := [(0, .complete), (2, .writing)], m := 4 }
    (.settleFlushIssue 2 ∈ dueSteps (at2 settleBay) 2 ∧ .settledOff 2 ∈ dueSteps (at2 (inState .settling)) 2
      ∧ .visitStart 2 ∈ dueSteps (at2 (sweepBay active)) 2)
    ∧ dueGrant (inRack (fun r => { r with queue := [2], budget := 2000 }) (at2 (inState .queued))) = [.grant]
    ∧ .idleTimerExpiry 2 ∈ dueExpiries (at2 { onBay with tracker := { Tracker.init with idle := some 0 } }) 2
    ∧ .timeoutEvent 2 ∉ dueExpiries (at2 onBay) 2
    ∧ (q.chunks.Pairwise (fun e f => e.1 < f.1) ∧ q.nextChunk = some 1) := by decide +kernel

/-- The ms count rises at the last µs of a ms and at no other, and a timer falls with it. -/
theorem test_meets_EmptyQueueTakesDueEvent_time :
    let s (sub : Nat) : State := inRack (fun r => { r with sub := sub }) (at2 { onBay with tracker := { Tracker.init with idle := some 3 } })
    ((s 998).rack.sub < 999 ∧ (s 999).rack.sub = 999 ∧ (s 999).rack.sub ≤ 1000 * 1)
    ∧ ((advance 1 (s 998)).rack.ms = 0#32 ∧ ((advance 1 (s 998)).bay 2).tracker.idle = some 3)
    ∧ ((advance 1 (s 999)).rack.ms = 1#32 ∧ ((advance 1 (s 999)).bay 2).tracker.idle = some 2)
    ∧ (advanceMs 3 (s 999)).rack.us = 2001#32 := by decide +kernel

theorem test_meets_HostRecordsClose_join :
    let l : List URange := [⟨10, 19, 1#64⟩, ⟨40, 49, 2#64⟩]
    let meets (u : URange) : Bool := decide (u.lo ≤ 30 + 1 ∧ 20 ≤ u.hi + 1)
    l.filter meets ≠ [] ∧ l.length < 16 ∧ (20 ≤ 30 ∧ l.Pairwise (fun u v => u.hi + 1 < v.lo))
    ∧ (List.replicate 16 (⟨50, 59, 1#64⟩ : URange)).filter meets = [] ∧ 16 ≤ (List.replicate 16 (⟨50, 59, 1#64⟩ : URange)).length
    ∧ (withRec 3 (host .read) onBay).tracker.recs[(3 : Tag)] = some (host .read) ∧ onBay.tracker.hostOpen = false := by decide +kernel

theorem test_meets_LineAndNoticeDirectives_levels :
    let x (f : LampFn) (g : AuxFn) (p : LampPattern) : Bay :=
      { onBay with lines := { Lines.init with lampFn := f, auxFn := g, pattern := p, blinkLit := true, pulse := some 50 } }
    ([LampPattern.off, .on, .slow, .fast].map (fun p => (x .sort .input p).lampLit) = [false, true, true, true])
    ∧ (x .activity .input .off).lampLit = true ∧ (x .latch .input .on).lampLit = false
    ∧ [AuxFn.input, .latch, .faultOut, .lock].map (fun g => (x .sort g .off).auxDriven) = [none, some false, some false, some true]
    ∧ ({ Plan.init with state := .ended, outcome := some .faulted } : Plan).outcome = some .faulted := by decide +kernel

/-- A settling under a RUNNING plan, at a POWER-CYCLE in slot 94 and at a POWER-OFF in slot 95. -/
def settlingPlan (k : SlotIx) (x : Bay) : Bay := { x with plan := { Plan.init with state := .running, step := .settling, cursor := some k } }

def settlingRack (x : Bay) : State :=
  inRack (fun r => { r with slots := (r.slots.set 94 { body := .powerCycle 500, nxt := none }).set 95 { body := .powerOff, nxt := none } }) (at2 x)

theorem test_meets_SettlingAndGrantSteps_plan :
    let x (k : SlotIx) : Bay := settlingPlan k (withRec 24 settleRec settleBay)
    (((settlingRack (x 94)).bay 2).tracker.recs[(24 : Tag)] = some settleRec ∧ settleRec.origin = .settle ∧ settleRec.kind = .flush
        ∧ ∀ a, DriveStatus.otherError ≠ .good a)
    ∧ ((x 94).plan.state = .running ∧ (x 94).plan.step = .settling ∧ (x 94).plan.cursor = some 94 ∧ (x 95).plan.cursor = some 95)
    ∧ ((settlingRack (x 94)).rack.slots[(94 : SlotIx)].body = .powerCycle 500 ∧ (settlingRack (x 95)).rack.slots[(95 : SlotIx)].body = .powerOff)
    ∧ settleBay.plan.state ≠ .running ∧ ∃ t, Runs [.grant] (at2 settleBay) t :=
  ⟨⟨by decide +kernel, rfl, rfl, by simp⟩, by decide, by decide +kernel, by decide, grant_runs _⟩

theorem test_meets_HoldSpinUpAndTimeoutExpiries_plan :
    let x (k : SlotIx) : Bay := settlingPlan k (withRec 24 settleRec settleBay)
    let s (k : SlotIx) : State := inRack (fun r => { r with us := 10000003#32, limit := 2 }) (settlingRack (x k))
    (((s 94).bay 2).tracker.recs[(24 : Tag)] = some settleRec ∧ ((s 94).bay 2).tracker.tw * 1000 ≤ ((s 94).rack.us - settleRec.issue).toNat
        ∧ 1 < (s 94).rack.limit ∧ ((s 94).bay 2).power.state = .settling ∧ ((s 94).bay 2).sweep.status ≠ .draining)
    ∧ (((s 94).bay 2).plan.state = .running ∧ ((s 94).bay 2).plan.step = .settling ∧ ((s 94).bay 2).plan.cursor = some 94)
    ∧ ((s 94).rack.slots[(94 : SlotIx)].body = .powerCycle 500 ∧ (s 95).rack.slots[(95 : SlotIx)].body = .powerOff)
    ∧ ∃ t, Runs [.grant] (s 94) t := ⟨by decide +kernel, by decide +kernel, by decide +kernel, grant_runs _⟩

/-- A LEARN query that is answered with a command held and another bay queued, the capacity known and not known. -/
theorem test_meets_PartRecordsClose_changeToOn :
    let h : Held := { tag := 3, kind := .flush, lba := 0, count := 0, arrival := 0#32 }
    let x : Bay := { learnBay with lane := { learnBay.lane with held := [h] } }
    let s : State := inRack (fun r => { r with queue := [5] }) (at2 x)
    ((s.bay 2).tracker.recs[(24 : Tag)] = some learning ∧ learning.origin = .learn ∧ learning.kind = .capacity ∧ x.power.state = .spinningUp
        ∧ x.power.cap = some 1048576 ∧ ({ x.power with cap := none } : Power).cap = none ∧ x.plan.state ≠ .running)
    ∧ (x.lane.held = [h] ∧ s.rack.queue = [5])
    ∧ (∃ g, Runs [.grant] s g) ∧ ∃ t, Runs [.rescanStart 2] s t :=
  ⟨by decide +kernel, ⟨rfl, rfl⟩, grant_runs _, _, _, rfl, rfl⟩

end Sys2Proof.Tests
end

section
/-! SUPPORT. The stamped sector word by word (R44, R45), the values read back from a header (R46), what the bit-error counts
count (R55) and the outcome of each test of the stamped check (R54); and the statements O13, O14, O15, O17 and O18, settled
from them. -/

namespace Sys2Proof.Machine

/-! ### The words and bytes of a sector -/

/-- Words 0 to 1023 are read by `wordOf` as they stand in the sector. -/
@[simp] theorem wordOf_eq_getElem (x : Sector) (k : Nat) (h : k < 1024) : wordOf x k = x[k] := by
  simp [wordOf, h]

/-- Byte i of word k, the least significant byte first. -/
theorem byteOf_eq_extractLsb' (x : Sector) (k i : Nat) (hk : k < 1024) (hi : i < 4) :
    byteOf x (4 * k + i) = x[k].extractLsb' (8 * i) 8 := by
  have hword : (4 * k + i) / 4 = k := by omega
  have hbyte : (4 * k + i) % 4 = i := by omega
  ext j hj
  simp [byteOf, hword, hbyte, hk]

theorem toList_eq_map_finRange (x : Sector) : x.toList = (List.finRange 1024).map (fun k => x[k]) :=
  List.ext_getElem (by simp) (by simp)

theorem allZero_iff (x : Sector) : allZero x = true ↔ ∀ k : Fin 1024, x[k] = 0#32 := by
  simp [allZero, toList_eq_map_finRange]

/-! ### The stamped sector (R44, R45) -/

@[simp] theorem stampSector_getElem (seed : Word) (p l k : Nat) (h : k < 1024) :
    (stampSector seed p l)[k] = stampWord seed p l k := by
  simp [stampSector]

@[simp] theorem stampWord_zero (seed : Word) (p l : Nat) : stampWord seed p l 0 = stampSignature := rfl
@[simp] theorem stampWord_one (seed : Word) (p l : Nat) : stampWord seed p l 1 = stampWord1 l := rfl
@[simp] theorem stampWord_two (seed : Word) (p l : Nat) : stampWord seed p l 2 = stampWord2 p l := rfl
@[simp] theorem stampWord_three (seed : Word) (p l : Nat) : stampWord seed p l 3 = stampWord3 seed p l := rfl

theorem stampWord_of_four_le (seed : Word) (p l k : Nat) (h : 4 ≤ k) : stampWord seed p l k = stampBody seed p l k := by
  obtain ⟨j, rfl⟩ := Nat.exists_eq_add_of_le' h
  rfl

theorem stampWord1_eq_ofNat_mod (l : Nat) : stampWord1 l = BitVec.ofNat 32 (l % 2 ^ 32) := by
  apply BitVec.eq_of_toNat_eq
  simp [stampWord1]

/-- A pass below 65536 and an LBA below 2^48 stand side by side in word 2 without a carry. -/
theorem toNat_stampWord2 (p l : Nat) (hp : p < 65536) (hl : l < 2 ^ 48) :
    (stampWord2 p l).toNat = p * 65536 + l / 2 ^ 32 := by
  simp only [stampWord2, BitVec.toNat_ofNat]
  omega

/-- Word 1 and so the base of the body depend on L modulo 2^32 only. -/
theorem stampWord1_congr {l m : Nat} (h : l % 2 ^ 32 = m % 2 ^ 32) : stampWord1 l = stampWord1 m := by
  rw [stampWord1_eq_ofNat_mod, stampWord1_eq_ofNat_mod, h]

theorem stampBody_congr (seed : Word) (p k : Nat) {l m : Nat} (h : l % 2 ^ 32 = m % 2 ^ 32) :
    stampBody seed p l k = stampBody seed p m k := by
  simp only [stampBody, stampBase, stampWord1_congr h]

/-- A body word is the raw value rotated by its position, complemented on odd passes. -/
theorem stampSector_getElem_body (seed : Word) (p l k : Nat) (hk : k < 1024) (h : 4 ≤ k) :
    (stampSector seed p l)[k] = stampBody seed p l k := by
  rw [stampSector_getElem, stampWord_of_four_le _ _ _ _ h]

/-- LBAs below 2^36 that agree modulo 2^32 have high parts that differ, at every pass. -/
theorem stampWord2_ne (p : Nat) {l m : Nat} (hmod : l % 2 ^ 32 = m % 2 ^ 32) (hne : l ≠ m) (hl : l < 2 ^ 36) (hm : m < 2 ^ 36) :
    stampWord2 p l ≠ stampWord2 p m := by
  intro h
  have hnat : (p * 65536 + l / 4294967296) % 2 ^ 32 = (p * 65536 + m / 4294967296) % 2 ^ 32 := by
    simpa [stampWord2] using congrArg BitVec.toNat h
  omega

/-- Where word 1 is the same, word 3 tells two sectors apart as word 2 does. -/
theorem stampWord3_ne (seed : Word) (p : Nat) {l m : Nat} (h1 : stampWord1 l = stampWord1 m) (h2 : stampWord2 p l ≠ stampWord2 p m) :
    stampWord3 seed p l ≠ stampWord3 seed p m := by
  simp [stampWord3, h1, h2]

/-! ### The raw values of the body (R45) -/

theorem getLsbD_zero_iff_odd (d : Word) : d.getLsbD 0 = true ↔ Odd d.toNat := by
  simp [BitVec.getLsbD, Nat.testBit_zero, Nat.odd_iff]

/-- The step 2 × B + 1 is odd. -/
theorem getLsbD_zero_stride (b : Word) : (2#32 * b + 1#32).getLsbD 0 = true := by
  rw [getLsbD_zero_iff_odd, Nat.odd_iff]
  simp only [BitVec.toNat_add, BitVec.toNat_mul, BitVec.toNat_ofNat]
  omega

/-- Multiples of an odd step by factors below 2^32 are distinct: an odd number is coprime to 2^32. -/
theorem mul_odd_injective {d : Word} (hd : d.getLsbD 0 = true) {j k : Nat} (hj : j < 2 ^ 32) (hk : k < 2 ^ 32)
    (h : BitVec.ofNat 32 j * d = BitVec.ofNat 32 k * d) : j = k := by
  have hcoprime : Nat.Coprime (2 ^ 32) d.toNat :=
    Nat.Coprime.pow_left 32 (Nat.coprime_two_left.mpr ((getLsbD_zero_iff_odd d).mp hd))
  have hmul : j * d.toNat ≡ k * d.toNat [MOD 2 ^ 32] := by
    simpa [Nat.ModEq] using congrArg BitVec.toNat h
  exact (Nat.ModEq.cancel_right_of_coprime hcoprime hmul).eq_of_lt_of_lt hj hk

/-- The raw values at one base are distinct. -/
theorem raw_injective (b : Word) {j k : Fin 1024}
    (h : b + BitVec.ofNat 32 j.val * (2#32 * b + 1#32) = b + BitVec.ofNat 32 k.val * (2#32 * b + 1#32)) : j = k :=
  Fin.ext (mul_odd_injective (getLsbD_zero_stride b) (by omega) (by omega) (BitVec.add_right_inj b |>.mp h))

/-! ### The values of a header (R46) -/

theorem bearsSignature_iff (x : Sector) : bearsSignature x = true ↔ x[0] = 0x454B5438#32 := by
  simp [bearsSignature, stampSignature]

theorem headerSumHolds_iff (seed : Word) (x : Sector) :
    headerSumHolds seed x = true ↔ x[3] = x[0] + x[1] + x[2] + seed := by
  simp [headerSumHolds]

theorem headerLba_eq (x : Sector) : headerLba x = x[1].toNat + x[2].toNat % 65536 * 2 ^ 32 := by
  simp [headerLba]

theorem headerPass_eq (x : Sector) : headerPass x = x[2].toNat / 65536 := by
  simp [headerPass]

theorem headerLba_le (x : Sector) : headerLba x ≤ 2 ^ 48 - 1 := by
  have hlow : x[1].toNat < 2 ^ 32 := x[1].isLt
  rw [headerLba_eq]
  omega

theorem headerPass_le (x : Sector) : headerPass x ≤ 65535 := by
  have hword : x[2].toNat < 2 ^ 32 := x[2].isLt
  rw [headerPass_eq]
  omega

/-! ### The bit-error counts (R55) -/

/-- `bitCount k` counts the set bits among bits 0 to k - 1. -/
theorem bitCount_eq_length_filter (k n : Nat) : bitCount k n = ((List.range k).filter (fun i => n.testBit i)).length := by
  induction k generalizing n with
  | zero => rfl
  | succ k ih =>
    have hshift : (fun i => n.testBit i) ∘ Nat.succ = fun i => (n / 2).testBit i :=
      funext fun i => Nat.testBit_succ n i
    have hlow : n % 2 = if n.testBit 0 then 1 else 0 := by
      rcases Nat.mod_two_eq_zero_or_one n with h | h <;> simp [Nat.testBit_zero, h]
    rw [bitCount, ih, List.range_succ_eq_map, List.filter_cons, List.filter_map, hshift, hlow]
    split <;> simp [Nat.add_comm]

theorem popCount_eq_length_filter (w : Word) :
    popCount w = ((List.range 32).filter (fun i => w.getLsbD i)).length :=
  bitCount_eq_length_filter 32 w.toNat

theorem popCount_le (w : Word) : popCount w ≤ 32 := by
  rw [popCount_eq_length_filter]
  exact (List.length_filter_le _ _).trans (List.length_range ..).le

/-- `errorsFrom` adds up the differing bits, each word against the body's word of its own number. -/
theorem errorsFrom_eq_sum (seed : Word) (p l k : Nat) (ws : List Word) :
    errorsFrom seed p l k ws = ((ws.zipIdx k).map (fun q => popCount (q.1 ^^^ stampBody seed p l q.2))).sum := by
  induction ws generalizing k with
  | nil => rfl
  | cons w t ih => simp [errorsFrom, ih]

/-- The words of a sector with their numbers, from word `n` on. -/
theorem drop_toList_zipIdx (x : Sector) (n : Nat) :
    (x.toList.drop n).zipIdx n = ((List.finRange 1024).drop n).map (fun k => (x[k], k.val)) :=
  List.ext_getElem (by simp) (by simp)

theorem bodyErrors_eq_sum_drop (seed : Word) (p l : Nat) (x : Sector) :
    bodyErrors seed p l x = (((List.finRange 1024).drop 4).map (fun k => popCount (x[k] ^^^ stampBody seed p l k.val))).sum := by
  rw [bodyErrors, errorsFrom_eq_sum, drop_toList_zipIdx, List.map_map]
  rfl

/-- Terms that count from word `n` on only: the words before it add nothing. -/
theorem sum_drop_finRange (n : Nat) {m : Nat} (f : Fin m → Nat) :
    (((List.finRange m).drop n).map f).sum = ((List.finRange m).map (fun k => if n ≤ k.val then f k else 0)).sum := by
  have hhead : (((List.finRange m).take n).map (fun k => if n ≤ k.val then f k else 0)).sum = 0 := by
    rw [List.sum_eq_zero_iff]
    simp only [List.mem_map, List.mem_take_iff_getElem]
    rintro _ ⟨_, ⟨i, hi, rfl⟩, rfl⟩
    simp
    omega
  have htail : ((List.finRange m).drop n).map f = ((List.finRange m).drop n).map (fun k => if n ≤ k.val then f k else 0) := by
    refine List.map_congr_left fun k hk => ?_
    obtain ⟨i, hi, rfl⟩ := List.mem_drop_iff_getElem.mp hk
    simp
  conv_rhs => rw [← List.take_append_drop n (List.finRange m), List.map_append, List.sum_append, hhead, zero_add]
  rw [htail]

/-- E of the stamped check, against the words of the generated sector. -/
theorem bodyErrors_eq_sum (seed : Word) (p l : Nat) (x : Sector) :
    bodyErrors seed p l x = ((List.finRange 1024).map (fun k =>
      if 4 ≤ k.val then ((List.range 32).filter (fun i => (x[k] ^^^ (stampSector seed p l)[k]).getLsbD i)).length else 0)).sum := by
  rw [bodyErrors_eq_sum_drop, sum_drop_finRange]
  refine congrArg List.sum (List.map_congr_left fun k _ => ?_)
  split
  · next hk => rw [popCount_eq_length_filter, Fin.getElem_fin (stampSector seed p l), stampSector_getElem_body _ _ _ _ _ hk]
  · rfl

theorem oneBits_eq_sum (x : Sector) :
    oneBits x = ((List.finRange 1024).map (fun k => ((List.range 32).filter (fun i => x[k].getLsbD i)).length)).sum := by
  simp only [oneBits, toList_eq_map_finRange, List.map_map, Function.comp_def, popCount_eq_length_filter]

/-- A count over words is at most 32 for each of them. -/
theorem sum_popCount_le {α : Type} (f : α → Word) (l : List α) : (l.map (fun a => popCount (f a))).sum ≤ l.length * 32 := by
  have hword : ∀ c ∈ l.map (fun a => popCount (f a)), c ≤ 32 := by
    simpa using fun a _ => popCount_le (f a)
  simpa using List.sum_le_card_nsmul _ 32 hword

/-- 1020 words of 32 bits. -/
theorem bodyErrors_le (seed : Word) (p l : Nat) (x : Sector) : bodyErrors seed p l x ≤ 32640 := by
  have hlength : ((List.finRange 1024).drop 4).length = 1020 := by simp
  have hsum := sum_popCount_le (fun k : Fin 1024 => x[k] ^^^ stampBody seed p l k.val) ((List.finRange 1024).drop 4)
  rwa [← bodyErrors_eq_sum_drop, hlength] at hsum

/-- 1024 words of 32 bits. -/
theorem oneBits_le (x : Sector) : oneBits x ≤ 32768 := by
  have hsum := sum_popCount_le id x.toList
  rwa [Vector.length_toList] at hsum

/-! ### The outcome that E and T give (R55) -/

theorem gradeErrors_zero (tol : Nat) : gradeErrors tol 0 = .good := rfl

theorem gradeErrors_soft {tol e : Nat} (hpos : 1 ≤ e) (hle : e ≤ tol) : gradeErrors tol e = .soft := by
  simp [gradeErrors, Nat.ne_of_gt hpos, hle]

theorem gradeErrors_corrupt {tol e : Nat} (hpos : 1 ≤ e) (hlt : tol < e) : gradeErrors tol e = .corrupt := by
  simp [gradeErrors, Nat.ne_of_gt hpos, Nat.not_le.mpr hlt]

/-! ### The tests of the stamped check, in their order (R54) -/

section
variable {seed : Word} {tol lo hi l : Nat} {x : Sector}

theorem stampedCheck_blank (hsig : bearsSignature x = false) (hzero : ∀ k : Fin 1024, x[k] = 0#32) :
    stampedCheck seed tol lo hi l x = .blank := by
  simp [stampedCheck, hsig, (allZero_iff x).mpr hzero]

theorem stampedCheck_foreign (hsig : bearsSignature x = false) (hword : ∃ k : Fin 1024, x[k] ≠ 0#32) :
    stampedCheck seed tol lo hi l x = .foreign := by
  have hzero : ¬ allZero x = true := fun h => hword.elim fun k hk => hk ((allZero_iff x).mp h k)
  simp [stampedCheck, hsig, hzero]

theorem stampedCheck_headerCorrupt (hsig : bearsSignature x = true) (hsum : headerSumHolds seed x = false) :
    stampedCheck seed tol lo hi l x = .headerCorrupt := by
  simp [stampedCheck, hsig, hsum]

theorem stampedCheck_misplaced (hsig : bearsSignature x = true) (hsum : headerSumHolds seed x = true) (hlba : headerLba x ≠ l) :
    stampedCheck seed tol lo hi l x = .misplaced := by
  simp [stampedCheck, hsig, hsum, hlba]

theorem stampedCheck_stale (hsig : bearsSignature x = true) (hsum : headerSumHolds seed x = true) (hlba : headerLba x = l)
    (hlo : headerPass x < lo) : stampedCheck seed tol lo hi l x = .stale := by
  simp [stampedCheck, hsig, hsum, hlba, hlo]

theorem stampedCheck_ahead (hsig : bearsSignature x = true) (hsum : headerSumHolds seed x = true) (hlba : headerLba x = l)
    (hlo : lo ≤ headerPass x) (hhi : hi < headerPass x) : stampedCheck seed tol lo hi l x = .ahead := by
  simp [stampedCheck, hsig, hsum, hlba, Nat.not_lt.mpr hlo, hhi]

/-- A header that passes tests 1 to 4 leaves the outcome to the body. -/
theorem stampedCheck_body (hsig : bearsSignature x = true) (hsum : headerSumHolds seed x = true) (hlba : headerLba x = l)
    (hlo : lo ≤ headerPass x) (hhi : headerPass x ≤ hi) :
    stampedCheck seed tol lo hi l x = gradeErrors tol (bodyErrors seed (headerPass x) l x) := by
  simp [stampedCheck, hsig, hsum, hlba, Nat.not_lt.mpr hlo, Nat.not_lt.mpr hhi]

end

end Sys2Proof.Machine

/-! ### The statements -/

namespace Sys2Proof.Proofs

open Sys2Proof.Machine

/-- Settles O13: the header words are those of `stampWord`; the bounds on P and L keep word 2 free of a carry. -/
theorem stampHeader : Obligations.StampHeader := by
  intro seed p l
  refine ⟨by simp [stampSignature], by simp [stampWord1_eq_ofNat_mod], by simp [stampWord2], by simp [stampWord3], ?_,
    fun k i hi => byteOf_eq_extractLsb' _ k.val i k.isLt hi⟩
  intro hp hl
  have hword : (stampSector seed p l)[2].toNat = p * 65536 + l / 2 ^ 32 := by
    rw [stampSector_getElem, stampWord_two, toNat_stampWord2 p l hp (by omega)]
  rw [hword]
  omega

/-- Settles O14: the raw values are distinct because the step is odd and so a unit modulo 2^32; only word 1 of the header
enters the body, so LBAs 2^32 apart share it. -/
theorem stampBody : Obligations.StampBody := by
  refine ⟨fun seed p l k hk => ⟨getLsbD_zero_stride _, fun j hj => raw_injective _ hj, ?_⟩,
    fun seed p l m hmod => ⟨fun k hk => ?_, fun hne hl hm => ?_⟩⟩
  · rw [Fin.getElem_fin, stampSector_getElem_body _ _ _ _ _ hk, stampSector_getElem, stampWord_one]
    simp only [Machine.stampBody, stampBase, BitVec.ofNat_mul]
  · rw [Fin.getElem_fin, Fin.getElem_fin, stampSector_getElem_body _ _ _ _ _ hk, stampSector_getElem_body _ _ _ _ _ hk,
      stampBody_congr seed p k.val hmod]
  · have h2 : stampWord2 p l ≠ stampWord2 p m := stampWord2_ne p hmod hne hl hm
    simp only [stampSector_getElem]
    exact ⟨h2, stampWord3_ne seed p (stampWord1_congr hmod) h2⟩

/-- Settles O15, value by value. -/
theorem headerValues : Obligations.HeaderValues := fun seed x =>
  ⟨bearsSignature_iff x, headerSumHolds_iff seed x, headerLba_eq x, headerLba_le x, headerPass_eq x, headerPass_le x⟩

/-- Settles O17, test by test. -/
theorem stampedCheckOrder : Obligations.StampedCheckOrder := by
  intro seed tol lo hi l x
  refine ⟨stampedCheck_blank, stampedCheck_foreign, stampedCheck_headerCorrupt, stampedCheck_misplaced, stampedCheck_stale,
    stampedCheck_ahead, fun hsig hsum hlba hlo hhi => ?_⟩
  rw [← bodyErrors_eq_sum]
  exact stampedCheck_body hsig hsum hlba hlo hhi

/-- Settles O18: what the two counts count, their ranges, and the three outcomes. -/
theorem bitErrorsDecide : Obligations.BitErrorsDecide :=
  ⟨fun seed p l x => ⟨bodyErrors_eq_sum seed p l x, bodyErrors_le seed p l x⟩,
    fun x => ⟨oneBits_eq_sum x, oneBits_le x⟩,
    fun _ _ => rfl,
    fun _ _ _ _ _ _ => stampedCheck_body,
    fun tol _ => ⟨fun h => h ▸ gradeErrors_zero tol, gradeErrors_soft, gradeErrors_corrupt⟩⟩

end Sys2Proof.Proofs
end

section
/-! SUPPORT. The chunk that a visit names in each order, the one visit that names a given chunk, and the range that a pass covers
(R88); and the statement O22, settled from them. -/

namespace Sys2Proof.Machine

/-! ### The chunk of a visit (R88) -/

@[simp] theorem chunkOf_ascendRestart (n v : Nat) : chunkOf .ascendRestart n v = v := rfl
@[simp] theorem chunkOf_ascendContinue (n v : Nat) : chunkOf .ascendContinue n v = v := rfl
@[simp] theorem chunkOf_descend (n v : Nat) : chunkOf .descend n v = n - 1 - v := rfl
@[simp] theorem chunkOf_fixed (n v : Nat) : chunkOf .fixed n v = 0 := rfl

theorem chunkOf_butterfly_of_even (n : Nat) {v : Nat} (h : v % 2 = 0) : chunkOf .butterfly n v = v / 2 := if_pos h

theorem chunkOf_butterfly_of_odd (n : Nat) {v : Nat} (h : v % 2 = 1) : chunkOf .butterfly n v = n - 1 - (v - 1) / 2 :=
  if_neg (by omega)

/-- The even visits of BUTTERFLY rise from chunk 0. -/
@[simp] theorem chunkOf_butterfly_two_mul (n k : Nat) : chunkOf .butterfly n (2 * k) = k := by
  rw [chunkOf_butterfly_of_even n (by omega)]
  omega

/-- The odd visits of BUTTERFLY fall from chunk n - 1. -/
@[simp] theorem chunkOf_butterfly_two_mul_add_one (n k : Nat) : chunkOf .butterfly n (2 * k + 1) = n - 1 - k := by
  rw [chunkOf_butterfly_of_odd n (by omega)]
  omega

/-! ### The visit of a chunk

In the first four orders the visits of a pass and its chunks correspond one to one: `visitOf` turns `chunkOf` round. -/

/-- The visit that names chunk c of n. BUTTERFLY reaches the lower half of the range, the middle chunk with it, on its
even visits and the upper half on its odd ones. FIXED has no such visit, and visit 0 stands for it. -/
def visitOf (o : SweepOrder) (n c : Nat) : Nat :=
  match o with
  | .ascendRestart => c
  | .ascendContinue => c
  | .descend => n - 1 - c
  | .butterfly => if 2 * c < n then 2 * c else 2 * (n - 1 - c) + 1
  | .fixed => 0

theorem visitOf_butterfly_of_lower {n c : Nat} (h : 2 * c < n) : visitOf .butterfly n c = 2 * c := if_pos h

theorem visitOf_butterfly_of_upper {n c : Nat} (h : n ≤ 2 * c) : visitOf .butterfly n c = 2 * (n - 1 - c) + 1 :=
  if_neg (Nat.not_lt.mpr h)

theorem visitOf_lt (o : SweepOrder) {n c : Nat} (hc : c < n) : visitOf o n c < n := by
  cases o with
  | ascendRestart => exact hc
  | ascendContinue => exact hc
  | descend => simp only [visitOf]; omega
  | butterfly =>
    rcases Nat.lt_or_ge (2 * c) n with hlower | hupper
    · rwa [visitOf_butterfly_of_lower hlower]
    · rw [visitOf_butterfly_of_upper hupper]
      omega
  | fixed => exact Nat.zero_lt_of_lt hc

/-- The visit of a chunk names that chunk. -/
theorem chunkOf_visitOf {o : SweepOrder} (ho : o ≠ .fixed) {n c : Nat} (hc : c < n) : chunkOf o n (visitOf o n c) = c := by
  cases o with
  | ascendRestart => rfl
  | ascendContinue => rfl
  | descend => simp only [visitOf, chunkOf_descend]; omega
  | butterfly =>
    rcases Nat.lt_or_ge (2 * c) n with hlower | hupper
    · rw [visitOf_butterfly_of_lower hlower, chunkOf_butterfly_two_mul]
    · rw [visitOf_butterfly_of_upper hupper, chunkOf_butterfly_two_mul_add_one]
      omega
  | fixed => exact absurd rfl ho

/-- A visit of the pass is the visit of the chunk it names, so no two visits name one chunk. -/
theorem visitOf_chunkOf {o : SweepOrder} (ho : o ≠ .fixed) {n v : Nat} (hv : v < n) : visitOf o n (chunkOf o n v) = v := by
  cases o with
  | ascendRestart => rfl
  | ascendContinue => rfl
  | descend => simp only [visitOf, chunkOf_descend]; omega
  | butterfly =>
    obtain ⟨k, rfl | rfl⟩ := Nat.even_or_odd' v
    · rw [chunkOf_butterfly_two_mul, visitOf_butterfly_of_lower hv]
    · rw [chunkOf_butterfly_two_mul_add_one, visitOf_butterfly_of_upper (by omega)]
      omega
  | fixed => exact absurd rfl ho

/-! ### The covered range (R88) -/

theorem Active.covered_eq_fitted {a : Active}
    (h : a.cfg.order = .ascendRestart ∨ a.cfg.order = .descend ∨ a.cfg.order = .butterfly) : a.covered = (a.lo, a.hi) := by
  rcases h with h | h | h <;> simp [Active.covered, h]

theorem Active.covered_of_ascendContinue {a : Active} (h : a.cfg.order = .ascendContinue) :
    a.covered = (a.lo + a.firstVisit * a.cfg.chunk, a.hi) := by
  simp [Active.covered, h]

/-- The extent of chunk 0, which the end of the range may cut short. -/
theorem Active.covered_of_fixed {a : Active} (h : a.cfg.order = .fixed) :
    a.covered = (a.lo, min (a.lo + a.cfg.chunk) a.hi) := by
  simp [Active.covered, Active.chunkLo, Active.chunkHi, h]

end Sys2Proof.Machine

/-! ### The statement -/

namespace Sys2Proof.Proofs

open Sys2Proof.Machine

/-- Settles O22: `visitOf` is the inverse of `chunkOf` on the visits of a pass, and the last visit of an odd pass is an even one. -/
theorem visitingOrders : Obligations.VisitingOrders := by
  refine ⟨fun n v => ?_, fun o n c ho hc => ?_, fun m => ?_, fun a => ?_⟩
  · exact ⟨chunkOf_ascendRestart n v, chunkOf_ascendContinue n v, chunkOf_descend n v, chunkOf_butterfly_of_even n,
      chunkOf_butterfly_of_odd n, chunkOf_fixed n v⟩
  · exact ⟨visitOf o n c, visitOf_lt o hc, chunkOf_visitOf ho hc, fun w hw hwc => hwc ▸ (visitOf_chunkOf ho hw).symm⟩
  · exact chunkOf_butterfly_two_mul (2 * m + 1) m
  · exact ⟨Active.covered_eq_fitted, Active.covered_of_ascendContinue, Active.covered_of_fixed⟩

end Sys2Proof.Proofs
end

section
/-! SUPPORT. The rate per million judged sectors by its two cases, the values of selectors 22 and 23 (R136); and the statement O21,
settled from them. -/

namespace Sys2Proof.Machine

/-! ### The error rates (R136) -/

@[simp] theorem ppm_zero (n : Nat) : ppm n 0 = 0 := rfl

/-- Once a sector has been judged, the rate is the floor of the quotient, held at one million. -/
theorem ppm_of_pos (n : Nat) {v : Nat} (hv : 0 < v) : ppm n v = min 1000000 (n * 1000000 / v) := if_neg hv.ne'

theorem hardErrors_eq (c : Counters) :
    hardErrors c = min (2 ^ 32 - 1) (c.corrupt + c.misplaced + c.headerCorrupt + c.unreadable) := rfl

/-- HARD-PPM. -/
theorem metric_hardPpm (x : Bay) (arg : Nat) : metric x 22 arg = ppm (hardErrors x.counters) x.counters.verified := rfl

/-- SOFT-PPM. -/
theorem metric_softPpm (x : Bay) (arg : Nat) : metric x 23 arg = ppm x.counters.soft x.counters.verified := rfl

end Sys2Proof.Machine

/-! ### The statement -/

namespace Sys2Proof.Proofs

open Sys2Proof.Machine

/-- Settles O21: both metrics are rates, and the two cases are those of VERIFIED. -/
theorem errorRates : Obligations.ErrorRates := by
  intro x arg c hard
  rw [metric_hardPpm, metric_softPpm, hardErrors_eq]
  constructor
  · intro (hzero : x.counters.verified = 0)
    rw [hzero]
    exact ⟨ppm_zero _, ppm_zero _⟩
  · intro (hpos : 0 < x.counters.verified)
    exact ⟨ppm_of_pos _ hpos, ppm_of_pos _ hpos⟩

end Sys2Proof.Proofs
end

section
/-! SUPPORT. Every command answers a next state that keeps each invariant, by the lemma of its meaning; so does the part on an empty
queue, and so does a step; and the statements O1, O3 and O5 to O12, settled from them. -/

namespace Sys2Proof.Machine

/-! ### One command -/

/-- The command answers a next state, and each invariant is kept by itself. -/
def AnswersKept (o : Host.Outcome State Fault Refusal) (s : State) : Prop := AnswersNext o (Kept s)

theorem AnswersKept.intro {s t : State} (h : Kept s t) : AnswersKept (.next t) s := ⟨t, rfl, h⟩

theorem AnswersKept.tame {s t : State} (h : Tame s t) : AnswersKept (.next t) s := .intro h.kept

theorem AnswersKept.calm {s t : State} (h : Calm s t) : AnswersKept (.next t) s := .intro h.kept

theorem kept_ite (p : Prop) [Decidable p] {s t u : State} (h : p → Kept s t) (k : ¬ p → Kept s u) : Kept s (if p then t else u) := by
  split
  · exact h ‹_›
  · exact k ‹_›

theorem kept_expire (t : Option Nat) (f : State → State) (s : State) (h : ∀ u, Kept u (f u)) : Kept s (expire t f s) := by
  cases t with
  | none => exact Kept.refl s
  | some k => exact (calm_advanceMs k s).kept.trans (h _)

/-- A directive's command (R164). -/
theorem answersKept_directive (b : BayIx) (seq : Word) (d : Directive) (s : State) :
    AnswersKept (.next (takeDirective b seq d s)) s := .intro (kept_takeDirective b seq d s)

/-- PART_RESET (R22). -/
theorem answersKept_partReset (s : State) : AnswersKept (execPartReset s) s :=
  .intro (kept_partReset s _ (fun b => by simp [State.bay, getElem_mapVec]) rfl)

/-- WRITE_DATA: an annex write, the payload of an open record, or nothing (R48, R164). -/
theorem answersKept_writeData (b : BayIx) (tag : Tag) (payload : List Sector) (s : State) :
    AnswersKept (execWriteData b tag payload s) s := by
  refine .intro ?_
  split
  · exact kept_takeAnnexData b _ payload s
  · split
    · exact (calm_takeWriteData b tag _ payload s).kept
    · exact Kept.refl s

theorem answersKept_dataRequest (b : BayIx) (tag : Tag) (n : Nat) (s : State) : AnswersKept (execDataRequest b tag n s) s := by
  refine .calm ?_
  split
  · exact calm_takeDataRequest b tag _ n s
  · exact Calm.refl s

theorem answersKept_readData (b : BayIx) (tag : Tag) (payload : List Sector) (s : State) :
    AnswersKept (execReadData b tag payload s) s := by
  refine .tame ?_
  split
  · exact Tame.refl s
  · exact tame_ite _ (tame_takeReadData b tag _ payload s) (tame_ite _ (calm_relayUp b tag payload s).tame (Tame.refl s))

theorem answersKept_completion (b : BayIx) (tag : Tag) (status : DriveStatus) (s : State) :
    AnswersKept (execCompletion b tag status s) s := by
  refine .tame ?_
  split
  · exact tame_closeRec b tag _ status s
  · exact (calm_unretire b tag s).tame

/-- SETTLED_OFF: only a bay in SETTLING is settled (R156). -/
theorem answersKept_settledOff (b : BayIx) (s : State) : AnswersKept (execSettledOff b s) s := by
  refine .intro (kept_ite _ (fun h => ?_) (fun _ => Kept.refl s))
  have hsettling : (s.bay b).power.state = .settling := by
    simp only [Bay.settled, Bool.and_eq_true, decide_eq_true_eq] at h
    exact h.1.1
  exact (tame_settleOff b s hsettling).kept

theorem answersKept_wipeZoneReset (b : BayIx) (s : State) : AnswersKept (execWipeZoneReset b s) s := by
  refine .intro ?_
  split
  · next n hwipe => exact kept_wipeStep b n s hwipe
  · exact Kept.refl s

theorem answersKept_timeoutEvent (b : BayIx) (s : State) : AnswersKept (execTimeoutEvent b s) s := by
  refine .tame ?_
  split
  · next d _ => exact (calm_ite (d = 0) (Calm.refl s) (calm_advance d s)).tame.trans (tame_takeTimeout b _)
  · exact Tame.refl s

/-- PRESENT rises: the session, the power state and the blocks the invariants speak of stay (R148). -/
theorem answersKept_presentAssert (b : BayIx) (s : State) : AnswersKept (execPresentAssert b s) s :=
  .intro (kept_ite _ (fun _ => Kept.refl s) (fun _ => kept_modBay b _ s { BayKept.refl _ with }))

/-- PRESENT falls: a removal, unless the bay is EMPTY (R149). -/
theorem answersKept_presentDeassert (b : BayIx) (s : State) : AnswersKept (execPresentDeassert b s) s := by
  have hlevel : Calm s (s.modBay b (·.modLines (fun l => { l with present := false, debounce := none }))) := calm_modLines b _ s
  exact .intro (kept_ite _ (fun _ => hlevel.kept.trans (kept_ite _ (fun _ => Kept.refl _) (fun _ => kept_removal b _)))
    (fun _ => Kept.refl s))

/-- Every command answers a next state that keeps each invariant. -/
theorem exec_answersKept (c : Instr) (s : State) : AnswersKept (exec c s) s := by
  cases c with
  | partReset => exact answersKept_partReset s
  | commandRead b tag lba count => exact .calm (calm_checkTag b tag _ s (calm_placeRead b tag lba count s))
  | commandWrite b tag lba count => exact .calm (calm_checkTag b tag _ s (calm_placeWrite b tag lba count s))
  | commandFlush b tag => exact .calm (calm_checkTag b tag _ s (calm_toDrive b tag .flush 0 0 s))
  | commandCapacity b tag => exact .calm (calm_checkTag b tag _ s (calm_answerCapacity b tag s))
  | commandOther b tag body => exact .calm (calm_checkTag b tag _ s (calm_passOther b tag body s))
  | bayReportLatch b tag count => exact .calm (calm_checkTag b tag _ s (calm_placeRead b tag _ count s))
  | writeData b tag payload => exact answersKept_writeData b tag payload s
  | setBay b seq f => exact answersKept_directive b seq _ s
  | setRack b seq f => exact answersKept_directive b seq _ s
  | loadSlot b seq slot nxt f => exact answersKept_directive b seq _ s
  | loadRule b seq rule f => exact answersKept_directive b seq _ s
  | loadBin b seq bin f => exact answersKept_directive b seq _ s
  | startPlan b seq slot atEnd => exact answersKept_directive b seq _ s
  | abortPlan b seq choice => exact answersKept_directive b seq _ s
  | powerOn b seq => exact answersKept_directive b seq _ s
  | powerOff b seq => exact answersKept_directive b seq _ s
  | zoneMarkTest b seq zone => exact answersKept_directive b seq _ s
  | zoneMarkSet b seq zone => exact answersKept_directive b seq _ s
  | zoneMarkClear b seq zone => exact answersKept_directive b seq _ s
  | zoneMarkToggle b seq zone => exact answersKept_directive b seq _ s
  | clearSession b seq => exact answersKept_directive b seq _ s
  | setLine b seq lampFn auxFn lampLatch auxLatch => exact answersKept_directive b seq _ s
  | ackNotice b seq clear mask => exact answersKept_directive b seq _ s
  | badCode b seq code =>
    by_cases h : 1 ≤ code.toNat ∧ code.toNat ≤ 12
    · exact ⟨s, if_pos h, Kept.refl s⟩
    · exact ⟨_, if_neg h, kept_takeDirective b seq _ s⟩
  | mailboxCollision b =>
    exact .intro (kept_ite _ (fun _ => Kept.refl s) (fun _ => kept_modAnnex b _ s (fun _ => rfl) (fun _ => rfl)))
  | annexMisuse b => exact .intro (kept_modAnnex b _ s (fun _ => rfl) (fun _ => rfl))
  | dataRequest b tag n => exact answersKept_dataRequest b tag n s
  | readData b tag payload => exact answersKept_readData b tag payload s
  | completion b tag status => exact answersKept_completion b tag status s
  | settleFlushIssue b => exact .calm (calm_ite _ (calm_requestTag b settleRec s) (Calm.refl s))
  | settledOff b => exact answersKept_settledOff b s
  | partTagAssign b => exact .calm (calm_assignOne b s)
  | visitStart b => exact .calm (calm_startVisit b s)
  | visitReadIssue b => exact .calm (calm_issueRead b s)
  | rescanStart b => exact .calm (calm_testRescan b s)
  | rescanChunkIssue b => exact .calm (calm_issueChunk b s)
  | grant => exact .calm (calm_grantTest s)
  | linkReset b => exact .tame (tame_laneReset b s)
  | upstreamLinkDown b => exact .calm (calm_modLane b _ s (fun _ => rfl))
  | upstreamLinkUp b => exact .tame (tame_ite _ (Tame.refl s) (tame_riseUp b s))
  | downstreamLinkUp b => exact .calm (calm_ite _ (Calm.refl s) (calm_riseDown b s))
  | downstreamLinkDown b =>
    exact .calm (calm_ite _
      ((calm_modLane b (fun l => { l with downUp := false, retired := [] }) s (fun _ => rfl)).trans (calm_assignAll b _))
      (Calm.refl s))
  | presentAssert b => exact answersKept_presentAssert b s
  | insertionRecognized b => exact .intro (kept_expire _ _ s (kept_debounced b))
  | presentDeassert b => exact answersKept_presentDeassert b s
  | wipeZoneReset b => exact answersKept_wipeZoneReset b s
  | holdTimeout b => exact .intro (kept_expire _ _ s (fun u => (calm_dropHeld b u).kept))
  | idleTimerExpiry b => exact .intro (kept_expire _ _ s (fun u => (calm_idleExpires b u).kept))
  | timeoutEvent b => exact answersKept_timeoutEvent b s
  | spinupTimerExpiry b => exact .intro (kept_expire _ _ s (fun u => (tame_forcedOff b _ u).kept))
  | dwellTimerExpiry b => exact .intro (kept_expire _ _ s (fun u => (tame_dwellExpires b u).kept))
  | offTimeExpiry b => exact .intro (kept_expire _ _ s (fun u => (calm_offTimeExpires b u).kept))
  | intervalTimerExpiry b =>
    exact .intro (kept_expire _ _ s (fun u =>
      (calm_modSweep b _ u (fun w hw => (pass_intervalExpires w).le.trans hw)).kept))
  | timeLimitExpiry b => exact .intro (kept_expire _ _ s (fun u => (tame_limitExpires b u).kept))
  | activityPulseEnd b => exact .intro (kept_expire _ _ s (fun u => (calm_modLines b _ u).kept))
  | lampBlinkToggle b => exact .intro (kept_expire _ _ s (fun u => (calm_modLines b _ u).kept))

/-! ### One step -/

/-- No invariant speaks of the queue of commands. -/
theorem kept_pending (l : List Instr) (s : State) : Kept s { s with pending := l } := ⟨id, id, id, id, id, id, id, id⟩

/-- The part on an empty queue: a sector of an annex READ, an event that joins the queue, or one µs. -/
theorem kept_idle (s : State) : Kept s (idle s) := by
  unfold idle
  split
  · next b c _ => exact (calm_serveSector b c s).kept
  · split
    · exact kept_pending _ s
    · exact (calm_advance 1 s).kept

theorem step_cons {s : State} {c : Instr} {rest : List Instr} (h : s.pending = c :: rest) :
    step s = exec c { s with pending := rest } := by
  simp only [step, h]

theorem step_nil {s : State} (h : s.pending = []) : step s = .next (idle s) := by
  simp only [step, h]

theorem kept_step {s t : State} (h : step s = .next t) : Kept s t := by
  cases hpending : s.pending with
  | nil =>
    rw [step_nil hpending, Host.Outcome.next.injEq] at h
    exact h ▸ kept_idle s
  | cons c rest =>
    obtain ⟨u, hu, hkept⟩ := exec_answersKept c { s with pending := rest }
    rw [step_cons hpending, hu, Host.Outcome.next.injEq] at h
    exact h ▸ (kept_pending rest s).trans hkept

/-! ### The state after part reset -/

theorem bay_reset (b : BayIx) : State.reset.bay b = Bay.init := by
  simp [State.reset, State.bay]

theorem planUsers_reset (k : SlotIx) : State.reset.planUsers k = [] := by
  simp [State.planUsers, bay_reset, Bay.running, Bay.init, Plan.init]

theorem tally_reset : State.reset.tally = 0 := by
  have hcharge (b : BayIx) : State.reset.charge b = 0 := by simp [State.charge, bay_reset, Bay.init, Power.init, chargeOf]
  simp [tally_eq, hcharge]

theorem planSound_reset : State.reset.planSound := by
  refine ⟨fun k => ?_, fun b => ?_⟩
  · rw [planUsers_reset]
    simp [State.reset, Rack.init]
  · simp [Bay.sessionSound, bay_reset, Bay.init, Power.init, Plan.init]

theorem budgetSound_reset : State.reset.budgetSound :=
  ⟨by unfold Rack.configSound; decide, tally_reset ▸ Nat.zero_le _⟩

theorem queueSound_reset : State.reset.queueSound :=
  ⟨List.nodup_nil, fun b => by
    rw [bay_reset]
    simp [State.reset, Rack.init, Bay.init, Power.init]⟩

/-- What holds of the bay after part reset holds of each bay of the part after it. -/
theorem everyBay_reset {P : Bay → Prop} (h : P Bay.init) : EveryBay P State.reset := fun b => bay_reset b ▸ h

end Sys2Proof.Machine

/-! ### The statements -/

namespace Sys2Proof.Proofs

open Sys2Proof.Machine

/-- Settles O1. -/
theorem stepRunsFrontCommand : Obligations.StepRunsFrontCommand := fun _ _ => step_cons rfl

/-- Settles O3: every command answers a next state. -/
theorem noCommandStops : Obligations.NoCommandStops := fun c s =>
  have ⟨t, ht, _⟩ := exec_answersKept c s
  ⟨t, ht, trivial⟩

/-- Settles O5, invariant by invariant. -/
theorem resetHoldsInvariants : Obligations.ResetHoldsInvariants :=
  ⟨everyBay_reset sound_init, everyBay_reset ⟨by decide, by decide, by decide, by decide, by decide, by decide, by decide⟩,
    everyBay_reset rfl, everyBay_reset ⟨fun _ => rfl, fun _ => rfl⟩, planSound_reset, budgetSound_reset, queueSound_reset,
    everyBay_reset sound_noRanges⟩

/-- Settles O6: `Kept.zones` of a step. -/
theorem distinctDefectCountIsMarkedZones : Obligations.DistinctDefectCountIsMarkedZones := fun _ _ hs h => (kept_step h).zones hs

/-- Settles O7: `Kept.ranges` and `Kept.capacity` of a step. -/
theorem settingsAndReportedCapacityStaySound : Obligations.SettingsAndReportedCapacityStaySound :=
  ⟨fun _ _ hs h => (kept_step h).ranges hs, fun _ _ hs h => (kept_step h).capacity hs⟩

/-- Settles O8: `Kept.mailbox` of a step. -/
theorem mailboxBusyExactlyInWipe : Obligations.MailboxBusyExactlyInWipe := fun _ _ hs h => (kept_step h).mailbox hs

/-- Settles O9: `Kept.plan` of a step. -/
theorem useCountsAreRunningPlans : Obligations.UseCountsAreRunningPlans := fun _ _ hs h => (kept_step h).plan hs

/-- Settles O10: `Kept.budget` of a step. -/
theorem tallyNeverExceedsBudget : Obligations.TallyNeverExceedsBudget := fun _ _ hs h => (kept_step h).budget hs

/-- Settles O11: `Kept.queue` of a step. -/
theorem grantQueueHoldsQueuedBays : Obligations.GrantQueueHoldsQueuedBays := fun _ _ hs h => (kept_step h).queue hs

/-- Settles O12: `Kept.unsettled` of a step. -/
theorem unsettledListsStayOrdered : Obligations.UnsettledListsStayOrdered := fun _ _ hs h => (kept_step h).unsettled hs

end Sys2Proof.Proofs
end

section
/-! SUPPORT. What a stamped sector shows when it is read back (R44, R46, R54), the reference of a sector and the steps of its judging
(R50 to R56), the latency bins (R31, R32) and the outcome counters (R58); and the statements O16, O19, O20 and O32, settled from
them. -/

namespace Sys2Proof.Machine

/-! ### A stamped sector read back (R44, R46, R54) -/

theorem bearsSignature_stampSector (seed : Word) (p l : Nat) : bearsSignature (stampSector seed p l) = true := by
  rw [bearsSignature_iff, stampSector_getElem, stampWord_zero]
  rfl

theorem headerSumHolds_stampSector (seed : Word) (p l : Nat) : headerSumHolds seed (stampSector seed p l) = true := by
  simp [headerSumHolds_iff, stampWord3]

theorem toNat_stampWord1 (l : Nat) : (stampWord1 l).toNat = l % 2 ^ 32 := rfl

theorem headerLba_stampSector (seed : Word) {p l : Nat} (hp : p < 65536) (hl : l < 2 ^ 48) :
    headerLba (stampSector seed p l) = l := by
  rw [headerLba_eq]
  simp only [stampSector_getElem, stampWord_one, stampWord_two, toNat_stampWord1, toNat_stampWord2 p l hp hl]
  omega

theorem headerPass_stampSector (seed : Word) {p l : Nat} (hp : p < 65536) (hl : l < 2 ^ 48) :
    headerPass (stampSector seed p l) = p := by
  rw [headerPass_eq]
  simp only [stampSector_getElem, stampWord_two, toNat_stampWord2 p l hp hl]
  omega

@[simp] theorem popCount_zero : popCount 0#32 = 0 := by decide

/-- The generated body is compared with itself. -/
theorem bodyErrors_stampSector (seed : Word) (p l : Nat) : bodyErrors seed p l (stampSector seed p l) = 0 := by
  rw [bodyErrors_eq_sum]
  refine List.sum_eq_zero fun n hn => ?_
  obtain ⟨k, -, rfl⟩ := List.mem_map.mp hn
  simp

/-! ### The reference (R53) -/

theorem foldl_min_cons (a q : Nat) (ps : List Nat) : (q :: ps).foldl min a = min a ((q :: ps).foldl min q) := by
  simp only [List.foldl_cons, Nat.min_self]
  exact List.foldl_assoc

theorem foldl_max_cons (a q : Nat) (ps : List Nat) : (q :: ps).foldl max a = max a ((q :: ps).foldl max q) := by
  simp only [List.foldl_cons, Nat.max_self]
  exact List.foldl_assoc

/-- A window widened by passes, of which there is one. -/
theorem widen_cons (lo hi q : Nat) (ps : List Nat) :
    widen lo hi (q :: ps) = (min lo ((q :: ps).foldl min q), max hi ((q :: ps).foldl max q)) := by
  rw [widen, foldl_min_cons, foldl_max_cons]

theorem widen_self (q : Nat) (ps : List Nat) : widen q q ps = ((q :: ps).foldl min q, (q :: ps).foldl max q) := by
  simp [widen]

/-- Only a comparison that ends STALE or BLANK is relabelled, and in a SUSPECT-LOSS zone alone (R56). -/
theorem relabel_eq (suspect : Bool) (v : Verdict) :
    relabel suspect v = if suspect = true ∧ (v = .stale ∨ v = .blank) then .lostWrite else v := by
  cases suspect <;> cases v <;> rfl

/-! ### The open writes over an LBA (R52) -/

theorem covers_iff (l : Nat) (r : Rec) : r.covers l = true ↔ r.kind = .write ∧ r.lba ≤ l ∧ l < r.lba + r.count := by
  simp [Rec.covers]

theorem unstamped_iff (r : Rec) : r.unstamped = true ↔ (r.origin = .host ∧ r.pass = none) ∨ r.origin = .ship := by
  simp [Rec.unstamped]

theorem isErase_iff (r : Rec) : r.isErase = true ↔ r.origin = .sweep ∧ r.pass = none := by
  simp [Rec.isErase]

/-- An open record that covers the LBA and has a property, said by the record table. -/
theorem anyCovers_iff (t : Tracker) (l : Nat) {p : Rec → Bool} {q : Rec → Prop} (h : ∀ r, p r = true ↔ q r) :
    t.anyRec (fun r => r.covers l && p r) = true ↔
      ∃ (tag : Tag) (r : Rec), t.recs[tag] = some r ∧ r.kind = .write ∧ r.lba ≤ l ∧ l < r.lba + r.count ∧ q r := by
  simp only [anyRec_iff, Bool.and_eq_true, covers_iff, h, and_assoc]

theorem mem_openPasses (t : Tracker) (l p : Nat) : p ∈ openPasses t l ↔
    ∃ (tag : Tag) (r : Rec), t.recs[tag] = some r ∧ r.kind = .write ∧ r.lba ≤ l ∧ l < r.lba + r.count ∧ r.pass = some p := by
  simp only [openPasses, List.mem_filterMap, allTags, List.mem_finRange, true_and, Tracker.rec?]
  refine exists_congr fun tag => ?_
  cases t.recs[tag] with
  | none => simp
  | some r => simp [Option.ite_none_right_eq_some, covers_iff, and_assoc]

theorem recordAt_unknown {m : ZoneMap} (l : Nat) (h : m.z = none) : m.recordAt l = ZoneRec.init := by
  simp [ZoneMap.recordAt, ZoneMap.zoneOf, h]

theorem recordAt_known {m : ZoneMap} {z : Nat} (l : Nat) (h : m.z = some z) : m.recordAt l = m.get (l / 2 ^ z) := by
  simp [ZoneMap.recordAt, ZoneMap.zoneOf, h, Nat.shiftRight_eq_div_pow]

/-! ### The latency bins (R31, R32) -/

theorem latencyBin_of_lt {t : Nat} (h : t < 1000) : latencyBin t = 0 := if_pos h

theorem latencyBin_of_ge {t : Nat} (h : 1000 ≤ t) : latencyBin t = min 11 (Nat.log2 (t / 1000) + 1) := if_neg (Nat.not_lt.mpr h)

/-- Bin k, from 1 to 10, begins at 2^(k-1) ms and ends before 2^k ms. -/
theorem latencyBin_mid {t k : Nat} (hk : 1 ≤ k) (hk10 : k ≤ 10) (hlo : 1000 * 2 ^ (k - 1) ≤ t) (hhi : t < 1000 * 2 ^ k) :
    latencyBin t = k := by
  have hpos : 1 ≤ 2 ^ (k - 1) := Nat.one_le_two_pow
  have hms : 2 ^ (k - 1) ≤ t / 1000 := by omega
  have hlog : Nat.log2 (t / 1000) = k - 1 := by
    rw [Nat.log2_eq_iff (by omega), Nat.sub_add_cancel hk]
    omega
  rw [latencyBin_of_ge (by omega), hlog]
  omega

theorem latencyBin_top {t : Nat} (h : 1024000 ≤ t) : latencyBin t = 11 := by
  have hlog : 10 ≤ Nat.log2 (t / 1000) := (Nat.le_log2 (by omega)).mpr (by omega)
  rw [latencyBin_of_ge (by omega)]
  omega

/-- Binning raises the latency's own bin, held at its largest value, and no other. -/
theorem bins_note (t : Nat) (h : Hist) (k : Fin 12) :
    (h.note t).bins[k] = if k.val = latencyBin t ∧ h.bins[k] < 2 ^ 32 - 1 then h.bins[k] + 1 else h.bins[k] := by
  by_cases hk : latencyBin t = k.val
  · simp only [Hist.note, hk, Fin.getElem_fin, Vector.getElem_setIfInBounds_self, true_and]
    simp [inc32, satInc, max32]
  · simp [Hist.note, hk, Ne.symm hk]

theorem worst_note (t : Nat) (h : Hist) : (h.note t).worst = if h.worst < t then t else h.worst := by
  simp only [Hist.note, Nat.max_def]
  split <;> split <;> omega

end Sys2Proof.Machine

/-! ### The statements -/

namespace Sys2Proof.Proofs

open Sys2Proof.Machine

/-- Settles O16: the header sum and the header values are those that were stamped, and no bit of the body differs. -/
theorem stampedSectorJudgesGood : Obligations.StampedSectorJudgesGood := by
  intro seed tol lo hi p l m hp hl hlo hhi
  have hsig := bearsSignature_stampSector seed p l
  have hsum := headerSumHolds_stampSector seed p l
  have hlba := headerLba_stampSector seed hp hl
  have hpass := headerPass_stampSector seed hp hl
  refine ⟨?_, fun hne => stampedCheck_misplaced hsig hsum (by rw [hlba]; exact hne.symm)⟩
  rw [stampedCheck_body hsig hsum hlba (by omega) (by omega), hpass, bodyErrors_stampSector, gradeErrors_zero]

/-- The references of a sector, kind by kind (R53). -/
theorem referenceCases (lo hi q : Nat) (ps : List Nat) (signed : Bool) :
    let low := (q :: ps).foldl min q
    let high := (q :: ps).foldl max q
    referenceOf (.stamped lo hi) [] signed = .stamped lo hi
    ∧ referenceOf (.stamped lo hi) (q :: ps) signed = .stamped (min lo low) (max hi high)
    ∧ referenceOf (.mixed lo hi) [] true = .stamped lo hi
    ∧ referenceOf (.mixed lo hi) (q :: ps) true = .stamped (min lo low) (max hi high)
    ∧ (∀ l, referenceOf (.mixed lo hi) l false = .unchecked)
    ∧ referenceOf .erased (q :: ps) true = .stamped low high
    ∧ referenceOf .erased [] signed = .zero ∧ (∀ l, referenceOf .erased l false = .zero)
    ∧ referenceOf .unwritten (q :: ps) true = .stamped low high
    ∧ referenceOf .unwritten [] signed = .unchecked ∧ ∀ l, referenceOf .unwritten l false = .unchecked := by
  have hunsigned (kind : ZKind) (ref : Reference) (hnil : referenceOf kind [] false = ref)
      (hcons : ∀ q ps, referenceOf kind (q :: ps) false = ref) (l : List Nat) : referenceOf kind l false = ref := by
    cases l with
    | nil => exact hnil
    | cons q ps => exact hcons q ps
  refine ⟨rfl, ?_, rfl, ?_, hunsigned _ _ rfl (fun _ _ => rfl), ?_, rfl, hunsigned _ _ rfl (fun _ _ => rfl), ?_, rfl,
    hunsigned _ _ rfl (fun _ _ => rfl)⟩
  · simp only [referenceOf, widen_cons]
  · simp only [referenceOf, widen_cons, if_true]
  · simp only [referenceOf, widen_self, if_true]
  · simp only [referenceOf, widen_self, if_true]

/-- Settles O19, step by step: the steps of `judge` are its own conditionals, said by the record table. -/
theorem judgingSteps : Obligations.JudgingSteps := by
  refine ⟨referenceCases, fun x tol l sec => ?_, fun x l => ⟨fun p => mem_openPasses x.tracker l p, recordAt_unknown l,
    fun z => recordAt_known l⟩, fun seed tol l sec => ⟨rfl, rfl, fun _ _ => rfl⟩⟩
  intro open? hostRaw erase z c
  have hhost : x.tracker.anyRec (fun r => r.covers l && r.unstamped) = true ↔ hostRaw := anyCovers_iff _ _ unstamped_iff
  have herase : x.tracker.anyRec (fun r => r.covers l && r.isErase) = true ↔ erase := anyCovers_iff _ _ isErase_iff
  have hwiping (h : x.annex.wipe = none) : ¬ x.wiping = true := by simp [Bay.wiping, h]
  refine ⟨fun hw => if_pos hw, fun hw hh => ?_, fun hw hh he hz => ?_, fun hw hh he => ?_⟩
  · rw [judge, if_neg (hwiping hw), if_pos (hhost.mpr hh)]
  · rw [judge, if_neg (hwiping hw), if_neg (mt hhost.mp hh), if_pos (Bool.and_eq_true_iff.mpr ⟨herase.mpr he, hz⟩)]
  · have hnot : ¬ (x.tracker.anyRec (fun r => r.covers l && r.isErase) && allZero sec) = true := by
      rw [Bool.and_eq_true, herase, not_and_or]
      exact he.imp_right fun h => by simp [h]
    rw [judge, if_neg (hwiping hw), if_neg (mt hhost.mp hh), if_neg hnot]
    exact relabel_eq _ _

/-- Settles O20: the boundaries of the bins, what binning changes, and the zeros after the resets. -/
theorem latencyBinned : Obligations.LatencyBinned := by
  refine ⟨fun t => ⟨latencyBin_of_lt, fun k => latencyBin_mid, latencyBin_top⟩, fun t h k => ⟨bins_note t h k, worst_note t h⟩,
    fun t x => ⟨rfl, rfl, rfl⟩, fun t x => ⟨rfl, rfl⟩, fun h hh => ?_, fun i t h hh => ?_⟩
  · simpa [Tracker.init, Hist.init] using hh
  · simpa [Tracker.beginWipe, Hist.init] using hh

/-- Settles O32: `Counters.note` outcome by outcome. -/
theorem outcomeCounters : Obligations.OutcomeCounters := by
  refine ⟨fun c => ⟨rfl, fun v hv => ?_, rfl, rfl, rfl, rfl, rfl, rfl, rfl, rfl, rfl, rfl, rfl, rfl⟩, fun v => ?_⟩
  · rw [Counters.note, if_neg hv]
    cases v <;> rfl
  · cases v <;> decide

end Sys2Proof.Proofs
end

section
/-! SUPPORT. What an arriving command comes to on a free host tag, by the place of its sectors and the power state of its bay (R3 to
R7, R11 to R16); and the statements O23 to O26, settled from them. -/

namespace Sys2Proof.Machine

/-! ### The place of a sector range (R5) -/

theorem placeOf_drive {rc lba count : Nat} (h : lba + count ≤ rc) : placeOf rc lba count = .drive := if_pos h

theorem placeOf_annex {rc lba count : Nat} (hpos : 1 ≤ count) (hlo : rc ≤ lba) (hhi : lba + count ≤ rc + 256) :
    placeOf rc lba count = .annex (lba - rc) := by
  rw [placeOf, if_neg (by omega), if_pos ⟨hlo, by simpa [annexSize] using hhi⟩]

theorem placeOf_outside {rc lba count : Nat} (hpast : rc < lba + count) (h : lba < rc ∨ rc + 256 < lba + count) :
    placeOf rc lba count = .outside := by
  rw [placeOf, if_neg (by omega), if_neg (by simp only [annexSize]; omega)]

/-! ### The arrivals on a free host tag (R3) -/

/-- A completion is one frame that goes upstream. -/
theorem complete_eq (b : BayIx) (tag : Tag) (st : UpStatus) (s : State) :
    complete b tag st s = s.modBay b (·.sends (.completion tag st)) := rfl

section
variable {b : BayIx} {tag : Tag} {s : State} (hfree : (s.bay b).freeHostTag tag)
include hfree

theorem exec_read_free (lba count : Nat) : exec (.commandRead b tag lba count) s = .next (placeRead b tag lba count s) :=
  congrArg Host.Outcome.next (check_free b tag _ s hfree)

theorem exec_write_free (lba count : Nat) : exec (.commandWrite b tag lba count) s = .next (placeWrite b tag lba count s) :=
  congrArg Host.Outcome.next (check_free b tag _ s hfree)

theorem exec_flush_free : exec (.commandFlush b tag) s = .next (toDrive b tag .flush 0 0 s) :=
  congrArg Host.Outcome.next (check_free b tag _ s hfree)

theorem exec_capacity_free : exec (.commandCapacity b tag) s = .next (answerCapacity b tag s) :=
  congrArg Host.Outcome.next (check_free b tag _ s hfree)

theorem exec_other_free (body : List Byte) : exec (.commandOther b tag body) s = .next (passOther b tag body s) :=
  congrArg Host.Outcome.next (check_free b tag _ s hfree)

theorem exec_latch_free (count : Nat) :
    exec (.bayReportLatch b tag count) s = .next (placeRead b tag ((s.bay b).lane.rc + 2) count s) :=
  congrArg Host.Outcome.next (check_free b tag _ s hfree)

theorem exec_read_drive {lba count : Nat} (h : lba + count ≤ (s.bay b).lane.rc) :
    exec (.commandRead b tag lba count) s = .next (toDrive b tag .read lba count s) := by
  rw [exec_read_free hfree, placeRead, placeOf_drive h]

theorem exec_write_drive {lba count : Nat} (h : lba + count ≤ (s.bay b).lane.rc) :
    exec (.commandWrite b tag lba count) s = .next (toDrive b tag .write lba count s) := by
  rw [exec_write_free hfree, placeWrite, placeOf_drive h]

end

/-- Every arriving command passes through the tag check. -/
theorem exec_arrival {b : BayIx} {tag : Tag} {lba count : Nat} {body : List Byte} {i : Instr} (s : State)
    (hi : i ∈ arrivalsOn b tag lba count body) : ∃ k, exec i s = .next (checkTag b tag k s) := by
  simp only [arrivalsOn, List.mem_cons, List.not_mem_nil, or_false] at hi
  rcases hi with rfl | rfl | rfl | rfl | rfl | rfl <;> exact ⟨_, rfl⟩

/-! ### The record of a host command (R24, R42, R47, R51) -/

/-- A host command is forwarded on a record whose choices are fixed by the bay's settings at that moment. -/
theorem openHost_form (b : BayIx) (tag : Tag) (kind : CmdKind) (lba count : Nat) (body : List Byte) (s : State) :
    openHost b tag kind lba count body s = s.modBay b (fun x =>
      x.forwards tag (hostRecord kind lba count s.rack.us
        (if kind = .write ∧ x.settings.overlay = true then some x.sweep.passCounter else none)
        (decide (kind = .read) && x.settings.checking && x.annex.wipe.isNone) x.settings.tolerance
        (if kind = .flush then some x.tracker.seq else none)) body) := by
  rw [openHost_eq]
  refine modBay_eq ?_
  cases kind <;> simp [fixRec, hostRec, hostRecord, Rec.blank, Bay.wiping]

/-! ### A drive-range command by the power state (R6, R12, R15) -/

section
variable {b : BayIx} {s : State} (tag : Tag) (kind : CmdKind) (lba count : Nat)

theorem toDrive_on (h : (s.bay b).power.state = .on) : toDrive b tag kind lba count s = openHost b tag kind lba count [] s := by
  simp only [toDrive, h]

theorem toDrive_held (h : (s.bay b).power.state = .queued ∨ (s.bay b).power.state = .spinningUp)
    (hcap : (s.bay b).power.cap ≠ none) : toDrive b tag kind lba count s = hold b tag kind lba count s := by
  have hsome : (s.bay b).power.cap.isSome = true := Option.isSome_iff_ne_none.mpr hcap
  rcases h with h | h <;> simp only [toDrive, h, hsome, if_true]

theorem toDrive_notReady (h : (s.bay b).power.state = .empty ∨ (s.bay b).power.state = .off ∨ (s.bay b).power.state = .settling) :
    toDrive b tag kind lba count s = complete b tag .notReady s := by
  rcases h with h | h | h <;> simp only [toDrive, h]

/-- Outside ON nothing is forwarded to a drive whose capacity is not known. -/
theorem toDrive_unknown (h : (s.bay b).power.state ≠ .on) (hcap : (s.bay b).power.cap = none) :
    toDrive b tag kind lba count s = complete b tag .notReady s := by
  unfold toDrive
  split
  · exact absurd ‹_› h
  · rw [hcap]; rfl
  · rw [hcap]; rfl
  all_goals rfl

end

theorem answerCapacity_on {b : BayIx} {s : State} (tag : Tag) (h : (s.bay b).power.state = .on) :
    answerCapacity b tag s = openHost b tag .capacity 0 0 [] s := if_pos h

theorem answerCapacity_off {b : BayIx} {s : State} (tag : Tag) (h : (s.bay b).power.state ≠ .on) :
    answerCapacity b tag s = complete b tag (.capacity { capacity := (s.bay b).lane.rc, sectorSize := 4096, queueDepth := 24 }) s :=
  if_neg h

theorem passOther_on {b : BayIx} {s : State} (tag : Tag) (body : List Byte) (h : (s.bay b).power.state = .on) :
    passOther b tag body s = openHost b tag .other 0 0 body s := if_pos h

theorem passOther_off {b : BayIx} {s : State} (tag : Tag) (body : List Byte) (h : (s.bay b).power.state ≠ .on) :
    passOther b tag body s = complete b tag .notReady s := if_neg h

/-! ### A host record's opening and the sweep (R97) -/

theorem hostOpened_yields {w : Sweep} {a : Active} (ha : w.active = some a) (hst : w.status = .active)
    (htrig : a.cfg.trigger = .idle) :
    w.hostOpened = { w with active := some { a with yielding := true, credit := .count 0 } } := by
  simp [Sweep.hostOpened, ha, hst, htrig]

theorem hostOpened_stays {w : Sweep}
    (h : w.active = none ∨ w.status ≠ .active ∨ ∀ a : Active, w.active = some a → a.cfg.trigger ≠ .idle) : w.hostOpened = w := by
  have hsame : ∀ a, w.active = some a → (if w.status = .active ∧ a.cfg.trigger = .idle then
      { a with yielding := true, credit := .count 0 } else a) = a := fun a ha => if_neg fun ⟨hst, htrig⟩ => by
    rcases h with h | h | h
    · exact absurd ha (by simp [h])
    · exact h hst
    · exact h a ha htrig
  have hmap : w.active.map (fun a => if w.status = .active ∧ a.cfg.trigger = .idle then
      { a with yielding := true, credit := .count 0 } else a) = w.active :=
    (Option.map_congr hsame).trans Option.map_id'
  rw [Sweep.hostOpened, hmap]

/-! ### The change to ON with nothing else to do (R153, R155) -/

/-- What the change to ON does to a bay with no plan RUNNING: the power state, and the drain of the hold list. -/
def Bay.comesOn (us ms : Word) (x : Bay) : Bay :=
  x.lane.held.foldl (drainBay us)
    { x with
      power := { x.power with state := .on, spinTimer := none, longest := max x.power.longest (ms - x.power.grantTime).toNat }
      lane := { x.lane with held := [] } }

theorem comesOn_plan (us ms : Word) (x : Bay) : (x.comesOn us ms).plan = x.plan := (drainBay_keeps us _ _).1

/-- With no plan RUNNING the Plan Sequencer does nothing at the change to ON. -/
theorem planToldOn_idle {b : BayIx} {s : State} (h : (s.bay b).running = false) : planToldOn b s = s := by
  rw [planToldOn]
  exact if_neg (by simp [h])

/-- A rescan starts only while a plan is RUNNING (R105). -/
theorem testRescan_idle {b : BayIx} {s : State} (h : (s.bay b).running = false) : testRescan b s = s := by
  rw [testRescan]
  exact if_neg (by simp [State.rescanMayStart, h])

/-- The change to ON with no bay queued and no plan RUNNING is one change of the bay. -/
theorem bayOn_quiet {b : BayIx} {s : State} (hqueue : s.rack.queue = []) (hplan : (s.bay b).plan.state ≠ .running) :
    bayOn b s = s.modBay b (Bay.comesOn s.rack.us s.rack.ms) := by
  have hidle : ((s.modBay b (Bay.comesOn s.rack.us s.rack.ms)).bay b).running = false := by
    rw [bay_modBay_same, Bay.running, comesOn_plan]
    exact decide_eq_false hplan
  have hdrain : drainHeld b (grantTest (s.modBay b (·.modPower (fun w =>
      { w with state := .on, spinTimer := none, longest := max w.longest (s.rack.ms - w.grantTime).toNat }))))
      = s.modBay b (Bay.comesOn s.rack.us s.rack.ms) := by
    rw [grantTest_empty _ (by exact hqueue), drainHeld_eq, modBay_modBay]
    exact modBay_eq (by simp [Bay.comesOn, Bay.modPower])
  rw [bayOn, hdrain, planToldOn_idle hidle, testRescan_idle hidle]

/-- The close of a LEARN record with a supported answer that matches the capacity brings the bay ON. -/
theorem learnClosed_matched {b : BayIx} {s : State} {a : CapacityAnswer} (hst : (s.bay b).power.state = .spinningUp)
    (hsup : answerSupported a = true) (hcap : (s.bay b).power.cap = some a.capacity) :
    learnClosed b (.good (some a)) s = bayOn b s := by
  simp [learnClosed, hst, hsup, learnSupported, hcap]

theorem answerSupported_iff (a : CapacityAnswer) : answerSupported a = true ↔
    a.sectorSize = 4096 ∧ a.queueDepth = 32 ∧ 1048576 ≤ a.capacity ∧ a.capacity ≤ 68719476736 := by
  simp [answerSupported]

/-- With no request waiting no part tag is assigned. -/
theorem assignOne_none {b : BayIx} {s : State} (h : (s.bay b).tracker.waiting = []) : assignOne b s = s := by
  simp [assignOne, h]

/-- A record that is no WRITE asks for no read at its close. -/
theorem readAtOnce_of_not_write (b : BayIx) (r : Rec) (s : State) (h : r.kind ≠ .write) : readAtOnce b r s = s := by
  unfold readAtOnce
  split
  · exact absurd ‹_› h
  · exact absurd ‹_› h
  · rfl

/-- The waiting list is no part of a drain. -/
theorem drainBay_waiting (us : Word) (l : List Held) (x : Bay) :
    (l.foldl (drainBay us) x).tracker.waiting = x.tracker.waiting := by
  induction l generalizing x with
  | nil => rfl
  | cons h t ih =>
    rw [List.foldl_cons, ih]
    unfold drainBay
    split <;> rfl

end Sys2Proof.Machine

/-! ### The statements -/

namespace Sys2Proof.Proofs

open Sys2Proof.Machine

/-- Settles O23: the tag check, then the three places. -/
theorem arrivalChecks : Obligations.ArrivalChecks := by
  refine ⟨fun b tag lba count body s i hi => ?_, fun rc lba count hpos => ⟨placeOf_drive, placeOf_annex hpos, placeOf_outside⟩,
    fun b tag lba count s hfree _ hpast hout => ?_⟩
  · obtain ⟨k, hk⟩ := exec_arrival s hi
    rw [hk]
    exact ⟨fun h => congrArg _ (check_refused b tag k s h), fun h hbusy => congrArg _ (check_busy b tag k s h hbusy)⟩
  · rw [exec_read_free hfree, exec_write_free hfree, placeRead, placeWrite, placeOf_outside hpast hout]
    exact ⟨rfl, rfl⟩

/-- Settles O24: in ON each command opens the record of `openHost_form`. -/
theorem hostCommandsInOnAreForwarded : Obligations.HostCommandsInOnAreForwarded := by
  refine ⟨fun b tag lba count s hfree hon hrange => ?_, fun b tag body s hfree hon => ?_,
    fun w => ⟨fun a => hostOpened_yields, hostOpened_stays⟩⟩
  · rw [exec_read_drive hfree hrange, exec_write_drive hfree hrange, toDrive_on _ _ _ _ hon, toDrive_on _ _ _ _ hon, openHost_form,
      openHost_form]
    simp
  · rw [exec_flush_free hfree, exec_capacity_free hfree, exec_other_free hfree, toDrive_on _ _ _ _ hon, answerCapacity_on _ hon,
      passOther_on _ _ hon, openHost_form, openHost_form, openHost_form]
    simp

/-- Settles O25: `toDrive_held`, and the change to ON of `bayOn_quiet`, whose drain is `drainBay` entry by entry. -/
theorem heldDuringSpinUp : Obligations.HeldDuringSpinUp := by
  refine ⟨fun b tag lba count s hfree hst hcap => ⟨?_, fun hrange => ⟨?_, ?_⟩⟩, ?_⟩
  · rw [exec_flush_free hfree, toDrive_held _ _ _ _ hst hcap]
    rfl
  · rw [exec_read_drive hfree hrange, toDrive_held _ _ _ _ hst hcap]
    rfl
  · rw [exec_write_drive hfree hrange, toDrive_held _ _ _ _ hst hcap]
    rfl
  · intro b tag r a s x hrec horigin hkind hst hsize hdepth hmin hmax hcap hqueue hplan hwait
    have hsup : answerSupported a = true := (answerSupported_iff a).mpr ⟨hsize, hdepth, hmin, hmax⟩
    have hquiet : closeEffects b r (.good (some a)) (s.binned b r) = s := by
      simp [binned_quiet b r s hkind, closeEffects, hkind]
    have htold : tellOwner b tag r (.good (some a)) s = s.modBay b (Bay.comesOn s.rack.us s.rack.ms) := by
      simp only [tellOwner, horigin]
      rw [learnClosed_matched hst hsup hcap, bayOn_quiet hqueue hplan]
    rw [close_part b tag r _ s hrec (by simp [horigin]), hquiet, htold, modBay_modBay, assignOne_none,
      readAtOnce_of_not_write _ _ _ (by simp [hkind])]
    · rfl
    · rw [bay_modBay_same]
      exact (drainBay_waiting _ _ _).trans hwait

/-- Settles O26, power state by power state. -/
theorem answeredOutsideOn : Obligations.AnsweredOutsideOn := by
  intro b tag lba count body s hfree hoff
  refine ⟨?_, ?_, fun hst => ⟨?_, fun hrange => ⟨?_, ?_⟩⟩, fun hcap => ?_⟩
  · rw [exec_other_free hfree, passOther_off _ _ hoff, complete_eq]
  · rw [exec_capacity_free hfree, answerCapacity_off _ hoff, complete_eq]
    exact congrArg _ (modBay_eq rfl)
  · rw [exec_flush_free hfree, toDrive_notReady _ _ _ _ hst, complete_eq]
  · rw [exec_read_drive hfree hrange, toDrive_notReady _ _ _ _ hst, complete_eq]
  · rw [exec_write_drive hfree hrange, toDrive_notReady _ _ _ _ hst, complete_eq]
  · rw [exec_flush_free hfree, toDrive_unknown _ _ _ _ hoff hcap, complete_eq]

end Sys2Proof.Proofs
end

section
/-! SUPPORT. The service of an annex READ, sector by sector, with the latch at offset 2 (R163, R168); and the statement O27, settled
from it. -/

namespace Sys2Proof.Machine

/-! ### The sectors served (R163) -/

/-- The offsets that no content stands at. -/
theorem annexSector_empty (b : BayIx) {off : Nat} (s : State)
    (h : off = 0 ∨ (5 ≤ off ∧ off ≤ 15) ∨ (19 ≤ off ∧ off ≤ 23) ∨ (25 ≤ off ∧ off ≤ 31) ∨ 40 ≤ off) :
    annexSector b off s = zeroSector := by
  have hfixed : ∀ k ∈ [1, 2, 3, 4, 16, 17, 18, 24], off ≠ k := by
    intro k hk
    simp only [List.mem_cons, List.not_mem_nil, or_false] at hk
    omega
  simp only [List.mem_cons, List.not_mem_nil, or_false, forall_eq_or_imp, forall_eq] at hfixed
  obtain ⟨h1, h2, h3, h4, h16, h17, h18, h24⟩ := hfixed
  have hpage : ¬ (32 ≤ off ∧ off < 40) := by omega
  simp only [annexSector, h1, h2, h3, h4, h16, h17, h18, h24, hpage, if_false]

theorem annexSector_report (b : BayIx) (s : State) :
    annexSector b 2 s = ((s.bay b).annex.snapshot.map (·.1)).getD zeroSector := rfl

theorem annexSector_report3 (b : BayIx) (s : State) :
    annexSector b 3 s = ((s.bay b).annex.snapshot.map (·.2)).getD zeroSector := rfl

/-! ### One sector of a READ (R163, R168) -/

/-- A sector other than the first of a READ at offset 2 latches nothing. -/
theorem serveSector_plain {b : BayIx} {c : AnnexCmd} (s : State) (h : c.offset ≠ 2 ∨ 1 ≤ c.done) :
    serveSector b c s = annexTaken b c 1 (sendUp b (.readData c.tag [annexSector b (c.offset + c.done) s]) s) := by
  have hnot : ¬ (c.offset = 2 ∧ c.done = 0) := by omega
  simp only [serveSector, if_neg hnot]

/-- The first sector of a READ at offset 2 is that of the snapshot latched with it. -/
theorem serveSector_latch {b : BayIx} {c : AnnexCmd} (s : State) (hoff : c.offset = 2) (hdone : c.done = 0) :
    serveSector b c s = annexTaken b c 1 (sendUp b
      (.readData c.tag [sectorOf (reportFields s b ((s.bay b).annex.snapshotNo + 1#32))]) (latchReport b s)) := by
  have hsec : annexSector b (c.offset + c.done) (latchReport b s)
      = sectorOf (reportFields s b ((s.bay b).annex.snapshotNo + 1#32)) := by
    rw [hoff, hdone, Nat.add_zero, annexSector_report, latchReport, bay_modBay_same]
    rfl
  simp only [serveSector, if_pos (show c.offset = 2 ∧ c.done = 0 from ⟨hoff, hdone⟩), hsec]

/-- What one more sector does to the service and the lane. -/
theorem annexTaken_sent (b : BayIx) (c : AnnexCmd) (sec : Sector) (s : State) :
    annexTaken b c 1 (sendUp b (.readData c.tag [sec]) s) =
      if c.done + 1 < c.count then
        s.modBay b (fun x => (x.sends (.readData c.tag [sec])).modLane (fun l =>
          { l with annexSvc := l.annexSvc.map (fun a => if a.tag = c.tag then { a with done := c.done + 1 } else a) }))
      else
        s.modBay b (fun x => ((x.sends (.readData c.tag [sec])).modLane (fun l =>
          { l with annexSvc := l.annexSvc.filter (fun a => a.tag ≠ c.tag) })).sends (.completion c.tag .good)) := by
  unfold annexTaken complete sendUp
  split
  · rw [modBay_modBay]
    rfl
  · rw [modBay_modBay, modBay_modBay]
    rfl

/-! ### A READ that arrives (R163) -/

/-- No annex command stands on a free host tag. -/
theorem freeHostTag_svc {x : Bay} {tag : Tag} (h : x.freeHostTag tag) : ∀ a ∈ x.lane.annexSvc, a.tag ≠ tag := h.2.2.2

theorem bay_beginAnnex (b : BayIx) (c : AnnexCmd) (s : State) :
    (beginAnnex b c s).bay b = (s.bay b).modLane (fun l => { l with annexSvc := l.annexSvc ++ [c] }) :=
  bay_modBay_same _ _ _

/-- The report does not show the annex service. -/
theorem reportFields_beginAnnex (b : BayIx) (c : AnnexCmd) (s : State) (no : Word) :
    reportFields (beginAnnex b c s) b no = reportFields s b no := by
  have hcharge : (beginAnnex b c s).charge b = s.charge b := by
    simp only [State.charge, bay_beginAnnex, power_modLane]
    rfl
  simp only [reportFields, identityFields, hcharge, bay_beginAnnex]
  rfl

theorem reportFields3_beginAnnex (b : BayIx) (c : AnnexCmd) (s : State) (no : Word) :
    reportFields3 (beginAnnex b c s) b no = reportFields3 s b no := by
  simp only [reportFields3, bay_beginAnnex]
  rfl

theorem latchReport_beginAnnex (b : BayIx) (c : AnnexCmd) (s : State) :
    latchReport b (beginAnnex b c s) = beginAnnex b c (latchReport b s) := by
  simp only [latchReport, reportFields_beginAnnex, reportFields3_beginAnnex, bay_beginAnnex]
  simp only [beginAnnex, modBay_modBay]
  exact modBay_eq rfl

section
variable {b : BayIx} {tag : Tag} {count : Nat} {s : State} (hfree : (s.bay b).freeHostTag tag) (hpos : 1 ≤ count)
include hfree hpos

/-- An annex READ off the report is served its first sector at once. -/
theorem beginAnnexRead_plain {off : Nat} (hoff : off ≠ 2) :
    beginAnnexRead b tag off count s = s.modBay b (fun x =>
      if count = 1 then (x.sends (.readData tag [annexSector b off s])).sends (.completion tag .good)
      else (x.sends (.readData tag [annexSector b off s])).modLane (fun l => { l with
        annexSvc := l.annexSvc ++ [{ tag := tag, isWrite := false, offset := off, count := count, done := 1 }] })) := by
  rw [beginAnnexRead, serveSector_plain _ (.inl hoff), begin_read b _ s (freeHostTag_svc hfree) rfl hpos]
  simp only [beginAnnex, annexSector_lane, Nat.add_zero]

/-- An annex READ at the report latches a snapshot and is served its first sector. -/
theorem beginAnnexRead_latch :
    beginAnnexRead b tag 2 count s = (latchReport b s).modBay b (fun x =>
      let sec := sectorOf (reportFields s b ((s.bay b).annex.snapshotNo + 1#32))
      if count = 1 then (x.sends (.readData tag [sec])).sends (.completion tag .good)
      else (x.sends (.readData tag [sec])).modLane (fun l => { l with
        annexSvc := l.annexSvc ++ [{ tag := tag, isWrite := false, offset := 2, count := count, done := 1 }] })) := by
  have hfree' : ∀ a ∈ ((latchReport b s).bay b).lane.annexSvc, a.tag ≠ tag := by
    rw [latchReport, bay_modBay_same]
    exact freeHostTag_svc hfree
  rw [beginAnnexRead, serveSector_latch _ rfl rfl, latchReport_beginAnnex, begin_read b _ _ hfree' rfl hpos,
    reportFields_beginAnnex, bay_beginAnnex]
  rfl

end
end Sys2Proof.Machine

/-! ### The statement -/

namespace Sys2Proof.Proofs

open Sys2Proof.Machine

/-- Settles O27. -/
theorem annexReadsServed : Obligations.AnnexReadsServed := by
  refine ⟨fun b tag lba count s hfree hpos hlo hhi hne => ?_, fun b tag count s hfree hpos hmax => ?_,
    fun b c pre post s hpending hothers hsvc hpre hread hsector => ?_, fun b off s => ⟨annexSector_empty b s, fun h => ?_, fun x y h => ?_⟩⟩
  · have hserved : exec (.commandRead b tag lba count) s = .next (beginAnnexRead b tag (lba - (s.bay b).lane.rc) count s) := by
      rw [exec_read_free hfree, placeRead, placeOf_annex hpos hlo hhi]
    intro off first
    rw [hserved, beginAnnexRead_plain hfree hpos (by omega)]
    exact ⟨fun h => congrArg _ (modBay_eq (if_pos h)), fun h => congrArg _ (modBay_eq (if_neg (by omega)))⟩
  · intro no report latched first c hc
    have hserved : exec c s = .next (beginAnnexRead b tag 2 count s) := by
      have hplace : placeRead b tag ((s.bay b).lane.rc + 2) count s = beginAnnexRead b tag 2 count s := by
        rw [placeRead, placeOf_annex hpos (by omega) (by omega)]
        simp
      simp only [List.mem_cons, List.not_mem_nil, or_false] at hc
      rcases hc with rfl | rfl
      · rw [exec_latch_free hfree, hplace]
      · rw [exec_read_free hfree, hplace]
    rw [hserved, beginAnnexRead_latch hfree hpos, latchReport, modBay_modBay]
    exact ⟨fun h => congrArg _ (modBay_eq (if_pos h)), fun h => congrArg _ (modBay_eq (if_neg (by omega)))⟩
  · have hservice : s.readInService b = some c := by
      rw [State.readInService, hsvc]
      exact find_first _ pre post c (fun a ha => by simp [hpre a ha]) (by simp [hread])
    have hnone : ∀ d, d < b → s.readInService d = none := fun d hd =>
      List.find?_eq_none.mpr fun a ha => by simp [hothers d hd a ha]
    have hserve : step s = .next (serveSector b c s) := by
      simp only [step_nil hpending, idle, next_read b c s hservice hnone]
    intro sent
    rw [hserve, serveSector_plain s hsector, annexTaken_sent]
    exact ⟨fun h => congrArg _ (if_pos h), fun h => congrArg _ (if_neg (by omega))⟩
  · simp [annexSector_report, annexSector_report3, h]
  · simp [annexSector_report, annexSector_report3, h]

end Sys2Proof.Proofs
end

section
/-! SUPPORT. Fields laid into a sector are read back at their places (R172), and the sectors of the annex and the ship record show the
fields of their layouts (R169, R173 to R177); and the statement O28, settled from them. -/

namespace Sys2Proof.Machine

/-! ### The bytes of a number in a sector (R172) -/

theorem getElem_sectorOfNat (n k : Nat) (h : k < 1024) : (sectorOfNat n)[k] = BitVec.ofNat 32 (n >>> (32 * k)) := by
  simp [sectorOfNat]

theorem byteOf_sectorOfNat (n : Nat) {i : Nat} (h : i < 4096) : byteOf (sectorOfNat n) i = BitVec.ofNat 8 (n >>> (8 * i)) := by
  have hword : i / 4 < 1024 := by omega
  have hpos : 32 * (i / 4) + 8 * (i % 4) = 8 * i := by omega
  rw [byteOf, wordOf_eq_getElem _ _ hword, getElem_sectorOfNat _ _ hword]
  refine BitVec.eq_of_getLsbD_eq fun j hj => ?_
  have hbit : 8 * (i % 4) + j < 32 := by omega
  simp only [BitVec.getLsbD_setWidth, BitVec.getLsbD_ushiftRight, BitVec.getLsbD_ofNat, hj, hbit, decide_true, Bool.true_and,
    Nat.testBit_shiftRight, ← hpos, Nat.add_assoc]

/-- A run of bytes of a sector is a run of bits of its number. -/
theorem bytesOf_sectorOfNat (n : Nat) {i w : Nat} (h : i + w ≤ 4096) :
    bytesOf (sectorOfNat n) i w = (n >>> (8 * i)) % 256 ^ w := by
  induction w generalizing i with
  | zero => simp [bytesOf, Nat.mod_one]
  | succ w ih =>
    have hnext : n >>> (8 * (i + 1)) = (n >>> (8 * i)) / 256 := by
      rw [Nat.mul_add, Nat.shiftRight_add, Nat.shiftRight_eq_div_pow (n >>> (8 * i))]
    rw [bytesOf, ih (by omega), byteOf_sectorOfNat n (by omega), hnext, Nat.pow_succ', Nat.mod_mul, BitVec.toNat_ofNat]

/-! ### The bits of laid fields (R172) -/

/-- The field has the bit at a place of the sector. -/
def Field.bit (k : Nat) (f : Field) : Bool := decide (8 * f.pos ≤ k ∧ k < 8 * (f.pos + f.width)) && f.val.testBit (k - 8 * f.pos)

theorem testBit_fieldsToNat (fs : List Field) (k : Nat) : (fieldsToNat fs).testBit k = fs.any (Field.bit k) := by
  induction fs with
  | nil => simp [fieldsToNat]
  | cons f t ih =>
    have hpow : 256 ^ f.width = 2 ^ (8 * f.width) := by rw [Nat.pow_mul]
    rw [fieldsToNat, Nat.testBit_or, ih, List.any_cons, hpow, Nat.testBit_shiftLeft, Nat.testBit_mod_two_pow]
    congr 1
    by_cases hlo : 8 * f.pos ≤ k
    · have hwidth : k - 8 * f.pos < 8 * f.width ↔ k < 8 * (f.pos + f.width) := by omega
      simp [Field.bit, hlo, hwidth]
    · simp [Field.bit, hlo]

/-- Fields that fit do not share a byte. -/
theorem fitsSector.apart {fs : List Field} (h : fitsSector fs) {f g : Field} (hf : f ∈ fs) (hg : g ∈ fs) (hne : f ≠ g) :
    f.pos + f.width ≤ g.pos ∨ g.pos + g.width ≤ f.pos := by
  have hsymm : Std.Symm (fun f g : Field => f.pos + f.width ≤ g.pos ∨ g.pos + g.width ≤ f.pos) := ⟨fun _ _ => Or.symm⟩
  exact h.2.forall hf hg hne

/-- At a bit of a field that fits with the others, that field alone has a say. -/
theorem testBit_field {fs : List Field} (h : fitsSector fs) {f : Field} (hf : f ∈ fs) {j : Nat} (hj : j < 8 * f.width) :
    (fieldsToNat fs).testBit (8 * f.pos + j) = f.val.testBit j := by
  have hown : Field.bit (8 * f.pos + j) f = f.val.testBit j := by
    simp only [Field.bit, Nat.add_sub_cancel_left, Bool.and_eq_right_iff_imp, decide_eq_true_eq]
    intro _
    omega
  rw [testBit_fieldsToNat, ← hown, Bool.eq_iff_iff, List.any_eq_true]
  refine ⟨fun ⟨g, hg, hbit⟩ => ?_, fun hbit => ⟨f, hf, hbit⟩⟩
  by_cases hne : f = g
  · exact hne ▸ hbit
  · have hapart := h.apart hf hg hne
    simp only [Field.bit, Bool.and_eq_true, decide_eq_true_eq] at hbit
    omega

/-- A field is read back at its place. -/
theorem bytesOf_field {fs : List Field} (h : fitsSector fs) {f : Field} (hf : f ∈ fs) :
    bytesOf (sectorOf fs) f.pos f.width = f.val % 256 ^ f.width := by
  have hpow : 256 ^ f.width = 2 ^ (8 * f.width) := by rw [Nat.pow_mul]
  rw [sectorOf, bytesOf_sectorOfNat _ (h.1 f hf), hpow]
  refine Nat.eq_of_testBit_eq fun j => ?_
  rw [Nat.testBit_mod_two_pow, Nat.testBit_mod_two_pow, Nat.testBit_shiftRight]
  by_cases hj : j < 8 * f.width
  · rw [testBit_field h hf hj]
  · simp [hj]

/-- A byte that no field names is 0. -/
theorem byteOf_unnamed {fs : List Field} {i : Nat} (hi : i < 4096) (h : ∀ f ∈ fs, i < f.pos ∨ f.pos + f.width ≤ i) :
    byteOf (sectorOf fs) i = 0#8 := by
  rw [sectorOf, byteOf_sectorOfNat _ hi]
  refine BitVec.eq_of_getLsbD_eq fun j hj => ?_
  have hnone : fs.any (Field.bit (8 * i + j)) = false := by
    refine List.any_eq_false.mpr fun f hf => ?_
    have hout := h f hf
    simp only [Field.bit, Bool.and_eq_true, decide_eq_true_eq]
    omega
  simp [BitVec.getLsbD_ofNat, testBit_fieldsToNat, hnone]

/-! ### The layouts, field by field (R169, R173 to R177) -/

/-- A list of fields that is laid shows in its sector. -/
theorem shows_of_laid {x : Sector} {fs gs : List Field} (hx : x = sectorOf fs) (hl : Laid 0 fs 4096) (hgs : fs = gs) : Shows x gs :=
  hgs ▸ ⟨hx, hl.fits (Nat.le_refl _)⟩

theorem fields_cons {p q v w : Nat} {t u : List Field} (h : v = w) (k : t = u) : Field.mk p q v :: t = Field.mk p q w :: u := by
  rw [h, k]

theorem slotCode_eq (n : Option SlotIx) : slotCode n = (match n with | some k => k.val | none => 255) := by
  cases n <;> rfl

theorem fieldRow_nil (w o : Nat) : fieldRow w o [] = [] := rfl

theorem fieldRow_cons (w o v : Nat) (t : List Nat) : fieldRow w o (v :: t) = ⟨o, w, v⟩ :: fieldRow w (o + w) t := rfl

theorem optionMap_getD {α : Type} (o : Option α) (f : α → Nat) :
    (o.map f).getD 0 = (match o with | some a => f a | none => 0) := by
  cases o <;> rfl

theorem codeOf_overflow (u : Unsettled) : codeOfBool u.overflow = (match u with | .ranges _ => 0 | .whole _ => 1) := by
  cases u <;> rfl

theorem recs_toList (v : Vector (Option Rec) 32) : v.toList = allTags.map (fun tag => v[tag]) := by
  refine List.ext_getElem (by simp [allTags]) fun i _ _ => ?_
  simp [allTags]

theorem readBackBits_eq (x : Bay) : readBackBits x = bitsToNat [x.power.state.powered, x.power.state.powered, x.lines.present,
    x.lines.lampLatch, if x.lines.auxFn = .input then x.lines.auxPin else x.lines.auxLatch] := by
  unfold readBackBits Bay.auxReadBack
  cases x.lines.auxFn <;> rfl

theorem take_set_self {α : Type} {n : Nat} (v : Vector α n) (k : Nat) (a : α) (h : k < n) :
    (v.set k a).toList.take k = v.toList.take k := by
  rw [Vector.toList_set, List.take_set_of_le (Nat.le_refl k)]

/-- The flags of R167 as a byte are the number of their bits. -/
theorem noticeByte_eq (v : Vector Bool 5) : noticeByte v = bitsToNat v.toList := by
  obtain ⟨⟨l⟩, hl⟩ := v
  match l, hl with
  | [a, b, c, d, e], _ => cases a <;> cases b <;> cases c <;> cases d <;> cases e <;> rfl

theorem bitsToNat_lt (l : List Bool) : bitsToNat l < 2 ^ l.length := by
  induction l with
  | nil => simp [bitsToNat]
  | cons p t ih =>
    have hp : codeOfBool p ≤ 1 := by cases p <;> simp [codeOfBool]
    rw [bitsToNat, List.length_cons, Nat.pow_succ]
    omega

/-- The second sector of the bay report (R177). -/
theorem reportFields3_laid (s : State) (b : BayIx) (no : Word) (h : (shownRanges (s.bay b)).length ≤ 16) :
    Laid 0 (reportFields3 s b no) 4096 := by
  have hrow := Laid.row 8 ((shownRanges (s.bay b)).flatMap (fun u => [u.lo, u.hi, u.seq.toNat])) 8
  have hlen : ((shownRanges (s.bay b)).flatMap (fun u => [u.lo, u.hi, u.seq.toNat])).length = 3 * (shownRanges (s.bay b)).length := by
    simp [List.length_flatMap, Nat.mul_comm]
  unfold reportFields3
  rw [rangeFields_row]
  refine Laid.append (m := 536) (Laid.append (m := 392) (Laid.append (m := 8) ?_ ?_) ?_) ?_
  · simp [laid_nil, laid_cons]
  · exact hrow.mono (Nat.le_refl _) (by omega)
  · exact (Laid.row 4 _ 392).mono (Nat.le_refl _) (by simp)
  · exact (Laid.row 4 _ 536).mono (Nat.le_refl _) (by simp)

/-- The slots of one page, 64 bytes each (R175). -/
theorem slotPage_laid (r : Rack) (ks : List SlotIx) (hlen : ks.length ≤ 64) (h : ∀ (i : Nat) (hi : i < ks.length), ks[i].val % 64 = i) :
    Laid 0 (slotPage r ks) 4096 := by
  have hblocks := Laid.blocks 64 0 (slotFields r) (fun k : SlotIx => 64 * (k.val % 64)) ks 0 (fun k _ => slotFields_laid r k)
    (fun i hi => by simp [h i hi])
  exact hblocks.mono (by simp) (by omega)

end Sys2Proof.Machine

/-! ### The statement -/

namespace Sys2Proof.Proofs

open Sys2Proof.Machine

/-- Settles O28, sector by sector: the layout is laid, so its fields are apart, and it is the list that the statement writes out. -/
theorem sectorFieldsReadBack : Obligations.SectorFieldsReadBack := by
  refine ⟨fun fs h => ⟨fun f hf => bytesOf_field h hf, fun i hi hout => byteOf_unnamed hi hout⟩, ?_, ?_, bitsToNat_bit, ?_, ?_, ?_, ?_⟩
  · intro b s x r flag slot place zone
    have hplace (k : SlotIx) : slotFields r k = place k := by
      simp only [slotFields, place, slotCode_eq]
      cases r.slots[k].body <;> rfl
    have hzone (n : Nat) : zoneFields x n = zone n := by
      simp only [zoneFields, zone]
      cases (x.zm.get n).kind <;> rfl
    refine ⟨?_, ?_, ?_, ?_, ?_⟩
    · refine shows_of_laid (fs := slotPage r ((List.finRange 96).take 64)) rfl (slotPage_laid _ _ (by simp) (by simp)) ?_
      refine List.flatMap_congr fun k hk => ?_
      obtain ⟨i, hi, rfl⟩ := List.mem_take_iff_getElem.mp hk
      rw [hplace, Nat.mod_eq_of_lt (by simp at hi ⊢; omega)]
    · refine shows_of_laid (fs := slotPage r ((List.finRange 96).drop 64)) rfl (slotPage_laid _ _ (by simp) (by simp; omega)) ?_
      refine List.flatMap_congr fun k hk => ?_
      obtain ⟨i, hi, rfl⟩ := List.mem_drop_iff_getElem.mp hk
      have hmod : (64 + i) % 64 = 64 + i - 64 := by simp at hi; omega
      rw [hplace]
      simp only [List.getElem_finRange, Fin.val_cast, hmod]
    · exact shows_of_laid rfl (ruleBinFields_laid r) rfl
    · intro hq
      refine shows_of_laid rfl (rackFields_laid s hq) ?_
      rfl
    · intro page hpage
      rw [annexSector_zones b page s hpage]
      exact shows_of_laid rfl (zonePage_laid x page) (by simp only [x, zonePage, ← hzone])
  · intro r x b l y fs
    have hfs : shipFields r x b l = fs := by
      simp only [shipFields, fs]
      cases x.grade <;> rfl
    have hfits : fitsSector fs := hfs ▸ (shipFields_laid r x b l).fits (Nat.le_refl _)
    refine ⟨hfits, fun k hk => ?_, ?_⟩
    · simp only [y, shipSector, hfs, Fin.getElem_fin]
      exact Vector.getElem_set_ne _ _ (by omega)
    · simp only [y, shipSector, hfs]
      rw [Vector.getElem_set_self, take_set_self]
      rfl
  · intro b s x w slot position
    have hposition : positionFields w = position := by
      simp only [positionFields, position, slotCode_eq]
      cases w.active <;> rfl
    refine shows_of_laid rfl (sweepFields_laid x) ?_
    simp only [sweepFields, savedFields, ← hposition]
    refine congrArg₂ _ (congrArg₂ _ (congrArg₂ _ (congrArg₂ _ (congrArg₂ _ rfl ?_) ?_) ?_) rfl) ?_
    · change resumeFields w.resume = _
      cases w.resume <;> rfl
    · change rescanFields w.rescan = _
      cases w.rescan <;> rfl
    · change (match w.saved with | none => _ | some v => _) = _
      cases w.saved <;> rfl
    · refine List.flatMap_congr fun i _ => ?_
      cases x.zm.queue[i]? <;> rfl
  · intro b s a
    refine shows_of_laid (fs := resultFields a) rfl (by simp [resultFields, laid_cons, laid_nil]) ?_
    simp only [resultFields]
    cases a.result.result <;> rfl
  · intro b s no x flag slot ms
    refine ⟨shows_of_laid rfl (reportFields_laid s b no) ?_, fun l hlen hl => ?_⟩
    · simp only [reportFields, identityFields, planFields, gradeFields, countFields, originFields, setupFields, fieldRow_cons, fieldRow_nil,
        msCode, optionMap_getD, codeOf_overflow, readBackBits_eq, List.append_assoc, List.cons_append, List.nil_append, recs_toList,
        List.map_map, slotCode_eq, Counters.list, ZoneMap.counts]
      repeat' refine fields_cons ?_ ?_
      -- the fields whose value is that of an optional entry are left
      any_goals rfl
      all_goals (simp only [x, ms]; split <;> simp only [*])
    · have hshown : shownRanges x = l := by
        rcases hl with hl | ⟨q, hl, rfl⟩ <;> simp only [shownRanges, hl]
      refine shows_of_laid rfl (reportFields3_laid s b no (hshown ▸ hlen)) ?_
      rw [reportFields3, rangeFields_row, hshown]
  · refine ⟨rfl, rfl, rfl, rfl, rfl, rfl, rfl, fun _ _ _ _ _ _ _ _ => rfl, rfl, rfl, rfl, rfl, rfl, rfl, rfl, fun _ _ => rfl, rfl, rfl, rfl, rfl, rfl,
      rfl, rfl, rfl, fun _ => rfl, rfl, rfl, rfl, fun v k => ?_⟩
    rw [noticeByte_eq]
    refine ⟨?_, by simpa using bitsToNat_lt v.toList⟩
    rw [bitsToNat_bit, Vector.getElem?_toList, Vector.getElem?_eq_getElem k.isLt]
    rfl

end Sys2Proof.Proofs
end

section
/-! SUPPORT. What the directives that write the tables are carried out as, check by check (R43, R78, R79, R83, R118, R137, R138, R159,
R167); and the statements O36 to O38, settled from them. -/

namespace Sys2Proof.Machine

/-! ### ZONE-MARK (R78, R79) -/

theorem carryZoneMark_unused {b : BayIx} {zone : BitVec 16} {s : State} (op : Byte)
    (h : (s.bay b).zm.used ≤ zone.toNat ∨ 4095 < zone.toNat) : carryZoneMark b zone op s = refuse .badValue s := by
  unfold carryZoneMark
  cases zoneMarkOpOf op with
  | none => rfl
  | some o => exact if_pos h.symm

theorem carryZoneMark_busy {b : BayIx} {zone : BitVec 16} {s : State} {op : Byte} {o : ZoneMarkOp} (hop : zoneMarkOpOf op = some o)
    (hu : zone.toNat < (s.bay b).zm.used) (hn : zone.toNat ≤ 4095) (hb : (o.clears && (s.bay b).zoneBusy zone.toNat) = true) :
    carryZoneMark b zone op s = refuse .inUse s := by
  simp only [carryZoneMark, hop]
  rw [if_neg (by omega), if_pos hb]

theorem carryZoneMark_done {b : BayIx} {zone : BitVec 16} {s : State} {op : Byte} {o : ZoneMarkOp} (hop : zoneMarkOpOf op = some o)
    (hu : zone.toNat < (s.bay b).zm.used) (hn : zone.toNat ≤ 4095) (hb : (o.clears && (s.bay b).zoneBusy zone.toNat) = false) :
    carryZoneMark b zone op s = { state := s.modBay b (·.modZm (ZoneMap.zoneMark o zone.toNat)), result := .done
                                  ret := if ((s.bay b).zm.get zone.toNat).mark then 1#32 else 0#32 } := by
  simp only [carryZoneMark, hop]
  rw [if_neg (by omega), if_neg (Bool.eq_false_iff.mp hb)]

theorem zoneBusy_iff (x : Bay) (n : Nat) :
    x.zoneBusy n = true ↔ (∃ q ∈ x.zm.queue, q.zone = n) ∨ ∃ q, x.sweep.rescan = some q ∧ q.zone = n := by
  simp [Bay.zoneBusy, ZoneMap.queued]

/-- What each operation makes of the zone. -/
theorem modBay_zoneMark (s : State) (b : BayIx) (n : Nat) :
    let becomes (c : ZClass) : State := s.modBay b (·.modZm (fun m => m.modify n (fun k => { k with cls := c })))
    let marked := ((s.bay b).zm.get n).mark
    s.modBay b (·.modZm (ZoneMap.zoneMark .test n)) = s
    ∧ s.modBay b (·.modZm (ZoneMap.zoneMark .set n)) = (if marked then s else becomes .unconfirmed)
    ∧ s.modBay b (·.modZm (ZoneMap.zoneMark .clear n)) = becomes .none
    ∧ s.modBay b (·.modZm (ZoneMap.zoneMark .toggle n)) = (if marked then becomes .none else becomes .unconfirmed) := by
  intro becomes marked
  have hsame (o : ZoneMarkOp) (h : (s.bay b).zm.zoneMark o n = (s.bay b).zm) : s.modBay b (·.modZm (ZoneMap.zoneMark o n)) = s := by
    refine modBay_id _ _ _ ?_
    rw [Bay.modZm, h]
  have hclass (o : ZoneMarkOp) (c : ZClass) (h : (s.bay b).zm.zoneMark o n = (s.bay b).zm.setClass n c) :
      s.modBay b (·.modZm (ZoneMap.zoneMark o n)) = becomes c := by
    refine modBay_eq ?_
    rw [Bay.modZm, h]
    rfl
  refine ⟨hsame _ rfl, ?_, hclass _ _ rfl, ?_⟩ <;> cases hm : marked <;> simp only [marked] at hm
  · exact hclass _ _ (by simp only [ZoneMap.zoneMark, hm])
  · exact hsame _ (by simp only [ZoneMap.zoneMark, hm])
  · exact hclass _ _ (by simp only [ZoneMap.zoneMark, hm])
  · exact hclass _ _ (by simp only [ZoneMap.zoneMark, hm])

/-! ### SET-BAY (R43, R167) -/

theorem seedLocked_iff (x : Bay) (h : x.zm.sound) : x.seedLocked = true ↔
    (∃ n, (x.zm.get n).kind.holdsStamp = true) ∨ ¬ x.everyRec (fun r => r.kind = .write → r.pass = none) ∨ x.plan.state = .running := by
  simp only [Bay.seedLocked, Bool.or_eq_true, holdsStamp_iff _ h, anyRec_iff, Bay.everyRec, Bay.running, decide_eq_true_eq, or_assoc,
    Bool.and_eq_true, Option.isSome_iff_ne_none, not_forall, ne_eq, exists_prop]

theorem carrySetBay_badValue (b : BayIx) (f : SetBayArg) (s : State) (h : 2 ≤ f.overlay.toNat ∨ 2 ≤ f.checking.toNat) :
    carrySetBay b f s = refuse .badValue s := by
  unfold carrySetBay
  rcases h with h | h <;> rw [boolOf_ge h]
  cases boolOf f.overlay <;> rfl

theorem carrySetBay_codes (b : BayIx) (f : SetBayArg) (s : State) (ho : f.overlay.toNat < 2) (hc : f.checking.toNat < 2) :
    carrySetBay b f s = if f.seed ≠ (s.bay b).settings.seed ∧ (s.bay b).seedLocked then refuse .wrongState s
      else storedAs (setBayClamped f) (watchLowered b (s.bay b).tracker.tw
        (s.modBay b (·.storeSettings f (decide (f.overlay = 1#8)) (decide (f.checking = 1#8))))) := by
  rw [carrySetBay, boolOf_lt ho, boolOf_lt hc]

theorem setBayClamped_result (f : SetBayArg) : (if setBayClamped f then DirResult.clamped else .done) =
    if max 1 (min 10000 f.w.toNat) = f.w.toNat ∧ max 1000 (min 60000 f.tw.toNat) = f.tw.toNat ∧ f.rescans.toNat ≤ 4 then .done
    else .clamped := by
  have hneg : setBayClamped f = true ↔ ¬ (max 1 (min 10000 f.w.toNat) = f.w.toNat ∧ max 1000 (min 60000 f.tw.toNat) = f.tw.toNat
      ∧ f.rescans.toNat ≤ 4) := by
    rw [setBayClamped, decide_eq_true_iff, clampTo, clampTo]
    omega
  by_cases hc : setBayClamped f = true
  · rw [if_pos hc, if_neg (hneg.mp hc)]
  · rw [if_neg hc, if_pos (Decidable.not_not.mp fun hn => hc (hneg.mpr hn))]

theorem watchLowered_quiet (b : BayIx) (oldTw : Nat) (u : State)
    (h : oldTw ≤ (u.bay b).tracker.tw ∨ (u.bay b).everyRec (fun r => (u.rack.us - r.issue).toNat < (u.bay b).tracker.tw * 1000)) :
    watchLowered b oldTw u = u := by
  refine if_neg fun hw => ?_
  obtain ⟨hlt, hdue⟩ := hw
  exact h.elim (fun hle => by omega) ((timeoutDue_zero u b).mp hdue)

theorem watchLowered_due (b : BayIx) (oldTw : Nat) (u : State) (h : (u.bay b).tracker.tw < oldTw)
    (hd : ¬ (u.bay b).everyRec (fun r => (u.rack.us - r.issue).toNat < (u.bay b).tracker.tw * 1000)) :
    watchLowered b oldTw u = takeTimeout b u := if_pos ⟨h, (timeoutDue_zero u b).mpr hd⟩

/-! ### SET-RACK (R159) -/

theorem expireHeld_allBays (s : State) (h : ∀ c, (s.bay c).lane.held = []) : allBays.foldl expireHeld s = s :=
  List.foldl_fixed' (fun c => expireHeld_none s c (h c)) allBays

theorem setRackDiffers_iff (f : SetRackArg) (r : Rack) : setRackDiffers f r = true ↔
    ¬ (r.budget = f.budget.toNat ∧ r.spin = f.spin.toNat ∧ r.run = f.run.toNat ∧ r.spinTimeout = f.spinTimeout.toNat
      ∧ r.hold = f.hold.toNat ∧ r.limit = f.limit.toNat) := by
  rw [setRackDiffers, decide_eq_true_iff]
  omega

theorem carrySetRack_badValue (f : SetRackArg) (s : State) (h : 16 ≤ f.faultBin.toNat) : carrySetRack f s = refuse .badValue s := by
  rw [carrySetRack, binOf_ge h]

theorem carrySetRack_powered (f : SetRackArg) (s : State) (h : s.tally ≠ 0) (hb : f.faultBin.toNat < 16) :
    carrySetRack f s = refuse .wrongState s := by
  rw [carrySetRack, binOf_eq (k := ⟨f.faultBin.toNat, hb⟩) rfl]
  exact if_pos h

theorem carrySetRack_stored (f : SetRackArg) (bin : Fin 16) (s : State) (h : s.tally = 0) (hb : f.faultBin.toNat = bin.val) :
    carrySetRack f s = storedAs (setRackDiffers f (Rack.configure f bin s.rack))
      (allBays.foldl expireHeld (grantTest (s.modRack (Rack.configure f bin)))) := by
  rw [carrySetRack, binOf_eq hb]
  exact if_neg (fun hn => hn h)

end Sys2Proof.Machine

/-! ### The statements -/

namespace Sys2Proof.Proofs

open Sys2Proof.Machine

/-- Settles O36, check by check, and then operation by operation. -/
theorem zoneMarkDirectives : Obligations.ZoneMarkDirectives := by
  intro b seq zone s hm x n inUse ret becomes done refused
  have hrefused (why : Reason) (op : Byte) (h : carryZoneMark b zone op s = refuse why s) :
      Host.Outcome.next (takeDirective b seq (.zoneMark zone op) s) = refused why :=
    congrArg Host.Outcome.next (take_refuse b seq _ s why hm h)
  have hdone (o : ZoneMarkOp) (op : Byte) (u : State) (hu : s.modBay b (·.modZm (ZoneMap.zoneMark o n)) = u)
      (h : carryZoneMark b zone op s = { state := s.modBay b (·.modZm (ZoneMap.zoneMark o n)), result := .done, ret := ret }) :
      Host.Outcome.next (takeDirective b seq (.zoneMark zone op) s) = done u := by
    have hc : carry b (.zoneMark zone op) s = { state := u, result := .done, ret := ret } := hu ▸ h
    refine congrArg Host.Outcome.next ?_
    rw [take_answer b seq _ s hm (by simp), hc]
    rfl
  obtain ⟨htest, hset, hclear, htoggle⟩ := modBay_zoneMark s b n
  refine ⟨fun hn i hi => ?_, fun hu hn => ⟨?_, ?_, fun hbusy => ⟨?_, ?_⟩, fun hfree => ⟨?_, ?_⟩⟩⟩
  · have hbad (op : Byte) := hrefused _ op (carryZoneMark_unused op hn)
    simp only [List.mem_cons, List.not_mem_nil, or_false] at hi
    rcases hi with rfl | rfl | rfl | rfl <;> exact hbad _
  · exact hdone .test 0#8 _ htest (carryZoneMark_done rfl hu hn rfl)
  · exact hdone .set 1#8 _ hset (carryZoneMark_done rfl hu hn rfl)
  · exact hrefused _ 2#8 (carryZoneMark_busy (o := .clear) rfl hu hn ((zoneBusy_iff x n).mpr hbusy))
  · exact hrefused _ 3#8 (carryZoneMark_busy (o := .toggle) rfl hu hn ((zoneBusy_iff x n).mpr hbusy))
  · exact hdone .clear 2#8 _ hclear (carryZoneMark_done rfl hu hn (Bool.eq_false_iff.mpr (mt (zoneBusy_iff x n).mp hfree)))
  · exact hdone .toggle 3#8 _ htoggle (carryZoneMark_done rfl hu hn (Bool.eq_false_iff.mpr (mt (zoneBusy_iff x n).mp hfree)))

/-- Settles O37: the two checks in their order, and the lowered Tw watched over what was stored. -/
theorem setBayDirective : Obligations.SetBayDirective := by
  intro b seq f s hm hz x locked w tw u result young
  have hlocked : x.seedLocked = true ↔ locked := seedLocked_iff x hz
  have hstored (v : State) (hc : carrySetBay b f s = storedAs (setBayClamped f) v) :
      exec (.setBay b seq f) s = .next (v.answered b 1#32 seq result 0#32) := by
    refine congrArg Host.Outcome.next ?_
    rw [take_stored b seq (.setBay f) s v (setBayClamped f) hm (by simp) hc, setBayClamped_result]
    rfl
  refine ⟨fun h => ?_, fun ho hc hs hl => ?_, fun ho hc hs => ?_⟩
  · exact congrArg Host.Outcome.next (take_refuse b seq _ s _ hm (carrySetBay_badValue b f s h))
  · refine congrArg Host.Outcome.next (take_refuse b seq _ s _ hm ?_)
    exact (carrySetBay_codes b f s ho hc).trans (if_pos ⟨hs, hlocked.mpr hl⟩)
  · have hopen : ¬ (f.seed ≠ x.settings.seed ∧ x.seedLocked = true) := fun ⟨hne, hlk⟩ => hs.elim hne fun hn => hn (hlocked.mp hlk)
    have hcarry := (carrySetBay_codes b f s ho hc).trans (if_neg hopen)
    have hbay : u.bay b = x.storeSettings f (decide (f.overlay = 1#8)) (decide (f.checking = 1#8)) := bay_modBay_same _ _ _
    have htw : (u.bay b).tracker.tw = tw := by rw [hbay]; rfl
    have hyoung : (u.bay b).everyRec (fun r => (u.rack.us - r.issue).toNat < (u.bay b).tracker.tw * 1000) ↔ young := by
      rw [htw, hbay]
      exact Iff.rfl
    refine ⟨fun h => hstored u ?_, fun hlt hold => hstored _ ?_⟩
    · exact hcarry.trans (congrArg _ (watchLowered_quiet b x.tracker.tw u (by rw [hyoung, htw]; exact h)))
    · exact hcarry.trans (congrArg _ (watchLowered_due b x.tracker.tw u (by rw [htw]; exact hlt) (by rw [hyoung]; exact hold)))

/-- Settles O38: the two checks in their order, and the configuration that is stored. -/
theorem setRackDirective : Obligations.SetRackDirective := by
  intro b seq f s hm budget spin run spinTimeout hold limit same
  refine ⟨fun h => ?_, fun hb ht => ?_, fun bin hbin ht => ?_⟩
  · exact congrArg Host.Outcome.next (take_refuse b seq _ s _ hm (carrySetRack_badValue f s h))
  · exact congrArg Host.Outcome.next (take_refuse b seq _ s _ hm (carrySetRack_powered f s ht hb))
  · intro u result hsame hdiff
    have hcarry : carry b (.setRack f) s = storedAs (setRackDiffers f u.rack) (allBays.foldl expireHeld (grantTest u)) :=
      carrySetRack_stored f bin s ht hbin
    have hdiffers : setRackDiffers f u.rack = true ↔ ¬ same := setRackDiffers_iff f u.rack
    have hresult : (if setRackDiffers f u.rack then DirResult.clamped else .done) = result := by
      by_cases hd : setRackDiffers f u.rack = true
      · rw [if_pos hd, hdiff (hdiffers.mp hd)]
      · rw [if_neg hd, hsame (Decidable.not_not.mp (mt hdiffers.mpr hd))]
    have hexec : exec (.setRack b seq f) s = .next ((allBays.foldl expireHeld (grantTest u)).answered b 2#32 seq result 0#32) := by
      refine congrArg Host.Outcome.next ?_
      rw [take_stored b seq (.setRack f) s _ _ hm (by simp) hcarry, hresult]
      rfl
    refine ⟨hexec, fun hq hh => ?_⟩
    have hgrant : grantTest u = u := grantTest_empty u hq
    rw [hexec, hgrant, expireHeld_allBays u hh]

end Sys2Proof.Proofs
end

section
/-! SUPPORT. The codes of enumerated values read back (R172), and what LOAD-SLOT, LOAD-RULE and LOAD-BIN are carried out as, check by
check (R83, R118, R137, R138); and the statements O39 to O41, settled from them. -/

namespace Sys2Proof.Machine

/-! ### Codes read (R172) -/

theorem sweepOpOf_eq_some {x : Byte} {o : SweepOp} : sweepOpOf x = some o ↔ x.toNat = o.code := by
  unfold sweepOpOf
  constructor
  · intro h; split at h <;> cases h <;> assumption
  · intro h; rw [h]; cases o <;> rfl

theorem sweepOrderOf_eq_some {x : Byte} {o : SweepOrder} : sweepOrderOf x = some o ↔ x.toNat = o.code := by
  unfold sweepOrderOf
  constructor
  · intro h; split at h <;> cases h <;> assumption
  · intro h; rw [h]; cases o <;> rfl

theorem pacingOf_eq_some {x : Byte} {o : Pacing} : pacingOf x = some o ↔ x.toNat = o.code := by
  unfold pacingOf
  constructor
  · intro h; split at h <;> cases h <;> assumption
  · intro h; rw [h]; cases o <;> rfl

theorem triggerOf_eq_some {x : Byte} {o : Trigger} : triggerOf x = some o ↔ x.toNat = o.code := by
  unfold triggerOf
  constructor
  · intro h; split at h <;> cases h <;> assumption
  · intro h; rw [h]; cases o <;> rfl

theorem comparisonOf_eq_some {x : Byte} {o : Comparison} : comparisonOf x = some o ↔ x.toNat = o.code := by
  unfold comparisonOf
  constructor
  · intro h; split at h <;> cases h <;> assumption
  · intro h; rw [h]; cases o <;> rfl

theorem patternOf_eq_some {x : Byte} {o : LampPattern} : patternOf x = some o ↔ x.toNat = o.code := by
  unfold patternOf
  constructor
  · intro h; split at h <;> cases h <;> assumption
  · intro h; rw [h]; cases o <;> rfl

theorem sweepOp_code_le (o : SweepOp) : o.code ≤ 3 := by cases o <;> decide

theorem sweepOrder_code_le (o : SweepOrder) : o.code ≤ 4 := by cases o <;> decide

theorem pacing_code_le (o : Pacing) : o.code ≤ 2 := by cases o <;> decide

theorem trigger_code_le (o : Trigger) : o.code ≤ 2 := by cases o <;> decide

theorem comparison_code_lt (o : Comparison) : o.code < 6 := by cases o <;> decide

theorem pattern_code_lt (o : LampPattern) : o.code < 4 := by cases o <;> decide

theorem exists_sweepOp {n : Nat} (h : n ≤ 3) : ∃ o : SweepOp, n = o.code := by
  match n with
  | 0 => exact ⟨.write, rfl⟩
  | 1 => exact ⟨.verify, rfl⟩
  | 2 => exact ⟨.writeVerify, rfl⟩
  | 3 => exact ⟨.erase, rfl⟩

theorem exists_sweepOrder {n : Nat} (h : n ≤ 4) : ∃ o : SweepOrder, n = o.code := by
  match n with
  | 0 => exact ⟨.ascendRestart, rfl⟩
  | 1 => exact ⟨.ascendContinue, rfl⟩
  | 2 => exact ⟨.descend, rfl⟩
  | 3 => exact ⟨.butterfly, rfl⟩
  | 4 => exact ⟨.fixed, rfl⟩

theorem exists_pacing {n : Nat} (h : n ≤ 2) : ∃ o : Pacing, n = o.code := by
  match n with
  | 0 => exact ⟨.single, rfl⟩
  | 1 => exact ⟨.block, rfl⟩
  | 2 => exact ⟨.successive, rfl⟩

theorem exists_trigger {n : Nat} (h : n ≤ 2) : ∃ o : Trigger, n = o.code := by
  match n with
  | 0 => exact ⟨.immediate, rfl⟩
  | 1 => exact ⟨.idle, rfl⟩
  | 2 => exact ⟨.interval, rfl⟩

theorem trigger_interval_iff (o : Trigger) : o = .interval ↔ o.code = 2 := by cases o <;> decide

theorem trigger_immediate_iff (o : Trigger) : o = .immediate ↔ o.code = 0 := by cases o <;> decide

theorem pacing_block_iff (o : Pacing) : o = .block ↔ o.code = 1 := by cases o <;> decide

theorem pacing_successive_iff (o : Pacing) : o = .successive ↔ o.code = 2 := by cases o <;> decide

/-! ### LOAD-SLOT (R118) -/

theorem carryLoadSlot_outside {slot : Byte} (nxt : Byte) (f : SlotArg) (s : State) (h : 96 ≤ slot.toNat) :
    carryLoadSlot slot nxt f s = refuse .badValue s := by
  rw [carryLoadSlot, slotOf_ge h]

theorem carryLoadSlot_used {slot : Byte} {k : SlotIx} (nxt : Byte) (f : SlotArg) (s : State) (hk : slot.toNat = k.val)
    (h : s.rack.useCounts[k] ≠ 0) : carryLoadSlot slot nxt f s = refuse .inUse s := by
  rw [carryLoadSlot, slotOf_eq hk]
  exact if_pos h

theorem carryLoadSlot_bad {slot nxt : Byte} {k : SlotIx} {f : SlotArg} {s : State} (hk : slot.toNat = k.val)
    (hu : s.rack.useCounts[k] = 0) (h : nextFor f nxt = none ∨ bodyOf f = none) : carryLoadSlot slot nxt f s = refuse .badValue s := by
  rw [carryLoadSlot, slotOf_eq hk]
  refine (if_neg (fun hn => hn hu)).trans ?_
  rcases h with h | h <;> rw [h]
  cases nextFor f nxt <;> rfl

theorem carryLoadSlot_stored {slot nxt : Byte} {k : SlotIx} {f : SlotArg} {s : State} {n : Option SlotIx} {body : SlotBody} {c : Bool}
    (hk : slot.toNat = k.val) (hu : s.rack.useCounts[k] = 0) (hn : nextFor f nxt = some n) (hb : bodyOf f = some (body, c)) :
    carryLoadSlot slot nxt f s = storedAs c (s.slotLoaded k body n) := by
  rw [carryLoadSlot, slotOf_eq hk]
  refine (if_neg (fun hn => hn hu)).trans ?_
  rw [hn, hb, ← slotLoaded_eq]

theorem nextFor_eq_nextOf {f : SlotArg} (nxt : Byte) (h : f ≠ .empty) : nextFor f nxt = nextOf nxt := by
  cases f with
  | empty => exact absurd rfl h
  | _ => rfl

/-- LOAD-SLOT answered as its slot was stored. -/
theorem exec_loadSlot_stored {b : BayIx} (seq : Word) {slot nxt : Byte} {k : SlotIx} {f : SlotArg} {s : State} {n : Option SlotIx}
    {body : SlotBody} {c : Bool} (hm : s.mailboxIdle b) (hk : slot.toNat = k.val) (hu : s.rack.useCounts[k] = 0)
    (hn : nextFor f nxt = some n) (hb : bodyOf f = some (body, c)) : exec (.loadSlot b seq slot nxt f) s =
      .next ((s.slotLoaded k body n).answered b 3#32 seq (if c then .clamped else .done) 0#32) :=
  congrArg Host.Outcome.next (take_stored b seq (.loadSlot slot nxt f) s _ c hm (by simp) (carryLoadSlot_stored hk hu hn hb))

/-! ### The fields of a SWEEP slot (R83) -/

/-- The value checks of R83. -/
def sweepArgValid (f : SweepArg) : Prop :=
  f.op.toNat ≤ 3 ∧ f.order.toNat ≤ 4 ∧ f.pacing.toNat ≤ 2 ∧ f.trigger.toNat ≤ 2
    ∧ (f.trigger.toNat = 0 → f.pacing.toNat = 2) ∧ 1 ≤ f.chunk.toNat ∧ f.chunk.toNat ≤ 256
    ∧ (f.pacing.toNat = 1 → f.block.toNat ≠ 0) ∧ 1 ≤ f.maxInFlight.toNat ∧ f.maxInFlight.toNat ≤ 8 ∧ f.passes.toNat ≠ 0

theorem sweepBody_invalid (f : SweepArg) (h : ¬ sweepArgValid f) : sweepBody f = none := by
  unfold sweepBody
  split
  · rename_i op order pacing trigger hop horder hpacing htrigger
    have hop := sweepOpOf_eq_some.mp hop
    have horder := sweepOrderOf_eq_some.mp horder
    have hpacing := pacingOf_eq_some.mp hpacing
    have htrigger := triggerOf_eq_some.mp htrigger
    have hle := And.intro (sweepOp_code_le op) (sweepOrder_code_le order)
    have hle' := And.intro (pacing_code_le pacing) (trigger_code_le trigger)
    simp only [trigger_immediate_iff, pacing_block_iff, ne_eq, pacing_successive_iff]
    split_ifs with htimed hchunk hblock hflight hpasses
    all_goals try rfl
    refine absurd ?_ h
    unfold sweepArgValid
    omega
  · rfl

theorem sweepBody_valid (f : SweepArg) (h : sweepArgValid f) : ∃ c : SweepCfg,
    c.op.code = f.op.toNat ∧ c.order.code = f.order.toNat ∧ c.pacing.code = f.pacing.toNat ∧ c.trigger.code = f.trigger.toNat
    ∧ c.start = f.start.toNat ∧ c.length = f.length.toNat ∧ c.chunk = f.chunk.toNat ∧ c.block = f.block.toNat
    ∧ c.maxInFlight = f.maxInFlight.toNat ∧ c.passes = f.passes.toNat ∧ c.tolerance = f.tolerance.toNat
    ∧ c.rescans = min 4 f.rescans.toNat
    ∧ c.interval = (if f.trigger.toNat = 2 then max 10 (min 3600000 f.interval.toNat) else f.interval.toNat) ∧ c.limit = f.limit.toNat
    ∧ sweepBody f = some (.sweep c, decide (4 < f.rescans.toNat ∨ c.interval ≠ f.interval.toNat)) := by
  obtain ⟨hop, horder, hpacing, htrigger, htimed, hchunk, hchunk', hblock, hflight, hflight', hpasses⟩ := h
  obtain ⟨op, hop⟩ := exists_sweepOp hop
  obtain ⟨order, horder⟩ := exists_sweepOrder horder
  obtain ⟨pacing, hpacing⟩ := exists_pacing hpacing
  obtain ⟨trigger, htrigger⟩ := exists_trigger htrigger
  have hinterval : trigger = .interval ↔ f.trigger.toNat = 2 := by rw [htrigger, trigger_interval_iff]
  refine ⟨{ op := op, order := order, pacing := pacing, trigger := trigger, start := f.start.toNat, length := f.length.toNat
            chunk := f.chunk.toNat, block := f.block.toNat, maxInFlight := f.maxInFlight.toNat, passes := f.passes.toNat
            tolerance := f.tolerance.toNat, rescans := min 4 f.rescans.toNat
            interval := if f.trigger.toNat = 2 then max 10 (min 3600000 f.interval.toNat) else f.interval.toNat, limit := f.limit.toNat },
    hop.symm, horder.symm, hpacing.symm, htrigger.symm, rfl, rfl, rfl, rfl, rfl, rfl, rfl, rfl, rfl, rfl, ?_⟩
  rw [sweepBody, sweepOpOf_eq_some.mpr hop, sweepOrderOf_eq_some.mpr horder, pacingOf_eq_some.mpr hpacing, triggerOf_eq_some.mpr htrigger]
  simp only [hinterval, clampTo]
  rw [if_neg, if_neg, if_neg, if_neg, if_neg]
  · exact hpasses
  · omega
  · rw [pacing_block_iff]; omega
  · omega
  · rw [trigger_immediate_iff, ne_eq, pacing_successive_iff]; omega

/-! ### LOAD-RULE and LOAD-BIN (R137, R138) -/

theorem ruleOfArg_invalid (f : RuleArg) (h : ¬ (f.enable.toNat < 2 ∧ f.stop.toNat < 2 ∧ f.selector.toNat ≤ 24 ∧ f.comparison.toNat < 6
    ∧ f.target.toNat < 16)) : ruleOfArg f = none := by
  unfold ruleOfArg
  split
  · rename_i e c t st henable hcomparison htarget hstop
    have henable : ¬ 2 ≤ f.enable.toNat := fun hge => by rw [boolOf_ge hge] at henable; cases henable
    have htarget : ¬ 16 ≤ f.target.toNat := fun hge => by rw [binOf_ge hge] at htarget; cases htarget
    have hstop : ¬ 2 ≤ f.stop.toNat := fun hge => by rw [boolOf_ge hge] at hstop; cases hstop
    have hcomparison := comparisonOf_eq_some.mp hcomparison
    have hlt := comparison_code_lt c
    exact if_pos (by omega)
  · rfl

theorem ruleOfArg_valid {f : RuleArg} {t : Fin 16} {c : Comparison} (henable : f.enable.toNat < 2) (hstop : f.stop.toNat < 2)
    (hselector : f.selector.toNat ≤ 24) (ht : f.target.toNat = t.val) (hc : f.comparison.toNat = c.code) :
    ruleOfArg f = some { enable := decide (f.enable = 1#8), selector := f.selector.toNat, argument := f.argument.toNat, comparison := c
                         threshold := f.threshold.toNat, target := t, stop := decide (f.stop = 1#8) } := by
  rw [ruleOfArg, boolOf_lt henable, comparisonOf_eq_some.mpr hc, binOf_eq ht, boolOf_lt hstop]
  exact if_neg (by omega)

theorem carryLoadRule_invalid (rule : Byte) (f : RuleArg) (s : State) (h : 24 ≤ rule.toNat ∨ ruleOfArg f = none) :
    carryLoadRule rule f s = refuse .badValue s := by
  unfold carryLoadRule
  rcases h with h | h
  · rw [ruleOf_ge h]
  · rw [h]
    cases ruleOf rule <;> rfl

theorem binOfArg_invalid (f : BinArg) (h : ¬ (f.shippable.toNat < 2 ∧ f.pattern.toNat < 4)) : binOfArg f = none := by
  unfold binOfArg
  split
  · rename_i sh p hship hpattern
    have hship : ¬ 2 ≤ f.shippable.toNat := fun hge => by rw [boolOf_ge hge] at hship; cases hship
    have hpattern := patternOf_eq_some.mp hpattern
    have hlt := pattern_code_lt p
    exact absurd ⟨by omega, by omega⟩ h
  · rfl

theorem carryLoadBin_invalid (bin : Byte) (f : BinArg) (s : State) (h : 16 ≤ bin.toNat ∨ binOfArg f = none) :
    carryLoadBin bin f s = refuse .badValue s := by
  unfold carryLoadBin
  rcases h with h | h
  · rw [binOf_ge h]
  · rw [h]
    cases binOf bin <;> rfl

theorem stampsFrom_iff (s : State) (k : Fin 16) : allBays.any (fun b => (s.bay b).stampsFrom k) = true ↔
    ∃ c g, (s.bay c).plan.state = .running ∧ (s.bay c).plan.step = .writing ∧ (s.bay c).grade = some g ∧ g.bin = k := by
  have hall (c : BayIx) : c ∈ allBays := by fin_cases c <;> decide
  simp only [List.any_eq_true, hall, true_and, Bay.stampsFrom, Bay.running, Bool.and_eq_true, decide_eq_true_eq, Option.map_eq_some_iff,
    exists_and_left]

end Sys2Proof.Machine

/-! ### The statements -/

namespace Sys2Proof.Proofs

open Sys2Proof.Machine

/-- Settles O39, kind by kind. -/
theorem loadSlotDirective : Obligations.LoadSlotDirective := by
  intro b seq slot nxt f s hm refused
  have hrefused (why : Reason) (h : carryLoadSlot slot nxt f s = refuse why s) : refused why :=
    congrArg Host.Outcome.next (take_refuse b seq _ s why hm h)
  refine ⟨fun h => hrefused _ (carryLoadSlot_outside nxt f s h), fun k hk => ⟨fun h => hrefused _ (carryLoadSlot_used nxt f s hk h), ?_⟩⟩
  intro hu stores
  have hstores {body : SlotBody} {n : Option SlotIx} (c : Bool) (hn : nextFor f nxt = some n) (hb : bodyOf f = some (body, c)) :
      stores body n (if c then .clamped else .done) := exec_loadSlot_stored seq hm hk hu hn hb
  have hbad (h : nextFor f nxt = none ∨ bodyOf f = none) : refused .badValue := hrefused _ (carryLoadSlot_bad hk hu h)
  refine ⟨?_, fun hf h96 h254 => hbad (Or.inl ?_), ?_, fun n hnxt => ?_⟩
  · rintro rfl
    exact hstores false rfl rfl
  · rw [nextFor_eq_nextOf nxt hf, nextOf_bad h96 h254]
  · rintro kind rfl
    exact hbad (Or.inr rfl)
  · have hnext : nextOf nxt = some n := nextOf_eq hnxt
    refine ⟨?_, ?_, ?_, ?_, ?_, ?_⟩
    · rintro d rfl
      exact hstores false hnext rfl
    · rintro off rfl o
      have hclamped := hstores (decide (o ≠ off.toNat)) hnext rfl
      rw [if_congr (Q := ¬ o = off.toNat) decide_eq_true_iff rfl rfl, ite_not] at hclamped
      exact hclamped
    · rintro rfl
      exact hstores false hnext rfl
    · rintro target count rfl
      refine ⟨fun h => hbad (Or.inr ?_), fun t ht => hstores false hnext ?_⟩
      · rw [bodyOf, slotOf_ge h]; rfl
      · rw [bodyOf, slotOf_eq ht]; rfl
    · rintro bin other rfl
      refine ⟨fun h => hbad (Or.inr ?_), fun g o hg ho => hstores false hnext ?_⟩
      · rcases h with h | ⟨h96, h254⟩
        · rw [bodyOf, binOf_ge h]
        · rw [bodyOf, nextOf_bad h96 h254]
          cases binOf bin <;> rfl
      · rw [bodyOf, binOf_eq hg, nextOf_eq ho]
    · rintro lba rfl
      exact hstores false hnext rfl

/-- Settles O40: the checks of R83 hold exactly when the slot's contents are made. -/
theorem sweepSlotChecks : Obligations.SweepSlotChecks := by
  intro b seq slot nxt f k n s hm hk hu hnxt ok interval
  refine ⟨fun h => ?_, fun h => ?_⟩
  · exact congrArg Host.Outcome.next
      (take_refuse b seq _ s _ hm (carryLoadSlot_bad hk hu (Or.inr (sweepBody_invalid f h))))
  · obtain ⟨c, hop, horder, hpacing, htrigger, hstart, hlength, hchunk, hblock, hflight, hpasses, htol, hrescans, hinterval, hlimit, hbody⟩ :=
      sweepBody_valid f h
    refine ⟨c, hop, horder, hpacing, htrigger, hstart, hlength, hchunk, hblock, hflight, hpasses, htol, hrescans, hinterval, hlimit, ?_⟩
    have hnext : nextFor (.sweep f) nxt = some n := nextOf_eq hnxt
    rw [exec_loadSlot_stored seq hm hk hu hnext hbody, hinterval]
    have hneg : (4 < f.rescans.toNat ∨ interval ≠ f.interval.toNat) ↔ ¬ (f.rescans.toNat ≤ 4 ∧ interval = f.interval.toNat) := by
      omega
    simp only [decide_eq_true_eq]
    rw [if_congr hneg rfl rfl, ite_not]

/-- Settles O41: the value checks of the rule and of the bin, and LOAD-BIN's check for a STAMP phase that writes. -/
theorem loadRuleAndBinDirectives : Obligations.LoadRuleAndBinDirectives := by
  constructor <;> intro b seq no f s hm ok <;> refine ⟨fun h => ?_, ?_⟩
  · refine congrArg Host.Outcome.next (take_refuse b seq _ s _ hm (carryLoadRule_invalid no f s ?_))
    by_cases hr : no.toNat < 24
    · exact Or.inr (ruleOfArg_invalid f fun hf => h ⟨hr, hf⟩)
    · exact Or.inl (by omega)
  · intro k t c h hk ht hc v
    obtain ⟨_, henable, hstop, hselector, _, _⟩ := h
    refine congrArg Host.Outcome.next (take_stored b seq (.loadRule no f) s _ false hm (by simp) ?_)
    rw [carry, carryLoadRule, ruleOf_eq hk, ruleOfArg_valid henable hstop hselector ht hc]
    rfl
  · refine congrArg Host.Outcome.next (take_refuse b seq _ s _ hm (carryLoadBin_invalid no f s ?_))
    by_cases hb : no.toNat < 16
    · exact Or.inr (binOfArg_invalid f fun hf => h ⟨hb, hf⟩)
    · exact Or.inl (by omega)
  · intro k p h hk hp writing
    obtain ⟨_, hship, _⟩ := h
    have hcarry : carry b (.loadBin no f) s = if allBays.any (fun c => (s.bay c).stampsFrom k) then refuse .inUse s
        else accept (refreshLamps (s.modRack (fun r =>
          { r with bins := r.bins.set k { shippable := decide (f.shippable = 1#8), pattern := p, name := f.name.toNat } }))) := by
      rw [carry, carryLoadBin, binOf_eq hk, binOfArg, boolOf_lt hship, patternOf_eq_some.mpr hp]
    refine ⟨fun hw => congrArg Host.Outcome.next (take_refuse b seq _ s _ hm ?_), fun hw => ?_⟩
    · exact hcarry.trans (if_pos ((stampsFrom_iff s k).mpr hw))
    · intro v
      refine congrArg Host.Outcome.next (take_stored b seq (.loadBin no f) s _ false hm (by simp) ?_)
      exact hcarry.trans (if_neg (mt (stampsFrom_iff s k).mp hw))

end Sys2Proof.Proofs
end

section
/-! SUPPORT. The chain of a plan (R121), the checks of START-PLAN and POWER in their order (R120, R122, R158), a spin-up that a
power-off cuts (R158), and what the mailbox makes of codes and collisions (R164, R165); and the statements O42, O43, O45 and O48,
settled from them. -/

namespace Sys2Proof.Machine

/-! ### The reachable set (R121) -/

theorem mem_leadsTo {v : Slot} {n : SlotIx} :
    n ∈ v.leadsTo ↔ v.nxt = some n ∨ (∃ bin, v.body = .grade bin (some n)) ∨ ∃ c, v.body = .loop n c := by
  unfold Slot.leadsTo
  cases hbody : v.body with
  | grade bin other => simp
  | loop target count => simp [eq_comm]
  | _ => simp

theorem leadsTo_length (v : Slot) : v.leadsTo.length ≤ 2 := by
  have hopt (o : Option SlotIx) : o.toList.length ≤ 1 := by cases o <;> simp
  have hnext := hopt v.nxt
  unfold Slot.leadsTo
  rw [List.length_append]
  cases v.body with
  | grade bin other => exact Nat.add_le_add hnext (hopt other)
  | loop target count => exact Nat.add_le_add hnext (Nat.le_refl 1)
  | _ => exact Nat.le_succ_of_le hnext

theorem count_false_set (seen : Vector Bool 96) (k : SlotIx) (h : seen[k] = false) :
    (seen.set k true).count false + 1 = seen.count false := by
  have hk : seen[k.val] = false := h
  have hpos : 0 < seen.count false := Vector.count_pos_iff.mpr (Vector.mem_of_getElem hk)
  rw [Vector.count_set, hk]
  simp only [beq_self_eq_true, if_true, Bool.true_beq, Bool.false_eq_true, if_false]
  omega

/-- With fuel enough the set that grows holds what was seen and what is still to be looked at, and is closed. -/
theorem growReach_closed (slots : Vector Slot 96) (fuel : Nat) (todo : List SlotIx) (seen : Vector Bool 96)
    (hfuel : todo.length + 2 * seen.count false ≤ fuel)
    (hinv : ∀ k n : SlotIx, seen[k] = true → n ∈ slots[k].leadsTo → seen[n] = true ∨ n ∈ todo) :
    (∀ k : SlotIx, seen[k] = true ∨ k ∈ todo → (growReach slots fuel todo seen)[k] = true)
    ∧ ∀ k n : SlotIx, (growReach slots fuel todo seen)[k] = true → n ∈ slots[k].leadsTo →
      (growReach slots fuel todo seen)[n] = true := by
  induction fuel generalizing todo seen with
  | zero =>
    have htodo : todo = [] := List.eq_nil_of_length_eq_zero (by omega)
    subst htodo
    rw [growReach]
    exact ⟨fun k hk => by simpa using hk, fun k n hk hn => by simpa using hinv k n hk hn⟩
  | succ fuel ih =>
    match todo with
    | [] =>
      rw [growReach]
      exact ⟨fun k hk => by simpa using hk, fun k n hk hn => by simpa using hinv k n hk hn⟩
    | j :: todo =>
      rw [List.length_cons] at hfuel
      rw [growReach]
      split
      · next hj =>
        obtain ⟨hholds, hclosed⟩ := ih todo seen (by omega) fun k n hk hn => (hinv k n hk hn).elim Or.inl fun hmem =>
          (List.mem_cons.mp hmem).elim (fun he => Or.inl (he ▸ hj)) Or.inr
        refine ⟨fun k hk => hholds k (hk.elim Or.inl fun hmem => ?_), hclosed⟩
        exact (List.mem_cons.mp hmem).elim (fun he => Or.inl (he ▸ hj)) Or.inr
      · next hj =>
        have hcount := count_false_set seen j (Bool.eq_false_iff.mpr hj)
        have hlen := leadsTo_length slots[j]
        have hget (k : SlotIx) : (seen.set j true)[k] = true ↔ k = j ∨ seen[k] = true := by
          simp only [Fin.getElem_fin, Vector.getElem_set, Fin.ext_iff]
          by_cases he : j.val = k.val
          · simp [he]
          · simp [he, Ne.symm he]
        obtain ⟨hholds, hclosed⟩ := ih (slots[j].leadsTo ++ todo) (seen.set j true) (by rw [List.length_append]; omega) fun k n hk hn => by
          rw [hget, List.mem_append]
          rcases (hget k).mp hk with rfl | hk
          · exact Or.inr (Or.inl hn)
          · rcases hinv k n hk hn with hs | hm
            · exact Or.inl (Or.inr hs)
            · exact (List.mem_cons.mp hm).elim (fun he => Or.inl (Or.inl he)) fun ht => Or.inr (Or.inr ht)
        refine ⟨fun k hk => hholds k ?_, hclosed⟩
        rw [hget, List.mem_append]
        rcases hk with hs | hm
        · exact Or.inl (Or.inr hs)
        · exact (List.mem_cons.mp hm).elim (fun he => Or.inl (Or.inl he)) fun ht => Or.inr (Or.inr ht)

/-- The first slot is in its reachable set, and the set is closed. -/
theorem reachOf_closed (slots : Vector Slot 96) (f : SlotIx) : (reachOf slots f)[f] = true
    ∧ ∀ k n : SlotIx, (reachOf slots f)[k] = true → n ∈ slots[k].leadsTo → (reachOf slots f)[n] = true := by
  obtain ⟨hholds, hclosed⟩ := growReach_closed slots 200 [f] (Vector.replicate 96 false) (by simp) (by simp)
  exact ⟨hholds f (Or.inr (by simp)), hclosed⟩

theorem forward_iff (k : SlotIx) (o : Option SlotIx) : forward k o = true ↔ ∀ n, o = some n → k < n := by
  cases o <;> simp [forward]

theorem valid_iff (f k : SlotIx) (v : Slot) : v.valid f k = true ↔
    v.body ≠ .empty ∧ (∀ n, v.nxt = some n → k < n) ∧ (∀ bin o, v.body = .grade bin (some o) → k < o)
      ∧ ∀ t c, v.body = .loop t c → t < k ∧ f ≤ t := by
  unfold Slot.valid
  rw [Bool.and_eq_true, Bool.and_eq_true, forward_iff, decide_eq_true_iff, and_assoc]
  cases hbody : v.body with
  | grade bin other =>
    simp only [forward_iff, SlotBody.grade.injEq, reduceCtorEq, false_implies, implies_true, and_true]
    exact and_congr_right fun _ => and_congr_right fun _ =>
      ⟨fun h b o ho => h o ho.2, fun h o ho => h bin o ⟨rfl, ho⟩⟩
  | loop target count =>
    simp only [decide_eq_true_eq, SlotBody.loop.injEq, reduceCtorEq, false_implies, implies_true, true_and]
    exact and_congr_right fun _ => and_congr_right fun _ =>
      ⟨fun h t c ht => ht.1 ▸ h, fun h => h target count ⟨rfl, rfl⟩⟩
  | _ => simp

theorem chainValid_iff (slots : Vector Slot 96) (f : SlotIx) (reach : Vector Bool 96) :
    chainValid slots f reach = true ↔ ∀ k : SlotIx, reach[k] = true → slots[k].valid f k = true := by
  simp only [chainValid, List.all_eq_true, List.mem_finRange, true_implies, Bool.or_eq_true, Bool.not_eq_true', ← Bool.not_eq_true,
    or_iff_not_imp_left, not_not]

/-! ### START-PLAN (R120, R122) -/

theorem choiceOf_code {x : Byte} {c : Choice} (h : x.toNat = c.code) : choiceOf x = some c := by
  unfold choiceOf
  rw [h]
  cases c <;> rfl

theorem choiceOf_ge {x : Byte} (h : 2 ≤ x.toNat) : choiceOf x = none := by revert h; revert x; decide

theorem carryStartPlan_badValue (b : BayIx) {slot atEnd : Byte} (s : State) (h : 96 ≤ slot.toNat ∨ 2 ≤ atEnd.toNat) :
    carryStartPlan b slot atEnd s = refuse .badValue s := by
  unfold carryStartPlan
  rcases h with h | h
  · rw [slotOf_ge h]
  · rw [choiceOf_ge h]
    cases slotOf slot <;> rfl

theorem carryStartPlan_codes (b : BayIx) {slot atEnd : Byte} {f : SlotIx} {c : Choice} (s : State) (hf : slot.toNat = f.val)
    (hc : atEnd.toNat = c.code) : carryStartPlan b slot atEnd s =
      if (s.bay b).running then refuse .wrongState s
      else if (s.bay b).power.session ≠ .active then refuse .noDrive s
      else if (s.bay b).power.unsupported then refuse .unsupportedDrive s
      else if (s.bay b).power.state = .settling then refuse .wrongState s
      else if chainValid s.rack.slots f (reachOf s.rack.slots f) = false then refuse .planInvalid s
      else accept (launchPlan b f (beginPlan b f c (reachOf s.rack.slots f) s)) := by
  rw [carryStartPlan, slotOf_eq hf, choiceOf_code hc]

theorem running_iff (x : Bay) : x.running = true ↔ x.plan.state = .running := decide_eq_true_iff

theorem plan_chooseLamp (r : Rack) (x : Bay) : (x.chooseLamp r).plan = x.plan := by rw [chooseLamp_form]

theorem plan_beginPlan (b : BayIx) (f : SlotIx) (c : Choice) (reach : Vector Bool 96) (s : State) :
    ((beginPlan b f c reach s).bay b).plan = (s.bay b).plan.start f c reach s.rack.ms := by
  simp only [beginPlan, refreshLamp, bay_modBay_same, plan_chooseLamp, bay_modRack, rack_modRack]
  rw [Rack.claim]

theorem power_beginPlan (b : BayIx) (f : SlotIx) (c : Choice) (reach : Vector Bool 96) (s : State) :
    ((beginPlan b f c reach s).bay b).power = (s.bay b).power := by
  simp only [beginPlan, refreshLamp, bay_modBay_same, power_chooseLamp, bay_modRack]

theorem planStarted_eq (b : BayIx) (f : SlotIx) (c : Choice) (step : PhaseStep) (s : State) :
    s.planStarted b f c step = setStep b step none (beginPlan b f c (reachOf s.rack.slots f) s) := by
  simp only [State.planStarted, setStep, beginPlan, Rack.claim, Plan.start, Ship.init, rack_modRack]
  rfl

theorem launchPlan_waits (b : BayIx) (f : SlotIx) (u : State) (h : (u.bay b).power.state = .queued ∨ (u.bay b).power.state = .spinningUp) :
    launchPlan b f u = setStep b .waitingForOn none u := by
  rcases h with h | h <;> rw [launchPlan, h]

theorem launchPlan_asks (b : BayIx) (f : SlotIx) (u : State) (h : (u.bay b).power.state = .off) :
    launchPlan b f u = askPower b (setStep b .waitingForOn none u) := by rw [launchPlan, h]

theorem launchPlan_on (b : BayIx) (f : SlotIx) (u : State) (h : (u.bay b).power.state = .on) (hr : (u.bay b).plan.state = .running)
    (hs : (u.bay b).plan.step = .none) (ht : (u.bay b).plan.timer = none) :
    launchPlan b f u = travel b arrivalFuel (some f) (setStep b .none none u) := by
  have hsame : setStep b .none none u = u := by
    refine modBay_id u b _ ?_
    rw [Bay.modPlan, ← hs, ← ht]
  rw [launchPlan, h, hsame]
  exact if_pos ((running_iff _).mpr hr)

/-! ### POWER (R158) -/

theorem carryPower_codes (b : BayIx) {field : Byte} {on : Bool} (s : State) (h : boolOf field = some on) : carryPower b field s =
      if (s.bay b).running then refuse .wrongState s
      else if (s.bay b).power.session ≠ .active then refuse .noDrive s
      else if (s.bay b).power.unsupported then refuse .unsupportedDrive s
      else if on ∧ (s.bay b).power.state = .settling then refuse .wrongState s
      else accept (if on then askOn b s else askOff b s) := by
  rw [carryPower, h]

theorem carryPower_running (b : BayIx) {field : Byte} {on : Bool} (s : State) (h : boolOf field = some on)
    (hr : (s.bay b).plan.state = .running) : carryPower b field s = refuse .wrongState s := by
  rw [carryPower_codes b s h, if_pos ((running_iff _).mpr hr)]

theorem carryPower_noDrive (b : BayIx) {field : Byte} {on : Bool} (s : State) (h : boolOf field = some on)
    (hr : (s.bay b).plan.state ≠ .running) (hs : (s.bay b).power.session ≠ .active) : carryPower b field s = refuse .noDrive s := by
  rw [carryPower_codes b s h, if_neg (mt (running_iff _).mp hr), if_pos hs]

theorem carryPower_unsupported (b : BayIx) {field : Byte} {on : Bool} (s : State) (h : boolOf field = some on)
    (hr : (s.bay b).plan.state ≠ .running) (hs : (s.bay b).power.session = .active) (hu : (s.bay b).power.unsupported = true) :
    carryPower b field s = refuse .unsupportedDrive s := by
  rw [carryPower_codes b s h, if_neg (mt (running_iff _).mp hr), if_neg (fun hn => hn hs), if_pos hu]

theorem carryPower_asks (b : BayIx) {field : Byte} {on : Bool} (s : State) (h : boolOf field = some on)
    (hr : (s.bay b).plan.state ≠ .running) (hs : (s.bay b).power.session = .active) (hu : (s.bay b).power.unsupported = false) :
    carryPower b field s = if on ∧ (s.bay b).power.state = .settling then refuse .wrongState s
      else accept (if on then askOn b s else askOff b s) := by
  rw [carryPower_codes b s h, if_neg (mt (running_iff _).mp hr), if_neg (fun hn => hn hs), if_neg (by simp [hu])]

/-- The bay whose spin-up a power-off cuts (R158). -/
def Bay.cutShort (x : Bay) : Bay :=
  let y := x.dropAll (some .aborted) false
  { y with
    lane := { y.lane with
      downUp := false, retired := [], downWait := [], held := []
      upSent := if y.lane.upUp then y.lane.upSent ++ y.lane.held.map (fun h => .completion h.tag .notReady) else y.lane.upSent }
    power := { y.power with state := .off, spinTimer := none, learnWait := false }
    tracker := { y.tracker with
      waiting := y.tracker.waiting.filter (fun r => !decide (r.origin = .settle ∨ r.origin = .learn)) } }

theorem cutSpinup_eq (b : BayIx) (s : State) : cutSpinup b s = grantTest (s.modBay b Bay.cutShort) := by
  rw [cutSpinup, discardAll_eq, cutSupply_form, refuseHeld_eq, setPower, modBay_modBay, modBay_modBay, modBay_modBay]
  rfl

theorem bay_cutSpinup (b : BayIx) (s : State) (h : b ∉ s.rack.queue) : (cutSpinup b s).bay b = (s.bay b).cutShort := by
  obtain ⟨hbay, _⟩ := grantTest_other (s.modBay b Bay.cutShort) b h
  rw [cutSpinup_eq, hbay, bay_modBay_same]

/-! ### The mailbox (R164, R165) -/

theorem take_collides (b : BayIx) (seq : Word) (d : Directive) (s : State) (h : ¬ s.mailboxIdle b) : takeDirective b seq d s = collide b s :=
  if_neg h

end Sys2Proof.Machine

/-! ### The statements -/

namespace Sys2Proof.Proofs

open Sys2Proof.Machine

/-- Settles O42: the checks in their order, and then the launch by the power state. -/
theorem startPlanDirective : Obligations.StartPlanDirective := by
  intro b seq slot atEnd s hm x refused
  have hrefused (why : Reason) (h : carryStartPlan b slot atEnd s = refuse why s) : refused why :=
    congrArg Host.Outcome.next (take_refuse b seq _ s why hm h)
  refine ⟨fun h => hrefused _ (carryStartPlan_badValue b s h), fun f c hf hc => ?_⟩
  have hcarry := carryStartPlan_codes b s hf hc
  refine ⟨fun hr => hrefused _ (hcarry.trans (if_pos ((running_iff x).mpr hr))), fun hr => ?_⟩
  have hcarry := hcarry.trans (if_neg (mt (running_iff x).mp hr))
  refine ⟨fun hs => hrefused _ (hcarry.trans (if_pos hs)), fun hs => ?_⟩
  have hcarry := hcarry.trans (if_neg (fun hn => hn hs))
  refine ⟨fun hu => hrefused _ (hcarry.trans (if_pos hu)), fun hu => ?_⟩
  have hcarry := hcarry.trans (if_neg (Bool.eq_false_iff.mp hu))
  refine ⟨fun hp => hrefused _ (hcarry.trans (if_pos hp)), fun hp => ?_⟩
  have hcarry := hcarry.trans (if_neg hp)
  refine ⟨fun hv => hrefused _ (hcarry.trans (if_pos hv)), fun hv => ?_⟩
  intro done
  have hcarry := hcarry.trans (if_neg (ne_false_of_eq_true hv))
  have hdone (u : State) (h : launchPlan b f (beginPlan b f c (reachOf s.rack.slots f) s) = u) : done u :=
    congrArg Host.Outcome.next (take_stored b seq _ s u false hm (by simp) (hcarry.trans (congrArg accept h)))
  have hstate := congrArg Power.state (power_beginPlan b f c (reachOf s.rack.slots f) s)
  have hplan := plan_beginPlan b f c (reachOf s.rack.slots f) s
  rw [planStarted_eq, planStarted_eq]
  refine ⟨fun hw => hdone _ (launchPlan_waits b f _ (hstate ▸ hw)), fun hw => hdone _ (launchPlan_asks b f _ (hstate.trans hw)), fun hw => ?_⟩
  exact hdone _ (launchPlan_on b f _ (hstate.trans hw) (by rw [hplan]; rfl) (by rw [hplan]; rfl) (by rw [hplan]; rfl))

/-- Settles O43: the check slot by slot, and the reachable set as the least closed set. -/
theorem chainCheck : Obligations.ChainCheck := by
  refine ⟨fun slots f reach => ⟨?_, ?_⟩, fun slots f P hf hP k hk => ?_⟩
  · rw [chainValid_iff]
    exact forall_congr' fun k => imp_congr_right fun _ => valid_iff f k slots[k]
  · obtain ⟨hfirst, hclosed⟩ := reachOf_closed slots f
    exact ⟨hfirst, fun k n hk hn => hclosed k n hk (mem_leadsTo.mpr hn)⟩
  · refine grow_least slots P (fun k n hk hn => hP k n hk (mem_leadsTo.mp hn)) 200 [f] (Vector.replicate 96 false) ?_ (by simp) k hk
    intro n hn
    exact List.mem_singleton.mp hn ▸ hf

/-- Settles O45: the checks in their order, and then ON and OFF by the power state. -/
theorem powerDirectives : Obligations.PowerDirectives := by
  intro b seq s hm x on off answer becomes
  have hrefused (why : Reason) (field : Byte) (h : carryPower b field s = refuse why s) :
      Host.Outcome.next (φ := Fault) (ρ := Refusal) (takeDirective b seq (.power field) s) = .next (answer (.refused why) s) :=
    congrArg Host.Outcome.next (take_refuse b seq _ s why hm h)
  have hdone (field : Byte) (u : State) (h : carryPower b field s = accept u) :
      Host.Outcome.next (φ := Fault) (ρ := Refusal) (takeDirective b seq (.power field) s) = .next (answer .done u) :=
    congrArg Host.Outcome.next (take_stored b seq _ s u false hm (by simp) h)
  have hfield0 : boolOf 0#8 = some false := rfl
  have hfield1 : boolOf 1#8 = some true := rfl
  refine ⟨fun hr => ?_, fun hr hs => ?_, fun hr hs hu => ?_, fun hr hs hu => ?_⟩
  · exact ⟨hrefused _ _ (carryPower_running b s hfield1 hr), hrefused _ _ (carryPower_running b s hfield0 hr)⟩
  · exact ⟨hrefused _ _ (carryPower_noDrive b s hfield1 hr hs), hrefused _ _ (carryPower_noDrive b s hfield0 hr hs)⟩
  · exact ⟨hrefused _ _ (carryPower_unsupported b s hfield1 hr hs hu), hrefused _ _ (carryPower_unsupported b s hfield0 hr hs hu)⟩
  · have hcarryOn := carryPower_asks b s hfield1 hr hs hu
    have hoff : off (answer .done (askOff b s)) :=
      hdone _ _ ((carryPower_asks b s hfield0 hr hs hu).trans (if_neg (by simp)))
    have hon (h : x.power.state ≠ .settling) : on (answer .done (askOn b s)) := hdone _ _ (hcarryOn.trans (if_neg fun hn => h hn.2))
    have hstays (h : x.power.state ≠ .off) : askOn b s = s := if_neg h
    refine ⟨fun hp => ⟨hrefused _ _ (hcarryOn.trans (if_pos ⟨rfl, hp⟩)), ?_⟩, fun hp => ⟨?_, ?_⟩, fun hp => ⟨?_, ?_⟩, fun hp => ⟨?_, ?_⟩,
      fun hp => ⟨?_, fun hq => ?_⟩⟩
    · rwa [askOff, hp] at hoff
    · have hasks : askOn b s = askPower b s := if_pos hp
      exact (congrArg (fun u => on (answer .done u)) hasks).mp (hon (by simp [hp]))
    · rwa [askOff, hp] at hoff
    · exact hstays (by simp [hp]) ▸ hon (by simp [hp])
    · rwa [askOff, hp] at hoff
    · exact hstays (by simp [hp]) ▸ hon (by simp [hp])
    · rwa [askOff, hp] at hoff
    · exact hstays (by simp [hp]) ▸ hon (by simp [hp])
    · rw [askOff, hp] at hoff
      refine ⟨_, hoff, ?_⟩
      simp only [answer, State.answered, bay_modBay_same, bay_cutSpinup b s hq]
      exact ⟨rfl, rfl, rfl, rfl, fun tag => Vector.getElem_replicate _, rfl, rfl⟩

/-- Settles O48: a code that is no directive's, and every directive of a mailbox that is not IDLE. -/
theorem badCodesAndCollisions : Obligations.BadCodesAndCollisions := by
  have hbad (b : BayIx) (seq code : Word) (s : State) (h : code.toNat = 0 ∨ 13 ≤ code.toNat) :
      exec (.badCode b seq code) s = .next (takeDirective b seq (.badCode code) s) := if_neg (by omega)
  refine ⟨fun b seq code s hm => ⟨fun hc => ?_, ?_⟩, fun b seq code s h1 h12 => if_pos ⟨h1, h12⟩, fun b seq s hm => ?_⟩
  · rw [hbad b seq code s hc]
    exact congrArg Host.Outcome.next (take_refuse b seq (.badCode code) s .badCode hm rfl)
  · exact congrArg Host.Outcome.next (if_pos hm)
  · intro collides
    have hall (d : Directive) : Host.Outcome.next (φ := Fault) (ρ := Refusal) (takeDirective b seq d s) = .next (collide b s) :=
      congrArg Host.Outcome.next (take_collides b seq d s hm)
    refine ⟨congrArg Host.Outcome.next (if_neg hm), fun f => hall _, fun f => hall _, fun slot nxt f => hall _, fun rule f => hall _,
      fun bin f => hall _, fun slot c => hall _, fun c => hall _, hall _, hall _, fun zone => ⟨hall _, hall _, hall _, hall _⟩, hall _,
      fun lf af ll al => hall _, fun clear mask => hall _, fun code hc => ?_⟩
    exact (hbad b seq code s hc).trans (hall _)

end Sys2Proof.Proofs
end

section
/-! SUPPORT. The end of a plan by ABORT-PLAN (R130 to R132), the begin of a session wipe (R160), the notices and the lamp as bits and
cases (R146, R161, R162, R170, R171); and the statements O44, O46 and O47, settled from them. -/

namespace Sys2Proof.Machine

/-! ### The lamp (R146, R161) -/

/-- Choosing the lamp again leaves what SET-LINE stored. -/
theorem lines_chooseLamp (r : Rack) (x : Bay) : (x.chooseLamp r).lines.lampFn = x.lines.lampFn
    ∧ (x.chooseLamp r).lines.auxFn = x.lines.auxFn ∧ (x.chooseLamp r).lines.lampLatch = x.lines.lampLatch
    ∧ (x.chooseLamp r).lines.auxLatch = x.lines.auxLatch := by
  unfold Bay.chooseLamp
  split <;> exact ⟨rfl, rfl, rfl, rfl⟩

theorem chooseLamp_same (r : Rack) (x : Bay) (h : x.lines.pattern = lampChoice r x) : x.chooseLamp r = x := if_pos h.symm

theorem chooseLamp_changes (r : Rack) (x : Bay) (h : x.lines.pattern ≠ lampChoice r x) :
    x.chooseLamp r = { x with lines := { x.lines with
      pattern := lampChoice r x, blinkLit := (halfPeriod (lampChoice r x)).isSome, blink := halfPeriod (lampChoice r x) } } :=
  if_neg h.symm

theorem lampChoice_other (r : Rack) (x : Bay) (h : x.lines.lampFn ≠ .sort) : lampChoice r x = .off := if_neg h

theorem lampChoice_empty (r : Rack) (x : Bay) (hp : x.power.state = .empty) : lampChoice r x = .off := by
  unfold lampChoice sortPattern
  rw [if_pos hp, ite_self]

theorem lampChoice_sort (r : Rack) (x : Bay) (h : x.lines.lampFn = .sort) (hp : x.power.state ≠ .empty) :
    lampChoice r x = if x.running then .slow else match x.grade with
      | some g => r.bins[g.bin].pattern
      | none => .off := by
  unfold lampChoice sortPattern
  rw [if_pos h, if_neg hp] <;> rfl

/-- Between two power states of a bay that is not EMPTY the lamp's choice is the same. -/
theorem chooseLamp_setPower (r : Rack) (x : Bay) (p : PowerState) (h : x.power.state ≠ .empty) (hp : p ≠ .empty) :
    (x.modPower (fun w => { w with state := p })).chooseLamp r = (x.chooseLamp r).modPower (fun w => { w with state := p }) := by
  have hchoice : lampChoice r (x.modPower (fun w => { w with state := p })) = lampChoice r x := by
    unfold lampChoice sortPattern
    rw [if_neg h, if_neg (show ¬ (x.modPower (fun w => { w with state := p })).power.state = .empty from hp)]
    rfl
  unfold Bay.chooseLamp
  rw [hchoice]
  change (if lampChoice r x = x.lines.pattern then _ else _) = _
  split <;> rfl

/-! ### Notices (R170 to R172) -/

theorem unmasked_iff (a : Annex) : a.unmasked = true ↔ ∃ k : Fin 5, a.flags[k] = true ∧ a.mask[k] = true := by
  have hall (k : Fin 5) : k ∈ noticeIxs := by fin_cases k <;> decide
  simp only [Annex.unmasked, List.any_eq_true, hall, true_and, Bool.and_eq_true]

theorem attention_iff (s : State) :
    s.attention = true ↔ ∃ (b : BayIx) (k : Fin 5), (s.bay b).annex.flags[k] = true ∧ (s.bay b).annex.mask[k] = true := by
  have hall (c : BayIx) : c ∈ allBays := by fin_cases c <;> decide
  simp only [State.attention, List.any_eq_true, hall, true_and, unmasked_iff]

theorem noticesOfByte_get (x : Byte) (k : Fin 5) : (noticesOfByte x)[k] = x.getLsbD k.val := by
  fin_cases k <;> rfl

theorem getLsbD_noticeByte (v : Vector Bool 5) (k : Fin 5) : (BitVec.ofNat 32 (noticeByte v)).getLsbD k.val = v[k] := by
  have hk : k.val < 32 := by omega
  rw [BitVec.getLsbD_ofNat, noticeByte_eq, bitsToNat_bit, Vector.getElem?_toList, Vector.getElem?_eq_getElem k.isLt]
  simp [hk]

theorem lampFnOf_code {x : Byte} {f : LampFn} (h : x.toNat = f.code) : lampFnOf x = some f := by
  unfold lampFnOf
  rw [h]
  cases f <;> rfl

theorem auxFnOf_code {x : Byte} {f : AuxFn} (h : x.toNat = f.code) : auxFnOf x = some f := by
  unfold auxFnOf
  rw [h]
  cases f <;> rfl

theorem lampFnOf_ge {x : Byte} (h : 3 ≤ x.toNat) : lampFnOf x = none := by revert h; revert x; decide

theorem auxFnOf_ge {x : Byte} (h : 4 ≤ x.toNat) : auxFnOf x = none := by revert h; revert x; decide

theorem carrySetLine_badValue (b : BayIx) (lf af ll al : Byte) (s : State)
    (h : 3 ≤ lf.toNat ∨ 4 ≤ af.toNat ∨ 2 ≤ ll.toNat ∨ 2 ≤ al.toNat) : carrySetLine b lf af ll al s = refuse .badValue s := by
  unfold carrySetLine
  split
  · next hlf haf hll hal =>
    rcases h with h | h | h | h
    · rw [lampFnOf_ge h] at hlf; cases hlf
    · rw [auxFnOf_ge h] at haf; cases haf
    · rw [boolOf_ge h] at hll; cases hll
    · rw [boolOf_ge h] at hal; cases hal
  · rfl

/-! ### The end of a plan by ABORT-PLAN (R130 to R132) -/

theorem carryAbortPlan_ends (b : BayIx) {choice : Byte} {c : Choice} (s : State) (hc : choiceOf choice = some c)
    (hr : (s.bay b).plan.state = .running) :
    carryAbortPlan b choice s = accept (planEnd b .aborted none (s.bay b).plan.cursor c s) := by
  rw [carryAbortPlan, hc]
  exact if_pos ((running_iff _).mpr hr)

theorem exec_abortPlan_ends (b : BayIx) (seq : Word) {choice : Byte} {c : Choice} (s : State) (hm : s.mailboxIdle b)
    (hc : choiceOf choice = some c) (hr : (s.bay b).plan.state = .running) : exec (.abortPlan b seq choice) s =
      .next ((planEnd b .aborted none (s.bay b).plan.cursor c s).answered b 7#32 seq .done 0#32) :=
  congrArg Host.Outcome.next (take_stored b seq _ s _ false hm (by simp) (carryAbortPlan_ends b s hc hr))

/-- A bay with PLAN-ENDED raised, its lamp chosen and its directive answered. -/
def Bay.planAnswered (r : Rack) (code seq : Word) (x : Bay) : Bay :=
  ((x.modAnnex (Annex.raise .planEnded)).chooseLamp r).modAnnex (fun a =>
    { a with result := { state := .complete, code := code, seq := seq, result := .done, ret := 0#32 } })

theorem planAnswered_eq (b : BayIx) (code seq : Word) (w : State) :
    (refreshLamp b (raiseNotice b .planEnded w)).answered b code seq .done 0#32 =
      w.modBay b (Bay.planAnswered w.rack code seq) := by
  rw [refreshLamp, raiseNotice, State.answered, modBay_modBay, modBay_modBay]
  rfl

/-- It has changed in its lines and its annex only. -/
theorem planAnswered_form (r : Rack) (code seq : Word) (x : Bay) : x.planAnswered r code seq =
    { x with
      lines := ((x.modAnnex (Annex.raise .planEnded)).chooseLamp r).lines
      annex := { x.annex.raise .planEnded with
        result := { state := .complete, code := code, seq := seq, result := .done, ret := 0#32 } } } := by
  rw [Bay.planAnswered, chooseLamp_form]
  rfl

/-- The bay whose plan has ended, before its power is disposed of (R130). -/
theorem bay_endOnly_aborted (b : BayIx) (s : State) :
    (endOnly b .aborted none (s.bay b).plan.cursor s).bay b =
      (stopBay (s.bay b)).modPlan (Plan.finish .aborted none (s.bay b).plan.cursor s.rack.ms) := endOnly_bay b _ _ _ s

theorem rack_endOnly (b : BayIx) (o : PlanOutcome) (f : Option FaultCause) (e : Option SlotIx) (s : State) :
    (endOnly b o f e s).rack = Rack.release (s.bay b).plan.reach s.rack := by
  rw [endOnly, rack_modBay, rack_modRack]

theorem pending_endOnly (b : BayIx) (o : PlanOutcome) (f : Option FaultCause) (e : Option SlotIx) (s : State) :
    (endOnly b o f e s).pending = s.pending := by
  rw [endOnly, pending_modBay, pending_modRack]

theorem stop_keeps (w : Sweep) : w.stop.rescan = none ∧ w.stop.saved = none ∧ w.stop.passCounter = w.passCounter
    ∧ w.stop.resume = w.resume := by
  unfold Sweep.stop
  split <;> exact ⟨rfl, rfl, rfl, rfl⟩

theorem stop_running (w : Sweep) (h : w.status.running = true) : w.stop = { w with
    status := .ended, active := w.active.map (fun a => { a with endReason := some .stopped, credit := .count 0 })
    rescan := none, saved := none, intervalTimer := none } := if_pos h

theorem stop_other (w : Sweep) (h : w.status.running = false) : w.stop = { w with rescan := none, saved := none, intervalTimer := none } :=
  if_neg (Bool.eq_false_iff.mp h)

/-- The bay that a power-off takes out of the grant queue (R158). -/
def Bay.unqueued (x : Bay) : Bay :=
  { x with
    lane := { x.lane with
      held := []
      upSent := if x.lane.upUp then x.lane.upSent ++ x.lane.held.map (fun h => .completion h.tag .notReady) else x.lane.upSent }
    power := { x.power with state := .off } }

theorem askOff_queued (b : BayIx) (s : State) (h : (s.bay b).power.state = .queued) :
    askOff b s = grantTest ((leaveQueue b s).modBay b Bay.unqueued) := by
  rw [askOff, h]
  simp only [refuseHeld_eq, setPower, modBay_modBay]
  rfl

/-- A bay out of the queue is left by the grant test, and so are the use counts. -/
theorem askOff_queued_bay (b : BayIx) (s : State) (h : (s.bay b).power.state = .queued) : (askOff b s).bay b = (s.bay b).unqueued
    ∧ b ∉ (askOff b s).rack.queue ∧ (askOff b s).rack.useCounts = s.rack.useCounts := by
  have hout : b ∉ ((leaveQueue b s).modBay b Bay.unqueued).rack.queue := by simp [leaveQueue]
  obtain ⟨hbay, hqueue⟩ := grantTest_other _ b hout
  rw [askOff_queued b s h]
  refine ⟨?_, hqueue, grantTest_counts _⟩
  rw [hbay, bay_modBay_same]
  rfl

theorem askOff_spinningUp_bay (b : BayIx) (s : State) (h : (s.bay b).power.state = .spinningUp) (hq : b ∉ s.rack.queue) :
    (askOff b s).bay b = (s.bay b).cutShort ∧ (askOff b s).rack.useCounts = s.rack.useCounts := by
  rw [askOff, h]
  refine ⟨bay_cutSpinup b s hq, ?_⟩
  rw [cutSpinup_eq]
  exact grantTest_counts _

/-! ### CLEAR-SESSION (R160, R165) -/

theorem refusesClear_iff (x : Bay) : x.refusesClear = true ↔
    x.plan.state = .running ∨ x.power.state = .queued ∨ x.power.state = .spinningUp ∨ x.power.state = .settling := by
  rw [Bay.refusesClear, Bool.or_eq_true, running_iff, decide_eq_true_iff]

/-- The state after a CLEAR-SESSION that is carried out (R160, R165). -/
theorem take_clear (b : BayIx) (seq : Word) (s : State) (hm : s.mailboxIdle b) (h : (s.bay b).refusesClear = false) :
    takeDirective b seq .clearSession s = s.modBay b (fun x =>
      (((x.beginWipe false).modPower Power.clearSession).chooseLamp s.rack).modAnnex (fun a =>
        { a with
          result := { state := .busy, code := 10#32, seq := seq, result := .done, ret := 0#32 }, mailbox := .busyDirective })) := by
  have hcarry : carry b .clearSession s = accept (beginClear b s) := if_neg (Bool.eq_false_iff.mp h)
  unfold takeDirective
  rw [if_pos (show (s.bay b).annex.mailbox = .idle from hm), hcarry, postResult, accept, storedAs, beginClear, refreshLamp, modBay_modBay,
    modBay_modBay]
  rfl

end Sys2Proof.Machine

/-! ### The statements -/

namespace Sys2Proof.Proofs

open Sys2Proof.Machine

/-- Settles O44: the end of the plan is one change of the bay and of the use counts, and then the power state decides. -/
theorem abortPlanDirective : Obligations.AbortPlanDirective := by
  have hkeep : choiceOf 0#8 = some .keep := rfl
  have hoff : choiceOf 1#8 = some .off := rfl
  refine ⟨fun b seq choice s hm => ⟨fun h => ?_, fun h hr => ?_, fun h hr => ?_⟩, fun b seq s t hm hr ht => ?_⟩
  · refine congrArg Host.Outcome.next (take_refuse b seq _ s _ hm ?_)
    rw [carry, carryAbortPlan, choiceOf_ge h]
  · refine congrArg Host.Outcome.next (take_refuse b seq _ s _ hm ?_)
    obtain ⟨c, hcode⟩ : ∃ c : Choice, choice.toNat = c.code := by
      rcases (by omega : choice.toNat = 0 ∨ choice.toNat = 1) with h | h
      · exact ⟨.keep, h⟩
      · exact ⟨.off, h⟩
    have hc := choiceOf_code hcode
    rw [carry, carryAbortPlan, hc]
    exact if_neg (mt (running_iff _).mp hr)
  · subst h
    refine ⟨_, exec_abortPlan_ends b seq s hm hkeep hr, ?_⟩
    rw [planEnd_keep b _ _ _ s (by decide), planAnswered_eq]
    obtain ⟨hrescan, hsaved, hpass, hresume⟩ := stop_keeps (s.bay b).sweep
    simp only [bay_modBay_same, pending_modBay, rack_modBay, planAnswered_form, bay_endOnly_aborted, rack_endOnly, pending_endOnly]
    refine ⟨trivial, fun c hc => ?_, rfl, rfl, rfl, rfl, rfl, rfl, rfl, rfl, rfl, rfl, fun hrun => ?_, fun hrun => ?_, hrescan, hsaved,
      hpass, hresume, rfl⟩
    · rw [bay_modBay_other _ _ _ _ hc, endOnly, bay_modBay_other _ _ _ _ hc, bay_modRack]
    · change (s.bay b).sweep.stop.status = _ ∧ (s.bay b).sweep.stop.active = _
      rw [stop_running _ hrun]
      exact ⟨rfl, rfl⟩
    · change (s.bay b).sweep.stop.status = _ ∧ (s.bay b).sweep.stop.active = _
      rw [stop_other _ hrun]
      exact ⟨rfl, rfl⟩
  · have hkeeps := exec_abortPlan_ends b seq s hm hkeep hr
    have hoffs := exec_abortPlan_ends b seq s hm hoff hr
    rw [planEnd_keep b _ _ _ s (by decide), planAnswered_eq] at hkeeps
    rw [planEnd_off b _ _ _ s (by decide), planAnswered_eq] at hoffs
    have hbay := bay_endOnly_aborted b s
    have hvqueue : (endOnly b .aborted none (s.bay b).plan.cursor s).rack.queue = s.rack.queue := by rw [rack_endOnly, Rack.release]
    generalize endOnly b .aborted none (s.bay b).plan.cursor s = v at hkeeps hoffs hbay hvqueue
    obtain rfl : t = v.modBay b (Bay.planAnswered v.rack 7#32 seq) := Host.Outcome.next.inj (ht.symm.trans hkeeps)
    intro x off
    have hpower : (v.bay b).power = x.power := by rw [hbay]; rfl
    have hlane : (v.bay b).lane = x.lane := by rw [hbay]; rfl
    have hgrade : (v.bay b).grade = x.grade := by rw [hbay]; rfl
    refine ⟨fun hp => ?_, fun hp => ?_, fun hp => ?_, fun hp hq => ?_⟩
    · have hon : (v.bay b).power.state = .on := by rw [hpower, hp]
      rw [askOff, hon] at hoffs
      refine hoffs.trans (congrArg Host.Outcome.next ?_)
      rw [setPower, modBay_modBay, modBay_modBay]
      refine modBay_eq ?_
      have hlamp := chooseLamp_setPower v.rack ((v.bay b).modAnnex (Annex.raise .planEnded)) .settling
        (fun he => by cases hon.symm.trans he) (by decide)
      simp only [Bay.planAnswered]
      exact congrArg (fun y : Bay => y.modAnnex _) hlamp
    · rw [← hpower] at hp
      have hstays : askOff b v = v := by rcases hp with hp | hp | hp <;> rw [askOff, hp]
      rw [hstays] at hoffs
      exact hoffs
    · obtain ⟨hw, hqueue, hcounts⟩ := askOff_queued_bay b v (by rw [hpower, hp])
      refine ⟨_, hoffs, ?_⟩
      simp only [bay_modBay_same, rack_modBay, planAnswered_form, hw]
      refine ⟨⟨hqueue, ?_, ?_, rfl⟩, rfl, rfl, rfl, rfl, hgrade, hcounts⟩
      · rw [← hpower]; rfl
      · rw [← hlane]; rfl
    · obtain ⟨hw, hcounts⟩ := askOff_spinningUp_bay b v (by rw [hpower, hp]) (by rw [hvqueue]; exact hq)
      refine ⟨_, hoffs, ?_⟩
      simp only [bay_modBay_same, rack_modBay, planAnswered_form, hw]
      refine ⟨⟨?_, rfl, rfl, fun tag => Vector.getElem_replicate _⟩, rfl, rfl, rfl, rfl, hgrade, hcounts⟩
      rw [← hpower]
      rfl

/-- Settles O46: the states that refuse it, and the bay after the wipe has begun. -/
theorem clearSessionDirective : Obligations.ClearSessionDirective := by
  intro b seq s hm x
  refine ⟨fun h => ?_, fun hr hq hu hs => ?_⟩
  · refine congrArg Host.Outcome.next (take_refuse b seq _ s _ hm ?_)
    exact if_pos ((refusesClear_iff x).mpr h)
  · have hclear : x.refusesClear = false := by
      rw [Bool.eq_false_iff, ne_eq, refusesClear_iff]
      tauto
    refine ⟨_, congrArg Host.Outcome.next (take_clear b seq s hm hclear), ?_⟩
    obtain ⟨hlamp, haux, hlampLatch, hauxLatch⟩ := lines_chooseLamp s.rack (((s.bay b).beginWipe false).modPower Power.clearSession)
    simp only [OnlyBay, bay_modBay_same, lines_modAnnex]
    refine ⟨⟨rack_modBay _ _ _, pending_modBay _ _ _, fun c hc => bay_modBay_other _ _ _ _ hc⟩, ?_⟩
    simp only [hlamp, haux, hlampLatch, hauxLatch]
    rw [chooseLamp_form]
    exact ⟨rfl, rfl, rfl, rfl, rfl, rfl, rfl, rfl, rfl, rfl, rfl, rfl, rfl, rfl, rfl, rfl, rfl, rfl, rfl, rfl, rfl, rfl, rfl, rfl,
      rfl, rfl, rfl⟩

/-- Settles O47, line by line and row by row. -/
theorem lineAndNoticeDirectives : Obligations.LineAndNoticeDirectives := by
  refine ⟨fun b seq lf af ll al s hm => ⟨fun h => ?_, fun f g hf hg hl ha => ?_⟩, fun b seq clear mask s hm => ?_, attention_iff,
    fun b s => ?_, fun x => ?_⟩
  · exact congrArg Host.Outcome.next (take_refuse b seq _ s _ hm (carrySetLine_badValue b lf af ll al s h))
  · refine congrArg Host.Outcome.next (take_stored b seq (.setLine lf af ll al) s _ false hm (by simp) ?_)
    rw [carry, carrySetLine, lampFnOf_code hf, auxFnOf_code hg, boolOf_lt hl, boolOf_lt ha]
    rfl
  · refine ⟨_, congrArg Host.Outcome.next (take_answer b seq (.ackNotice clear mask) s hm (by simp)), ?_⟩
    simp only [carry, carryAckNotice, State.answered, modBay_modBay, OnlyBay, bay_modBay_same, Bay.modAnnex, Annex.acknowledge,
      rack_modBay, pending_modBay, true_and]
    refine ⟨fun c hc => bay_modBay_other _ _ _ _ hc, hm, fun k => ⟨?_, noticesOfByte_get mask k, getLsbD_noticeByte _ k⟩, rfl, trivial⟩
    rw [Fin.getElem_fin, Vector.getElem_ofFn, noticesOfByte_get]
  · intro x half shows
    have hhalf (p : LampPattern) : half p = halfPeriod p := by cases p <;> rfl
    have hshows (p : LampPattern) (h : lampChoice s.rack x = p) : shows p := by
      subst h
      refine ⟨fun he => modBay_id s b _ (chooseLamp_same _ _ he), fun hne => modBay_eq ?_⟩
      rw [hhalf]
      exact chooseLamp_changes _ _ hne
    refine ⟨fun h => hshows _ (lampChoice_other _ x h), fun _ hp => hshows _ (lampChoice_empty _ x hp), fun h hp hr => hshows _ ?_,
      fun h hp hr hg => hshows _ ?_, fun g h hp hr hg => hshows _ ?_⟩
    · rw [lampChoice_sort _ x h hp, if_pos ((running_iff x).mpr hr)]
    · rw [lampChoice_sort _ x h hp, if_neg (mt (running_iff x).mp hr), hg]
    · rw [lampChoice_sort _ x h hp, if_neg (mt (running_iff x).mp hr), hg]
  · have hlock (p : PowerState) : lockAsserted p = decide (p = .queued ∨ p = .spinningUp ∨ p = .on ∨ p = .settling) := by
      cases p <;> rfl
    refine ⟨fun h => ⟨fun hp => ?_, fun hp => ?_, fun hp => ?_⟩, fun h => ?_, fun h => ?_, fun h => ?_, fun h => ?_, fun h => ?_, fun h => ?_⟩
    · simp only [Bay.lampLit, h, hp]
    · simp only [Bay.lampLit, h, hp]
    · rcases hp with hp | hp <;> simp only [Bay.lampLit, h, hp]
    · simp only [Bay.lampLit, h, Option.isSome_iff_exists]
    · simp only [Bay.lampLit, h]
    · simp only [Bay.auxDriven, h]
    · simp only [Bay.auxDriven, h]
    · simp only [Bay.auxDriven, h]
    · simp only [Bay.auxDriven, h, hlock]

end Sys2Proof.Proofs
end

section
/-! SUPPORT. The values after part reset (R22), the bay after ms have passed (log entry 3), the kinds of zones after writes (R64 to
R66), and the evaluation of the rule table (R134 to R140); and the statements O4, O34, O57 and O59, settled from them. -/

namespace Sys2Proof.Machine

/-! ### Part reset -/

theorem get_zoneInit (n : Nat) : ZoneMap.init.get n = ZoneRec.init := rfl

theorem attention_reset : State.reset.attention = false := by
  have hall (b : BayIx) : (State.reset.bay b).annex.unmasked = false := by
    rw [bay_reset]
    decide
  simp [State.attention, hall]

/-! ### Time (log entry 3) -/

theorem bay_advanceMs (k : Nat) (s : State) (b : BayIx) : ∃ j, (advanceMs k s).bay b = (s.bay b).elapse j := by
  unfold advanceMs
  split
  · exact ⟨0, (elapse_zero _).symm⟩
  · exact ⟨_, bay_advance _ s b⟩

theorem status_advanceMs (k : Nat) (s : State) (b : BayIx) : ((advanceMs k s).bay b).sweep.status = (s.bay b).sweep.status := by
  obtain ⟨j, hj⟩ := bay_advanceMs k s b
  rw [hj]
  rfl

theorem expire_some {t : Option Nat} {k : Nat} (h : t = some k) (f : State → State) (s : State) : expire t f s = f (advanceMs k s) := by
  rw [h, expire]

/-! ### The IDLE trigger (R96, R97) -/

theorem idleTrigger_not (w : Sweep) (h : w.status ≠ .active) : w.idleTrigger = w := by
  have hid : w.active.map (fun a => if w.status = .active ∧ a.cfg.trigger = .idle then
      if a.drops then a else { a with yielding := false, credit := a.cfg.triggerCredit } else a) = w.active.map id :=
    congrArg (Option.map · w.active) (funext fun a => if_neg fun hn => h hn.1)
  rw [Sweep.idleTrigger, hid, Option.map_id_fun, id]

theorem idleTrigger_some (w : Sweep) (a : Active) (h : w.status = .active) (ha : w.active = some a) : w.idleTrigger = { w with
    active := some (if a.cfg.trigger = .idle then
      if a.drops then a else { a with yielding := false, credit := a.cfg.triggerCredit } else a) } := by
  rw [Sweep.idleTrigger, ha, Option.map_some]
  simp only [h, true_and]

/-! ### Writes (R64 to R66) -/

theorem get_write (m : ZoneMap) (e : WriteEffect) (lo hi n z : Nat) (hm : m.sound) (hle : lo ≤ hi) (hz : m.z = some z) :
    (m.write e lo hi).get n =
      if lo / 2 ^ z ≤ n ∧ n ≤ hi / 2 ^ z then { m.get n with kind := kindAfter e (m.get n).kind } else m.get n := by
  have hdiv : lo / 2 ^ z ≤ hi / 2 ^ z := Nat.div_le_div_right hle
  unfold ZoneMap.write
  rw [hz]
  simp only [get_modRange _ _ _ _ _ hm, Nat.shiftRight_eq_div_pow]
  refine if_congr ?_ rfl rfl
  omega

/-! ### The rule table (R140) -/

theorem fires_iff (x : Bay) (r : Rule) : r.fires x = true ↔
    r.enable = true ∧ r.comparison.holds (metric x r.selector r.argument) r.threshold = true := by
  rw [Rule.fires, Bool.and_eq_true]

theorem evalRules_none (x : Bay) (l : List (Fin 24 × Rule)) (bin : Fin 16) (dec : Option (Fin 24))
    (h : ∀ e ∈ l, ¬ e.2.fires x = true) : evalRules x l bin dec = (bin, dec) := by
  induction l with
  | nil => rfl
  | cons e t ih =>
    rw [evalRules, if_neg (h e List.mem_cons_self)]
    exact ih fun f hf => h f (List.mem_cons_of_mem _ hf)

/-- A true rule decides when no true one before it stops and either it stops or no later one is true. -/
theorem evalRules_decides (x : Bay) (k : Fin 24) (r : Rule) (l : List (Fin 24 × Rule)) (bin : Fin 16) (dec : Option (Fin 24))
    (hsorted : l.Pairwise (fun e f => e.1 < f.1)) (hmem : (k, r) ∈ l) (hfires : r.fires x = true)
    (hbefore : ∀ e ∈ l, e.1 < k → e.2.fires x = true → e.2.stop = false)
    (hafter : r.stop = true ∨ ∀ e ∈ l, k < e.1 → ¬ e.2.fires x = true) : evalRules x l bin dec = (r.target, some k) := by
  induction l generalizing bin dec with
  | nil => cases hmem
  | cons e t ih =>
    obtain ⟨hhead, htail⟩ := List.pairwise_cons.mp hsorted
    rcases List.mem_cons.mp hmem with rfl | hmem
    · rw [evalRules, if_pos hfires]
      split
      · rfl
      · next hstop =>
        have hnone := hafter.resolve_left hstop
        exact evalRules_none x t _ _ fun f hf => hnone f (List.mem_cons_of_mem _ hf) (hhead f hf)
    · have hrest (bin : Fin 16) (dec : Option (Fin 24)) : evalRules x t bin dec = (r.target, some k) :=
        ih bin dec htail hmem (fun f hf => hbefore f (List.mem_cons_of_mem _ hf))
          (hafter.imp_right fun hnone f hf => hnone f (List.mem_cons_of_mem _ hf))
      rw [evalRules]
      split
      · next he =>
        rw [if_neg (Bool.eq_false_iff.mp (hbefore e List.mem_cons_self (hhead _ hmem) he))]
        exact hrest _ _
      · exact hrest _ _

theorem ruleList_sorted (r : Rack) : r.ruleList.Pairwise (fun e f => e.1 < f.1) :=
  List.pairwise_map.mpr (List.pairwise_lt_finRange 24)

theorem mem_ruleList {r : Rack} {e : Fin 24 × Rule} : e ∈ r.ruleList ↔ e.2 = r.rules[e.1] := by
  obtain ⟨k, v⟩ := e
  simp [Rack.ruleList, eq_comm]

end Sys2Proof.Machine

/-! ### The statements -/

namespace Sys2Proof.Proofs

open Sys2Proof.Machine

/-- Settles O4, by the initial value of each block. -/
theorem partResetValues : Obligations.PartResetValues := by
  refine ⟨fun b => ?_, ⟨rfl, rfl, rfl, rfl, rfl, rfl, rfl, rfl, fun k => ⟨Vector.getElem_replicate _, Vector.getElem_replicate _⟩,
    fun k => ?_, fun k => ?_⟩, tally_reset, attention_reset, fun s => ⟨_, rfl, rfl, rfl, fun b => ?_⟩⟩
  · simp only [bay_reset]
    exact ⟨rfl, rfl, rfl, rfl, rfl, rfl, rfl, rfl, rfl, fun tag => Vector.getElem_replicate _, rfl, rfl, rfl, rfl, rfl, rfl, rfl, rfl, rfl,
      rfl, rfl, rfl, get_zoneInit, rfl, rfl, rfl, rfl, rfl, rfl, rfl, rfl, rfl, rfl, rfl, rfl, rfl, rfl, rfl, rfl, rfl, rfl, rfl, rfl, rfl,
      rfl, rfl⟩
  · exact congrArg Rule.enable (Vector.getElem_replicate _)
  · fin_cases k <;> rfl
  · rw [bay_reset]
    exact bay_mapVec s Bay.resetKeeping b

/-- Settles O34: the table of kinds, the effect of a write, and the zones that the written range overlaps. -/
theorem writesChangeZoneKinds : Obligations.WritesChangeZoneKinds := by
  refine ⟨fun p lo hi => ⟨rfl, rfl, rfl, rfl, rfl, rfl, rfl, rfl, rfl, rfl, rfl, rfl, rfl, rfl, rfl, rfl⟩, fun o p c => ?_,
    fun m e lo hi n hm hle => ⟨fun hz => ?_, fun z hz => get_write m e lo hi n z hm hle hz⟩⟩
  · exact ⟨fun h => if_neg (by omega), fun h => if_pos h, rfl, rfl, rfl⟩
  · rw [ZoneMap.write, hz]

/-- Settles O57: the idle timer's trigger by the sweep's status, trigger, pacing and credit; the pulse and the halves of the lamp. -/
theorem idleAndLampExpiries : Obligations.IdleAndLampExpiries := by
  intro b k s x u
  refine ⟨fun hidle => ?_, fun hpulse => ?_, fun hblink => ?_⟩
  · intro ends
    have hends (a : Option Active) (h : (u.bay b).sweep.idleTrigger = { (u.bay b).sweep with active := a }) : ends a := by
      refine congrArg Host.Outcome.next ?_
      rw [expire_some hidle]
      refine modBay_eq ?_
      exact congrArg (fun w : Sweep => ((u.bay b).modTracker (fun t => { t with idle := some t.w })).modSweep (fun _ => w)) h
    have hstatus : (u.bay b).sweep.status = x.sweep.status := status_advanceMs k s b
    refine ⟨fun h => hends _ (idleTrigger_not _ (hstatus ▸ h)), fun a ha hact => ?_⟩
    have htrigger := idleTrigger_some _ a (hstatus.trans hact) ha
    have htakes (c : Credit) (hcredit : a.cfg.triggerCredit = c) (hi : a.cfg.trigger = .idle) (hd : a.drops = false) :
        ends (some { a with yielding := false, credit := c }) := by
      refine hends _ ?_
      rw [htrigger, if_pos hi, if_neg (Bool.eq_false_iff.mp hd), hcredit]
    refine ⟨fun ht => hends _ ?_, fun ht => ⟨fun n hp hc => hends _ ?_, fun hp => htakes _ ?_ ht ?_, fun hp hc => htakes _ ?_ ht ?_,
      fun hp hc => htakes _ ?_ ht ?_⟩⟩
    · rw [htrigger, if_neg ht]
    · have hd : a.drops = true := by simp [Active.drops, hp, hc, Credit.some?]
      rw [htrigger, if_pos ht, if_pos hd]
    · rw [SweepCfg.triggerCredit, hp]
    · simp [Active.drops, hp]
    · rw [SweepCfg.triggerCredit, hp]
    · simp [Active.drops, hc, Credit.some?]
    · rw [SweepCfg.triggerCredit, hp]
    · simp [Active.drops, hc, Credit.some?]
  · exact congrArg Host.Outcome.next (expire_some hpulse _ s)
  · refine congrArg Host.Outcome.next ((expire_some hblink _ s).trans (modBay_eq ?_))
    have hhalf (p : LampPattern) : halfPeriod p = match p with | .slow => some 500 | .fast => some 125 | _ => none := by
      cases p <;> rfl
    rw [Bay.modLines, Lines.toggle, hhalf] <;> rfl

/-- Settles O59: the deciding rule is found along the table, and the metrics are read off. -/
theorem gradeFromRules : Obligations.GradeFromRules := by
  refine ⟨fun r x dflt => ?_, fun m t => ?_, fun x arg => ?_⟩
  · intro true?
    have hfires (e : Fin 24 × Rule) (he : e ∈ r.ruleList) : e.2.fires x = true ↔ true? e.1 := by
      rw [mem_ruleList.mp he]
      exact fires_iff x r.rules[e.1]
    refine ⟨fun hnone => evalRules_none x _ _ _ fun e he hf => hnone e.1 ((hfires e he).mp hf), fun k hk hbefore hafter => ?_⟩
    have hmem : (k, r.rules[k]) ∈ r.ruleList := mem_ruleList.mpr rfl
    refine evalRules_decides x k r.rules[k] r.ruleList dflt none (ruleList_sorted r) hmem ((hfires _ hmem).mpr hk)
      (fun e he hlt hf => ?_) (hafter.imp_right fun hnone e he hlt hf => hnone e.1 hlt ((hfires e he).mp hf))
    rw [mem_ruleList.mp he]
    exact hbefore e.1 hlt ((hfires e he).mp hf)
  · exact ⟨decide_eq_true_iff, decide_eq_true_iff, decide_eq_true_iff, decide_eq_true_iff, decide_eq_true_iff, decide_eq_true_iff⟩
  · intro c slow t
    refine ⟨rfl, rfl, rfl, rfl, rfl, rfl, rfl, ?_, rfl⟩
    have hslow (h : Hist) : slow h = h.slow arg := (slow_sum h arg).symm
    rw [hslow, hslow, hslow]
    rfl

end Sys2Proof.Proofs
end

section
/-! SUPPORT. The part's own steps, one by one: a part tag taken at once (R24), visits and reads (R91 to R93), grants (R152), and the end
of a settling (R156, R157); and the statements O49 and O50, settled from them. -/

namespace Sys2Proof.Machine

/-! ### Requests that a free part tag takes at once (R24) -/

/-- A request of the sweep or the rescan that is made together with a change of the Sweep Engine. -/
theorem requestTag_modSweep {b : BayIx} {r : Rec} {s : State} {tag : Tag} (f : Sweep → Sweep) (hp : (s.bay b).power.state ≠ .settling)
    (hw : (s.bay b).tracker.waiting = []) (hf : (s.bay b).lowestFree tag) (ho : r.origin = .sweep ∨ r.origin = .rescan)
    (hk : r.kind ≠ .flush) : requestTag b r (s.modBay b (·.modSweep f)) =
      s.modBay b (fun x => (x.modSweep f).issues tag { r with issue := s.rack.us, flushMark := none, ship := none }) := by
  have hship : r.origin ≠ .ship := by rcases ho with ho | ho <;> rw [ho] <;> decide
  have hfix : fixRec (s.modBay b (·.modSweep f)) b r = { r with issue := s.rack.us, flushMark := none, ship := none } := by
    rw [fixRec, if_neg hk, if_neg hship, rack_modBay]
  rw [request_free b r _ tag, hfix, modBay_modBay]
  · rw [bay_modBay_same]; exact fun h => absurd h hp
  · rw [bay_modBay_same]; exact hw
  · rw [bay_modBay_same]; exact hf
  · rcases ho with ho | ho <;> rw [ho] <;> decide

theorem assignOne_idle {b : BayIx} {s : State} (h : (s.bay b).tracker.waiting = [] ∨ ∀ tag, ¬ (s.bay b).lowestFree tag) :
    assignOne b s = s := by
  unfold assignOne
  rcases h with h | h
  · simp only [h]
  · simp only [lowest_none h]
    cases (s.bay b).tracker.waiting <;> rfl

theorem assignOne_takes {b : BayIx} {s : State} {tag : Tag} {r : Rec} {rest : List Rec} (hw : (s.bay b).tracker.waiting = r :: rest)
    (hf : (s.bay b).lowestFree tag) (hp : (s.bay b).power.state ≠ .settling ∨ r.origin = .settle) (ho : r.origin ≠ .host) :
    assignOne b s = s.modBay b (fun x => { x with tracker := { x.tracker with waiting := rest } }.issues tag (fixRec s b r)) := by
  have hfix : fixRec (s.modBay b (·.modTracker (fun t => { t with waiting := rest }))) b r = fixRec s b r := by
    simp only [fixRec, rack_modBay, bay_modBay_same]
    rfl
  simp only [assignOne, hw, lowest_free hf]
  rw [if_neg (fun h => hp.elim (fun hn => hn h.1) h.2), openRec_part b tag r _ ho, hfix, modBay_modBay]
  rfl

/-! ### Visits (R91 to R93) -/

theorem setVisit_above (a : Active) (v : Nat) (st : VisitState) (h : a.frontier ≤ v) :
    a.setVisit v st = { a with window := a.window.setIfInBounds (v - a.frontier) st } := if_neg (by omega)

theorem frontier_le_nextVisit (a : Active) (h : a.nextVisit < a.n) : a.frontier ≤ a.nextVisit := by
  unfold Active.nextVisit at h ⊢
  omega

theorem frontier_le_waitingRead (a : Active) (v : Nat) (h : a.waitingRead = some v) : a.frontier ≤ v := by
  obtain ⟨i, _, hi⟩ := Option.map_eq_some_iff.mp h
  omega

theorem spend_count (n : Nat) : (Credit.count (n + 1)).spend = .count n := rfl

theorem startVisit_starts (b : BayIx) (a : Active) (s : State) (ha : (s.bay b).sweep.active = some a)
    (h : (s.bay b).visitMayStart a = true) : startVisit b s =
      requestTag b (a.visitRec a.nextVisit (decide (a.cfg.op = .verify)))
        (setActive b { a.setVisit a.nextVisit a.cfg.op.firstState with credit := a.credit.spend } s) := by
  simp only [startVisit, ha]
  exact if_pos h

theorem issueRead_issues (b : BayIx) (a : Active) (v : Nat) (s : State) (ha : (s.bay b).sweep.active = some a)
    (hv : a.waitingRead = some v) (h : (s.bay b).sweepMayIssue a = true) :
    issueRead b s = requestTag b (a.visitRec v true) (setActive b (a.setVisit v .reading) s) := by
  simp only [issueRead, ha, hv]
  exact if_pos h

/-! ### Grants (R152) -/

theorem grantOne_empty (s : State) (h : s.rack.queue = []) : grantOne s = s := by simp only [grantOne, h]

theorem grantOne_unfit (s : State) (h : s.rack.budget < s.tally + s.rack.spin) : grantOne s = s := by
  unfold grantOne
  split
  · rfl
  · exact if_neg (by simp only [State.headFits, decide_eq_true_eq]; omega)

theorem grantSome_same (k : Nat) (s : State) (h : grantOne s = s) : grantSome k s = s := by
  induction k with
  | zero => rfl
  | succ k ih => rw [grantSome, h, ih]

theorem grantTest_same (s : State) (h : grantOne s = s) : grantTest s = s := grantSome_same 8 s h

theorem grantOne_fits (s : State) (b : BayIx) (rest : List BayIx) (hq : s.rack.queue = b :: rest)
    (h : s.tally + s.rack.spin ≤ s.rack.budget) : grantOne s = grantBay b s := by
  simp only [grantOne, hq]
  exact if_pos (decide_eq_true h)

theorem grantBay_eq (s : State) (b : BayIx) (rest : List BayIx) (hq : s.rack.queue = b :: rest) (hn : b ∉ rest) : grantBay b s =
    (s.modRack (fun r => { r with queue := rest })).modBay b (fun x => { x with power := { x.power with
      state := .spinningUp, spinTimer := some s.rack.spinTimeout, grantTime := s.rack.ms, learnWait := true } }) := by
  have hrest : s.rack.queue.filter (fun c => c ≠ b) = rest := by
    rw [hq, List.filter_cons_of_neg (by simp)]
    exact List.filter_eq_self.mpr fun c hc => decide_eq_true fun he => hn (he ▸ hc)
  simp only [grantBay, State.modRack, hrest]
  rfl

/-- The grant of a QUEUED bay raises the tally by its charge (R150, R152). -/
theorem tally_grantBay (s : State) (b : BayIx) (h : (s.bay b).power.state = .queued) : (grantBay b s).tally = s.tally + s.rack.spin := by
  have hothers (c : BayIx) (hc : c ≠ b) : (grantBay b s).charge c = s.charge c := by
    simp only [State.charge, grantBay, bay_modBay_other _ _ _ _ hc, bay_modRack, rack_modBay, rack_modRack]
    rfl
  have hbefore : s.charge b = 0 := by rw [State.charge, h, chargeOf]
  have hafter : (grantBay b s).charge b = s.rack.spin := by
    simp only [State.charge, grantBay, bay_modBay_same, rack_modBay, rack_modRack]
    rfl
  have hsum := tally_update b hothers
  omega

/-! ### The end of a settling (R156, R157) -/

/-- The bay after its supply has been cut at the end of a settling. -/
def Bay.settledDown (x : Bay) : Bay :=
  { x with
    power := { x.power with state := .off, spinTimer := none, learnWait := false }
    lane := { x.lane with downUp := false, retired := [], downWait := [] } }

theorem settled_of {x : Bay} (hp : x.power.state = .settling) (hr : x.everyRec (fun _ => False)) (hu : x.tracker.unsettled = .ranges []) :
    x.settled = true := by
  have hopen : x.tracker.someOpen = false := (anyRec_false _ _).mpr fun tag r h => (hr tag r h).elim
  simp [Bay.settled, hp, hu, hopen, Unsettled.isEmpty]

theorem exec_settledOff (b : BayIx) (s : State) (hp : (s.bay b).power.state = .settling) (hr : (s.bay b).everyRec (fun _ => False))
    (hu : (s.bay b).tracker.unsettled = .ranges []) (hw : (s.bay b).tracker.waiting = []) :
    exec (.settledOff b) s = .next (planToldOff b (grantTest (s.modBay b Bay.settledDown))) := by
  refine congrArg Host.Outcome.next ?_
  rw [if_pos (settled_of hp hr hu), settleOff, setPower, cutSupply_form, modBay_modBay]
  refine congrArg (fun u => planToldOff b (grantTest u)) (modBay_eq ?_)
  have hfilter : (s.bay b).tracker.waiting.filter (fun r => !decide (r.origin = .settle ∨ r.origin = .learn)) = (s.bay b).tracker.waiting := by
    rw [hw, List.filter_nil]
  simp only [Bay.modPower, Bay.settledDown, hfilter]

theorem plan_grantTest (b : BayIx) (s : State) : ((grantTest s).bay b).plan = (s.bay b).plan := by
  obtain ⟨_, _, _, hkeeps⟩ := grantTest_keeps s
  rw [hkeeps b]

theorem planToldOff_other (b : BayIx) (s : State) (h : (s.bay b).plan.state ≠ .running) : planToldOff b s = s :=
  if_neg fun hn => h ((running_iff _).mp hn.1)

theorem cursorSlot_eq {b : BayIx} {s : State} {k : SlotIx} (h : (s.bay b).plan.cursor = some k) : s.cursorSlot b = s.rack.slots[k] := by
  simp only [State.cursorSlot, h]

theorem planToldOff_cycle {b : BayIx} {s : State} {k : SlotIx} {off : Nat} (hr : (s.bay b).plan.state = .running)
    (hs : (s.bay b).plan.step = .settling) (hc : (s.bay b).plan.cursor = some k) (hb : s.rack.slots[k].body = .powerCycle off) :
    planToldOff b s = setStep b .offTime (some off) s := by
  unfold planToldOff
  rw [if_pos ⟨(running_iff _).mpr hr, hs⟩, cursorSlot_eq hc, hb]

theorem planToldOff_off {b : BayIx} {s : State} {k : SlotIx} (hr : (s.bay b).plan.state = .running)
    (hs : (s.bay b).plan.step = .settling) (hc : (s.bay b).plan.cursor = some k) (hb : s.rack.slots[k].body = .powerOff) :
    planToldOff b s = travel b arrivalFuel s.rack.slots[k].nxt s := by
  unfold planToldOff
  rw [if_pos ⟨(running_iff _).mpr hr, hs⟩, cursorSlot_eq hc, hb]
  change goTo b (s.cursorSlot b).nxt s = _
  rw [cursorSlot_eq hc]
  exact if_pos ((running_iff _).mpr hr)

/-- The close of a SETTLE flush, up to what the Power Arbiter makes of it. -/
theorem exec_settleClosed {b : BayIx} {tag : Tag} {r : Rec} {st : DriveStatus} {s : State} (hr : (s.bay b).tracker.recs[tag] = some r)
    (ho : r.origin = .settle) (hk : r.kind = .flush) : exec (.completion b tag st) s =
      .next (assignOne b ((settleClosed b st (closeEffects b r st (s.binned b r))).modBay b (·.freed tag))) := by
  rw [close_part b tag r st s hr (by simp [ho]), readAtOnce_of_not_write _ _ _ (by simp [hk]), tellOwner, ho]

theorem closeEffects_flush_good {b : BayIx} {r : Rec} {a : Option CapacityAnswer} {mark : BitVec 64} (s : State) (hk : r.kind = .flush)
    (hm : r.flushMark = some mark) : closeEffects b r (.good a) s =
      s.modBay b (·.modTracker (fun t => { t with unsettled := t.unsettled.cover mark })) := by
  simp only [closeEffects, hk, hm]

theorem closeEffects_flush_bad {b : BayIx} {r : Rec} {st : DriveStatus} (s : State) (hk : r.kind = .flush) (hst : ∀ a, st ≠ .good a) :
    closeEffects b r st s = s := by
  cases st with
  | good a => exact absurd rfl (hst a)
  | _ => simp only [closeEffects, hk]

theorem settleClosed_bad (b : BayIx) {st : DriveStatus} (s : State) (hst : ∀ a, st ≠ .good a) : settleClosed b st s = settleFail b s := by
  cases st with
  | good a => exact absurd rfl (hst a)
  | _ => rfl

theorem cover_eq (mark : BitVec 64) (u : Unsettled) : u.cover mark = match u with
    | .ranges l => .ranges (l.filter (fun v => decide (mark < v.seq)))
    | .whole q => if mark < q then .whole q else .ranges [] := by
  cases u with
  | ranges l => rfl
  | whole q =>
    by_cases h : mark < q
    · rw [Unsettled.cover, if_neg (BitVec.not_le.mpr h)]
      exact (if_pos h).symm
    · rw [Unsettled.cover, if_pos (BitVec.not_lt.mp h)]
      exact (if_neg h).symm

/-- The zones that an unsettled-write list touches become SUSPECT-LOSS (R69). -/
theorem get_suspectMark (m : ZoneMap) (u : Unsettled) (hm : m.sound) (z n : Nat) (hz : m.z = some z) :
    let lost : Prop := match u with
      | .ranges l => ∃ v ∈ l, v.lo / 2 ^ z ≤ n ∧ n ≤ v.hi / 2 ^ z
      | .whole _ => n < m.used
    (lost → (m.suspectMark u).get n = { m.get n with suspect := true }) ∧ (¬ lost → (m.suspectMark u).get n = m.get n) := by
  cases u with
  | ranges l =>
    have hmark : m.suspectMark (.ranges l) = l.foldl (ZoneMap.suspectRange z) m := by simp only [ZoneMap.suspectMark, hz]
    rw [hmark]
    exact get_suspectRanges z n l m hm
  | whole q =>
    have hmark : m.suspectMark (.whole q) = ZoneMap.modRange (fun r => { r with suspect := true }) 0 m.used m := by
      simp only [ZoneMap.suspectMark, hz]
    simp only [hmark, get_modRange _ n m.used 0 m hm, Nat.zero_le, true_and, Nat.zero_add]
    exact ⟨fun h => if_pos h, fun h => if_neg h⟩

end Sys2Proof.Machine

/-! ### The statements -/

namespace Sys2Proof.Proofs

open Sys2Proof.Machine

/-- Settles O50. A request that is made while a part tag is free and no other waits is issued at once. -/
theorem tagAndVisitSteps : Obligations.TagAndVisitSteps := by
  refine ⟨fun b s => ⟨fun h => congrArg Host.Outcome.next (assignOne_idle h), fun tag r rest hw hf hp ho => ?_⟩, fun b tag a s => ?_⟩
  · refine congrArg Host.Outcome.next ((assignOne_takes hw hf hp ho).trans (modBay_eq ?_))
    rfl
  · intro x ha hact hon hyield hw hf lba count reads writes sets
    have hissue : x.sweepMayIssue a = true := by simp [Bay.sweepMayIssue, hact, hon, hyield]
    have hset : x.power.state ≠ .settling := by rw [hon]; decide
    refine ⟨fun v c c' hv hn hwin hread hfly hc hcc => ?_, fun v hv => ?_⟩
    · subst hv
      intro starts
      have hcredit : a.credit.some? = true ∧ a.credit.spend = c' := by
        rw [hc]
        rcases hcc with ⟨rfl, rfl⟩ | ⟨n, rfl, rfl⟩
        · exact ⟨rfl, rfl⟩
        · exact ⟨decide_eq_true (Nat.succ_pos n), rfl⟩
      obtain ⟨hsome, hspend⟩ := hcredit
      have hmay : x.visitMayStart a = true := by simp [Bay.visitMayStart, hissue, hsome, hfly, hn, hwin, hread]
      have hstart (st : VisitState) (r : Rec) (hst : a.cfg.op.firstState = st)
          (hr : { a.visitRec a.nextVisit (decide (a.cfg.op = .verify)) with issue := s.rack.us, flushMark := none, ship := none } = r) :
          starts st r := by
        refine congrArg Host.Outcome.next ?_
        rw [startVisit_starts b a s ha hmay, setVisit_above a _ _ (frontier_le_nextVisit a hn), hspend, hst, setActive,
          requestTag_modSweep _ hset hw hf (Or.inl rfl), hr]
        · rfl
        · by_cases hop : a.cfg.op = .verify <;> simp [Active.visitRec, hop]
      refine ⟨fun hop => hstart _ _ (by rw [hop]; rfl) (by simp only [hop]; rfl), fun hop => ?_,
        fun hop => hstart _ _ (by rw [hop]; rfl) (by simp only [hop]; rfl)⟩
      rcases hop with hop | hop
      · exact hstart _ _ (by rw [hop]; rfl) (by simp only [hop]; rfl)
      · exact hstart _ _ (by rw [hop]; rfl) (by simp only [hop]; rfl)
    · refine congrArg Host.Outcome.next ?_
      rw [issueRead_issues b a v s ha hv hissue, setVisit_above a _ _ (frontier_le_waitingRead a v hv), setActive,
        requestTag_modSweep _ hset hw hf (Or.inl rfl) (by simp [Active.visitRec])]
      rfl

/-- Settles O49: the flush and the end of a settling, the grant, and what a failed settling cuts off. -/
theorem settlingAndGrantSteps : Obligations.SettlingAndGrantSteps := by
  refine ⟨?_, ?_, ?_, ?_, ?_, ?_, ?_⟩
  · intro b tag s x hp hr hu hw hf
    have hwrite : x.tracker.writeOpen = false := (anyRec_false _ _).mpr fun g r hg => decide_eq_false (hr g r hg).1
    have hsettle : x.tracker.anyRec (fun r => decide (r.origin = .settle)) = false :=
      (anyRec_false _ _).mpr fun g r hg => decide_eq_false (hr g r hg).2
    have hempty : x.tracker.unsettled.isEmpty = false := Bool.eq_false_iff.mpr (mt (noneUnsettled_iff _).mp hu)
    have hwants : x.wantsFlush = true := by
      simp [Bay.wantsFlush, hp, hwrite, hempty, Tracker.settleUnderWay, hsettle, hw]
    refine congrArg Host.Outcome.next ?_
    rw [if_pos hwants, request_free b settleRec s tag (fun _ => rfl) hw hf (by decide)]
    exact modBay_eq rfl
  · intro b s x hp hr hu hw u
    have hexec := exec_settledOff b s hp hr hu hw
    refine ⟨fun hn => ?_, fun k off hrun hstep hcur hbody hq => ?_⟩
    · rw [hexec, planToldOff_other]
      · rfl
      · rw [plan_grantTest, bay_modBay_same]
        exact hn
    · have hub : (s.modBay b Bay.settledDown).bay b = x.settledDown := bay_modBay_same _ _ _
      rw [hexec, grantTest_empty (s.modBay b Bay.settledDown) hq,
        planToldOff_cycle (s := s.modBay b Bay.settledDown) (k := k) (off := off) (by rw [hub]; exact hrun) (by rw [hub]; exact hstep)
        (by rw [hub]; exact hcur) hbody]
      rfl
  · intro s
    refine ⟨fun h => congrArg Host.Outcome.next (grantTest_same s (h.elim (grantOne_empty s) (grantOne_unfit s))), ?_⟩
    intro b rest hq hn hp hfit hstop
    have hsame : grantOne (grantBay b s) = grantBay b s := by
      rcases hstop with h | h
      · exact grantOne_empty _ (by rw [grantBay_eq s b rest hq hn]; exact h)
      · refine grantOne_unfit _ ?_
        rw [tally_grantBay s b hp]
        exact h
    refine congrArg Host.Outcome.next ?_
    change grantSome 7 (grantOne s) = _
    rw [grantOne_fits s b rest hq hfit, grantSome_same 7 _ hsame, grantBay_eq s b rest hq hn]
  · intro b tag r a mark s hr ho hk hm
    rw [exec_settleClosed hr ho hk, closeEffects_flush_good _ hk hm]
    refine congrArg (fun u => Host.Outcome.next (assignOne b u)) ?_
    rw [settleClosed, modBay_modBay]
    refine modBay_eq ?_
    rw [Bay.modTracker, cover_eq] <;> rfl
  · intro b tag r st s x hr ho hk hst hp hrun hw hq hz
    have hexec := exec_settleClosed (st := st) hr ho hk
    rw [closeEffects_flush_bad _ hk hst, settleClosed_bad b _ hst, settleFail] at hexec
    have hbinned : ((s.binned b r).modBay b (·.modPower (fun w => { w with settleFails := inc32 w.settleFails }))).bay b =
        { x with
          tracker := { x.tracker with histFlush := x.tracker.histFlush.note (s.rack.us - r.issue).toNat }
          power := { x.power with settleFails := inc32 x.power.settleFails } } := by
      rw [State.binned, bay_modBay_same, bay_modBay_same, hk]
      rfl
    generalize (s.binned b r).modBay b (·.modPower (fun w => { w with settleFails := inc32 w.settleFails })) = w at hexec hbinned
    rw [(forcedOff_cases b w).1 (Or.inl (by rw [hbinned]; exact hrun))] at hexec
    have hcut : (w.cutOff b).bay b = (w.bay b).cutOff := bay_modBay_same w b Bay.cutOff
    have hout : b ∉ (w.cutOff b).rack.queue := by simp [State.cutOff]
    have hbay := (grantTest_other _ b hout).1.trans (hcut.trans (congrArg Bay.cutOff hbinned))
    generalize grantTest (w.cutOff b) = v at hexec hbay
    have hnone : ((v.modBay b (·.freed tag)).bay b).tracker.waiting = [] := by
      rw [bay_modBay_same, hbay]
      exact (congrArg (List.filter _) hw).trans List.filter_nil
    rw [assignOne_idle (Or.inl hnone)] at hexec
    refine ⟨_, hexec, ?_⟩
    simp only [bay_modBay_same, hbay]
    have hfree (g : Tag) : ((Vector.replicate 32 (none : Option Rec)).set tag none)[g] = none := by
      rw [recs_set_self _ _ (Vector.getElem_replicate _)]
      exact Vector.getElem_replicate _
    refine ⟨rfl, rfl, rfl, rfl, rfl, rfl, rfl, rfl, rfl, hfree, fun h => ?_, fun z n h => get_suspectMark x.zm _ hz z n h⟩
    change x.zm.suspectMark x.tracker.unsettled = x.zm
    simp only [ZoneMap.suspectMark, h]
  · intro b k s x hp hr hu hw hrun hstep hcur hbody hq
    have hub : (s.modBay b Bay.settledDown).bay b = x.settledDown := bay_modBay_same _ _ _
    rw [exec_settledOff b s hp hr hu hw, grantTest_empty (s.modBay b Bay.settledDown) hq,
      planToldOff_off (s := s.modBay b Bay.settledDown) (k := k) (by rw [hub]; exact hrun) (by rw [hub]; exact hstep)
      (by rw [hub]; exact hcur) hbody]
    rfl
  · intro b tag r st s t x hr ho hk hst cut ends
    have hexec := exec_settleClosed (st := st) hr ho hk
    rw [closeEffects_flush_bad _ hk hst, settleClosed_bad b _ hst, settleFail] at hexec
    have hplan : (((s.binned b r).modBay b (·.modPower (fun w => { w with settleFails := inc32 w.settleFails }))).bay b).plan = x.plan := by
      rw [State.binned, bay_modBay_same, bay_modBay_same]
      rfl
    obtain ⟨hother, hsettling⟩ := forcedOff_cases b
      ((s.binned b r).modBay b (·.modPower (fun w => { w with settleFails := inc32 w.settleFails })))
    rw [hplan] at hother hsettling
    have hends (u : State) (h : forcedOff b none
        ((s.binned b r).modBay b (·.modPower (fun w => { w with settleFails := inc32 w.settleFails }))) = grantTest u) : ends u := by
      intro hruns
      rw [runs_one (fun _ => rfl) hruns, hexec, h]
      rfl
    refine ⟨fun h => hends _ (hother h), fun k hrun hstep hcur => ?_⟩
    obtain ⟨hcycle, hoff⟩ := hsettling k hrun hstep hcur
    exact ⟨fun off hbody => hends _ (hcycle off hbody), fun hbody => hends _ (hoff hbody)⟩

end Sys2Proof.Proofs
end

section
/-! SUPPORT. The cursor's moves and the end of a sweep phase (R103, R124), a DRAINING sweep (R100), the sweep's own timers (R96,
R100, R107); and the statement O56, settled from them. -/

namespace Sys2Proof.Machine

/-! ### The cursor moves on (R124) -/

theorem goTo_running {b : BayIx} (nxt : Option SlotIx) {s : State} (hr : (s.bay b).plan.state = .running) :
    goTo b nxt s = travel b arrivalFuel nxt s := if_pos ((running_iff _).mpr hr)

theorem advancePlan_eq {b : BayIx} {s : State} {k : SlotIx} (hr : (s.bay b).plan.state = .running)
    (hc : (s.bay b).plan.cursor = some k) : advancePlan b s = travel b arrivalFuel s.rack.slots[k].nxt s := by
  rw [advancePlan, cursorSlot_eq hc, goTo_running _ hr]

/-! ### The end of a sweep phase (R101, R103) -/

theorem endPhase_eq (reason : EndReason) (passIx frontier : Nat) (x : Bay) {a : Active} (ha : x.sweep.active = some a) :
    x.modSweep (Sweep.endPhase reason passIx frontier) =
      x.sweepEnds a reason (resumeWritten a reason passIx frontier x.sweep.resume) := by
  simp only [Bay.modSweep, Sweep.endPhase, ha, Bay.sweepEnds]

theorem endSweep_eq {b : BayIx} (reason : EndReason) (passIx frontier : Nat) {s : State} {a : Active} {k : SlotIx}
    (ha : (s.bay b).sweep.active = some a) (hr : (s.bay b).plan.state = .running) (hc : (s.bay b).plan.cursor = some k) :
    endSweep b reason passIx frontier s = travel b arrivalFuel s.rack.slots[k].nxt
      (s.modBay b (·.sweepEnds a reason (resumeWritten a reason passIx frontier (s.bay b).sweep.resume))) := by
  have hend : s.modBay b (·.modSweep (Sweep.endPhase reason passIx frontier)) =
      s.modBay b (·.sweepEnds a reason (resumeWritten a reason passIx frontier (s.bay b).sweep.resume)) :=
    modBay_eq (endPhase_eq reason passIx frontier (s.bay b) ha)
  rw [endSweep, hend, advancePlan_eq (k := k), rack_modBay]
  · rwa [bay_modBay_same]
  · rwa [bay_modBay_same]

theorem resumeWritten_timeLimit (a : Active) (passIx frontier : Nat) (old : Option Resume) :
    resumeWritten a .timeLimit passIx frontier old =
      if a.cfg.order = .ascendContinue then some { slot := a.slot, passIx := passIx, frontier := frontier } else old := by
  simp only [resumeWritten, true_and]

theorem resumeWritten_other (a : Active) {reason : EndReason} (passIx frontier : Nat) (old : Option Resume)
    (h : reason ≠ .timeLimit) : resumeWritten a reason passIx frontier old = old := if_neg fun e => h e.1

/-! ### A DRAINING sweep (R100) -/

theorem sweepOpen_none_iff (t : Tracker) (gen : Nat) : t.sweepOpen gen none = true ↔
    ∃ (g : Tag) (q : Rec), t.recs[g] = some q ∧ q.origin = .sweep ∧ q.gen = gen := by
  have hany : t.sweepOpen gen none = t.anyRec (fun q => decide (q.origin = .sweep ∧ q.gen = gen)) := by
    simp only [Tracker.sweepOpen, Tracker.anyRec, ne_eq, reduceCtorEq, not_false_eq_true, and_true] <;> rfl
  rw [hany, anyRec_iff]
  simp only [decide_eq_true_eq]

theorem drainCheck_open {b : BayIx} {but : Option Tag} {s : State} {a : Active} (ha : (s.bay b).sweep.active = some a)
    (h : (s.bay b).tracker.sweepOpen a.gen but = true) : drainCheck b but s = s := by
  simp only [drainCheck, ha]
  exact if_neg fun e => Bool.eq_false_iff.mp e.2 h

theorem drainCheck_closed {b : BayIx} {but : Option Tag} {s : State} {a : Active} (ha : (s.bay b).sweep.active = some a)
    (hst : (s.bay b).sweep.status = .draining) (h : (s.bay b).tracker.sweepOpen a.gen but = false) :
    drainCheck b but s = endSweep b .timeLimit a.passIx a.frontier s := by
  simp only [drainCheck, ha]
  exact if_pos ⟨hst, h⟩

/-- With no request of the sweep waiting, withdrawing them changes nothing. -/
theorem withdrawSweep_none {b : BayIx} {s : State} (h : ∀ r ∈ (s.bay b).tracker.waiting, r.origin ≠ .sweep) : withdrawSweep b s = s := by
  have hmine : (s.bay b).tracker.waiting.filter (fun r => decide (r.origin = .sweep)) = [] :=
    List.filter_eq_nil_iff.mpr fun r hr => by simpa using h r hr
  have hrest : (s.bay b).tracker.waiting.filter (fun r => !decide (r.origin = .sweep)) = (s.bay b).tracker.waiting :=
    List.filter_eq_self.mpr fun r hr => by simpa using h r hr
  rw [withdrawSweep, hmine, withdraw, modBay_modBay]
  refine modBay_id _ _ _ ?_
  simp only [Bay.modSweep, Bay.modTracker, List.foldl_nil, hrest]

theorem expireLimit_eq (b : BayIx) (s : State) (h : ∀ r ∈ (s.bay b).tracker.waiting, r.origin ≠ .sweep) :
    expireLimit b s = drainCheck b none (s.modBay b (fun x => { x with sweep := { x.sweep with
      status := .draining, intervalTimer := none, active := x.sweep.active.map (fun a => { a with credit := .count 0 }) } })) := by
  rw [expireLimit, withdrawSweep_none h] <;> rfl

/-! ### Timers that run out (log entry 3) -/

/-- A timer with k ms left is at 0 after its expiry has been awaited. -/
theorem bay_advanceMs_ge (k : Nat) (s : State) (b : BayIx) : ∃ j, k ≤ j ∧ (advanceMs k s).bay b = (s.bay b).elapse j := by
  unfold advanceMs
  split
  · next h => exact ⟨0, by omega, (elapse_zero _).symm⟩
  · refine ⟨_, ?_, bay_advance _ s b⟩
    rw [usUntil]
    omega

theorem slots_advanceMs (k : Nat) (s : State) : (advanceMs k s).rack.slots = s.rack.slots := by
  unfold advanceMs
  split <;> rfl

theorem remaining_some {p : Plan} {st : PhaseStep} {k : Nat} (hr : p.state = .running) (hs : p.step = st) (ht : p.timer = some k) :
    p.remaining st = some k := (if_pos ⟨hr, hs⟩).trans ht

theorem elapse_plan (j : Nat) (p : Plan) : (p.elapse j).state = p.state ∧ (p.elapse j).cursor = p.cursor := by
  unfold Plan.elapse
  split <;> exact ⟨rfl, rfl⟩

theorem elapse_active (j : Nat) {w : Sweep} {a : Active} {k : Nat} (hj : k ≤ j) (ha : w.active = some a) (ht : a.timeLeft = some k)
    (hst : w.status = .active ∨ w.status = .suspended) : (w.elapse j).active = some { a with timeLeft := some 0 } := by
  have hrun : w.status = .active ∨ w.status = .suspended ∨ w.status = .draining := hst.imp_right Or.inl
  have htick : tickDown j a.timeLeft = some 0 := by
    rw [ht, tickDown, Option.map_some, Nat.sub_eq_zero_of_le hj]
  rw [Sweep.elapse, if_pos hrun, ha, Option.map_some, htick]

/-! ### The INTERVAL timer (R96, R107) -/

theorem intervalExpires_active {w : Sweep} {a : Active} (ha : w.active = some a) (hst : w.status = .active) : w.intervalExpires =
    { w with active := some a.intervalTrigger, intervalTimer := if a.cfg.pacing = .successive then none else some a.cfg.interval } := by
  simp only [Sweep.intervalExpires, ha, if_pos hst]

theorem intervalExpires_suspended {w : Sweep} {a : Active} (ha : w.active = some a) (hst : w.status = .suspended) :
    w.intervalExpires = { w with active := some a, intervalTimer := some a.cfg.interval } := by
  have hn : w.status ≠ .active := fun e => by cases hst.symm.trans e
  simp only [Sweep.intervalExpires, ha, if_neg hn, if_pos hst]

theorem intervalTrigger_taken (a : Active) (h : a.drops = false) : a.intervalTrigger = { a with credit := a.cfg.triggerCredit } :=
  if_neg (Bool.eq_false_iff.mp h)

theorem intervalTrigger_dropped (a : Active) (h : a.drops = true) :
    a.intervalTrigger = { a with missed := satInc 65535 a.missed } := if_pos h

theorem drops_successive {a : Active} (h : a.cfg.pacing = .successive) : a.drops = false := by
  simp [Active.drops, h]

theorem drops_spent {a : Active} (h : a.credit = .count 0) : a.drops = false := by
  simp [Active.drops, h, Credit.some?]

theorem drops_credit {a : Active} {n : Nat} (hp : a.cfg.pacing ≠ .successive) (h : a.credit = .count (n + 1)) : a.drops = true := by
  simp [Active.drops, hp, h, Credit.some?]

/-! ### The time limit (R100, R107) -/

theorem limitRemaining_active {w : Sweep} {a : Active} {k : Nat} (ha : w.active = some a) (ht : a.timeLeft = some k)
    (hst : w.status = .active) : w.limitRemaining = some k :=
  (if_pos (Or.inl hst)).trans (by rw [ha, Option.bind_some, ht])

theorem limitRemaining_suspended {w : Sweep} {a : Active} {v : Saved} {k : Nat} (ha : w.active = some a) (ht : a.timeLeft = some k)
    (hst : w.status = .suspended) (hs : w.saved = some v) (hv : v.timeExpired = false) : w.limitRemaining = some k := by
  simp only [Sweep.limitRemaining, hs]
  rw [if_pos (Or.inr ⟨hst, hv⟩), ha, Option.bind_some, ht]

end Sys2Proof.Machine

/-! ### The statement -/

namespace Sys2Proof.Proofs

open Sys2Proof.Machine

/-- Settles O56: each expiry finds its timer at 0 in the bay after the time left has passed. -/
theorem phaseAndSweepExpiries : Obligations.PhaseAndSweepExpiries := by
  intro b k s x u running
  obtain ⟨j, hj, hbay⟩ := bay_advanceMs_ge k s b
  have hsweep : (u.bay b).sweep = x.sweep.elapse j := congrArg Bay.sweep hbay
  have hplan : (u.bay b).plan.state = x.plan.state ∧ (u.bay b).plan.cursor = x.plan.cursor := by
    rw [hbay]
    exact elapse_plan j x.plan
  have hstatus : (u.bay b).sweep.status = x.sweep.status := status_advanceMs k s b
  have hslots : u.rack.slots = s.rack.slots := slots_advanceMs k s
  refine ⟨?_, ?_, ?_, ?_, ?_⟩
  · rintro c ⟨hr, hs, ht⟩ hc hq
    refine congrArg Host.Outcome.next ((expire_some (remaining_some hr hs ht) _ s).trans ?_)
    have hno : ¬ (u.bay b).sweep.rescan.isSome = true := by
      rw [hsweep]
      exact fun h => by rw [show (x.sweep.elapse j).rescan = none from hq] at h; cases h
    rw [dwellExpires, if_neg hno, advancePlan_eq (hplan.1.trans hr) (hplan.2.trans hc), hslots]
  · rintro ⟨hr, hs, ht⟩ hq
    refine congrArg Host.Outcome.next ((expire_some (remaining_some hr hs ht) _ s).trans ?_)
    have hyes : (u.bay b).sweep.rescan.isSome = true := by
      rw [hsweep]
      exact Option.isSome_iff_ne_none.mpr hq
    rw [dwellExpires, if_pos hyes, setStep, modBay_modBay] <;> rfl
  · rintro ⟨hr, hs, ht⟩ hoff
    refine congrArg Host.Outcome.next ((expire_some (remaining_some hr hs ht) _ s).trans ?_)
    have hoff' : ((setStep b .poweringUp none u).bay b).power.state = .off := by
      rw [setStep, bay_modBay_same, hbay]
      exact hoff
    rw [offTimeExpires, askOn, if_pos hoff', askPower, setPower, setStep, modBay_modBay] <;> rfl
  · intro a htimer ha ends
    have hends (a' : Active) (t : Option Nat)
        (h : (u.bay b).sweep.intervalExpires = { (u.bay b).sweep with active := some a', intervalTimer := t }) : ends a' t := by
      refine congrArg Host.Outcome.next ((expire_some htimer _ s).trans (modBay_eq ?_))
      exact congrArg (fun w : Sweep => (u.bay b).modSweep (fun _ => w)) h
    refine ⟨fun hst hp => hends _ _ ?_, fun hst hp hc => hends _ _ ?_, fun hst hp hc => hends _ _ ?_, fun n hst hp hc => hends _ _ ?_,
      fun hst => hends _ _ (intervalExpires_suspended ha (hstatus.trans hst))⟩
    · rw [intervalExpires_active ha (hstatus.trans hst), intervalTrigger_taken a (drops_successive hp), SweepCfg.triggerCredit, hp,
        if_pos rfl]
    · rw [intervalExpires_active ha (hstatus.trans hst), intervalTrigger_taken a (drops_spent hc), SweepCfg.triggerCredit, hp,
        if_neg nofun]
    · rw [intervalExpires_active ha (hstatus.trans hst), intervalTrigger_taken a (drops_spent hc), SweepCfg.triggerCredit, hp,
        if_neg nofun]
    · rw [intervalExpires_active ha (hstatus.trans hst), intervalTrigger_dropped a (drops_credit hp hc), if_neg hp, satInc]
  · intro a ha hleft drained
    refine ⟨fun v hst hv hnot => ?_, fun hst hw => ?_⟩
    · refine congrArg Host.Outcome.next ((expire_some (limitRemaining_suspended ha hleft hst hv hnot) _ s).trans ?_)
      have hactive : (u.bay b).sweep.active = some { a with timeLeft := some 0 } := hsweep ▸ elapse_active j hj ha hleft (Or.inr hst)
      have hsaved : (u.bay b).sweep.saved = some v := hsweep ▸ hv
      have hn : (u.bay b).sweep.status ≠ .active := fun e => by cases (hstatus.trans hst).symm.trans e
      rw [limitExpires, if_neg hn]
      refine modBay_eq ?_
      rw [Bay.modSweep, Sweep.limitSuspended, hactive, hsaved] <;> rfl
    · intro w
      have hactive : (u.bay b).sweep.active = some { a with timeLeft := some 0 } := hsweep ▸ elapse_active j hj ha hleft (Or.inl hst)
      have htracker : (u.bay b).tracker.waiting = [] ∧ (u.bay b).tracker.recs = x.tracker.recs := by
        rw [hbay]
        exact ⟨hw, rfl⟩
      have hwait : ∀ r ∈ (u.bay b).tracker.waiting, r.origin ≠ .sweep := by
        rw [htracker.1]
        exact nofun
      have hexec : exec (.timeLimitExpiry b) s = .next (drainCheck b none w) := by
        refine congrArg Host.Outcome.next ((expire_some (limitRemaining_active ha hleft hst) _ s).trans ?_)
        rw [limitExpires, if_pos (hstatus.trans hst), expireLimit_eq b u hwait]
        refine congrArg (drainCheck b none) (modBay_eq ?_)
        rw [hactive] <;> rfl
      have hwb : w.bay b = { u.bay b with sweep := { (u.bay b).sweep with
          status := .draining, intervalTimer := none, active := some drained } } := bay_modBay_same _ _ _
      have hwa : (w.bay b).sweep.active = some drained := by rw [hwb]
      have hopen (hp : Bool) (h : x.tracker.sweepOpen a.gen none = hp) : (w.bay b).tracker.sweepOpen drained.gen none = hp := by
        rw [hwb, hbay]
        exact h
      refine ⟨fun ⟨tag, r, hrec, ho, hg⟩ => ?_, fun c hall hr hc => ?_⟩
      · rw [hexec, drainCheck_open hwa (hopen true ((sweepOpen_none_iff _ _).mpr ⟨tag, r, hrec, ho, hg⟩))]
      · have hnone : x.tracker.sweepOpen a.gen none = false := Bool.eq_false_iff.mpr fun h => by
          obtain ⟨tag, r, hrec, ho, _⟩ := (sweepOpen_none_iff _ _).mp h
          exact hall tag r hrec ho
        have hwp : (w.bay b).plan = (u.bay b).plan := by rw [hwb]
        rw [hexec, drainCheck_closed hwa (by rw [hwb]) (hopen false hnone), endSweep_eq (k := c) _ _ _ hwa (hwp ▸ hplan.1.trans hr)
          (hwp ▸ hplan.2.trans hc), resumeWritten_timeLimit, rack_modBay, hslots]
        refine congrArg (fun v => Host.Outcome.next (travel b arrivalFuel s.rack.slots[c].nxt v)) (modBay_eq ?_)
        rw [Bay.sweepEnds, hwb]

end Sys2Proof.Proofs
end

section
/-! SUPPORT. What the arrival of the cursor at a slot comes to, by the slot's kind (R124 to R129, R143), and the start of a sweep phase
(R86, R89, R96, R102); and the statement O58, settled from them. -/

namespace Sys2Proof.Machine

/-! ### The cursor on its slot (R124) -/

/-- The bay whose plan cursor has come to stand on a slot, in a phase step and with a phase timer. -/
def Bay.standsOn (k : SlotIx) (ms : Word) (st : PhaseStep) (timer : Option Nat) (x : Bay) : Bay :=
  { x with plan := { x.plan with cursor := some k, step := st, phaseStart := some ms, timer := timer } }

theorem setCursor_eq (b : BayIx) (k : SlotIx) (s : State) : setCursor b k s = s.modBay b (Bay.standsOn k s.rack.ms .none none) := rfl

theorem setStep_setCursor (b : BayIx) (k : SlotIx) (st : PhaseStep) (timer : Option Nat) (s : State) :
    setStep b st timer (setCursor b k s) = s.modBay b (Bay.standsOn k s.rack.ms st timer) :=
  modBay_modBay s b (Bay.standsOn k s.rack.ms .none none) (·.modPlan (fun p => { p with step := st, timer := timer }))

/-- With a new loop register, as the statements write the bay that a slot has been reached on. -/
theorem standsOn_loopReg (b : BayIx) (k : SlotIx) (st : PhaseStep) (timer : Option Nat) (s : State) (reg : Option (SlotIx × Nat)) :
    (s.modBay b (Bay.standsOn k s.rack.ms st timer)).modBay b (·.modPlan (fun p => { p with loopReg := reg })) =
      s.modBay b (fun x => { x with plan := { x.plan with
        cursor := some k, step := st, phaseStart := some s.rack.ms, timer := timer, loopReg := reg } }) :=
  modBay_modBay s b _ _

theorem bay_setCursor (b : BayIx) (k : SlotIx) (s : State) :
    (setCursor b k s).bay b = (s.bay b).standsOn k s.rack.ms .none none := bay_modBay_same s b _

theorem askOff_on {b : BayIx} {s : State} (h : (s.bay b).power.state = .on) : askOff b s = setPower b .settling s := by
  simp only [askOff, h]

/-! ### The phases that take the power state (R126, R128) -/

section
variable {b : BayIx} {k : SlotIx} {s : State}

theorem askOff_standing (h : (s.bay b).power.state = .on) : askOff b (setStep b .settling none (setCursor b k s)) =
    (s.modBay b (Bay.standsOn k s.rack.ms .settling none)).modBay b (fun x => { x with power := { x.power with state := .settling } }) := by
  rw [setStep_setCursor, askOff_on (by rwa [bay_modBay_same])]
  rfl

theorem arriveCycle_on (off : Nat) (h : (s.bay b).power.state = .on) : arriveCycle b off (setCursor b k s) = .stay
    ((s.modBay b (Bay.standsOn k s.rack.ms .settling none)).modBay b (fun x => { x with power := { x.power with state := .settling } })) := by
  rw [arriveCycle, if_pos (by rwa [bay_setCursor]), askOff_standing h]

theorem arriveCycle_off (off : Nat) (h : (s.bay b).power.state ≠ .on) : arriveCycle b off (setCursor b k s) =
    .stay (s.modBay b (Bay.standsOn k s.rack.ms .offTime (some off))) := by
  rw [arriveCycle, if_neg (by rwa [bay_setCursor]), setStep_setCursor]

theorem arriveOff_on (nxt : Option SlotIx) (h : (s.bay b).power.state = .on) : arriveOff b nxt (setCursor b k s) = .stay
    ((s.modBay b (Bay.standsOn k s.rack.ms .settling none)).modBay b (fun x => { x with power := { x.power with state := .settling } })) := by
  rw [arriveOff, if_pos (by rwa [bay_setCursor]), askOff_standing h]

theorem arriveOff_off (nxt : Option SlotIx) (h : (s.bay b).power.state ≠ .on) : arriveOff b nxt (setCursor b k s) =
    .move nxt (setCursor b k s) := if_neg (by rwa [bay_setCursor])

end

/-! ### LOOP slots (R129) -/

section
variable {b : BayIx} {k : SlotIx} {s : State} (target : SlotIx) (count : Nat) (nxt : Option SlotIx)

theorem arriveLoop_again {rest : Nat} (h : (s.bay b).plan.loopReg.getD (k, count) = (k, rest)) (hr : 0 < rest) :
    arriveLoop b k target count nxt s =
      .move (some target) (s.modBay b (·.modPlan (fun p => { p with loopReg := some (k, rest - 1) }))) := by
  simp only [arriveLoop, h, ne_eq, not_true, if_false, if_pos hr]

theorem arriveLoop_done (h : (s.bay b).plan.loopReg.getD (k, count) = (k, 0)) :
    arriveLoop b k target count nxt s = .move nxt (s.modBay b (·.modPlan (fun p => { p with loopReg := none }))) := by
  simp only [arriveLoop, h, ne_eq, not_true, if_false, Nat.lt_irrefl]

theorem arriveLoop_other {j : SlotIx} {rest : Nat} (h : (s.bay b).plan.loopReg.getD (k, count) = (j, rest)) (hj : j ≠ k) :
    arriveLoop b k target count nxt s = .finish .planError s := by
  simp only [arriveLoop, h, ne_eq, hj, not_false_eq_true, if_true]

end

/-! ### STAMP slots (R143) -/

theorem shippable_grade {b : BayIx} {s : State} {g : Grade} (h : (s.bay b).grade = some g) :
    s.shippable b = s.rack.bins[g.bin].shippable := by
  simp only [State.shippable, h]

theorem shippable_none {b : BayIx} {s : State} (h : (s.bay b).grade = none) : s.shippable b = false := by
  simp only [State.shippable, h]

theorem grade_setCursor (b : BayIx) (k : SlotIx) (s : State) : ((setCursor b k s).bay b).grade = (s.bay b).grade := by
  rw [bay_setCursor]
  rfl

theorem arriveStamp_refused {b : BayIx} (lba : Nat) {s : State} (h : s.shippable b = false) :
    arriveStamp b lba s = .finish .stampRefused s := if_pos h

theorem arriveStamp_notOn {b : BayIx} (lba : Nat) {s : State} (h : s.shippable b = true) (hp : (s.bay b).power.state ≠ .on) :
    arriveStamp b lba s = .finish .planError s := by
  rw [arriveStamp, if_neg (by rw [h]; nofun), if_pos hp]

/-- The bay at a STAMP slot on a drive of C sectors: the step is WRITING and the LBA is fitted (R143). -/
def Bay.stampBegun (k : SlotIx) (ms : Word) (lba c : Nat) (x : Bay) : Bay :=
  { x.standsOn k ms .writing none with
    ship := { name := .writing, lba := some (min lba (c - 1)), clipped := decide (c - 1 < lba), reissue := false } }

theorem arriveStamp_begins {b : BayIx} {k : SlotIx} {lba c : Nat} {s : State} {g : Grade} (hg : (s.bay b).grade = some g)
    (hb : s.rack.bins[g.bin].shippable = true) (hp : (s.bay b).power.state = .on) (hc : (s.bay b).power.cap = some c) :
    arriveStamp b lba (setCursor b k s) =
      .stay (requestTag b { Rec.blank with origin := .ship, kind := .write, lba := min lba (c - 1), count := 1, gen := (s.bay b).plan.gen }
        (s.modBay b (Bay.stampBegun k s.rack.ms lba c))) := by
  have hship : (setCursor b k s).shippable b = true := (shippable_grade ((grade_setCursor b k s).trans hg)).trans hb
  have hbegun : setStep b .writing none ((setCursor b k s).modBay b (·.beginShip lba)) = s.modBay b (Bay.stampBegun k s.rack.ms lba c) := by
    rw [setStep, setCursor_eq, modBay_modBay, modBay_modBay]
    refine modBay_eq ?_
    have hcap : ((s.bay b).standsOn k s.rack.ms .none none).power.cap.getD 1 = c := congrArg (Option.getD · 1) hc
    simp only [Bay.beginShip, hcap]
    rfl
  rw [arriveStamp, if_neg (by rw [hship]; nofun), if_neg (by rw [bay_setCursor]; exact not_not_intro hp), hbegun]
  simp only [bay_modBay_same]
  rfl

/-! ### SWEEP slots (R86, R89, R96, R102) -/

theorem triggerCredit_eq (f : SweepCfg) : f.triggerCredit =
    if f.pacing = .successive then .unbounded else if f.pacing = .single then .count 1 else .count f.block := by
  rw [SweepCfg.triggerCredit]
  cases f.pacing <;> rfl

theorem stamps_iff (o : SweepOp) : o.stamps = true ↔ o = .write ∨ o = .writeVerify := by cases o <;> simp [SweepOp.stamps]

/-- A phase starts at the resume cursor's place where that names its slot in ASCEND-CONTINUE, and then the cursor is taken (R102). -/
theorem newActive_resumes {k : SlotIx} {f : SweepCfg} {c gen pass first : Nat} {resume kept : Option Resume}
    (h : (∃ u, resume = some u ∧ f.order = .ascendContinue ∧ u.slot = k ∧ pass = u.passIx ∧ first = u.frontier ∧ kept = none)
      ∨ ((∀ u, resume = some u → f.order ≠ .ascendContinue ∨ u.slot ≠ k) ∧ pass = 0 ∧ first = 0 ∧ kept = resume)) :
    newActive k f c resume gen = { newActive k f c none gen with passIx := pass, firstVisit := first, frontier := first }
      ∧ resumeAfter k f resume = kept := by
  rcases h with ⟨u, rfl, ho, hk, rfl, rfl, rfl⟩ | ⟨hn, rfl, rfl, rfl⟩
  · simp only [newActive, resumeAfter, ho, hk, and_self, if_true, Option.map_some, Option.getD_some]
  · cases kept with
    | none => exact ⟨rfl, rfl⟩
    | some u =>
      have hnot : ¬ (f.order = .ascendContinue ∧ u.slot = k) := fun ⟨ho, hk⟩ => (hn u rfl).elim (· ho) (· hk)
      simp only [newActive, resumeAfter, if_neg hnot, Option.map_none, Option.getD_none, and_self]

theorem startPhase_empty {k : SlotIx} {f : SweepCfg} {c : Nat} {w : Sweep} (h : c ≤ f.start) : Sweep.startPhase k f c w =
    { w with resume := resumeAfter k f w.resume, gen := w.gen + 1, status := .ended
             active := some (newActive k f c w.resume (w.gen + 1)), intervalTimer := none } :=
  if_pos (decide_eq_true h)

theorem startPhase_runs {k : SlotIx} {f : SweepCfg} {c : Nat} {w : Sweep} (h : f.start < c) : Sweep.startPhase k f c w =
    Sweep.startPass (newActive k f c w.resume (w.gen + 1)) { w with
      resume := resumeAfter k f w.resume, gen := w.gen + 1, status := .active
      intervalTimer := if f.trigger = .interval then some f.interval else none } :=
  if_neg fun e => absurd (of_decide_eq_true e) (Nat.not_le.mpr h)

theorem newActive_empty {k : SlotIx} {f : SweepCfg} {c gen : Nat} (h : c ≤ f.start) : newActive k f c none gen =
    { slot := k, cfg := f, lo := 0, hi := 0, clipped := false, empty := true, n := 0, passIx := 0, p := none, firstVisit := 0
      frontier := 0, window := Vector.replicate 8 .notStarted
      credit := if f.trigger = .immediate then f.triggerCredit else .count 0, yielding := false, missed := 0
      timeLeft := if f.limit = 0 then none else some f.limit, endReason := some .empty, gen := gen } := by
  simp only [newActive, decide_eq_true h, if_true, Bool.not_true, Bool.false_and]
  rfl

theorem newActive_runs {k : SlotIx} {f : SweepCfg} {c gen : Nat} (h : f.start < c) : newActive k f c none gen =
    { slot := k, cfg := f, lo := f.start, hi := min (f.requestedEnd c) c, clipped := decide (c < f.requestedEnd c), empty := false
      n := (min (f.requestedEnd c) c - f.start + f.chunk - 1) / f.chunk, passIx := 0, p := none, firstVisit := 0
      frontier := 0, window := Vector.replicate 8 .notStarted
      credit := if f.trigger = .immediate then f.triggerCredit else .count 0, yielding := false, missed := 0
      timeLeft := if f.limit = 0 then none else some f.limit, endReason := none, gen := gen } := by
  simp only [newActive, decide_eq_false (Nat.not_le.mpr h), Bool.not_false, Bool.true_and]
  rfl

theorem startPass_eq (a : Active) (w : Sweep) : Sweep.startPass a w =
    let pc := if a.cfg.op = .write ∨ a.cfg.op = .writeVerify then min 65535 (w.passCounter + 1) else w.passCounter
    { w with
      passCounter := pc
      active := some { a with
        p := if a.cfg.op = .write ∨ a.cfg.op = .writeVerify then some pc else none
        frontier := a.firstVisit, window := Vector.replicate 8 .notStarted } } := by
  simp only [Sweep.startPass, if_congr (stamps_iff a.cfg.op) rfl rfl]
  rfl

theorem arriveSweep_notOn {b : BayIx} (k : SlotIx) (f : SweepCfg) (nxt : Option SlotIx) {s : State} (h : (s.bay b).power.state ≠ .on) :
    arriveSweep b k f nxt s = .finish .planError s := if_pos h

/-- The bay whose plan cursor stands on a SWEEP slot on a drive of C sectors. -/
def Bay.sweepBegun (k : SlotIx) (ms : Word) (f : SweepCfg) (c : Nat) (x : Bay) : Bay :=
  (x.standsOn k ms .running none).modSweep (Sweep.startPhase k f c)

theorem arriveSweep_on {b : BayIx} {k : SlotIx} (f : SweepCfg) (nxt : Option SlotIx) {c : Nat} {s : State}
    (hp : (s.bay b).power.state = .on) (hc : (s.bay b).power.cap = some c) : arriveSweep b k f nxt (setCursor b k s) =
      if (Sweep.startPhase k f c (s.bay b).sweep).status = .ended then .move nxt (s.modBay b (Bay.sweepBegun k s.rack.ms f c))
      else .stay (s.modBay b (Bay.sweepBegun k s.rack.ms f c)) := by
  have hbegun : setStep b .running none ((setCursor b k s).modBay b (fun x => x.modSweep (Sweep.startPhase k f (x.power.cap.getD 0)))) =
      s.modBay b (Bay.sweepBegun k s.rack.ms f c) := by
    rw [setStep, setCursor_eq, modBay_modBay, modBay_modBay]
    refine modBay_eq ?_
    have hcap : ((s.bay b).standsOn k s.rack.ms .none none).power.cap.getD 0 = c := congrArg (Option.getD · 0) hc
    simp only [hcap]
    rfl
  rw [arriveSweep, if_neg (by rw [bay_setCursor]; exact not_not_intro hp), hbegun]
  simp only [bay_modBay_same]
  rfl

/-! ### Arrivals by the slot's kind (R124) -/

section
variable {b : BayIx} {k : SlotIx} {s : State}

theorem arriveAt_sweep {f : SweepCfg} (h : s.rack.slots[k].body = .sweep f) :
    arriveAt b k s = arriveSweep b k f s.rack.slots[k].nxt (setCursor b k s) := by
  simp only [arriveAt, setCursor_eq, rack_modBay, h]

theorem arriveAt_dwell {d : Nat} (h : s.rack.slots[k].body = .dwell d) : arriveAt b k s =
    if d = 0 then .move s.rack.slots[k].nxt (s.modBay b (Bay.standsOn k s.rack.ms .timing (some 0)))
    else .stay (s.modBay b (Bay.standsOn k s.rack.ms .timing (some d))) := by
  rw [← setStep_setCursor, ← setStep_setCursor]
  simp only [arriveAt, setCursor_eq, rack_modBay, h]

theorem arriveAt_cycle {off : Nat} (h : s.rack.slots[k].body = .powerCycle off) :
    arriveAt b k s = arriveCycle b off (setCursor b k s) := by
  simp only [arriveAt, setCursor_eq, rack_modBay, h]

theorem arriveAt_off (h : s.rack.slots[k].body = .powerOff) :
    arriveAt b k s = arriveOff b s.rack.slots[k].nxt (setCursor b k s) := by
  simp only [arriveAt, setCursor_eq, rack_modBay, h]

theorem arriveAt_loop {target : SlotIx} {n : Nat} (h : s.rack.slots[k].body = .loop target n) :
    arriveAt b k s = arriveLoop b k target n s.rack.slots[k].nxt (setCursor b k s) := by
  simp only [arriveAt, setCursor_eq, rack_modBay, h]

theorem arriveAt_grade {bin : Fin 16} {other : Option SlotIx} (h : s.rack.slots[k].body = .grade bin other) :
    arriveAt b k s = arriveGrade b bin s.rack.slots[k].nxt other (setCursor b k s) := by
  simp only [arriveAt, setCursor_eq, rack_modBay, h]

theorem arriveAt_stamp {lba : Nat} (h : s.rack.slots[k].body = .stamp lba) :
    arriveAt b k s = arriveStamp b lba (setCursor b k s) := by
  simp only [arriveAt, setCursor_eq, rack_modBay, h]

end

/-- The ship request waits where other requests wait or no part tag is free (R24). -/
theorem requestTag_waits {b : BayIx} {r : Rec} {s : State} (hp : (s.bay b).power.state = .settling → r.origin = .settle)
    (h : (s.bay b).tracker.waiting ≠ [] ∨ ∀ tag, ¬ (s.bay b).lowestFree tag) :
    requestTag b r s = s.modBay b (·.modTracker (fun t => { t with waiting := t.waiting ++ [r] })) := by
  have hnot : ¬ ((s.bay b).power.state = .settling ∧ r.origin ≠ .settle) := fun ⟨hset, ho⟩ => ho (hp hset)
  simp only [requestTag, if_neg hnot]
  split
  · next tag hw hf =>
    exact (h.elim (· hw) fun hn => hn tag (lowest_of_free hf)).elim
  · rfl

section
variable {b : BayIx} {k : SlotIx} {s : State} {lba c : Nat} {g : Grade}

/-- The SHIP record at its opening on a STAMP slot. -/
theorem fixRec_ship (u : State) (b : BayIx) (lba gen : Nat) :
    fixRec u b { Rec.blank with origin := .ship, kind := .write, lba := lba, count := 1, gen := gen } =
      { hostRecord .write lba 1 u.rack.us none false 0 none with
        origin := .ship, gen := gen, ship := some (shipSector u.rack (u.bay b) b lba) } := rfl

theorem arriveAt_stamp_issues {tag : Tag} (hb : s.rack.slots[k].body = .stamp lba) (hg : (s.bay b).grade = some g)
    (hy : s.rack.bins[g.bin].shippable = true) (hp : (s.bay b).power.state = .on) (hc : (s.bay b).power.cap = some c)
    (hw : (s.bay b).tracker.waiting = []) (hf : (s.bay b).lowestFree tag) : arriveAt b k s =
      .stay ((s.modBay b (Bay.stampBegun k s.rack.ms lba c)).modBay b (·.issues tag
        { hostRecord .write (min lba (c - 1)) 1 s.rack.us none false 0 none with
          origin := .ship, gen := (s.bay b).plan.gen
          ship := some (shipSector s.rack ((s.bay b).stampBegun k s.rack.ms lba c) b (min lba (c - 1))) })) := by
  have hbay := bay_modBay_same s b (Bay.stampBegun k s.rack.ms lba c)
  have hset : ((s.modBay b (Bay.stampBegun k s.rack.ms lba c)).bay b).power.state ≠ .settling := by
    rw [hbay]
    exact fun e => by cases hp.symm.trans e
  rw [arriveAt_stamp hb, arriveStamp_begins hg hy hp hc, request_free b _ _ tag (fun e => absurd e hset) (by rwa [hbay]) (by rwa [hbay])
    (fun e => by cases e), fixRec_ship, hbay]
  rfl

theorem arriveAt_stamp_waits (hb : s.rack.slots[k].body = .stamp lba) (hg : (s.bay b).grade = some g)
    (hy : s.rack.bins[g.bin].shippable = true) (hp : (s.bay b).power.state = .on) (hc : (s.bay b).power.cap = some c)
    (h : (s.bay b).tracker.waiting ≠ [] ∨ ∀ tag, ¬ (s.bay b).lowestFree tag) : arriveAt b k s =
      .stay ((s.modBay b (Bay.stampBegun k s.rack.ms lba c)).modBay b (·.modTracker (fun t => { t with waiting := t.waiting ++
        [{ Rec.blank with origin := .ship, kind := .write, lba := min lba (c - 1), count := 1, gen := (s.bay b).plan.gen }] }))) := by
  have hbay := bay_modBay_same s b (Bay.stampBegun k s.rack.ms lba c)
  have hset : ((s.modBay b (Bay.stampBegun k s.rack.ms lba c)).bay b).power.state ≠ .settling := by
    rw [hbay]
    exact fun e => by cases hp.symm.trans e
  rw [arriveAt_stamp hb, arriveStamp_begins hg hy hp hc, requestTag_waits (fun e => absurd e hset) (by rwa [hbay])]

end

end Sys2Proof.Machine

/-! ### The statement -/

namespace Sys2Proof.Proofs

open Sys2Proof.Machine

/-- Settles O58: one arrival for each kind of slot, and the start of a sweep phase or a SHIP write. -/
theorem planArrivals : Obligations.PlanArrivals := by
  refine ⟨fun b k s => ?_, fun b n k s t => ?_, fun b k c s => ?_⟩
  · intro nxt at_ reg isOn settling
    refine ⟨fun d hb => ⟨fun h0 => (arriveAt_dwell hb).trans (if_pos h0), fun hpos => (arriveAt_dwell hb).trans (if_neg (by omega))⟩,
      fun off hb => ⟨fun hon => (arriveAt_cycle hb).trans (arriveCycle_on off hon), fun hn => (arriveAt_cycle hb).trans (arriveCycle_off off hn)⟩,
      fun hb => ⟨fun hon => (arriveAt_off hb).trans (arriveOff_on _ hon), fun hn => (arriveAt_off hb).trans (arriveOff_off _ hn)⟩,
      fun target n hb => ?_,
      fun f hb hn => (arriveAt_sweep hb).trans (arriveSweep_notOn k f _ (by rwa [bay_setCursor])), fun l hb => ?_, fun bin other hb => ?_⟩
    · have hreg : ((setCursor b k s).bay b).plan.loopReg = reg := by rw [bay_setCursor] <;> rfl
      have hloop := arriveAt_loop (b := b) hb
      refine ⟨fun hn h0 => ?_, fun hn hpos => ?_, fun m hm => ?_, fun hm => ?_, fun j m hm hj => ?_⟩
      · rw [hloop, arriveLoop_done target n _ (by rw [hreg, hn, h0, Option.getD_none]), setCursor_eq, standsOn_loopReg]
      · rw [hloop, arriveLoop_again target n _ (by rw [hreg, hn, Option.getD_none]) hpos, setCursor_eq, standsOn_loopReg]
      · rw [hloop, arriveLoop_again target n _ (by rw [hreg, hm, Option.getD_some]) (Nat.succ_pos m), setCursor_eq, standsOn_loopReg]
        rfl
      · rw [hloop, arriveLoop_done target n _ (by rw [hreg, hm, Option.getD_some]), setCursor_eq, standsOn_loopReg]
      · exact hloop.trans (arriveLoop_other target n _ (by rw [hreg, hm, Option.getD_some]) hj)
    · have hstamp := arriveAt_stamp (b := b) hb
      refine ⟨fun hg => hstamp.trans (arriveStamp_refused l (shippable_none ((grade_setCursor b k s).trans hg))), fun g hg => ?_⟩
      have hship : (setCursor b k s).shippable b = s.rack.bins[g.bin].shippable := shippable_grade ((grade_setCursor b k s).trans hg)
      refine ⟨fun hn => hstamp.trans (arriveStamp_refused l (hship.trans hn)),
        fun hy hn => hstamp.trans (arriveStamp_notOn l (hship.trans hy) (by rwa [bay_setCursor])), fun c tag hy hon hc hw hf => ?_⟩
      refine ⟨_, arriveAt_stamp_issues hb hg hy hon hc hw hf, ?_, ?_⟩
      · simp only [bay_modBay_same]
        rfl
      · simp only [bay_modBay_same]
        exact ⟨_, Vector.getElem_set_self _, rfl, rfl, rfl, rfl⟩
    · intro g
      have hg : recordGrade b bin (setCursor b k s) = (at_ .none none reg).modBay b (fun x =>
          { x with grade := some { bin := g.1, rules := true, rule := g.2, time := s.rack.ms } }) := by
        have hsame : gradeOf s.rack ((setCursor b k s).bay b) bin = g := by rw [bay_setCursor] <;> rfl
        have hat : at_ .none none reg = setCursor b k s := modBay_eq rfl
        rw [← hsame, hat]
        rfl
      rw [arriveAt_grade hb, arriveGrade, hg, shippable_grade (by rw [bay_modBay_same])]
      rfl
  · exact ⟨fun m h => by simp only [travel, h], fun h => by simp only [travel, h], fun o h => by simp only [travel, h], rfl⟩
  · intro x nxt reg at_ hon hc
    refine ⟨fun f pass first kept hb hresume => ?_, fun l g hb hg hy => ?_⟩
    · intro asked stamps credit phase starts
      obtain ⟨hnew, hkept⟩ := newActive_resumes (c := c) (gen := x.sweep.gen + 1) hresume
      have harrive := (arriveAt_sweep hb).trans (arriveSweep_on (k := k) f nxt hon hc)
      have hcredit : (if f.trigger = .immediate then f.triggerCredit else Credit.count 0) = credit := by rw [triggerCredit_eq]
      refine ⟨fun hle => ?_, fun hlt => ?_⟩
      · have hphase := startPhase_empty (k := k) (w := x.sweep) hle
        rw [hnew, hkept, newActive_empty hle, hcredit] at hphase
        rw [harrive, if_pos (by rw [hphase])]
        refine congrArg (Arrival.move nxt) (Eq.trans (modBay_eq ?_) (modBay_modBay s b _ _).symm)
        exact congrArg (fun w : Sweep => (x.standsOn k s.rack.ms .running none).modSweep (fun _ => w)) hphase
      · intro hi pc
        have hphase := startPhase_runs (k := k) (w := x.sweep) hlt
        rw [hnew, hkept, newActive_runs hlt, hcredit, startPass_eq] at hphase
        rw [harrive, if_neg (by rw [hphase]; nofun)]
        refine congrArg Arrival.stay (Eq.trans (modBay_eq ?_) (modBay_modBay s b _ _).symm)
        exact congrArg (fun w : Sweep => (x.standsOn k s.rack.ms .running none).modSweep (fun _ => w)) hphase
    · intro u asks
      have hu : u = s.modBay b (Bay.stampBegun k s.rack.ms l c) := modBay_modBay s b _ _
      refine ⟨fun tag hw hf => ?_, fun hbusy => ?_⟩
      · rw [arriveAt_stamp_issues hb hg hy hon hc hw hf, hu, bay_modBay_same]
        rfl
      · rw [arriveAt_stamp_waits hb hg hy hon hc hbusy, hu]
        rfl

end Sys2Proof.Proofs
end

section
/-! SUPPORT. The LEARN query and the SHIP write asked for again (R145, R152, R153), the downstream link's rise and fall (R2, R10,
R113); and the statement O53, settled from them. -/

namespace Sys2Proof.Machine

/-! ### What the part asks for -/

/-- The LEARN query opens at once where a part tag is free and no request waits (R24, R152). -/
theorem askLearn_issues {b : BayIx} {s : State} {tag : Tag} (hp : (s.bay b).power.state ≠ .settling)
    (hw : (s.bay b).tracker.waiting = []) (hf : (s.bay b).lowestFree tag) : askLearn b s =
      s.modBay b (fun x => { x with power := { x.power with learnWait := false } }.issues tag
        { hostRecord .capacity 0 0 s.rack.us none false 0 none with origin := .learn }) := by
  have hbay := bay_modBay_same s b (·.modPower (fun w => { w with learnWait := false }))
  rw [askLearn, request_free b learnRec _ tag (by rw [hbay]; exact fun e => absurd e hp) (by rwa [hbay]) (by rwa [hbay])
    (fun e => by cases e), modBay_modBay]
  rfl

theorem learnOnRise_none {b : BayIx} {s : State} (h : (s.bay b).power.learnWait = false ∨ (s.bay b).power.state ≠ .spinningUp) :
    learnOnRise b s = s := if_neg fun ⟨hl, hp⟩ => h.elim (fun hf => by rw [hf] at hl; cases hl) (· hp)

theorem learnOnRise_asks {b : BayIx} {s : State} (hl : (s.bay b).power.learnWait = true) (hp : (s.bay b).power.state = .spinningUp) :
    learnOnRise b s = askLearn b s := if_pos ⟨hl, hp⟩

theorem shipOnRise_none {b : BayIx} {s : State} (h : (s.bay b).ship.reissue = false) : shipOnRise b s = s :=
  if_neg (Bool.eq_false_iff.mp h)

/-- The SHIP write opens at once with a ship record built anew (R144, R145). -/
theorem shipOnRise_issues {b : BayIx} {s : State} {tag : Tag} {l : Nat} (hr : (s.bay b).ship.reissue = true)
    (hl : (s.bay b).ship.lba = some l) (hp : (s.bay b).power.state ≠ .settling) (hw : (s.bay b).tracker.waiting = [])
    (hf : (s.bay b).lowestFree tag) : shipOnRise b s =
      let y : Bay := { s.bay b with ship := { (s.bay b).ship with reissue := false } }
      s.modBay b (fun _ => y.issues tag { hostRecord .write l 1 s.rack.us none false 0 none with
        origin := .ship, ship := some (shipSector s.rack y b l), gen := (s.bay b).plan.gen }) := by
  have hbay := bay_modBay_same s b (·.modShip (fun p => { p with reissue := false }))
  have hrec : shipRec ((s.modBay b (·.modShip (fun p => { p with reissue := false }))).bay b) =
      { Rec.blank with origin := .ship, kind := .write, lba := l, count := 1, gen := (s.bay b).plan.gen } := by
    rw [hbay, shipRec]
    simp only [ship_modShip, hl, Option.getD_some, plan_modShip]
  have hasks : shipOnRise b s =
      requestTag b { Rec.blank with origin := .ship, kind := .write, lba := l, count := 1, gen := (s.bay b).plan.gen }
        (s.modBay b (·.modShip (fun p => { p with reissue := false }))) := by
    rw [← hrec]
    exact if_pos hr
  rw [hasks, request_free b _ _ tag (by rw [hbay]; exact fun e => absurd e hp) (by rwa [hbay]) (by rwa [hbay])
    (fun e => by cases e), fixRec_ship, hbay, modBay_modBay]
  rfl

theorem assignAll_none {b : BayIx} {s : State} (h : (s.bay b).tracker.waiting = []) : assignAll b s = s := by
  rw [assignAll, h] <;> rfl

/-! ### The downstream link (R2) -/

/-- The bay after its downstream link has risen. -/
def Bay.linkRisen (x : Bay) : Bay := (x.modLane Lane.rise).modSweep Sweep.linkUp

theorem exec_downUp {b : BayIx} {s : State} (hd : (s.bay b).lane.downUp = false) (hp : (s.bay b).power.state.powered = true) :
    exec (.downstreamLinkUp b) s = .next (shipOnRise b (learnOnRise b (s.modBay b Bay.linkRisen))) :=
  congrArg Host.Outcome.next (if_neg fun h => h.elim (fun e => by rw [hd] at e; cases e) (fun e => by rw [hp] at e; cases e))

theorem exec_downUp_none {b : BayIx} {s : State} (h : (s.bay b).lane.downUp = true ∨ (s.bay b).power.state.powered = false) :
    exec (.downstreamLinkUp b) s = .next s := congrArg Host.Outcome.next (if_pos h)

theorem exec_downDown {b : BayIx} {s : State} (hd : (s.bay b).lane.downUp = true) : exec (.downstreamLinkDown b) s =
    .next (assignAll b (s.modBay b (fun x => { x with lane := { x.lane with downUp := false, retired := [] } }))) :=
  congrArg Host.Outcome.next (if_pos hd)

end Sys2Proof.Machine

/-! ### The statement -/

namespace Sys2Proof.Proofs

open Sys2Proof.Machine

/-- Settles O53: the rise of the link and what each owner asks for at it; the fall, with the requests that wait. -/
theorem downstreamLinkEvents : Obligations.DownstreamLinkEvents := by
  refine ⟨fun b s => ?_, fun b s => ?_⟩
  · intro x rises
    have hbay : (s.modBay b Bay.linkRisen).bay b = rises x := bay_modBay_same s b _
    refine ⟨exec_downUp_none, fun hd hp hship => ⟨fun hl => ?_, fun tag hl hspin hw hf => ?_⟩, fun hd => ?_, fun hd hw => ?_⟩
    · rw [exec_downUp hd hp, learnOnRise_none (by rw [hbay]; exact hl), shipOnRise_none (by rw [hbay]; exact hship)]
      rfl
    · have hnot : ((s.modBay b Bay.linkRisen).bay b).power.state ≠ .settling := by
        rw [hbay]
        exact fun e => by cases hspin.symm.trans e
      rw [exec_downUp hd hp, learnOnRise_asks (by rw [hbay]; exact hl) (by rw [hbay]; exact hspin),
        askLearn_issues hnot (by rw [hbay]; exact hw) (by rw [hbay]; exact hf), modBay_modBay,
        shipOnRise_none (by rw [bay_modBay_same]; exact hship)]
      rfl
    · exact congrArg Host.Outcome.next (if_neg (Bool.eq_false_iff.mp hd))
    · rw [exec_downDown hd, assignAll_none (by rw [bay_modBay_same]; exact hw)]
  · intro x rises
    have hbay : (s.modBay b Bay.linkRisen).bay b = rises x := bay_modBay_same s b _
    refine ⟨fun l tag hd hon hre hl hw hf => ?_, fun t hd hruns => ?_⟩
    · intro y
      have hpow : x.power.state.powered = true := by rw [hon]; rfl
      have hlearn : ((s.modBay b Bay.linkRisen).bay b).power.state ≠ .spinningUp := by
        rw [hbay]
        exact fun e => by cases hon.symm.trans e
      have hset : ((s.modBay b Bay.linkRisen).bay b).power.state ≠ .settling := by
        rw [hbay]
        exact fun e => by cases hon.symm.trans e
      rw [exec_downUp hd hpow, learnOnRise_none (Or.inr hlearn), shipOnRise_issues (l := l) (tag := tag) (by rw [hbay]; exact hre)
        (by rw [hbay]; exact hl) hset (by rw [hbay]; exact hw) (by rw [hbay]; exact hf), hbay]
      exact congrArg Host.Outcome.next (modBay_modBay s b _ _)
    · rw [exec_downDown hd]
      refine congrArg Host.Outcome.next (assign_runs b _ t ?_).symm
      rwa [bay_modBay_same]

end Sys2Proof.Proofs
end

section
/-! SUPPORT. Lane resets (R19, R20) and the upstream link (R2); and the statement O52, settled from them. -/

namespace Sys2Proof.Machine

/-! ### The LEARN query discarded by a lane reset (R20, R153) -/

theorem relearn_none {b : BayIx} {s : State} (h : (s.bay b).power.learnWait = false ∨ (s.bay b).lane.downUp = false) : relearn b s = s :=
  if_neg fun ⟨hl, hd⟩ => h.elim (fun e => by rw [hl] at e; cases e) (fun e => by rw [hd] at e; cases e)

theorem relearn_asks {b : BayIx} {s : State} (hl : (s.bay b).power.learnWait = true) (hd : (s.bay b).lane.downUp = true) :
    relearn b s = askLearn b s := if_pos ⟨hl, hd⟩

/-! ### A lane reset (R19, R20) -/

/-- The bay after a lane reset has discarded its records, its held commands and its annex service, and its sweep has rewound. -/
def Bay.resetLane (x : Bay) : Bay :=
  let y := x.discards (decide (x.power.state = .on))
  { y with lane := { y.lane with held := [], annexSvc := [] } }

/-- The link-reset count rises. -/
def Bay.countReset (x : Bay) : Bay := { x with lane := { x.lane with linkResets := inc32 x.lane.linkResets } }

theorem laneReset_quiet {b : BayIx} {s : State} (h : (s.bay b).sweep.status ≠ .draining) :
    laneReset b s = assignAll b (relearn b ((s.modBay b Bay.resetLane).modBay b Bay.countReset)) := by
  have hquiet : drainCheck b none (s.modBay b Bay.resetLane) = s.modBay b Bay.resetLane :=
    drainCheck_quiet b _ (by rw [bay_modBay_same]; exact h)
  refine (laneReset_eq b s).trans ?_
  change assignAll b (relearn b ((if (s.bay b).sweep.status.running then drainCheck b none (s.modBay b Bay.resetLane)
    else s.modBay b Bay.resetLane).modBay b Bay.countReset)) = _
  rw [hquiet, ite_self]

/-- A DRAINING sweep has no record left and ends TIME-LIMIT. -/
theorem laneReset_draining {b : BayIx} {s : State} {a : Active} {k : SlotIx} (h : (s.bay b).sweep.status = .draining)
    (ha : (s.bay b).sweep.active = some a) (hr : (s.bay b).plan.state = .running) (hc : (s.bay b).plan.cursor = some k) :
    laneReset b s = assignAll b (relearn b ((travel b arrivalFuel s.rack.slots[k].nxt ((s.modBay b Bay.resetLane).modBay b (·.sweepEnds a.rewind
      .timeLimit (if a.cfg.order = .ascendContinue then some { slot := a.slot, passIx := a.passIx, frontier := a.frontier }
        else (s.bay b).sweep.resume)))).modBay b Bay.countReset)) := by
  have hrun : (s.bay b).sweep.status.running = true := by rw [h]; rfl
  have hbay : (s.modBay b Bay.resetLane).bay b = (s.bay b).resetLane := bay_modBay_same s b _
  have hactive : ((s.modBay b Bay.resetLane).bay b).sweep.active = some a.rewind := by
    rw [hbay]
    refine (if_pos hrun).trans ?_
    rw [ha] <;> rfl
  have hfree (g : Tag) : ((s.modBay b Bay.resetLane).bay b).tracker.recs[g] = none := by
    rw [hbay]
    exact Vector.getElem_replicate _
  have hends := drainCheck_ends b (s.modBay b Bay.resetLane) a.rewind k (by rw [hbay]; exact h) hactive hfree
    (by rw [hbay]; exact hr) (by rw [hbay]; exact hc)
  refine (laneReset_eq b s).trans ?_
  change assignAll b (relearn b ((if (s.bay b).sweep.status.running then drainCheck b none (s.modBay b Bay.resetLane)
    else s.modBay b Bay.resetLane).modBay b Bay.countReset)) = _
  rw [if_pos hrun, hends, rack_modBay, hbay]
  rfl

/-- The requests that still wait take the freed tags last, where no LEARN query is asked again (log entry 41). -/
theorem assigned_after_reset {b : BayIx} {v t : State} (h : (v.bay b).power.learnWait = false ∨ (v.bay b).lane.downUp = false)
    (hruns : Runs (List.replicate (v.bay b).tracker.waiting.length (.partTagAssign b)) (v.modBay b Bay.countReset) t) :
    assignAll b (relearn b (v.modBay b Bay.countReset)) = t := by
  have hbay : (v.modBay b Bay.countReset).bay b = (v.bay b).countReset := bay_modBay_same v b _
  rw [relearn_none (by rw [hbay]; exact h)]
  exact (assign_runs b _ t (by rw [hbay]; exact hruns)).symm

end Sys2Proof.Machine

/-! ### The statement -/

namespace Sys2Proof.Proofs

open Sys2Proof.Machine

/-- Settles O52: the lane reset of a bay whose sweep does not drain and of one whose sweep drains, and the upstream link's levels. -/
theorem laneResets : Obligations.LaneResets := by
  refine ⟨?_, fun v => ?_, fun b s => ?_⟩
  · intro up
    refine ⟨fun b s hplain => ?_, fun b s => ?_⟩
    · intro u y
      obtain ⟨hw, hst⟩ := hplain
      have hcounted (p : Bool) (hp : decide ((s.bay b).power.state = .on) = p) :
          (s.modBay b Bay.resetLane).modBay b Bay.countReset = u p := by
        rw [modBay_modBay]
        refine modBay_eq ?_
        rw [Bay.resetLane, hp]
        rfl
      have hu (p : Bool) : ((u p).bay b).power.state = (s.bay b).power.state ∧ ((u p).bay b).tracker.waiting = [] := by
        rw [bay_modBay_same]
        refine ⟨rfl, ?_⟩
        change (s.bay b).tracker.waiting.filter _ = []
        rw [hw, List.filter_nil]
      have hexec (p : Bool) (hp : decide ((s.bay b).power.state = .on) = p) : exec (.linkReset b) s = .next (assignAll b (relearn b (u p))) :=
        congrArg Host.Outcome.next ((laneReset_quiet hst).trans (by rw [hcounted p hp]))
      refine ⟨fun hon => ?_, fun hn => ⟨fun hno => ?_, fun tag hl hd hset hf => ?_⟩⟩
      · have hdown : ((u true).bay b).lane.downUp = false := by
          rw [bay_modBay_same]
          exact Bool.and_false _
        rw [hexec true (decide_eq_true hon), relearn_none (Or.inr hdown), assignAll_none (hu true).2]
      · rw [hexec false (decide_eq_false hn), relearn_none hno, assignAll_none (hu false).2]
      · have hasked := askLearn_issues hset (hu false).2 hf
        rw [hexec false (decide_eq_false hn), relearn_asks hl hd, hasked, assignAll_none]
        · rfl
        · rw [bay_modBay_same]
          exact (hu false).2
    · intro x u told
      have htold (v : State) (hv : laneReset b s = assignAll b (relearn b (v.modBay b Bay.countReset))) : told v :=
        fun hno t hruns => congrArg Host.Outcome.next (hv.trans (assigned_after_reset hno hruns))
      exact ⟨fun hst => htold u (laneReset_quiet hst), fun a k hst ha hr hc => htold _ (laneReset_draining hst ha hr hc)⟩
  · cases v <;> rfl
  · intro level
    refine ⟨rfl, fun hdown hfirst => ?_, fun hdown hrisen => ?_⟩
    · refine congrArg Host.Outcome.next ((if_neg (Bool.eq_false_iff.mp hdown)).trans ?_)
      rw [riseUp, hfirst]
      exact if_pos rfl
    · refine congrArg Host.Outcome.next ((if_neg (Bool.eq_false_iff.mp hdown)).trans ?_)
      rw [riseUp, hrisen]
      exact if_neg nofun

end Sys2Proof.Proofs
end

section
/-! SUPPORT. Forced power-offs and what they make of a plan (R127, R130, R151, R157), removals and insertions (R148, R149), the session
wipe's zones (R80, R85, R165); and the statement O54, settled from them. -/

namespace Sys2Proof.Machine

/-! ### Notices and plan ends, as one change of the bay -/

theorem onlyBay_modBay (b : BayIx) (f : Bay → Bay) (s : State) : OnlyBay b s (s.modBay b f) :=
  ⟨rack_modBay s b f, pending_modBay s b f, fun c hc => bay_modBay_other s b c f hc⟩

theorem presence_chooseLamp (r : Rack) (x : Bay) : (x.chooseLamp r).lines.present = x.lines.present
    ∧ (x.chooseLamp r).lines.debounce = x.lines.debounce := by
  unfold Bay.chooseLamp
  split <;> exact ⟨rfl, rfl⟩

/-- A notice raised and the lamp chosen: the annex and the lamp's lines alone change. -/
theorem noticed_eq (b : BayIx) (k : Notice) (s : State) : ∃ l : Lines,
    (l.present = (s.bay b).lines.present ∧ l.debounce = (s.bay b).lines.debounce)
    ∧ refreshLamp b (raiseNotice b k s) = s.modBay b (fun x => { x with annex := x.annex.raised k.ix, lines := l }) := by
  refine ⟨(((s.bay b).modAnnex (·.raise k)).chooseLamp s.rack).lines, presence_chooseLamp _ _, ?_⟩
  rw [refreshLamp_form, raiseNotice, modBay_modBay, rack_modBay] <;> rfl

theorem ms_release (reach : Vector Bool 96) (r : Rack) : (r.release reach).ms = r.ms := by rw [Rack.release]

theorem faultBin_release (reach : Vector Bool 96) (r : Rack) : (r.release reach).faultBin = r.faultBin := by rw [Rack.release]

theorem queue_release (reach : Vector Bool 96) (r : Rack) : (r.release reach).queue = r.queue := by rw [Rack.release]

/-- The bay of a plan that has ended and keeps its power, but for the lamp (R130). -/
def Bay.planOver (r : Rack) (o : PlanOutcome) (fault : Option FaultCause) (e : Option SlotIx) (x : Bay) : Bay :=
  { stopBay x with
    plan := x.plan.finish o fault e r.ms
    grade := if o = .faulted then some { bin := r.faultBin, rules := false, rule := none, time := r.ms } else x.grade
    annex := x.annex.raised 3 }

theorem planEnd_keeps (b : BayIx) (o : PlanOutcome) (fault : Option FaultCause) (e : Option SlotIx) (s : State) : ∃ l : Lines,
    (l.present = (s.bay b).lines.present ∧ l.debounce = (s.bay b).lines.debounce)
    ∧ (planEnd b o fault e .keep s).bay b = { (s.bay b).planOver s.rack o fault e with lines := l }
    ∧ (planEnd b o fault e .keep s).rack.queue = s.rack.queue := by
  by_cases ho : o = .faulted
  · subst ho
    obtain ⟨l, hl, hn⟩ := noticed_eq b .planEnded (faultGrade b (endOnly b .faulted fault e s))
    have hbay := endOnly_bay b .faulted fault e s
    have hgraded : (faultGrade b (endOnly b .faulted fault e s)).bay b =
        { (stopBay (s.bay b)).modPlan (Plan.finish .faulted fault e s.rack.ms) with
          grade := some { bin := s.rack.faultBin, rules := false, rule := none, time := s.rack.ms } } := by
      rw [faultGrade, bay_modBay_same, hbay, rack_endOnly, faultBin_release, ms_release]
    rw [hgraded] at hl
    rw [planEnd_faulted, hn, bay_modBay_same, rack_modBay, hgraded, faultGrade, rack_modBay, rack_endOnly, queue_release]
    exact ⟨l, hl, rfl, rfl⟩
  · obtain ⟨l, hl, hn⟩ := noticed_eq b .planEnded (endOnly b o fault e s)
    rw [endOnly_bay] at hl
    rw [planEnd_keep b o fault e s ho, hn, bay_modBay_same, rack_modBay, endOnly_bay, rack_endOnly, queue_release, Bay.planOver, if_neg ho]
    exact ⟨l, hl, rfl, rfl⟩

/-! ### The forced power-off (R157) -/

theorem setPower_setPower (b : BayIx) (p q : PowerState) (s : State) : setPower b p (setPower b q s) = setPower b p s :=
  modBay_modBay s b _ _

theorem cutPower_cutOff (b : BayIx) (dest : PowerState) (s : State) : cutPower b dest s = setPower b dest (s.cutOff b) := by
  rw [← cutPower_off]
  exact (setPower_setPower b dest .off _).symm

theorem bay_cutOff (b : BayIx) (s : State) : (s.cutOff b).bay b = (s.bay b).cutOff := bay_modBay_same s b Bay.cutOff

theorem queue_cutOff (b : BayIx) (s : State) : b ∉ (s.cutOff b).rack.queue := by
  intro h
  exact of_decide_eq_true (List.mem_filter.mp h).2 rfl

theorem recs_cutOff (x : Bay) (g : Tag) : x.cutOff.tracker.recs[g] = none := Vector.getElem_replicate _

/-- The bay after a forced power-off with a fault, before a RUNNING plan ends. -/
def Bay.faultedOff (f : FaultCause) (ms : Word) (x : Bay) : Bay :=
  let y := x.cutOff
  { y with power := { y.power with lastFault := some (f, ms) }, annex := y.annex.raised 4 }

/-- The state of a forced power-off with a fault, before a RUNNING plan ends. -/
def faultNoticed (b : BayIx) (f : FaultCause) (s : State) : State :=
  raiseNotice b .fault ((s.cutOff b).modBay b (·.modPower (fun w => { w with lastFault := some (f, (s.cutOff b).rack.ms) })))

theorem bay_faultNoticed (b : BayIx) (f : FaultCause) (s : State) :
    (faultNoticed b f s).bay b = (s.bay b).faultedOff f s.rack.ms ∧ (faultNoticed b f s).rack = (s.cutOff b).rack := by
  refine ⟨?_, rfl⟩
  rw [faultNoticed, raiseNotice, bay_modBay_same, bay_modBay_same, bay_cutOff]
  rfl

theorem forcedOff_fault (b : BayIx) (f : FaultCause) (s : State) : forcedOff b (some f) s = grantTest
    (if ((faultNoticed b f s).bay b).running then
      planEnd b .faulted (some f) ((faultNoticed b f s).bay b).plan.cursor .keep (faultNoticed b f s) else faultNoticed b f s) := by
  rw [forcedOff, cutPower_off]
  rfl

theorem forcedOff_idle {b : BayIx} {f : FaultCause} {s : State} (h : (s.bay b).plan.state ≠ .running) :
    (forcedOff b (some f) s).bay b = (s.bay b).faultedOff f s.rack.ms := by
  obtain ⟨hbay, hrack⟩ := bay_faultNoticed b f s
  have hidle : ¬ ((faultNoticed b f s).bay b).running = true := by
    rw [hbay, running_iff]
    exact h
  rw [forcedOff_fault, if_neg hidle, (grantTest_other _ b (by rw [hrack]; exact queue_cutOff b s)).1, hbay]

theorem forcedOff_running {b : BayIx} {f : FaultCause} {s : State} (h : (s.bay b).plan.state = .running) : ∃ l : Lines,
    (forcedOff b (some f) s).bay b =
      { ((s.bay b).faultedOff f s.rack.ms).planOver s.rack .faulted (some f) (s.bay b).plan.cursor with lines := l } := by
  obtain ⟨hbay, hrack⟩ := bay_faultNoticed b f s
  have hrun : ((faultNoticed b f s).bay b).running = true := by
    rw [hbay, running_iff]
    exact h
  have hcursor : ((faultNoticed b f s).bay b).plan.cursor = (s.bay b).plan.cursor := by rw [hbay] <;> rfl
  obtain ⟨l, _, hend, hqueue⟩ := planEnd_keeps b .faulted (some f) (s.bay b).plan.cursor (faultNoticed b f s)
  refine ⟨l, ?_⟩
  have hout : b ∉ (planEnd b .faulted (some f) (s.bay b).plan.cursor .keep (faultNoticed b f s)).rack.queue := by
    rw [hqueue, hrack]
    exact queue_cutOff b s
  rw [forcedOff_fault, if_pos hrun, hcursor, (grantTest_other _ b hout).1, hend, hbay, hrack]
  rfl

/-! ### Removal (R149) -/

theorem lockAsserted_iff {p : PowerState} (h : p ≠ .empty) : lockAsserted p = true ↔ p ≠ .off := by
  cases p <;> simp [lockAsserted] at h ⊢

/-- The bay after the removal of its drive, before a RUNNING plan ends. -/
def Bay.pulled (x : Bay) : Bay :=
  let y := x.cutOff
  { y with power := { y.power with
    state := .empty, session := .abandoned, unsupported := false
    forcedRemovals := if x.lines.auxFn = .lock ∧ x.power.state ≠ .off ∧ x.power.forcedRemovals < 2 ^ 32 - 1
      then x.power.forcedRemovals + 1 else x.power.forcedRemovals } }

theorem noteForcedRemoval_eq {x : Bay} (h : x.power.state ≠ .empty) : x.noteForcedRemoval = { x with power := { x.power with
    forcedRemovals := if x.lines.auxFn = .lock ∧ x.power.state ≠ .off ∧ x.power.forcedRemovals < 2 ^ 32 - 1
      then x.power.forcedRemovals + 1 else x.power.forcedRemovals } } := by
  unfold Bay.noteForcedRemoval
  by_cases hlock : x.lines.auxFn = .lock ∧ lockAsserted x.power.state = true
  · obtain ⟨haux, hon⟩ := hlock
    have hoff := (lockAsserted_iff h).mp hon
    rw [if_pos ⟨haux, hon⟩]
    simp only [haux, ne_eq, hoff, not_false_eq_true, true_and]
    rfl
  · have hnot : ¬ (x.lines.auxFn = .lock ∧ x.power.state ≠ .off ∧ x.power.forcedRemovals < 2 ^ 32 - 1) :=
      fun ⟨haux, hoff, _⟩ => hlock ⟨haux, (lockAsserted_iff h).mpr hoff⟩
    rw [if_neg hlock, if_neg hnot]

/-- The state of a removal before a RUNNING plan ends. -/
def drivePulled (b : BayIx) (s : State) : State :=
  (grantTest (cutPower b .empty (s.modBay b Bay.noteForcedRemoval))).modBay b (·.modPower Power.abandon)

theorem removal_eq (b : BayIx) (s : State) : removal b s = refreshLamp b (raiseNotice b .removed
    (if ((drivePulled b s).bay b).running then
      planEnd b .removed none ((drivePulled b s).bay b).plan.cursor .keep (drivePulled b s) else drivePulled b s)) := by
  simp only [removal, drivePulled] <;> congr

theorem bay_drivePulled {b : BayIx} {s : State} (h : (s.bay b).power.state ≠ .empty) :
    (drivePulled b s).bay b = (s.bay b).pulled ∧ b ∉ (drivePulled b s).rack.queue := by
  have hqueue : b ∉ (cutPower b .empty (s.modBay b Bay.noteForcedRemoval)).rack.queue := by
    rw [cutPower_cutOff]
    exact queue_cutOff b _
  obtain ⟨hbay, hout⟩ := grantTest_other _ b hqueue
  rw [drivePulled, rack_modBay]
  refine ⟨?_, hout⟩
  rw [bay_modBay_same, hbay, cutPower_cutOff, setPower, bay_modBay_same, bay_cutOff, bay_modBay_same, noteForcedRemoval_eq h]
  rfl

theorem removal_idle {b : BayIx} {s : State} (h : (s.bay b).power.state ≠ .empty) (hp : (s.bay b).plan.state ≠ .running) : ∃ l : Lines,
    (l.present = (s.bay b).lines.present ∧ l.debounce = (s.bay b).lines.debounce)
    ∧ (removal b s).bay b = { (s.bay b).pulled with annex := (s.bay b).annex.raised 1, lines := l }
    ∧ b ∉ (removal b s).rack.queue := by
  obtain ⟨hbay, hout⟩ := bay_drivePulled h
  obtain ⟨l, hl, hn⟩ := noticed_eq b .removed (drivePulled b s)
  have hrem : removal b s = refreshLamp b (raiseNotice b .removed (drivePulled b s)) := by
    have hidle : ¬ ((drivePulled b s).bay b).running = true := by
      rw [hbay, running_iff]
      exact hp
    rw [removal_eq, if_neg hidle]
  rw [hbay] at hl
  refine ⟨l, hl, ?_, ?_⟩
  · rw [hrem, hn, bay_modBay_same, hbay]
    rfl
  · rw [hrem, hn, rack_modBay]
    exact hout

theorem removal_running {b : BayIx} {s : State} (h : (s.bay b).power.state ≠ .empty) (hp : (s.bay b).plan.state = .running) :
    ∃ (l : Lines) (r : Rack),
      (l.present = (s.bay b).lines.present ∧ l.debounce = (s.bay b).lines.debounce)
      ∧ (removal b s).bay b = { (s.bay b).pulled.planOver r .removed none (s.bay b).plan.cursor with
          annex := ((s.bay b).annex.raised 3).raised 1, lines := l }
      ∧ b ∉ (removal b s).rack.queue := by
  obtain ⟨hbay, hout⟩ := bay_drivePulled h
  have hcursor : ((drivePulled b s).bay b).plan.cursor = (s.bay b).plan.cursor := by rw [hbay] <;> rfl
  have hrem : removal b s =
      refreshLamp b (raiseNotice b .removed (planEnd b .removed none (s.bay b).plan.cursor .keep (drivePulled b s))) := by
    have hrun : ((drivePulled b s).bay b).running = true := by
      rw [hbay, running_iff]
      exact hp
    rw [removal_eq, if_pos hrun, hcursor]
  obtain ⟨l₀, hl₀, hend, hqueue⟩ := planEnd_keeps b .removed none (s.bay b).plan.cursor (drivePulled b s)
  obtain ⟨l, hl, hn⟩ := noticed_eq b .removed (planEnd b .removed none (s.bay b).plan.cursor .keep (drivePulled b s))
  rw [hend] at hl
  rw [hbay] at hl₀
  refine ⟨l, (drivePulled b s).rack, ⟨hl.1.trans hl₀.1, hl.2.trans hl₀.2⟩, ?_, ?_⟩
  · rw [hrem, hn, bay_modBay_same, hend, hbay]
    rfl
  · rw [hrem, hn, rack_modBay, hqueue]
    exact hout

/-! ### Insertion and the session wipe (R80, R148, R165) -/

theorem insertionWipe_eq (a : Annex) : a.insertionWipe = { a with
    mailbox := .busyWipe
    result := if a.mailbox = .busyDirective then { a.result with state := .complete, result := .done } else a.result } := by
  unfold Annex.insertionWipe Annex.completeClear
  split <;> rfl

/-- The bay whose session wipe an insertion has begun, but for the lamp and the notice. -/
def Bay.recognized (x : Bay) : Bay :=
  ((x.beginWipe true).modAnnex Annex.insertionWipe).modPower (fun w => { w with session := .active, unsupported := false, state := .off })

theorem debounced_recognizes {b : BayIx} {s : State} (hl : (s.bay b).lines.present = true) (hp : (s.bay b).power.state = .empty) :
    debounced b s = recognize b (s.modBay b (·.modLines (fun l => { l with debounce := none }))) := by
  have hbay := bay_modBay_same s b (·.modLines (fun l => { l with debounce := none }))
  exact if_pos (by rw [hbay]; exact ⟨hl, hp⟩)

theorem debounced_none {b : BayIx} {s : State} (hp : (s.bay b).power.state ≠ .empty) :
    debounced b s = s.modBay b (·.modLines (fun l => { l with debounce := none })) := by
  have hbay := bay_modBay_same s b (·.modLines (fun l => { l with debounce := none }))
  exact if_neg (by rw [hbay]; exact fun h => hp h.2)

/-- A recognition: the wipe begins, INSERTED is raised and the lamp chosen. -/
theorem recognize_eq (b : BayIx) (s : State) : ∃ l : Lines, l.debounce = (s.bay b).lines.debounce
    ∧ recognize b s = s.modBay b (fun x => { x.recognized with annex := x.recognized.annex.raised 0, lines := l }) := by
  obtain ⟨l, ⟨_, hdebounce⟩, hn⟩ := noticed_eq b .inserted (s.modBay b Bay.recognized)
  rw [bay_modBay_same] at hdebounce
  refine ⟨l, hdebounce, ?_⟩
  change refreshLamp b (raiseNotice b .inserted (s.modBay b Bay.recognized)) = _
  rw [hn, modBay_modBay]
  rfl

theorem wipeStep_more {n : Nat} (h : n < 4095) (x : Bay) :
    x.wipeStep n = (x.modZm (ZoneMap.resetZone n)).modAnnex (fun a => { a with wipe := some (n + 1) }) :=
  if_pos (show n + 1 < 4096 by omega)

theorem wipeStep_last {n : Nat} (h : 4095 ≤ n) (x : Bay) : x.wipeStep n = (x.modZm (ZoneMap.resetZone n)).wipeDone :=
  if_neg (show ¬ n + 1 < 4096 by omega)

theorem zm_wipeStep (n : Nat) (x : Bay) : (x.wipeStep n).zm = x.zm.resetZone n := by
  unfold Bay.wipeStep
  split <;> rfl

theorem wipeDone_eq (x : Bay) : x.wipeDone = { x with
    sweep := { x.sweep with passCounter := 0 }
    annex := { x.annex with
      mailbox := .idle, wipe := none
      result := if x.annex.mailbox = .busyDirective then { x.annex.result with state := .complete, result := .done }
        else x.annex.result } } := by
  unfold Bay.wipeDone Annex.completeClear
  split <;> rfl

end Sys2Proof.Machine

/-! ### The statement -/

namespace Sys2Proof.Proofs

open Sys2Proof.Machine

/-- Settles O54: the presence input's edges, the end of the debounce, and the zones that the wipe resets. -/
theorem presenceAndWipeEvents : Obligations.PresenceAndWipeEvents := by
  refine ⟨fun b s => ?_, fun b n s hzm => ?_⟩
  · intro x
    refine ⟨fun hl => ?_, fun hl hp => ?_, fun hl hp => ?_, fun k hk => ?_⟩
    · exact congrArg Host.Outcome.next (if_neg (Bool.eq_false_iff.mp hl))
    · have hbay := bay_modBay_same s b (·.modLines (fun l => { l with present := false, debounce := none }))
      refine congrArg Host.Outcome.next ((if_pos hl).trans (if_pos ?_))
      rw [hbay]
      exact hp
    · let v := s.modBay b (·.modLines (fun l => { l with present := false, debounce := none }))
      have hbay : v.bay b = x.modLines (fun l => { l with present := false, debounce := none }) := bay_modBay_same s b _
      have hpv : (v.bay b).power.state ≠ .empty := by
        rw [hbay]
        exact hp
      refine ⟨removal b v, congrArg Host.Outcome.next ((if_pos hl).trans (if_neg hpv)), ?_⟩
      by_cases hrun : x.plan.state = .running
      · obtain ⟨l, r, hlines, hy, hqueue⟩ := removal_running (b := b) (s := v) hpv (by rw [hbay]; exact hrun)
        rw [hbay] at hlines
        rw [hbay] at hy
        simp only [hy]
        exact ⟨hlines.1, hlines.2, rfl, rfl, rfl, rfl, rfl, rfl, hqueue, rfl, fun _ => Vector.getElem_replicate _,
          rfl, rfl, rfl, rfl, rfl, rfl, fun hup => if_pos hup,
          fun h => absurd hrun h, fun _ => ⟨rfl, rfl, rfl, rfl⟩⟩
      · obtain ⟨l, hlines, hy, hqueue⟩ := removal_idle (b := b) (s := v) hpv (by rw [hbay]; exact hrun)
        rw [hbay] at hlines
        rw [hbay] at hy
        simp only [hy]
        exact ⟨hlines.1, hlines.2, rfl, rfl, rfl, rfl, rfl, rfl, hqueue, rfl, fun _ => Vector.getElem_replicate _,
          rfl, rfl, rfl, rfl, rfl, rfl, fun hup => if_pos hup,
          fun _ => ⟨rfl, rfl⟩, fun h => absurd h hrun⟩
    · intro u
      obtain ⟨j, (hj : u.bay b = x.elapse j)⟩ := bay_advanceMs k s b
      have hexec : exec (.insertionRecognized b) s = .next (debounced b u) := congrArg Host.Outcome.next (expire_some hk _ s)
      refine ⟨fun hl hp => ?_, fun hp => ?_⟩
      · have hlu : (u.bay b).lines.present = true := by rw [hj]; exact hl
        have hpu : (u.bay b).power.state = .empty := by rw [hj]; exact hp
        obtain ⟨l, hdebounce, hrec⟩ := recognize_eq b (u.modBay b (·.modLines (fun l => { l with debounce := none })))
        rw [bay_modBay_same] at hdebounce
        refine ⟨_, hexec.trans (congrArg Host.Outcome.next ((debounced_recognizes hlu hpu).trans hrec)), ?_⟩
        rw [modBay_modBay]
        refine ⟨onlyBay_modBay b _ u, ?_⟩
        simp only [bay_modBay_same, hj, Bay.recognized, annex_modPower, annex_modAnnex, insertionWipe_eq]
        exact ⟨rfl, rfl, rfl, rfl, rfl, rfl, rfl, rfl, hdebounce, rfl, rfl, rfl, rfl, rfl, rfl, rfl, rfl, rfl, rfl, rfl, rfl, rfl, rfl, rfl, rfl,
          rfl, rfl, rfl, fun h => if_pos h, fun h => if_neg h⟩
      · have hpu : (u.bay b).power.state ≠ .empty := by rw [hj]; exact hp
        exact hexec.trans (congrArg Host.Outcome.next (debounced_none hpu))
  · intro x
    refine ⟨fun hw => ?_, fun hw => ?_⟩
    · refine congrArg Host.Outcome.next ?_
      rw [hw]
    · have hexec : exec (.wipeZoneReset b) s = .next (s.modBay b (·.wipeStep n)) := by
        refine congrArg Host.Outcome.next ?_
        rw [hw]
      refine ⟨_, hexec, ?_⟩
      simp only [bay_modBay_same, zm_wipeStep]
      refine ⟨fun m => get_put n m _ x.zm hzm, fun h => modBay_eq ?_, fun h => modBay_eq ?_⟩
      · rw [wipeStep_more h]
        rfl
      · rw [wipeStep_last h, wipeDone_eq]
        rfl

end Sys2Proof.Proofs
end

section
/-! SUPPORT. The expiries of held commands and of the spin-up (R17, R154), and timeout events (R34 to R36, R156); and the statement O55,
settled from them. -/

namespace Sys2Proof.Machine

/-! ### Held commands and the spin-up (R17, R154) -/

theorem holdRemaining_none {b : BayIx} {s : State} (h : (s.bay b).lane.held = []) : holdRemaining s b = none := by
  rw [holdRemaining, h] <;> rfl

theorem holdRemaining_some {b : BayIx} {s : State} {h : Held} {rest : List Held} (hh : (s.bay b).lane.held = h :: rest) :
    holdRemaining s b = some (s.rack.hold - (s.rack.ms - h.arrival).toNat) := by
  rw [holdRemaining, hh] <;> rfl

theorem dropHeld_eq {b : BayIx} {s : State} {h : Held} {rest : List Held} (hh : (s.bay b).lane.held = h :: rest) : dropHeld b s =
    s.modBay b (fun x => { x with lane := { x.lane with held := rest } }.sends (.completion h.tag .notReady)) := by
  simp only [dropHeld, hh, complete_eq, modBay_modBay]
  rfl

theorem faultBin_advanceMs (k : Nat) (s : State) : (advanceMs k s).rack.faultBin = s.rack.faultBin := by
  unfold advanceMs
  split <;> rfl

theorem elapse_idle (j : Nat) {p : Plan} (h : p.state ≠ .running) : p.elapse j = p := if_neg fun e => h e.1

/-! ### Timeout events (R34 to R36) -/

theorem timeoutDue_none {b : BayIx} {s : State} (h : (s.bay b).everyRec (fun _ => False)) : timeoutDue s b = none := by
  have hfree (g : Tag) : (s.bay b).tracker.rec? g = none := by
    cases hg : (s.bay b).tracker.rec? g with
    | none => rfl
    | some r => exact (h g r hg).elim
  simp only [timeoutDue, hfree, Option.map_none, List.filterMap_none, List.min?_nil]

/-- A record whose age has reached Tw is a timeout event now. -/
theorem exec_timeout_now {b : BayIx} {s : State} {tag : Tag} {r : Rec} (hr : (s.bay b).tracker.recs[tag] = some r)
    (hage : (s.bay b).tracker.tw * 1000 ≤ (s.rack.us - r.issue).toNat) : exec (.timeoutEvent b) s = .next (takeTimeout b s) := by
  have hdue : timeoutDue s b = some 0 := (timeoutDue_zero s b).mpr fun hall => absurd (hall tag r hr) (Nat.not_lt.mpr hage)
  refine congrArg Host.Outcome.next ?_
  rw [hdue]
  rfl

theorem reachesLimit_iff (b : BayIx) (s : State) : s.reachesLimit b = true ↔ s.rack.limit ≤ inc32 (s.bay b).tracker.timeouts :=
  decide_eq_true_iff

/-- The bay at a timeout event that brings the count to the limit, before the forced power-off: nothing rewinds (R36, R99). -/
def Bay.limitReached (x : Bay) : Bay :=
  let y := Bay.dropAll (some .timeout) false (x.modLane Lane.resetDown)
  { y with
    tracker := { y.tracker with timeouts := inc32 x.tracker.timeouts }
    power := { y.power with settleFails := if x.power.state = .settling then inc32 x.power.settleFails else x.power.settleFails } }

theorem takeTimeout_limit {b : BayIx} {s : State} (h : s.reachesLimit b = true) :
    takeTimeout b s = forcedOff b (some .timeoutLimit) (s.modBay b Bay.limitReached) := by
  unfold takeTimeout
  simp only [discardAll_eq, h, if_true, modBay_modBay, decide_eq_true_eq]
  split
  · next hst =>
    refine congrArg (forcedOff b (some .timeoutLimit)) (modBay_eq ?_)
    rw [Bay.limitReached, if_pos hst]
    rfl
  · next hst =>
    refine congrArg (forcedOff b (some .timeoutLimit)) (modBay_eq ?_)
    rw [Bay.limitReached, if_neg hst]
    rfl

/-- The bay at a timeout event below the limit: the records discarded, and the sweep and the rescan rewound. -/
def Bay.timedOut (x : Bay) : Bay :=
  let y := x.discards true
  { y with lane := { y.lane with
      upSent := if x.lane.upUp then x.lane.upSent ++ x.hostCompletions .timeout else x.lane.upSent } }

/-- The timeout count rises. -/
def Bay.countTimeout (x : Bay) : Bay := { x with tracker := { x.tracker with timeouts := inc32 x.tracker.timeouts } }

theorem takeTimeout_below {b : BayIx} {s : State} (h : s.reachesLimit b = false) (hp : (s.bay b).power.state ≠ .settling) :
    takeTimeout b s = assignAll b ((if (s.bay b).sweep.status.running then drainCheck b none (s.modBay b Bay.timedOut)
      else s.modBay b Bay.timedOut).modBay b Bay.countTimeout) := takeTimeout_eq b s h hp

theorem takeTimeout_quiet {b : BayIx} {s : State} (h : s.reachesLimit b = false) (hp : (s.bay b).power.state ≠ .settling)
    (hst : (s.bay b).sweep.status ≠ .draining) :
    takeTimeout b s = assignAll b ((s.modBay b Bay.timedOut).modBay b Bay.countTimeout) := by
  rw [takeTimeout_below h hp, drainCheck_quiet b _ (by rw [bay_modBay_same]; exact hst), ite_self]

/-- A DRAINING sweep has no record left and ends TIME-LIMIT. -/
theorem takeTimeout_draining {b : BayIx} {s : State} {a : Active} {k : SlotIx} (h : s.reachesLimit b = false)
    (hp : (s.bay b).power.state ≠ .settling) (hst : (s.bay b).sweep.status = .draining) (ha : (s.bay b).sweep.active = some a)
    (hr : (s.bay b).plan.state = .running) (hc : (s.bay b).plan.cursor = some k) :
    takeTimeout b s = assignAll b ((travel b arrivalFuel s.rack.slots[k].nxt ((s.modBay b Bay.timedOut).modBay b (·.sweepEnds a.rewind
      .timeLimit (if a.cfg.order = .ascendContinue then some { slot := a.slot, passIx := a.passIx, frontier := a.frontier }
        else (s.bay b).sweep.resume)))).modBay b Bay.countTimeout) := by
  have hrun : (s.bay b).sweep.status.running = true := by rw [hst]; rfl
  have hbay : (s.modBay b Bay.timedOut).bay b = (s.bay b).timedOut := bay_modBay_same s b _
  have hactive : ((s.modBay b Bay.timedOut).bay b).sweep.active = some a.rewind := by
    rw [hbay]
    refine (if_pos hrun).trans ?_
    rw [ha] <;> rfl
  have hfree (g : Tag) : ((s.modBay b Bay.timedOut).bay b).tracker.recs[g] = none := by
    rw [hbay]
    exact Vector.getElem_replicate _
  have hends := drainCheck_ends b (s.modBay b Bay.timedOut) a.rewind k (by rw [hbay]; exact hst) hactive hfree
    (by rw [hbay]; exact hr) (by rw [hbay]; exact hc)
  rw [takeTimeout_below h hp, if_pos hrun, hends, rack_modBay, hbay]
  rfl

theorem assigned_after_timeout {b : BayIx} {v t : State}
    (hruns : Runs (List.replicate (v.bay b).tracker.waiting.length (.partTagAssign b)) (v.modBay b Bay.countTimeout) t) :
    assignAll b (v.modBay b Bay.countTimeout) = t := by
  have hbay : (v.modBay b Bay.countTimeout).bay b = (v.bay b).countTimeout := bay_modBay_same v b _
  exact (assign_runs b _ t (by rw [hbay]; exact hruns)).symm

/-- The bay at a timeout event below the limit that ends a settling, before the forced power-off (R156; log entry 16). -/
def Bay.settlingTimedOut (x : Bay) : Bay :=
  let y := x.timedOut
  { y with
    tracker := { y.tracker with timeouts := inc32 x.tracker.timeouts }
    power := { y.power with settleFails := inc32 x.power.settleFails } }

theorem takeTimeout_settles {b : BayIx} {s : State} (h : s.reachesLimit b = false) (hp : (s.bay b).power.state = .settling)
    (hst : (s.bay b).sweep.status ≠ .draining) : takeTimeout b s = forcedOff b none (s.modBay b Bay.settlingTimedOut) :=
  takeTimeout_settling b s h hp hst

/-- The ship state of a plan that ends while its SHIP write is to be issued again: it fails (R145). -/
theorem ship_stopped_limit {x : Bay} {f : FaultCause} {ms : Word} (hr : x.plan.state = .running) (hs : x.plan.step = .writing)
    (hopen : x.tracker.anyRec (fun r => decide (r.origin = .ship ∧ r.gen = x.plan.gen)) = true) :
    (stopBay (x.limitReached.faultedOff f ms)).ship.name = .failed ∧ (stopBay (x.limitReached.faultedOff f ms)).ship.reissue = false := by
  have hdiscarded : x.shipDiscarded = { x.ship with name := .writing, reissue := true } := by
    unfold Bay.shipDiscarded
    simp only [hr, hs, and_self, decide_true, Bool.true_and, hopen, if_true]
  have hship : (x.limitReached.faultedOff f ms).ship = { x.ship with name := .writing, reissue := true } :=
    (shipDiscarded_free x.limitReached fun g => Vector.getElem_replicate _).trans hdiscarded
  have hwaits : (x.limitReached.faultedOff f ms).shipWaits = true := by
    unfold Bay.shipWaits
    rw [hship]
    exact Bool.true_or _
  rw [stopBay, if_pos hwaits]
  exact ⟨rfl, rfl⟩

end Sys2Proof.Machine

/-! ### The statement -/

namespace Sys2Proof.Proofs

open Sys2Proof.Machine

/-- Settles O55: the oldest held command, the spin-up timer, and the timeout event by the limit, the power state and the sweep. -/
theorem holdSpinUpAndTimeoutExpiries : Obligations.HoldSpinUpAndTimeoutExpiries := by
  refine ⟨fun b s => ?_, fun b tag r s => ?_⟩
  · intro x
    refine ⟨fun hh => ?_, fun h rest hh => ?_, fun k hp ht => ?_, fun hnone => ?_, fun tag r hr hage => ?_⟩
    · refine congrArg Host.Outcome.next ?_
      rw [holdRemaining_none hh, expire]
    · intro u
      obtain ⟨j, (hj : u.bay b = x.elapse j)⟩ := bay_advanceMs (s.rack.hold - (s.rack.ms - h.arrival).toNat) s b
      refine congrArg Host.Outcome.next ((expire_some (holdRemaining_some hh) _ s).trans (dropHeld_eq ?_))
      exact (congrArg (fun y : Bay => y.lane.held) hj).trans hh
    · intro u
      obtain ⟨j, (hj : u.bay b = x.elapse j)⟩ := bay_advanceMs k s b
      have hexec : exec (.spinupTimerExpiry b) s = .next (forcedOff b (some .spinupFailed) u) :=
        congrArg Host.Outcome.next (expire_some ((if_pos hp).trans ht) _ s)
      refine ⟨_, hexec, ?_⟩
      by_cases hrun : x.plan.state = .running
      · have hrun' : (u.bay b).plan.state = .running := by
          rw [hj]
          exact (elapse_plan j x.plan).1.trans hrun
        obtain ⟨l, hy⟩ := forcedOff_running (f := .spinupFailed) hrun'
        rw [hj] at hy
        simp only [hy]
        refine ⟨rfl, rfl, rfl, rfl, rfl, rfl, rfl, rfl, fun _ => Vector.getElem_replicate _, fun hn => absurd hrun hn,
          fun _ => ⟨rfl, rfl, rfl, rfl, ?_⟩⟩
        rw [← faultBin_advanceMs k s]
        rfl
      · have hrun' : (u.bay b).plan.state ≠ .running := by
          rw [hj]
          exact fun e => hrun ((elapse_plan j x.plan).1.symm.trans e)
        have hy := forcedOff_idle (f := .spinupFailed) hrun'
        rw [hj] at hy
        simp only [hy]
        exact ⟨rfl, rfl, rfl, rfl, rfl, rfl, rfl, rfl, fun _ => Vector.getElem_replicate _, fun _ => ⟨elapse_idle j hrun, rfl, rfl⟩,
          fun hn => absurd hn hrun⟩
    · refine congrArg Host.Outcome.next ?_
      rw [timeoutDue_none hnone]
    · intro count hlim
      have hexec := (exec_timeout_now hr hage).trans (congrArg Host.Outcome.next (takeTimeout_limit ((reachesLimit_iff b s).mpr hlim)))
      have hbay : (s.modBay b Bay.limitReached).bay b = x.limitReached := bay_modBay_same s b _
      refine ⟨_, hexec, ?_⟩
      by_cases hrun : x.plan.state = .running
      · obtain ⟨l, hy⟩ := forcedOff_running (b := b) (f := .timeoutLimit) (s := s.modBay b Bay.limitReached) (by rw [hbay]; exact hrun)
        rw [hbay] at hy
        simp only [hy]
        exact ⟨rfl, rfl, rfl, fun _ => Vector.getElem_replicate _, rfl, rfl, rfl, by simp [Bay.planOver, Bay.faultedOff, Annex.raised]⟩
      · have hy := forcedOff_idle (b := b) (f := .timeoutLimit) (s := s.modBay b Bay.limitReached) (by rw [hbay]; exact hrun)
        rw [hbay] at hy
        simp only [hy]
        exact ⟨rfl, rfl, rfl, fun _ => Vector.getElem_replicate _, rfl, rfl, rfl, by simp [Bay.faultedOff, Annex.raised]⟩
  · intro x hr hage count u told
    have hexec := exec_timeout_now hr hage
    have hbelow (h : count < s.rack.limit) : s.reachesLimit b = false := decide_eq_false (Nat.not_le.mpr h)
    refine ⟨fun hlim hp => ?_, fun hlim hp hrun hst hq => ?_, fun hlim hp hst => ?_, fun hlim hrun hq => ?_⟩
    · have htold (v : State) (hv : takeTimeout b s = assignAll b (v.modBay b Bay.countTimeout)) : told v :=
        fun t hruns => hexec.trans (congrArg Host.Outcome.next (hv.trans (assigned_after_timeout hruns)))
      refine ⟨fun ⟨hw, hst⟩ => ?_, fun hst => htold u (takeTimeout_quiet (hbelow hlim) hp hst),
        fun a k hst ha hrun hc => htold _ (takeTimeout_draining (hbelow hlim) hp hst ha hrun hc)⟩
      have hnone : (((s.modBay b Bay.timedOut).modBay b Bay.countTimeout).bay b).tracker.waiting = [] := by
        rw [bay_modBay_same, bay_modBay_same]
        change x.tracker.waiting.filter _ = []
        rw [hw, List.filter_nil]
      rw [hexec, takeTimeout_quiet (hbelow hlim) hp hst, assignAll_none hnone]
      refine congrArg Host.Outcome.next (modBay_eq ?_)
      rw [bay_modBay_same]
      rfl
    · have hbay : (s.modBay b Bay.settlingTimedOut).bay b = x.settlingTimedOut := bay_modBay_same s b _
      obtain ⟨hother, _⟩ := forcedOff_cases b (s.modBay b Bay.settlingTimedOut)
      have hy : (forcedOff b none (s.modBay b Bay.settlingTimedOut)).bay b = x.settlingTimedOut.cutOff := by
        rw [hother (Or.inl (by rw [hbay]; exact hrun)), (grantTest_other _ b (queue_cutOff b _)).1, bay_cutOff, hbay]
      refine ⟨_, hexec.trans (congrArg Host.Outcome.next (takeTimeout_settles (hbelow hlim) hp hst)), ?_⟩
      simp only [hy]
      exact ⟨rfl, rfl, rfl, rfl, rfl, rfl, recs_cutOff _, rfl, rfl⟩
    · intro cut ends
      have hbay : (s.modBay b Bay.settlingTimedOut).bay b = x.settlingTimedOut := bay_modBay_same s b _
      have hplan : ((s.modBay b Bay.settlingTimedOut).bay b).plan = x.plan := by rw [hbay] <;> rfl
      have hcut : cut = (s.modBay b Bay.settlingTimedOut).cutOff b :=
        congrArg (State.cutOff b) ((modBay_modBay s b _ _).trans (modBay_eq rfl))
      obtain ⟨hother, hphase⟩ := forcedOff_cases b (s.modBay b Bay.settlingTimedOut)
      have hends (v : State) (hv : forcedOff b none (s.modBay b Bay.settlingTimedOut) = grantTest v) : ends v := fun t hruns => by
        rw [hexec, takeTimeout_settles (hbelow hlim) hp hst, hv, runs_one (f := grantTest) (fun _ => rfl) hruns]
      rw [hplan] at hother hphase
      refine ⟨fun h => hends _ (hcut ▸ hother h), fun k hrun hs hc => ?_⟩
      obtain ⟨hcycle, hoff⟩ := hphase k hrun hs hc
      exact ⟨fun off hb => hends _ (hcut ▸ hcycle off hb), fun hb => hends _ (hcut ▸ hoff hb)⟩
    · have hlimit := takeTimeout_limit ((reachesLimit_iff b s).mpr hlim)
      have hbay : (s.modBay b Bay.limitReached).bay b = x.limitReached := bay_modBay_same s b _
      obtain ⟨l, hy⟩ := forcedOff_running (b := b) (f := .timeoutLimit) (s := s.modBay b Bay.limitReached) (by rw [hbay]; exact hrun)
      rw [hbay] at hy
      refine ⟨_, hexec.trans (congrArg Host.Outcome.next hlimit), ?_⟩
      simp only [hy]
      refine ⟨rfl, rfl, rfl, rfl, (stop_keeps x.sweep).1, rfl, fun h => ?_, fun hs hopen => ship_stopped_limit hrun hs hopen⟩
      have hstop : (stopBay (x.limitReached.faultedOff .timeoutLimit s.rack.ms)).sweep = x.sweep.stop := rfl
      change (stopBay (x.limitReached.faultedOff .timeoutLimit s.rack.ms)).sweep.status = _
        ∧ (stopBay (x.limitReached.faultedOff .timeoutLimit s.rack.ms)).sweep.active = _
      rw [hstop, stop_running _ h]
      exact ⟨rfl, rfl⟩

end Sys2Proof.Proofs
end

section
/-! SUPPORT. The closes of the part's own records: LEARN (R153, R155), a sweep's (R93, R94), SHIP (R145); and the statement O60, settled
from them. -/

namespace Sys2Proof.Machine

/-! ### The part's records at their close (R26) -/

/-- No assignment of a part tag touches the power state (R24). -/
theorem power_assignOne (b : BayIx) (s : State) : ((assignOne b s).bay b).power = (s.bay b).power := by
  unfold assignOne
  simp only
  split
  · split
    · simp
    · unfold openRec sendDown
      split <;> simp [Bay.hostOpened]
  · rfl

theorem closeEffects_capacity {b : BayIx} {r : Rec} {st : DriveStatus} (s : State) (h : r.kind = .capacity) : closeEffects b r st s = s := by
  simp only [closeEffects, h]

theorem closeEffects_read_good {b : BayIx} {r : Rec} (c : Option CapacityAnswer) (s : State) (h : r.kind = .read) :
    closeEffects b r (.good c) s = s := by
  simp only [closeEffects, h]

theorem closeEffects_write_good {b : BayIx} {r : Rec} (c : Option CapacityAnswer) (s : State) (h : r.kind = .write) (hn : 1 ≤ r.count) :
    closeEffects b r (.good c) s = s.modBay b (fun x => { x with
      zm := x.zm.write (writeEffect r.origin r.pass x.sweep.passCounter) r.lba (r.lba + r.count - 1)
      tracker := x.tracker.joinWrite r.lba (r.lba + r.count - 1) }) := by
  simp only [closeEffects, h]
  exact if_pos (by omega)

/-! ### LEARN (R153, R155) -/

theorem exec_learnClosed {b : BayIx} {tag : Tag} {r : Rec} {st : DriveStatus} {s : State} (hr : (s.bay b).tracker.recs[tag] = some r)
    (ho : r.origin = .learn) (hk : r.kind = .capacity) :
    exec (.completion b tag st) s = .next (assignOne b ((learnClosed b st s).modBay b (·.freed tag))) := by
  rw [close_part b tag r st s hr (by simp [ho]), readAtOnce_of_not_write _ _ _ (by simp [hk]), binned_quiet b r s hk,
    closeEffects_capacity s hk, tellOwner, ho]

/-- The bay that has learned a capacity (R13, R62, R153). -/
def Bay.learns (c : Nat) (x : Bay) : Bay :=
  { x with
    power := { x.power with cap := some c }
    lane := { x.lane with rc := c - 256 }
    zm := { x.zm with z := some (zoneShift c), used := zonesUsed c }
    annex := x.annex.raised 2 }

/-- The capacity is learned where it was not known. -/
def Bay.learned (c : Nat) (x : Bay) : Bay := if x.power.cap ≠ none then x else x.learns c

theorem learned_none {c : Nat} {x : Bay} (h : x.power.cap = none) : x.learned c = x.learns c := if_neg (not_not_intro h)

theorem learned_some {c c₀ : Nat} {x : Bay} (h : x.power.cap = some c₀) : x.learned c = x := if_pos (by rw [h]; nofun)

/-- What the learning of a capacity leaves. -/
theorem learned_keeps (c : Nat) (x : Bay) : (x.learned c).plan = x.plan ∧ (x.learned c).tracker = x.tracker
    ∧ (x.learned c).lane.held = x.lane.held ∧ (x.learned c).power.longest = x.power.longest
    ∧ (x.learned c).power.grantTime = x.power.grantTime := by
  unfold Bay.learned Bay.learns
  split <;> simp only [and_self]

theorem raise_eq (k : Notice) (a : Annex) : a.raise k = a.raised k.ix := rfl

theorem learnCapacity_eq (b : BayIx) (c : Nat) (s : State) : learnCapacity b c s = s.modBay b (Bay.learns c) := by
  simp only [learnCapacity, raiseNotice, modBay_modBay, annexSize]
  refine modBay_eq ?_
  simp only [Bay.modPower, Bay.modLane, Bay.modZm, Bay.modAnnex, ZoneMap.learn, Bay.learns, raise_eq, Notice.ix]

theorem learnClosed_supported {b : BayIx} {s : State} {a : CapacityAnswer} (hst : (s.bay b).power.state = .spinningUp)
    (hsup : answerSupported a = true) (hcap : (s.bay b).power.cap = none ∨ (s.bay b).power.cap = some a.capacity) :
    learnClosed b (.good (some a)) s = bayOn b (s.modBay b (Bay.learned a.capacity)) := by
  rcases hcap with hcap | hcap
  · rw [modBay_eq (g := Bay.learns a.capacity) (learned_none hcap), ← learnCapacity_eq]
    simp [learnClosed, hst, hsup, learnSupported, hcap]
  · rw [learnClosed_matched hst hsup hcap, modBay_id s b (Bay.learned a.capacity) (learned_some hcap)]

theorem learnClosed_changed {b : BayIx} {s : State} {a : CapacityAnswer} {c : Nat} (hst : (s.bay b).power.state = .spinningUp)
    (hsup : answerSupported a = true) (hcap : (s.bay b).power.cap = some c) (hc : c ≠ a.capacity) :
    learnClosed b (.good (some a)) s = forcedOff b (some .capacityChanged) s := by
  simp [learnClosed, hst, hsup, learnSupported, hcap, hc.symm]

theorem learnClosed_unsupported {b : BayIx} {s : State} {a : CapacityAnswer} (hst : (s.bay b).power.state = .spinningUp)
    (hsup : answerSupported a = false) : learnClosed b (.good (some a)) s =
      forcedOff b (some .unsupported) (s.modBay b (·.modPower (fun w => { w with unsupported := true }))) := by
  simp [learnClosed, hst, hsup]

theorem learnClosed_error {b : BayIx} {s : State} (hst : (s.bay b).power.state = .spinningUp) :
    learnClosed b .otherError s = askLearn b s := by
  simp [learnClosed, hst]

theorem power_forcedOff (b : BayIx) (f : FaultCause) (s : State) : ((forcedOff b (some f) s).bay b).power =
    { (s.bay b).power with state := .off, spinTimer := none, learnWait := false, lastFault := some (f, s.rack.ms) } := by
  by_cases hrun : (s.bay b).plan.state = .running
  · obtain ⟨l, hy⟩ := forcedOff_running (f := f) hrun
    rw [hy]
    rfl
  · rw [forcedOff_idle hrun]
    rfl

/-- The change to ON in a bay with nothing held, nothing waiting and no plan, and no bay in the grant queue. -/
theorem exec_learn_quiet {b : BayIx} {tag : Tag} {r : Rec} {a : CapacityAnswer} {s : State} (hr : (s.bay b).tracker.recs[tag] = some r)
    (ho : r.origin = .learn) (hk : r.kind = .capacity) (hst : (s.bay b).power.state = .spinningUp) (hsup : answerSupported a = true)
    (hcap : (s.bay b).power.cap = none ∨ (s.bay b).power.cap = some a.capacity) (hheld : (s.bay b).lane.held = [])
    (hplan : (s.bay b).plan.state ≠ .running) (hw : (s.bay b).tracker.waiting = []) (hq : s.rack.queue = []) :
    exec (.completion b tag (.good (some a))) s = .next (s.modBay b (fun x =>
      let y := x.learned a.capacity
      { y with power := { y.power with
          state := .on, spinTimer := none, longest := max y.power.longest (s.rack.ms - y.power.grantTime).toNat } }.freed tag)) := by
  have hbay : (s.modBay b (Bay.learned a.capacity)).bay b = (s.bay b).learned a.capacity := bay_modBay_same s b _
  obtain ⟨hkplan, hktracker, hkheld, _, _⟩ := learned_keeps a.capacity (s.bay b)
  have hheld' : ((s.bay b).learned a.capacity).lane.held = [] := hkheld.trans hheld
  have hon : bayOn b (s.modBay b (Bay.learned a.capacity)) = s.modBay b (fun x =>
      let y := x.learned a.capacity
      { y with power := { y.power with
          state := .on, spinTimer := none, longest := max y.power.longest (s.rack.ms - y.power.grantTime).toNat } }) := by
    rw [bayOn_quiet (s := s.modBay b (Bay.learned a.capacity)) hq (by rw [hbay, hkplan]; exact hplan), modBay_modBay]
    refine modBay_eq ?_
    rw [Bay.comesOn, hheld', List.foldl_nil, ← hheld']
    rfl
  rw [exec_learnClosed hr ho hk, learnClosed_supported hst hsup hcap, hon, modBay_modBay, assignOne_none]
  rw [bay_modBay_same]
  exact (congrArg Tracker.waiting hktracker).trans hw

/-! ### The change to ON with a plan (R16, R122, R126, R155) -/

/-- The bay whose hold list is emptied from its head (R16). -/
def Bay.drainsHeld (us : Word) (held : List Held) (x : Bay) : Bay :=
  held.foldl (drainBay us) { x with lane := { x.lane with held := [] } }

theorem drainsHeld_keeps (us : Word) (held : List Held) (x : Bay) :
    (x.drainsHeld us held).plan = x.plan ∧ (x.drainsHeld us held).power = x.power := drainBay_keeps us held _

/-- The grant test at a change to ON, then the drain of the hold list. -/
theorem drainHeld_granted (b : BayIx) (s : State) : drainHeld b (grantTest s) =
    (grantTest s).modBay b (Bay.drainsHeld s.rack.us (s.bay b).lane.held) := by
  obtain ⟨hus, _, _, hbay⟩ := grantTest_keeps s
  rw [drainHeld_eq, hus, hbay b] <;> rfl

theorem planToldOn_other {b : BayIx} {s : State} (h : (s.bay b).plan.state ≠ .running
    ∨ ((s.bay b).plan.step ≠ .waitingForOn ∧ (s.bay b).plan.step ≠ .poweringUp)) : planToldOn b s = s := by
  unfold planToldOn
  simp only
  split
  · next hrun =>
    obtain ⟨hwait, hup⟩ := h.resolve_left (not_not_intro ((running_iff _).mp hrun))
    split
    · exact absurd ‹_› hwait
    · exact absurd ‹_› hup
    · rfl
  · rfl

theorem planToldOn_waits {b : BayIx} {s : State} (hr : (s.bay b).plan.state = .running) (hs : (s.bay b).plan.step = .waitingForOn) :
    planToldOn b s = travel b arrivalFuel (s.bay b).plan.cursor s := by
  unfold planToldOn
  simp only [hs, if_pos ((running_iff _).mpr hr)]
  exact goTo_running _ hr

theorem planToldOn_poweringUp {b : BayIx} {s : State} {k : SlotIx} (hr : (s.bay b).plan.state = .running)
    (hs : (s.bay b).plan.step = .poweringUp) (hc : (s.bay b).plan.cursor = some k) : planToldOn b s =
      travel b arrivalFuel s.rack.slots[k].nxt (s.modBay b (·.modPower (fun w => { w with cycles := inc32 w.cycles }))) := by
  unfold planToldOn
  simp only [hs, if_pos ((running_iff _).mpr hr)]
  rw [advancePlan_eq (k := k), rack_modBay] <;> rwa [bay_modBay_same]

/-! ### A sweep's own command (R93, R94) -/

theorem drainCheck_notDraining {b : BayIx} {but : Option Tag} {s : State} (h : (s.bay b).sweep.status ≠ .draining) :
    drainCheck b but s = s := by
  unfold drainCheck
  simp only
  split
  · exact if_neg fun e => h e.1
  · rfl

/-- The close of a visit's last command before its pass is done. -/
theorem sweepClosed_complete {b : BayIx} {tag : Tag} {r : Rec} {u : State} {a : Active} {v : Nat}
    (ha : (u.bay b).sweep.active = some a) (hv : r.visit = some v) (hg : r.gen = a.gen) (hst : (u.bay b).sweep.status = .active)
    (hop : ¬ (a.cfg.op = .writeVerify ∧ r.kind = .write))
    (hmore : ((a.setVisit v .complete).moveFrontier).frontier < ((a.setVisit v .complete).moveFrontier).n) :
    sweepClosed b tag r u = setActive b (a.setVisit v .complete).moveFrontier u := by
  have hrun : a.gen = r.gen ∧ (u.bay b).sweep.status.running = true := ⟨hg.symm, by rw [hst]; rfl⟩
  simp only [sweepClosed, ha, hv, if_pos hrun, if_neg hop, if_neg (Nat.not_le.mpr hmore)]
  refine drainCheck_notDraining ?_
  rw [setActive, bay_modBay_same, sweep_modSweep, hst]
  nofun

theorem issueReads_none {b : BayIx} {s : State} {a : Active} (ha : (s.bay b).sweep.active = some a) (h : a.waitingRead = none) :
    issueReads b s = s := by
  have hone : issueRead b s = s := by simp only [issueRead, ha, h]
  have hall (k : Nat) : repeatBay (issueRead b) k s = s := by
    induction k with
    | zero => rfl
    | succ k ih => rw [repeatBay, hone, ih]
  exact hall 8

/-- The close of a sweep's command whose own effects are one change of the bay. -/
theorem exec_visitClosed {b : BayIx} {tag : Tag} {r : Rec} {st : DriveStatus} {s : State} {a : Active} {v : Nat} (F : Bay → Bay)
    (hr : (s.bay b).tracker.recs[tag] = some r) (ho : r.origin = .sweep) (hv : r.visit = some v)
    (ha : (s.bay b).sweep.active = some a) (hg : r.gen = a.gen) (hst : (s.bay b).sweep.status = .active)
    (hop : ¬ (a.cfg.op = .writeVerify ∧ r.kind = .write))
    (hmore : ((a.setVisit v .complete).moveFrontier).frontier < ((a.setVisit v .complete).moveFrontier).n)
    (hread : ((a.setVisit v .complete).moveFrontier).waitingRead = none) (hw : (s.bay b).tracker.waiting = [])
    (hF : closeEffects b r st (s.binned b r) = s.modBay b F) (hsweep : (F (s.bay b)).sweep = (s.bay b).sweep)
    (hwait : (F (s.bay b)).tracker.waiting = (s.bay b).tracker.waiting) :
    exec (.completion b tag st) s = .next (s.modBay b (fun x =>
      (F x |>.modSweep fun w => { w with active := some (a.setVisit v .complete).moveFrontier }).freed tag)) := by
  have hbay := bay_modBay_same s b F
  have hclosed := sweepClosed_complete (tag := tag) (u := s.modBay b F) (by rw [hbay, hsweep]; exact ha) hv hg
    (by rw [hbay, hsweep]; exact hst) hop hmore
  have hall : ((setActive b (a.setVisit v .complete).moveFrontier (s.modBay b F)).modBay b (·.freed tag)) = s.modBay b (fun x =>
      (F x |>.modSweep fun w => { w with active := some (a.setVisit v .complete).moveFrontier }).freed tag) := by
    rw [setActive, modBay_modBay, modBay_modBay]
  rw [close_part b tag r st s hr (by simp [ho]), tellOwner, ho, hF]
  simp only [hclosed]
  rw [hall, assignOne_none (by rw [bay_modBay_same]; exact hwait.trans hw)]
  refine congrArg Host.Outcome.next ?_
  unfold readAtOnce
  split
  · exact issueReads_none (by rw [bay_modBay_same]; rfl) hread
  · next h _ => exact absurd (ho.symm.trans h) nofun
  · rfl

/-! ### The SHIP record (R145) -/

theorem exec_shipClosed {b : BayIx} {tag : Tag} {r : Rec} {st : DriveStatus} {s : State} (hr : (s.bay b).tracker.recs[tag] = some r)
    (ho : r.origin = .ship) : exec (.completion b tag st) s =
      .next (assignOne b ((shipClosed b r st (closeEffects b r st (s.binned b r))).modBay b (·.freed tag))) := by
  rw [close_part b tag r st s hr (by simp [ho]), tellOwner, ho]
  simp only [readAtOnce, ho]

theorem stamping_iff (x : Bay) (gen : Nat) :
    x.stamping gen = true ↔ x.plan.state = .running ∧ x.plan.step = .writing ∧ x.plan.gen = gen := decide_eq_true_iff

theorem shipNameOf_eq {st : DriveStatus} {name : ShipName} (hgood : ∀ a, st = .good a → name = .written)
    (hbad : (∀ a, st ≠ .good a) → name = .failed) : shipNameOf st = name := by
  cases st with
  | good a => exact (hgood a rfl).symm
  | mediaError f => exact (hbad nofun).symm
  | otherError => exact (hbad nofun).symm

end Sys2Proof.Machine

/-! ### The statement -/

namespace Sys2Proof.Proofs

open Sys2Proof.Machine

/-- Settles O60, by the owner of the record that closes. -/
theorem partRecordsClose : Obligations.PartRecordsClose := by
  refine ⟨fun b tag r a s => ?_, fun b tag r a v c s => ?_, fun b tag r st s => ?_, fun b tag r a s g t => ?_⟩
  · intro x supported hr ho hk hst on quiet
    have hsup (h : supported) : answerSupported a = true := (answerSupported_iff a).mpr h
    refine ⟨fun h hcap ⟨hheld, hplan, hw, hq⟩ => ?_, fun h hcap ⟨hheld, hplan, hw, hq⟩ => ?_, fun c h hcap hc => ?_, fun h => ?_,
      fun g hw hf => ?_⟩
    · rw [exec_learn_quiet hr ho hk hst (hsup h) (Or.inl hcap) hheld hplan hw hq]
      refine congrArg Host.Outcome.next (modBay_eq ?_)
      rw [learned_none hcap]
      simp only [Bay.learns, Bay.freed]
      rfl
    · rw [exec_learn_quiet hr ho hk hst (hsup h) (Or.inr hcap) hheld hplan hw hq]
      refine congrArg Host.Outcome.next (modBay_eq ?_)
      rw [learned_some hcap]
      rfl
    · refine ⟨_, exec_learnClosed hr ho hk, ?_⟩
      have hpower : ((assignOne b ((learnClosed b (.good (some a)) s).modBay b (·.freed tag))).bay b).power =
          { x.power with state := .off, spinTimer := none, learnWait := false, lastFault := some (.capacityChanged, s.rack.ms) } := by
        rw [power_assignOne, bay_modBay_same, learnClosed_changed hst (hsup h) hcap hc, Bay.freed, power_forcedOff]
      simp only [hpower]
      exact ⟨trivial, trivial, hcap⟩
    · refine ⟨_, exec_learnClosed hr ho hk, ?_⟩
      have hpower : ((assignOne b ((learnClosed b (.good (some a)) s).modBay b (·.freed tag))).bay b).power =
          { x.power with
            state := .off, spinTimer := none, learnWait := false, unsupported := true, lastFault := some (.unsupported, s.rack.ms) } := by
        rw [power_assignOne, bay_modBay_same, learnClosed_unsupported hst (Bool.eq_false_iff.mpr fun e => h ((answerSupported_iff a).mp e)),
          Bay.freed, power_forcedOff, bay_modBay_same, rack_modBay]
        rfl
      simp only [hpower, and_self]
    · have hset : x.power.state ≠ .settling := fun e => by cases hst.symm.trans e
      have hne : g ≠ tag := fun e => by
        have hfree : x.tracker.recs[g] = none := hf.2.1
        rw [e, hr] at hfree
        cases hfree
      refine ⟨_, exec_learnClosed hr ho hk, ?_⟩
      have hclosed : assignOne b ((learnClosed b .otherError s).modBay b (·.freed tag)) = s.modBay b (fun x =>
          ({ x with power := { x.power with learnWait := false } }.issues g
            { hostRecord .capacity 0 0 s.rack.us none false 0 none with origin := .learn }).freed tag) := by
        rw [learnClosed_error hst, askLearn_issues hset hw hf, modBay_modBay, assignOne_none]
        rw [bay_modBay_same]
        exact hw
      simp only [hclosed, bay_modBay_same]
      refine ⟨rfl, Vector.getElem_set_self _, ?_⟩
      simp [Bay.freed, Bay.issues, Fin.val_inj, hne.symm]
  · intro x a' hr ho hv ha hg hst hmore hread hw closes
    refine ⟨fun hk => ?_, fun hk hop hn => ?_⟩
    · refine (exec_visitClosed (fun x => { x with tracker := x.tracker.binLatency r.kind (s.rack.us - r.issue).toNat }) hr ho hv ha hg hst
        (fun h => by rw [hk] at h; exact absurd h.2 nofun) hmore hread hw (closeEffects_read_good c _ hk) rfl ?_).trans ?_
      · rw [hk]
        rfl
      · rfl
    · refine (exec_visitClosed (fun x => { x with
          zm := x.zm.write (writeEffect .sweep r.pass x.sweep.passCounter) r.lba (r.lba + r.count - 1)
          tracker := (x.tracker.binLatency .write (s.rack.us - r.issue).toNat).joinWrite r.lba (r.lba + r.count - 1) }) hr ho hv ha hg hst
        (fun h => hop h.1) hmore hread hw ?_ rfl rfl).trans ?_
      · rw [closeEffects_write_good c _ hk hn, State.binned, modBay_modBay, hk, ho]
      · refine congrArg Host.Outcome.next (modBay_eq ?_)
        rw [hk]
        rfl
  · intro hr ho u y told name hgood hbad w stamping
    have hname := shipNameOf_eq hgood hbad
    have htold (t : State) (ht : shipClosed b r st u = t) : told t := (exec_shipClosed hr ho).trans (ht ▸ rfl)
    have hw : u.modBay b (·.modShip (fun p => { p with name := shipNameOf st })) = w := by
      rw [hname]
      rfl
    refine ⟨fun hn => htold w ?_, fun k hs hc => htold _ ?_⟩
    · have hnot : ¬ (u.bay b).stamping r.gen = true := mt (stamping_iff _ _).mp hn
      exact (if_neg hnot).trans hw
    · have hyes : (u.bay b).stamping r.gen = true := (stamping_iff _ _).mpr hs
      have hwb : (w.bay b).plan = y.plan := by rw [← hw, bay_modBay_same] <;> rfl
      refine (if_pos hyes).trans ?_
      rw [hw, advancePlan_eq (hwb ▸ hs.1) (hwb ▸ hc)]
      rfl
  · intro x hr ho hk hst hsize hdepth hlow hhigh hcap learned hgrant drain drained ends
    have hsup : answerSupported a = true := (answerSupported_iff a).mpr ⟨hsize, hdepth, hlow, hhigh⟩
    obtain ⟨hkplan, _, hkheld, hklongest, hktime⟩ := learned_keeps a.capacity x
    let won : State := s.modBay b (fun x =>
      let y := learned x
      { y with power := { y.power with
        state := .on, spinTimer := none, longest := max x.power.longest (s.rack.ms - x.power.grantTime).toNat } })
    have hwon : won.bay b = _ := bay_modBay_same s b _
    have hg : g = grantTest won := runs_one (f := grantTest) (fun _ => rfl) hgrant
    have hlearned : (s.modBay b (Bay.learned a.capacity)).modBay b (·.modPower (fun w =>
        { w with state := .on, spinTimer := none, longest := max w.longest (s.rack.ms - w.grantTime).toNat })) = won := by
      rw [modBay_modBay]
      refine modBay_eq ?_
      have hlongest : max (x.learned a.capacity).power.longest (s.rack.ms - (x.learned a.capacity).power.grantTime).toNat =
          max x.power.longest (s.rack.ms - x.power.grantTime).toNat := by rw [hklongest, hktime]
      exact congrArg (fun n => (x.learned a.capacity).modPower (fun w => { w with state := .on, spinTimer := none, longest := n })) hlongest
    have hheld : (won.bay b).lane.held = x.lane.held := by
      rw [hwon]
      exact hkheld
    have hdrained : drainHeld b (grantTest won) = drained := by
      rw [drainHeld_granted, hheld, ← hg]
      rfl
    have hclosed : learnClosed b (.good (some a)) s = testRescan b (planToldOn b drained) := by
      rw [learnClosed_supported hst hsup hcap, ← hdrained, ← hlearned]
      rfl
    have hends (u : State) (hu : planToldOn b drained = u) : ends u := fun hruns => by
      rw [exec_learnClosed hr ho hk, hclosed, hu, runs_one (f := testRescan b) (fun _ => rfl) hruns]
      rfl
    obtain ⟨_, _, hslots, hgbay⟩ := grantTest_keeps won
    have hplan : (drained.bay b).plan = x.plan := by
      rw [show drained.bay b = _ from bay_modBay_same g b _]
      refine (drainsHeld_keeps s.rack.us x.lane.held (g.bay b)).1.trans ?_
      rw [hg, hgbay b, hwon]
      exact hkplan
    have hrack : drained.rack.slots = s.rack.slots := by
      rw [show drained.rack = g.rack from rack_modBay g b _, hg, hslots]
      rfl
    refine ⟨fun h => hends _ (planToldOn_other (by rw [hplan]; exact h)), fun hrun hs => hends _ ?_, fun k hrun hs hc => hends _ ?_⟩
    · rw [planToldOn_waits (by rw [hplan]; exact hrun) (by rw [hplan]; exact hs), hplan]
    · rw [planToldOn_poweringUp (k := k) (by rw [hplan]; exact hrun) (by rw [hplan]; exact hs) (by rw [hplan]; exact hc), hrack]
      rfl

end Sys2Proof.Proofs
end

section
/-! SUPPORT. The start of a rescan (R105, R106), its chunks (R108, R109), its end and the restoration of the suspended phase (R110 to
R112); and the statement O51, settled from them. -/

namespace Sys2Proof.Machine

/-! ### Requests of the part in ON (R24) -/

/-- A request of the part outside SETTLING touches the tracker and the lane of its bay alone, and not the unsettled-write list. -/
theorem requestTag_keeps {b : BayIx} {r : Rec} {s : State} (ho : r.origin ≠ .host) (hp : (s.bay b).power.state ≠ .settling) :
    ∃ (t : Tracker) (l : Lane), t.unsettled = (s.bay b).tracker.unsettled
      ∧ requestTag b r s = s.modBay b (fun x => { x with tracker := t, lane := l }) := by
  unfold requestTag
  simp only [if_neg fun h : (s.bay b).power.state = .settling ∧ r.origin ≠ .settle => hp h.1]
  split
  · next tag _ _ =>
    exact ⟨{ (s.bay b).tracker with recs := (s.bay b).tracker.recs.set tag (some (fixRec s b r)) },
      (s.bay b).lane.sendDown (.command tag r.kind r.lba r.count []), rfl, (openRec_part b tag r s ho).trans (modBay_eq rfl)⟩
  · exact ⟨{ (s.bay b).tracker with waiting := (s.bay b).tracker.waiting ++ [r] }, (s.bay b).lane, rfl, modBay_eq rfl⟩

/-! ### Chunks (R108) -/

/-- What the issue of a chunk's commands leaves: all but the tracker, the lane and the states of the rescan's chunks. -/
structure ChunkKeeps (b : BayIx) (s t : State) : Prop where
  only : OnlyBay b s t
  zm : (t.bay b).zm = (s.bay b).zm
  plan : (t.bay b).plan = (s.bay b).plan
  power : (t.bay b).power = (s.bay b).power
  settings : (t.bay b).settings = (s.bay b).settings
  counters : (t.bay b).counters = (s.bay b).counters
  annex : (t.bay b).annex = (s.bay b).annex
  unsettled : (t.bay b).tracker.unsettled = (s.bay b).tracker.unsettled
  sweep : { (t.bay b).sweep with rescan := none } = { (s.bay b).sweep with rescan := none }
  rescan : (t.bay b).sweep.rescan.map (fun q => { q with chunks := [] }) = (s.bay b).sweep.rescan.map (fun q => { q with chunks := [] })

theorem ChunkKeeps.refl (b : BayIx) (s : State) : ChunkKeeps b s s :=
  ⟨⟨rfl, rfl, fun _ _ => rfl⟩, rfl, rfl, rfl, rfl, rfl, rfl, rfl, rfl, rfl⟩

theorem ChunkKeeps.trans {b : BayIx} {s t u : State} (h : ChunkKeeps b s t) (k : ChunkKeeps b t u) : ChunkKeeps b s u :=
  ⟨⟨k.only.1.trans h.only.1, k.only.2.1.trans h.only.2.1, fun c hc => (k.only.2.2 c hc).trans (h.only.2.2 c hc)⟩,
    k.zm.trans h.zm, k.plan.trans h.plan, k.power.trans h.power, k.settings.trans h.settings, k.counters.trans h.counters,
    k.annex.trans h.annex, k.unsettled.trans h.unsettled, k.sweep.trans h.sweep, k.rescan.trans h.rescan⟩

/-- The issue of a chunk's command marks the chunk and asks for a part tag, or does nothing. -/
theorem issueChunk_cases (b : BayIx) (s : State) : issueChunk b s = s ∨ ∃ (q : Rescan) (j : Nat) (st : VisitState) (r : Rec),
    (s.bay b).sweep.rescan = some q ∧ (s.bay b).power.state = .on ∧ r.origin = .rescan
      ∧ issueChunk b s = requestTag b r (setRescan b (some (q.setChunk j st)) s) := by
  unfold issueChunk
  simp only
  split
  · next q z c hq _ _ =>
    split
    · next hon =>
      split
      · next j _ => exact Or.inr ⟨q, j, .reading, q.chunkRec z c j true, hq, hon.1, rfl, rfl⟩
      · split
        · next j _ =>
          split
          · exact Or.inr ⟨q, j, .writing, q.chunkRec z c j false, hq, hon.1, rfl, rfl⟩
          · exact Or.inl rfl
        · exact Or.inl rfl
    · exact Or.inl rfl
  · exact Or.inl rfl

theorem issueChunk_keeps (b : BayIx) (s : State) : ChunkKeeps b s (issueChunk b s) := by
  rcases issueChunk_cases b s with h | ⟨q, j, st, r, hq, hon, ho, h⟩
  · rw [h]
    exact ChunkKeeps.refl b s
  · have hbay := bay_modBay_same s b (·.modSweep (fun w => { w with rescan := some (q.setChunk j st) }))
    obtain ⟨t, l, hu, hreq⟩ := requestTag_keeps (b := b) (r := r) (s := setRescan b (some (q.setChunk j st)) s)
      (by rw [ho]; nofun) (by rw [setRescan, hbay]; exact fun e => by cases hon.symm.trans e)
    rw [setRescan, hbay] at hu
    rw [h, hreq, setRescan, modBay_modBay]
    have hy := bay_modBay_same s b (fun x => { x.modSweep (fun w => { w with rescan := some (q.setChunk j st) }) with tracker := t, lane := l })
    refine
      { only := onlyBay_modBay b _ s, zm := (congrArg Bay.zm hy :), plan := (congrArg Bay.plan hy :), power := (congrArg Bay.power hy :)
        settings := (congrArg Bay.settings hy :), counters := (congrArg Bay.counters hy :), annex := (congrArg Bay.annex hy :)
        unsettled := (congrArg (fun y : Bay => y.tracker.unsettled) hy :).trans hu
        sweep := (congrArg (fun y : Bay => { y.sweep with rescan := none }) hy :), rescan := ?_ }
    rw [hy, hq]
    rfl

theorem repeatBay_keeps (b : BayIx) (k : Nat) (s : State) : ChunkKeeps b s (repeatBay (issueChunk b) k s) := by
  induction k generalizing s with
  | zero => exact ChunkKeeps.refl b s
  | succ k ih => exact (issueChunk_keeps b s).trans (ih _)

section
variable {b : BayIx} {s : State} {q : Rescan} {z c j : Nat} (hq : (s.bay b).sweep.rescan = some q) (hz : (s.bay b).zm.z = some z)
  (hc : (s.bay b).power.cap = some c) (hp : (s.bay b).power.state = .on) (ha : q.awaitLink = false)
include hq hz hc hp ha

theorem issueChunk_read (hj : q.waitingRead = some j) :
    issueChunk b s = requestTag b (q.chunkRec z c j true) (setRescan b (some (q.setChunk j .reading)) s) := by
  simp only [issueChunk, hq, hz, hc, if_pos (And.intro hp ha), hj]

theorem issueChunk_write (hr : q.waitingRead = none) (hj : q.nextChunk = some j) (hl : q.inFlight < q.limit) :
    issueChunk b s = requestTag b (q.chunkRec z c j false) (setRescan b (some (q.setChunk j .writing)) s) := by
  simp only [issueChunk, hq, hz, hc, if_pos (And.intro hp ha), hr, hj, if_pos hl]

end

/-! ### The start of a rescan (R105, R106) -/

theorem testRescan_none {b : BayIx} {s : State} (h : s.rescanMayStart b = false) : testRescan b s = s := if_neg (Bool.eq_false_iff.mp h)

theorem testRescan_takes {b : BayIx} {s : State} (h : s.rescanMayStart b = true) :
    testRescan b s = takeRescan b (s.onSweep b) (suspendPhase b (s.onSweep b) s) := if_pos h

theorem rescanMayStart_empty {b : BayIx} {s : State} (h : (s.bay b).zm.queue = []) : s.rescanMayStart b = false := by
  simp [State.rescanMayStart, h]

theorem rescanMayStart_of {b : BayIx} {s : State} {e : QEntry} {rest : List QEntry} (hr : (s.bay b).plan.state = .running)
    (hp : (s.bay b).power.state = .on) (hq : (s.bay b).zm.queue = e :: rest) (hn : (s.bay b).sweep.rescan = none)
    (ht : s.phaseTakesRescan b = true) : s.rescanMayStart b = true := by
  simp [State.rescanMayStart, Bay.running, hr, hp, hq, hn, ht]

/-- The withdrawal of a sweep's requests leaves the sweep's configuration (R106). -/
theorem withdrawSweep_active {b : BayIx} {s : State} {a : Active} (ha : (s.bay b).sweep.active = some a) :
    ∃ (a' : Active) (l : List Rec), a'.cfg = a.cfg ∧ withdrawSweep b s = s.modBay b (fun x => { x with
      tracker := { x.tracker with waiting := l }, sweep := { x.sweep with active := some a' } }) := by
  obtain ⟨hrewound, hform⟩ := rewind_takeBacks ((s.bay b).tracker.waiting.filter (fun r => r.origin = .sweep)) (s.bay b).sweep
    fun r hr => of_decide_eq_true (List.mem_filter.mp hr).2
  rw [ha, Option.map_some, Option.map_eq_some_iff] at hrewound
  obtain ⟨a', ha', hsame⟩ := hrewound
  refine ⟨a', (s.bay b).tracker.waiting.filter (fun r => !decide (r.origin = .sweep)), (congrArg Active.cfg hsame :), ?_⟩
  rw [withdrawSweep, withdraw, modBay_modBay]
  refine modBay_eq ?_
  simp only [Bay.modTracker, Bay.modSweep]
  rw [hform, ha']

/-- The start of a rescan from the head of the queue, up to the chunks that are issued (R106). -/
theorem takeRescan_keeps {b : BayIx} {isSweep : Bool} {s : State} {e : QEntry} {rest : List QEntry} (hq : (s.bay b).zm.queue = e :: rest) :
    ChunkKeeps b (s.modBay b (fun x => (x.modZm (fun m => { m with queue := rest })).modSweep (fun w =>
      { w with rescan := some ((s.bay b).rescanRecord e isSweep), gen := w.gen + 1 }))) (takeRescan b isSweep s) := by
  simp only [takeRescan, hq]
  exact repeatBay_keeps b 16 _

/-- The bay whose current phase has been suspended for a rescan, with what is left of its waiting list and its sweep (R106). -/
def Bay.suspends (isSweep : Bool) (k : SlotIx) (l : List Rec) (a : Option Active) (x : Bay) : Bay :=
  { x with
    tracker := { x.tracker with waiting := l }
    sweep := { x.sweep with
      active := a, status := if isSweep then .suspended else x.sweep.status
      saved := some { isSweep := isSweep, slot := k, passClosed := false, timeExpired := false } } }

theorem suspendPhase_dwell {b : BayIx} {s : State} {k : SlotIx} (hk : (s.bay b).plan.cursor = some k) :
    suspendPhase b false s = s.modBay b (Bay.suspends false k (s.bay b).tracker.waiting (s.bay b).sweep.active) := by
  simp only [suspendPhase, hk]
  exact modBay_eq rfl

theorem suspendPhase_sweep {b : BayIx} {s : State} {k : SlotIx} {a : Active} (hk : (s.bay b).plan.cursor = some k)
    (ha : (s.bay b).sweep.active = some a) : ∃ (a' : Active) (l : List Rec), a'.cfg = a.cfg
      ∧ suspendPhase b true s = s.modBay b (Bay.suspends true k l (some a')) := by
  obtain ⟨a', l, hcfg, hw⟩ := withdrawSweep_active ha
  refine ⟨a', l, hcfg, ?_⟩
  simp only [suspendPhase, hk, if_true, hw, modBay_modBay]
  exact modBay_eq rfl

/-- What the start of a rescan makes of the bay (R106). -/
theorem takeRescan_starts {b : BayIx} {isSweep : Bool} {k : SlotIx} {l : List Rec} {a : Option Active} {s : State} {e : QEntry}
    {rest : List QEntry} {z c : Nat} (hq : (s.bay b).zm.queue = e :: rest) (hz : (s.bay b).zm.z = some z)
    (hc : (s.bay b).power.cap = some c) :
    let x := s.bay b
    let t := takeRescan b isSweep (s.modBay b (Bay.suspends isSweep k l a))
    let y := t.bay b
    OnlyBay b s t ∧ y.zm = { x.zm with queue := rest }
      ∧ (∃ q, y.sweep.rescan = some q ∧ q.zone = e.zone ∧ q.r = e.r ∧ q.done = 0 ∧ q.p = x.sweep.passCounter
          ∧ q.tol = (x.suspends isSweep k l a).rescanTol isSweep ∧ q.limit = (x.suspends isSweep k l a).rescanLimit isSweep
          ∧ q.m = (min ((e.zone + 1) * 2 ^ z) c - e.zone * 2 ^ z + 255) / 256)
      ∧ y.sweep.saved = some { isSweep := isSweep, slot := k, passClosed := false, timeExpired := false }
      ∧ y.sweep.status = (if isSweep then .suspended else x.sweep.status) ∧ y.sweep.passCounter = x.sweep.passCounter
      ∧ y.plan = x.plan ∧ y.power = x.power ∧ y.settings = x.settings ∧ y.counters = x.counters ∧ y.annex = x.annex
      ∧ y.tracker.unsettled = x.tracker.unsettled := by
  intro x t y
  have hsus : (s.modBay b (Bay.suspends isSweep k l a)).bay b = x.suspends isSweep k l a := bay_modBay_same s b _
  have hkeeps := takeRescan_keeps (isSweep := isSweep) (s := s.modBay b (Bay.suspends isSweep k l a)) (by rw [hsus]; exact hq)
  rw [hsus, modBay_modBay] at hkeeps
  obtain ⟨honly, hzm, hplan, hpower, hsettings, hcounters, hannex, hunsettled, hsweep, hrescan⟩ := hkeeps
  rw [bay_modBay_same] at hzm hplan hpower hsettings hcounters hannex hunsettled hsweep hrescan
  obtain ⟨q, hq', hsame⟩ := Option.map_eq_some_iff.mp hrescan
  have hm : q.m = zoneChunks (((x.suspends isSweep k l a).zm.z).getD 0) (((x.suspends isSweep k l a).power.cap).getD 0) e.zone :=
    (congrArg Rescan.m hsame :)
  have hchunks : zoneChunks (((x.suspends isSweep k l a).zm.z).getD 0) (((x.suspends isSweep k l a).power.cap).getD 0) e.zone =
      (min ((e.zone + 1) * 2 ^ z) c - e.zone * 2 ^ z + 255) / 256 := by
    change zoneChunks (x.zm.z.getD 0) (x.power.cap.getD 0) e.zone = _
    rw [show x.zm.z = some z from hz, show x.power.cap = some c from hc]
    rfl
  refine ⟨⟨honly.1, honly.2.1, fun d hd => (honly.2.2 d hd).trans (bay_modBay_other s b d _ hd)⟩, hzm,
    ⟨q, hq', (congrArg Rescan.zone hsame :), (congrArg Rescan.r hsame :), (congrArg Rescan.done hsame :), (congrArg Rescan.p hsame :),
      (congrArg Rescan.tol hsame :), (congrArg Rescan.limit hsame :), hm.trans hchunks⟩,
    (congrArg Sweep.saved hsweep :), (congrArg Sweep.status hsweep :), (congrArg Sweep.passCounter hsweep :), hplan, hpower, hsettings,
    hcounters, hannex, hunsettled⟩

/-! ### The close of a chunk's record (R108, R109) -/

section
variable {b : BayIx} {r : Rec} {u : State} {j : Nat}

theorem rescanClosed_none (h : (u.bay b).sweep.rescan = none ∨ ∀ q, (u.bay b).sweep.rescan = some q → r.gen ≠ q.gen) :
    rescanClosed b r u = u := by
  unfold rescanClosed
  split
  · next q j hq _ =>
    have hgen : ¬ q.gen = r.gen := h.elim (fun hn => by rw [hn] at hq; cases hq) (fun hn e => hn q hq e.symm)
    exact if_neg hgen
  · rfl

variable {q : Rescan} (hq : (u.bay b).sweep.rescan = some q) (hj : r.visit = some j) (hg : r.gen = q.gen)
include hq hj hg

theorem rescanClosed_write (hk : r.kind = .write) : rescanClosed b r u = setRescan b (some (q.setChunk j .written)) u := by
  simp only [rescanClosed, hq, hj, if_pos hg.symm, if_pos hk]

theorem rescanClosed_read (hk : r.kind = .read) : rescanClosed b r u =
    if (q.setChunk j .complete).passDone then
      rescanPassClose b (q.setChunk j .complete) (setRescan b (some (q.setChunk j .complete)) u)
    else setRescan b (some (q.setChunk j .complete)) u := by
  have hn : ¬ r.kind = .write := by rw [hk]; nofun
  simp only [rescanClosed, hq, hj, if_pos hg.symm, if_neg hn]

end

theorem passDone_iff (q : Rescan) :
    q.passDone = true ↔ q.m ≤ (q.chunks.filter (fun e => decide (e.2 = .complete))).length := decide_eq_true_iff

/-- A chunk that has just become WRITTEN is read at once. -/
theorem waitingRead_written (q : Rescan) (j : Nat) : (q.setChunk j .written).waitingRead.isSome = true := by
  rw [Rescan.waitingRead, Option.isSome_map]
  exact find_put j q.chunks

/-! ### The end of a rescan (R111, R112) -/

theorem rescanEnd_saved {b : BayIx} {s : State} {v : Saved} (h : (s.bay b).sweep.saved = some v) : rescanEnd b s =
    if ((setRescan b none s).bay b).nextRescan v then takeRescan b v.isSweep (setRescan b none s) else restore b v (setRescan b none s) := by
  have hsaved : ((setRescan b none s).bay b).sweep.saved = some v := by
    rw [setRescan, bay_modBay_same]
    exact h
  simp only [rescanEnd, hsaved]

theorem nextRescan_iff (x : Bay) (v : Saved) : x.nextRescan v = true ↔
    x.zm.queue ≠ [] ∧ x.power.state = .on ∧ v.timeExpired = false ∧ ¬ (v.isSweep = true ∧ v.passClosed = true) := by
  unfold Bay.nextRescan
  simp only [Bool.and_eq_true, Bool.not_eq_true', decide_eq_true_eq, List.isEmpty_eq_false_iff, Bool.and_eq_false_iff, and_assoc]
  refine and_congr_right fun _ => and_congr_right fun _ => and_congr_right fun _ => ?_
  cases v.isSweep <;> cases v.passClosed <;> simp

theorem restore_dwell {b : BayIx} {v : Saved} {s : State} (h : v.isSweep = false) : restore b v s =
    testRescan b (if v.timeExpired then advancePlan b (s.modBay b (·.modSweep (fun w => { w with saved := none })))
      else s.modBay b (·.modSweep (fun w => { w with saved := none }))) := by
  simp only [restore, h, Bool.false_eq_true, if_false]

theorem restore_sweep {b : BayIx} {v : Saved} {s : State} (h : v.isSweep = true) :
    restore b v s = testRescan b (restoreSweep b v (s.modBay b (·.modSweep (fun w => { w with saved := none })))) := by
  simp only [restore, h, if_true]

/-- The suspended sweep is put back by the two marks of the saved context. -/
theorem restoreSweep_eq {b : BayIx} {v : Saved} {s t : State} {a : Active} (hres : resumeSweep b s = t) (ha : (t.bay b).sweep.active = some a) :
    (v.passClosed = false → v.timeExpired = false → restoreSweep b v s = pumpSweep b t)
    ∧ (v.passClosed = true → v.timeExpired = false →
        restoreSweep b v s = if a.morePasses then pumpSweep b (nextPass b a t) else nextPass b a t)
    ∧ (v.passClosed = false → v.timeExpired = true → restoreSweep b v s = expireLimit b t)
    ∧ (v.passClosed = true → v.timeExpired = true → restoreSweep b v s = endAfterClose b a t) := by
  subst hres
  refine ⟨fun hp ht => ?_, fun hp ht => ?_, fun hp ht => ?_, fun hp ht => ?_⟩ <;> simp only [restoreSweep, ha, hp, ht]

theorem morePasses_iff (a : Active) : a.morePasses = true ↔ a.passIx + 1 < a.cfg.passes := decide_eq_true_iff

theorem nextPass_more {b : BayIx} {a : Active} {s : State} (h : a.passIx + 1 < a.cfg.passes) :
    nextPass b a s = testRescan b (s.modBay b (·.nextPass a)) := by
  refine (if_pos ((morePasses_iff a).mpr h)).trans (congrArg (testRescan b) (modBay_eq ?_))
  rw [Bay.modSweep, startPass_eq]
  rfl

theorem nextPass_done {b : BayIx} {a : Active} {s : State} (h : ¬ a.passIx + 1 < a.cfg.passes) :
    nextPass b a s = endSweep b .passesDone a.passIx a.frontier s := if_neg (mt (morePasses_iff a).mp h)

theorem endAfterClose_more {b : BayIx} {a : Active} {s : State} (h : a.passIx + 1 < a.cfg.passes) :
    endAfterClose b a s = endSweep b .timeLimit (a.passIx + 1) 0 s := by
  rw [endAfterClose, if_pos ((morePasses_iff a).mpr h)]

theorem endAfterClose_done {b : BayIx} {a : Active} {s : State} (h : ¬ a.passIx + 1 < a.cfg.passes) :
    endAfterClose b a s = endSweep b .passesDone (a.passIx + 1) 0 s := by
  rw [endAfterClose, if_neg (mt (morePasses_iff a).mp h)]

/-- The reads and visits of a restored sweep, as commands run one after another. -/
theorem runs_pump {b : BayIx} {s t : State} (h : Runs (List.replicate 8 (.visitReadIssue b) ++ List.replicate 8 (.visitStart b)) s t) :
    t = pumpSweep b s := by
  obtain ⟨u, hreads, hvisits⟩ := runs_append h
  rw [runs_repeat b _ (issueRead b) (fun _ => rfl) 8 s u hreads] at hvisits
  exact runs_repeat b _ (startVisit b) (fun _ => rfl) 8 _ t hvisits

theorem runs_pump_test {b : BayIx} {s t : State}
    (h : Runs (List.replicate 8 (.visitReadIssue b) ++ List.replicate 8 (.visitStart b) ++ [.rescanStart b]) s t) :
    t = testRescan b (pumpSweep b s) := by
  obtain ⟨u, hpump, htest⟩ := runs_append h
  rw [runs_one (f := testRescan b) (fun _ => rfl) htest, runs_pump hpump]

end Sys2Proof.Machine

/-! ### The statement -/

namespace Sys2Proof.Proofs

open Sys2Proof.Machine

/-- Settles O51: the start, the chunks' commands and their closes, and the end of a rescan with the phase that it suspended. -/
theorem rescanSteps : Obligations.RescanSteps := by
  refine ⟨fun b k e rest z c s => ?_, fun b tag q z c j s => ?_, fun b tag r st j s => ?_, fun b v k s => ?_⟩
  · intro x
    refine ⟨fun hq => congrArg Host.Outcome.next (testRescan_none (rescanMayStart_empty hq)), fun hrun hk hon hq hn hz hc => ?_⟩
    intro starts
    have hslot := cursorSlot_eq (b := b) hk
    refine ⟨fun d hb hstep => ?_, fun f a hb hst ha hop => ?_⟩
    · have hsweep : s.onSweep b = false := by simp only [State.onSweep, hslot, hb]
      have hphase : s.phaseTakesRescan b = true := by
        simp only [State.phaseTakesRescan, hslot, hb]
        exact decide_eq_true hstep
      refine ⟨_, congrArg Host.Outcome.next (testRescan_takes (rescanMayStart_of hrun hon hq hn hphase)), ?_⟩
      rw [hsweep, suspendPhase_dwell hk]
      exact takeRescan_starts hq hz hc
    · have hsweep : s.onSweep b = true := by simp only [State.onSweep, hslot, hb]
      have hphase : s.phaseTakesRescan b = true := by
        simp only [State.phaseTakesRescan, hslot, hb]
        rw [show (s.bay b).sweep.active = some a from ha]
        simp only [show (s.bay b).sweep.status = .active from hst, decide_true, Bool.true_and, decide_eq_true_eq]
        exact hop
      obtain ⟨a', l, hcfg, hsus⟩ := suspendPhase_sweep hk ha
      refine ⟨_, congrArg Host.Outcome.next (testRescan_takes (rescanMayStart_of hrun hon hq hn hphase)), ?_⟩
      rw [hsweep, hsus, ← hcfg]
      exact takeRescan_starts hq hz hc
  · intro x hq hz hc hp ha hw hf lba count issues
    have hset : x.power.state ≠ .settling := fun e => by cases hp.symm.trans e
    refine ⟨fun hj => congrArg Host.Outcome.next ?_, fun hr hj hl => congrArg Host.Outcome.next ?_⟩
    · rw [issueChunk_read hq hz hc hp ha hj, setRescan,
        requestTag_modSweep _ hset hw hf (Or.inr rfl) (show (q.chunkRec z c j true).kind ≠ .flush from nofun)]
      rfl
    · rw [issueChunk_write hq hz hc hp ha hr hj hl, setRescan,
        requestTag_modSweep _ hset hw hf (Or.inr rfl) (show (q.chunkRec z c j false).kind ≠ .flush from nofun)]
      rfl
  · intro hr ho hv u y told
    have htold (t : State) (ht : rescanClosed b r u = t) (hwait : (t.bay b).tracker.waiting = y.tracker.waiting)
        (hread : r.kind = .write → ∃ q, (t.bay b).sweep.rescan = some q ∧ q.waitingRead.isSome) : told t := by
      obtain ⟨h1, h2⟩ := rescan_told b tag r st s t hr ho ht
      exact ⟨h1, fun hk hw => h2 hk (hwait.trans hw) (hread hk)⟩
    refine ⟨fun h hk => htold u (rescanClosed_none h) rfl (fun e => absurd (hk.symm.trans e) nofun), fun q hq hg => ?_⟩
    intro becomes now
    have hnow (q' : Rescan) : (now q').bay b = { y with sweep := { y.sweep with rescan := some q' } } := bay_modBay_same u b _
    refine ⟨fun hk => htold _ (rescanClosed_write hq hv hg hk) ?_ fun _ => ⟨becomes .written, ?_, waitingRead_written q j⟩, fun hk => ?_⟩
    · exact (congrArg (fun x : Bay => x.tracker.waiting) (hnow (becomes .written)) :)
    · exact (congrArg (fun x : Bay => x.sweep.rescan) (hnow (becomes .written)) :)
    · intro q' complete
      have hread (t : State) (ht : rescanClosed b r u = t) : told t := by
        obtain ⟨h1, _⟩ := rescan_told b tag r st s t hr ho ht
        exact ⟨h1, fun e => absurd (hk.symm.trans e) nofun⟩
      have hclosed := rescanClosed_read hq hv hg hk
      refine ⟨fun hless => hread _ ?_, fun hdone => ?_⟩
      · exact hclosed.trans (if_neg (mt (passDone_iff q').mp (Nat.not_le.mpr hless)))
      · intro stamped
        have hpass := hclosed.trans (if_pos ((passDone_iff q').mpr hdone))
        refine ⟨fun hmore => hread _ (hpass.trans ((if_pos hmore).trans ?_)),
          fun hlast => hread _ (hpass.trans ((if_neg (Nat.not_lt.mpr hlast)).trans ?_))⟩
        · rw [setRescan, setRescan, modBay_modBay, modBay_modBay]
          rfl
        · rw [modBay_modBay]
          rfl
  · intro hsaved hrun hcur x w again ends nxt pump back
    have hend := rescanEnd_saved hsaved
    have hwb : w.bay b = { x with sweep := { x.sweep with rescan := none } } := bay_modBay_same s b _
    have hagain : (w.bay b).nextRescan v = true ↔ again := by
      rw [hwb]
      exact nextRescan_iff _ v
    have hbackb (st : SweepStatus) : (back st).bay b = { x with sweep := { x.sweep with rescan := none, saved := none, status := st } } := by
      rw [show (back st).bay b = _ from bay_modBay_same w b _, hwb]
    have hrelease : w.modBay b (·.modSweep (fun w => { w with saved := none })) = back x.sweep.status := modBay_eq (by rw [hwb] <;> rfl)
    have hplan (st : SweepStatus) : ((back st).bay b).plan = x.plan := by rw [hbackb]
    refine ⟨fun e rest z c a hag hq hz hc ha => ?_, fun hno hdwell => ?_, fun a hno hsweep ha => ?_⟩
    · intro q t hruns
      have hrecord : (w.bay b).rescanRecord e v.isSweep = q := by
        rw [hwb]
        change ({ zone := e.zone, r := e.r, done := 0, p := x.sweep.passCounter, tol := x.rescanTol v.isSweep
                  limit := x.rescanLimit v.isSweep, m := zoneChunks (x.zm.z.getD 0) (x.power.cap.getD 0) e.zone, chunks := []
                  awaitLink := false, gen := x.sweep.gen + 1 } : Rescan) = q
        rw [hz, hc]
        cases hsw : v.isSweep with
        | false => simp only [q, hsw, Bool.false_eq_true, if_false]; rfl
        | true => simp only [q, hsw, if_true, Bay.rescanTol, Bay.rescanLimit, ha hsw]; rfl
      have htake : takeRescan b v.isSweep w = issueChunks b (s.modBay b (fun x => { x with
          zm := { x.zm with queue := rest }, sweep := { x.sweep with gen := x.sweep.gen + 1, rescan := some q } })) := by
        have hqueue : (w.bay b).zm.queue = e :: rest := by
          rw [hwb]
          exact hq
        simp only [takeRescan, hqueue, hrecord]
        exact congrArg (issueChunks b) (modBay_modBay s b _ _)
      exact (hend.trans (if_pos (hagain.mpr hag))).trans (htake.trans (runs_repeat b _ (issueChunk b) (fun _ => rfl) 16 _ t hruns).symm)
    · have hrestore : rescanEnd b s = restore b v w := hend.trans (if_neg (mt hagain.mp hno))
      rw [restore_dwell hdwell, hrelease] at hrestore
      refine ⟨fun ht t hruns => ?_, fun ht t hruns => ?_⟩
      · rw [hrestore, runs_one (f := testRescan b) (fun _ => rfl) hruns, ht]
        rfl
      · rw [hrestore, runs_one (f := testRescan b) (fun _ => rfl) hruns, ht, if_pos rfl,
          advancePlan_eq (k := k) (by rw [hplan]; exact hrun) (by rw [hplan]; exact hcur)]
        rfl
    · intro more resume done
      have hrestore : rescanEnd b s = testRescan b (restoreSweep b v (back x.sweep.status)) := by
        rw [← hrelease, ← restore_sweep hsweep]
        exact hend.trans (if_neg (mt hagain.mp hno))
      have hresume : resumeSweep b (back x.sweep.status) = back .active := modBay_modBay w b _ _
      have hactive (st : SweepStatus) : ((back st).bay b).sweep.active = some a := by
        rw [hbackb]
        exact ha
      obtain ⟨hpumps, hpasses, hexpires, hcloses⟩ := restoreSweep_eq (v := v) hresume (hactive .active)
      have hdone (reason : EndReason) (r : Option Resume) (pass frontier : Nat) (hr : resumeWritten a reason pass frontier x.sweep.resume = r)
          (h : restoreSweep b v (back x.sweep.status) = endSweep b reason pass frontier (back .active)) : done reason r := fun t hruns => by
        rw [hrestore, h, runs_one (f := testRescan b) (fun _ => rfl) hruns,
          endSweep_eq (k := k) _ _ _ (hactive .active) (by rw [hplan]; exact hrun) (by rw [hplan]; exact hcur), ← hr, hbackb]
        rfl
      refine ⟨fun hp ht t hruns => ?_, fun hp ht => ⟨fun hmore t hruns => ?_, fun hlast => ?_⟩, fun hp ht => ⟨fun hmore => ?_, fun hlast => ?_⟩,
        fun hp ht hw => ?_⟩
      · rw [hrestore, hpumps hp ht, runs_pump_test hruns]
      · obtain ⟨u, hfirst, hruns⟩ := hruns
        rw [hrestore, hpasses hp ht, if_pos ((morePasses_iff a).mpr hmore), nextPass_more hmore, runs_pump_test hruns,
          runs_one (f := testRescan b) (fun _ => rfl) ⟨u, hfirst, rfl⟩]
      · exact hdone _ _ a.passIx a.frontier (resumeWritten_other a _ _ _ nofun)
          ((hpasses hp ht).trans ((if_neg (mt (morePasses_iff a).mp hlast)).trans (nextPass_done hlast)))
      · exact hdone _ _ (a.passIx + 1) 0 (resumeWritten_timeLimit a _ _ _) ((hcloses hp ht).trans (endAfterClose_more hmore))
      · exact hdone _ _ (a.passIx + 1) 0 (resumeWritten_other a _ _ _ nofun) ((hcloses hp ht).trans (endAfterClose_done hlast))
      · intro open?
        let w' : State := (back .draining).modBay b (fun x => { x with sweep := { x.sweep with
          intervalTimer := none, active := some { a with credit := .count 0 } } })
        have hwb' : w'.bay b = _ := bay_modBay_same (back .draining) b _
        have hdrains : restoreSweep b v (back x.sweep.status) = drainCheck b none w' := by
          have hnone : ∀ r ∈ ((back .active).bay b).tracker.waiting, r.origin ≠ .sweep := by
            rw [hbackb]
            change ∀ r ∈ x.tracker.waiting, _
            rw [hw]
            exact nofun
          rw [hexpires hp ht, expireLimit_eq b _ hnone]
          refine congrArg (drainCheck b none) ((modBay_modBay w b _ _).trans (Eq.trans (modBay_eq ?_) (modBay_modBay w b _ _).symm))
          rw [hwb]
          simp only [show x.sweep.active = some a from ha, Option.map_some]
        have hactive' : (w'.bay b).sweep.active = some { a with credit := .count 0 } := by rw [hwb']
        have hopen : (w'.bay b).tracker.sweepOpen a.gen none = true ↔ open? := by
          rw [hwb', hbackb]
          exact sweepOpen_none_iff x.tracker a.gen
        refine ⟨fun ho t hruns => ?_, fun hno t hruns => ?_⟩
        · rw [hrestore, hdrains, drainCheck_open hactive' (hopen.mpr ho), runs_one (f := testRescan b) (fun _ => rfl) hruns]
        · have hplan' : (w'.bay b).plan = x.plan := by rw [hwb', hbackb]
          have hstatus : (w'.bay b).sweep.status = .draining := by rw [hwb', hbackb]
          rw [hrestore, hdrains, drainCheck_closed hactive' hstatus (Bool.eq_false_iff.mpr (mt hopen.mp hno)),
            runs_one (f := testRescan b) (fun _ => rfl) hruns,
            endSweep_eq (k := k) _ _ _ hactive' (by rw [hplan']; exact hrun) (by rw [hplan']; exact hcur), resumeWritten_timeLimit]
          have hresumed : (w'.bay b).sweep.resume = x.sweep.resume := by rw [hwb', hbackb]
          rw [hresumed]
          refine congrArg (fun u => testRescan b (travel b arrivalFuel nxt u)) ?_
          simp only [w', back, modBay_modBay]
          rfl

end Sys2Proof.Proofs
end

section
/-! SUPPORT. The pass close in the Zone Map (R67), the geometry of a capacity (R62), and the close of a sweep's command (R90, R93, R94,
R100, R107); and the statement O35, settled from them. -/

namespace Sys2Proof.Machine

/-! ### The pass close (R67) -/

theorem ceilDiv_le_iff {n d k : Nat} (hd : 0 < d) : ceilDiv n d ≤ k ↔ n ≤ k * d := by
  rw [ceilDiv, ← Nat.lt_succ_iff, Nat.div_lt_iff_lt_mul hd, Nat.succ_mul]
  omega

theorem lt_ceilDiv_iff {n d k : Nat} (hd : 0 < d) : k < ceilDiv n d ↔ k * d < n := by
  rw [← Nat.not_le, ceilDiv_le_iff hd, Nat.not_le]

/-- A zone in use lies in the zones that a pass close runs over exactly when its whole extent lies in the range. -/
theorem passClose_zones {c lo hi n z used : Nat} (hn : n < used) :
    (ceilDiv lo (2 ^ z) ≤ n ∧ n < ceilDiv lo (2 ^ z) + ((if c ≤ hi then used else hi >>> z) - ceilDiv lo (2 ^ z))) ↔
      (lo ≤ n * 2 ^ z ∧ min ((n + 1) * 2 ^ z) c ≤ hi) := by
  have hpos : 0 < 2 ^ z := Nat.two_pow_pos z
  have hlast : n < (if c ≤ hi then used else hi >>> z) ↔ min ((n + 1) * 2 ^ z) c ≤ hi := by
    split
    · next h => exact iff_of_true hn (min_le_of_right_le h)
    · next h =>
      rw [Nat.shiftRight_eq_div_pow, Nat.lt_iff_add_one_le, Nat.le_div_iff_mul_le hpos, min_le_iff]
      exact ⟨Or.inl, fun h' => h'.resolve_right h⟩
  rw [← ceilDiv_le_iff hpos, ← hlast]
  omega

theorem passClose_none {m : ZoneMap} {c p lo hi : Nat} : m.passClose c .verify p lo hi = m := by
  unfold ZoneMap.passClose
  cases m.z <;> rfl

theorem get_passClose {m : ZoneMap} {c p lo hi z n : Nat} {op : SweepOp} {kind : ZKind} (hm : m.sound) (hz : m.z = some z)
    (hn : n < m.used) (hk : closeKind op p = some kind) :
    (m.passClose c op p lo hi).get n = if lo ≤ n * 2 ^ z ∧ min ((n + 1) * 2 ^ z) c ≤ hi
      then { m.get n with kind := kind, suspect := false } else m.get n := by
  simp only [ZoneMap.passClose, hz, hk, get_modRange _ _ _ _ _ hm, passClose_zones hn]

/-! ### The geometry (R62) -/

/-- The shift found is the least one from the start on whose zones hold the capacity. -/
theorem shiftFrom_least {c : Nat} : ∀ (fuel z : Nat), c ≤ 4096 * 2 ^ (z + fuel) →
    z ≤ shiftFrom c fuel z ∧ c ≤ 4096 * 2 ^ shiftFrom c fuel z ∧ ∀ y, z ≤ y → c ≤ 4096 * 2 ^ y → shiftFrom c fuel z ≤ y
  | 0, z, h => ⟨Nat.le_refl z, h, fun _ hy _ => hy⟩
  | fuel + 1, z, h => by
    unfold shiftFrom
    split
    · next hz => exact ⟨Nat.le_refl z, hz, fun _ hy _ => hy⟩
    · next hz =>
      have hfuel : z + 1 + fuel = z + (fuel + 1) := by omega
      obtain ⟨hle, hholds, hleast⟩ := shiftFrom_least fuel (z + 1) (hfuel ▸ h)
      refine ⟨by omega, hholds, fun y hy hc => hleast y ?_ hc⟩
      rcases Nat.lt_or_eq_of_le hy with hlt | rfl
      · exact hlt
      · exact absurd hc hz

theorem zoneShift_least {c : Nat} (hc : c ≤ 2 ^ 36) :
    8 ≤ zoneShift c ∧ c ≤ 4096 * 2 ^ zoneShift c ∧ ∀ z, 8 ≤ z → c ≤ 4096 * 2 ^ z → zoneShift c ≤ z :=
  shiftFrom_least 64 8 (hc.trans (by norm_num))

/-! ### The close of a sweep's command (R90, R93, R94, R100, R107) -/

theorem gen_setVisit (a : Active) (v : Nat) (st : VisitState) : (a.setVisit v st).gen = a.gen := by
  unfold Active.setVisit
  split <;> rfl

section
variable {b : BayIx} {tag : Tag} {r : Rec} {u : State} {v : Nat}

/-- A record of a phase that is no longer in progress is passed over (R99). -/
theorem sweepClosed_other (h : (u.bay b).sweep.status = .none ∨ (u.bay b).sweep.status = .ended
    ∨ ∀ a, (u.bay b).sweep.active = some a → r.gen ≠ a.gen) : sweepClosed b tag r u = u := by
  unfold sweepClosed
  split
  · next a _ ha _ =>
    refine if_neg fun ⟨hg, hrun⟩ => ?_
    rcases h with h | h | h
    · rw [h] at hrun
      cases hrun
    · rw [h] at hrun
      cases hrun
    · exact h a ha hg.symm
  · rfl

variable {a : Active} (ha : (u.bay b).sweep.active = some a) (hv : r.visit = some v) (hg : r.gen = a.gen)
  (hrun : (u.bay b).sweep.status.running = true)
include ha hv hg hrun

theorem sweepClosed_written (hop : a.cfg.op = .writeVerify) (hk : r.kind = .write) :
    sweepClosed b tag r u = drainCheck b (some tag) (setActive b (a.setVisit v .written) u) := by
  simp only [sweepClosed, ha, hv, if_pos (And.intro hg.symm hrun), if_pos (And.intro hop hk)]

theorem sweepClosed_short (hop : a.cfg.op ≠ .writeVerify ∨ r.kind ≠ .write)
    (hmore : ((a.setVisit v .complete).moveFrontier).frontier < ((a.setVisit v .complete).moveFrontier).n) :
    sweepClosed b tag r u = drainCheck b (some tag) (setActive b (a.setVisit v .complete).moveFrontier u) := by
  have hnot : ¬ (a.cfg.op = .writeVerify ∧ r.kind = .write) := fun ⟨h1, h2⟩ => hop.elim (· h1) (· h2)
  simp only [sweepClosed, ha, hv, if_pos (And.intro hg.symm hrun), if_neg hnot, if_neg (Nat.not_le.mpr hmore)]

theorem sweepClosed_passEnd (hop : a.cfg.op ≠ .writeVerify ∨ r.kind ≠ .write)
    (hend : ((a.setVisit v .complete).moveFrontier).n ≤ ((a.setVisit v .complete).moveFrontier).frontier) :
    sweepClosed b tag r u =
      passEnd b (a.setVisit v .complete).moveFrontier (setActive b (a.setVisit v .complete).moveFrontier u) := by
  have hnot : ¬ (a.cfg.op = .writeVerify ∧ r.kind = .write) := fun ⟨h1, h2⟩ => hop.elim (· h1) (· h2)
  simp only [sweepClosed, ha, hv, if_pos (And.intro hg.symm hrun), if_neg hnot, if_pos hend]

end

theorem status_closePass (b : BayIx) (a : Active) (s : State) : ((closePass b a s).bay b).sweep = (s.bay b).sweep := by
  rw [closePass, bay_modBay_same, sweep_modZm]

theorem passEnd_active {b : BayIx} {a : Active} {s : State} (h : (s.bay b).sweep.status = .active) :
    passEnd b a s = nextPass b a (closePass b a s) := by
  simp only [passEnd, status_closePass, h]

theorem passEnd_suspended {b : BayIx} {a : Active} {s : State} (h : (s.bay b).sweep.status = .suspended) : passEnd b a s =
    (closePass b a s).modBay b (·.modSweep (fun w => { w with saved := w.saved.map (fun v => { v with passClosed := true }) })) := by
  simp only [passEnd, status_closePass, h]

theorem passEnd_draining {b : BayIx} {a : Active} {s : State} (h : (s.bay b).sweep.status = .draining) :
    passEnd b a s = endAfterClose b a (closePass b a s) := by
  simp only [passEnd, status_closePass, h]

end Sys2Proof.Machine

/-! ### The statement -/

namespace Sys2Proof.Proofs

open Sys2Proof.Machine

/-- Settles O35: the zones of a pass close, the geometry, the frontier, and the close of a sweep's command by the sweep's status. -/
theorem passCloseAndGeometry : Obligations.PassCloseAndGeometry := by
  refine ⟨fun m c p lo hi z n hm hz _ _ hn => ?_, fun c hlo hhi => ?_, fun a v st => ?_, fun b tag r st v s => ?_⟩
  · intro whole
    have hget (op : SweepOp) (kind : ZKind) (hk : closeKind op p = some kind) := get_passClose (c := c) (lo := lo) (hi := hi) hm hz hn hk
    refine ⟨fun hw => ⟨?_, ?_, ?_⟩, fun hw op => ?_, passClose_none⟩
    · rw [hget .write _ rfl, if_pos hw]
    · rw [hget .writeVerify _ rfl, if_pos hw]
    · rw [hget .erase _ rfl, if_pos hw]
    · cases op with
      | verify => rw [passClose_none]
      | write => rw [hget .write _ rfl, if_neg hw]
      | writeVerify => rw [hget .writeVerify _ rfl, if_neg hw]
      | erase => rw [hget .erase _ rfl, if_neg hw]
  · obtain ⟨hge, hholds, hleast⟩ := zoneShift_least hhi
    have hpos : 0 < 2 ^ zoneShift c := Nat.two_pow_pos _
    have hzones : c ≤ zonesUsed c * 2 ^ zoneShift c := (ceilDiv_le_iff hpos).mp (Nat.le_refl _)
    have hone : 1 ≤ zonesUsed c := (lt_ceilDiv_iff hpos).mpr (by omega)
    exact ⟨hge, hleast 24 (by norm_num) (hhi.trans (by norm_num)), hholds, hleast, hzones,
      (lt_ceilDiv_iff hpos).mp (show zonesUsed c - 1 < zonesUsed c by omega), hone, (ceilDiv_le_iff hpos).mpr hholds⟩
  · exact ⟨visit_eq a v, visit_set a v st, moveFrontier_least a⟩
  · intro hr ho hv u y reads told passes
    have htold (t : State) (ht : sweepClosed b tag r u = t) : told t := fun t' hruns => sweep_told b tag r st s t t' hr ho ht hruns
    refine ⟨fun h => htold u (sweepClosed_other h), fun a k ha hg hrun hc hstatus => ?_⟩
    intro ends now at_ last goesOn
    have hrunning : y.sweep.status.running = true := by
      rcases hstatus with h | h | h <;> rw [h] <;> rfl
    have hnow (a' : Active) : (now u a').bay b = { y with sweep := { y.sweep with active := some a' } } := bay_modBay_same u b _
    have hends (w : State) (a' : Active) (reason : EndReason) (pass frontier : Nat) (resume : Option Resume)
        (hclosed : sweepClosed b tag r u = endSweep b reason pass frontier w) (hw : w.rack = u.rack) (hwp : (w.bay b).plan = y.plan)
        (hwa : (w.bay b).sweep.active = some a') (hres : resumeWritten a' reason pass frontier (w.bay b).sweep.resume = resume) :
        ends w a' reason resume := by
      refine htold _ ?_
      rw [hclosed, endSweep_eq (k := k) _ _ _ hwa (by rw [hwp]; exact hrun) (by rw [hwp]; exact hc), hres, hw]
    have hgoes (a' : Active) (hgen : a'.gen = a.gen) (hclosed : sweepClosed b tag r u = drainCheck b (some tag) (now u a')) :
        goesOn a' := by
      have hlast : ((now u a').bay b).tracker.sweepOpen a'.gen (some tag) = false ↔ last := by
        rw [hnow, hgen]
        exact sweepOpen_iff y.tracker a.gen tag
      have hactive : ((now u a').bay b).sweep.active = some a' := by rw [hnow]
      refine ⟨fun h => htold _ (hclosed.trans ?_), fun hd hl => ?_⟩
      · rcases h with h | h
        · exact drainCheck_notDraining (by rw [hnow]; exact h)
        · exact drainCheck_open hactive (Bool.eq_true_of_not_eq_false (mt hlast.mp h))
      · refine htold _ (hclosed.trans ?_)
        rw [drainCheck_closed hactive (by rw [hnow]; exact hd) (hlast.mpr hl), endSweep_eq (k := k) _ _ _ hactive
          (by rw [hnow]; exact hrun) (by rw [hnow]; exact hc), resumeWritten_timeLimit, hnow, modBay_modBay]
        rfl
    refine ⟨fun hop hk => hgoes _ (gen_setVisit a v _) (sweepClosed_written ha hv hg hrunning hop hk), fun hop => ?_⟩
    intro a'
    refine ⟨fun hmore => hgoes _ (gen_setVisit a v _) (sweepClosed_short ha hv hg hrunning hop hmore), fun hend => ?_⟩
    intro closed
    have hclosed : sweepClosed b tag r u = passEnd b a' (now u a') := sweepClosed_passEnd ha hv hg hrunning hop hend
    have hcb : (closed.bay b).sweep = { y.sweep with active := some a' } ∧ (closed.bay b).plan = y.plan := by
      rw [show closed.bay b = _ from bay_modBay_same (now u a') b _, hnow]
      exact ⟨rfl, rfl⟩
    have hover {reason : EndReason} {pass frontier : Nat} {resume : Option Resume}
        (hpass : passEnd b a' (now u a') = endSweep b reason pass frontier closed)
        (hres : resumeWritten a' reason pass frontier y.sweep.resume = resume) : ends closed a' reason resume :=
      hends closed a' reason pass frontier resume (hclosed.trans hpass) rfl hcb.2 (by rw [hcb.1]) (by rw [hcb.1]; exact hres)
    have hst : ((now u a').bay b).sweep.status = y.sweep.status := by rw [hnow]
    refine ⟨fun h hmore t' hruns => htold _ (hclosed.trans ((passEnd_active (hst.trans h)).trans ?_)),
      fun h hlast => hover ((passEnd_active (hst.trans h)).trans (nextPass_done (Nat.not_lt.mpr hlast))) (resumeWritten_other a' _ _ _ nofun),
      fun h => htold _ (hclosed.trans (passEnd_suspended (hst.trans h))),
      fun h hmore => hover ((passEnd_draining (hst.trans h)).trans (endAfterClose_more hmore)) (resumeWritten_timeLimit a' _ _ _),
      fun h hlast => hover ((passEnd_draining (hst.trans h)).trans (endAfterClose_done (Nat.not_lt.mpr hlast)))
        (resumeWritten_other a' _ _ _ nofun)⟩
    rw [nextPass_more hmore, runs_one (f := testRescan b) (fun _ => rfl) hruns]
    rfl

end Sys2Proof.Proofs
end

section
/-! SUPPORT. WRITE DATA and DATA REQUEST (R7, R9, R25, R48); and the statement O30, settled from them. -/

namespace Sys2Proof.Machine

/-! ### Payloads (R48) -/

theorem stampSectors_eq (seed : Word) (p l n : Nat) :
    stampSectors seed p l n = (List.range n).map (fun i => stampSector seed p (l + i)) := rfl

theorem length_stampSectors (seed : Word) (p l n : Nat) : (stampSectors seed p l n).length = n := by
  rw [stampSectors_eq, List.length_map, List.length_range]

theorem length_hostPayload (x : Bay) (r : Rec) (payload : List Sector) :
    (hostPayload x r payload).length = min payload.length (r.count - r.sent) := by
  unfold hostPayload
  simp only
  split
  · rw [length_stampSectors, List.length_take, Nat.min_comm]
  · rw [List.length_take, Nat.min_comm]

theorem length_partPayload (x : Bay) (r : Rec) (n : Nat) : (partPayload x r n).length = min n (r.count - r.sent) := by
  unfold partPayload
  simp only
  split
  · simp
  · exact length_stampSectors _ _ _ _
  · exact List.length_replicate

theorem sendPayload_of_pos (b : BayIx) (tag : Tag) (r : Rec) (xs : List Sector) (k : Nat) (s : State) (hk : xs.length = k) (h : 0 < k) :
    sendPayload b tag r xs s = s.modBay b (fun x =>
      { x.withRec tag (some { r with sent := r.sent + k }) with lane := x.lane.sendDown (.writeData tag xs) }) := by
  have hne : xs ≠ [] := List.ne_nil_of_length_pos (hk ▸ h)
  rw [sendPayload, if_neg hne, sendDown, modBay_modBay, hk]
  rfl

theorem sendPayload_empty (b : BayIx) (tag : Tag) (r : Rec) (xs : List Sector) (s : State) (h : xs.length = 0) :
    sendPayload b tag r xs s = s := if_pos (List.eq_nil_of_length_eq_zero h)

/-! ### WRITE DATA (R48) -/

/-- With no annex WRITE in service on the tag, WRITE DATA is the open record's. -/
theorem exec_writeData {b : BayIx} {tag : Tag} {payload : List Sector} {s : State} (h : ∀ a ∈ (s.bay b).lane.annexSvc, a.tag ≠ tag) :
    exec (.writeData b tag payload) s = .next (match (s.bay b).tracker.recs[tag] with
      | some r => takeWriteData b tag r payload s
      | none => s) := by
  have hnone : (s.bay b).lane.annexWriteOn tag = none := List.find?_eq_none.mpr fun a ha => by simp [h a ha]
  refine congrArg Host.Outcome.next ?_
  simp only [hnone, Tracker.rec?] <;> rfl

theorem takeWriteData_host {b : BayIx} {tag : Tag} {r : Rec} {payload : List Sector} {s : State} (ho : r.origin = .host)
    (hk : r.kind = .write) : takeWriteData b tag r payload s = sendPayload b tag r (hostPayload (s.bay b) r payload) s := by
  simp only [takeWriteData, ho, hk]

theorem takeWriteData_other {b : BayIx} {tag : Tag} {r : Rec} {payload : List Sector} {s : State} (ho : r.origin = .host)
    (hk : r.kind = .other) : takeWriteData b tag r payload s = sendDown b (.writeData tag payload) s := by
  simp only [takeWriteData, ho, hk]

theorem takeWriteData_discards {b : BayIx} {tag : Tag} {r : Rec} {payload : List Sector} {s : State}
    (h : r.origin ≠ .host ∨ (r.kind ≠ .write ∧ r.kind ≠ .other)) : takeWriteData b tag r payload s = s := by
  unfold takeWriteData
  split
  · next ho hk => exact absurd h (by simp [ho, hk])
  · next ho hk => exact absurd h (by simp [ho, hk])
  · rfl

/-! ### DATA REQUEST (R9, R25, R48) -/

theorem exec_dataRequest (b : BayIx) (tag : Tag) (n : Nat) (s : State) :
    exec (.dataRequest b tag n) s = .next (match (s.bay b).tracker.recs[tag] with
      | some r => takeDataRequest b tag r n s
      | none => s) := rfl

theorem takeDataRequest_host {b : BayIx} {tag : Tag} {r : Rec} {n : Nat} {s : State} (ho : r.origin = .host) :
    takeDataRequest b tag r n s = s.modBay b (·.sends (.dataRequest tag)) := by
  simp only [takeDataRequest, ho]
  rfl

theorem takeDataRequest_write {b : BayIx} {tag : Tag} {r : Rec} {n : Nat} {s : State} (ho : r.origin ≠ .host) (hk : r.kind = .write) :
    takeDataRequest b tag r n s = sendPayload b tag r (partPayload (s.bay b) r n) s := by
  unfold takeDataRequest
  split
  · exact absurd ‹_› ho
  · rfl
  · next h => exact absurd hk h

theorem takeDataRequest_discards {b : BayIx} {tag : Tag} {r : Rec} {n : Nat} {s : State} (ho : r.origin ≠ .host) (hk : r.kind ≠ .write) :
    takeDataRequest b tag r n s = s := by
  unfold takeDataRequest
  split
  · exact absurd ‹_› ho
  · exact absurd ‹_› hk
  · rfl

end Sys2Proof.Machine

/-! ### The statement -/

namespace Sys2Proof.Proofs

open Sys2Proof.Machine

/-- Settles O30, by the owner and the kind of the record on the tag. -/
theorem payloadsGoDown : Obligations.PayloadsGoDown := by
  refine ⟨fun b tag r payload s hsvc => ⟨fun hr => ?_, fun hr => ?_⟩, fun b tag r n s => ⟨fun hr => ?_, fun hr => ?_⟩⟩
  · simp only [exec_writeData hsvc, hr]
  · have hexec : exec (.writeData b tag payload) s = .next (takeWriteData b tag r payload s) := by simp only [exec_writeData hsvc, hr]
    rw [hexec]
    refine ⟨fun ho hk => ⟨fun hne hlt => ?_, fun hge => ?_⟩, fun ho hk => ?_, fun h => ?_⟩
    · intro k
      have hpos : 0 < k := Nat.lt_min.mpr ⟨List.length_pos_iff.mpr hne, Nat.sub_pos_of_lt hlt⟩
      rw [takeWriteData_host ho hk, sendPayload_of_pos b tag r _ k s (length_hostPayload _ _ _) hpos]
      refine congrArg Host.Outcome.next (modBay_eq ?_)
      have hlen : (payload.take (r.count - r.sent)).length = k := by rw [List.length_take, Nat.min_comm]
      unfold hostPayload
      cases hp : r.pass with
      | none =>
        simp only
        rw [List.take_eq_take_min, Nat.min_comm]
      | some p =>
        simp only [hlen, stampSectors_eq]
    · have hlen : (hostPayload (s.bay b) r payload).length = 0 := by rw [length_hostPayload, Nat.sub_eq_zero_of_le hge, Nat.min_zero]
      rw [takeWriteData_host ho hk, sendPayload_empty _ _ _ _ _ hlen]
    · rw [takeWriteData_other ho hk]
      rfl
    · rw [takeWriteData_discards h]
  · simp only [exec_dataRequest, hr]
  · have hexec : exec (.dataRequest b tag n) s = .next (takeDataRequest b tag r n s) := by simp only [exec_dataRequest, hr]
    rw [hexec]
    refine ⟨fun ho => ?_, fun ho hk => ?_, fun ho hk hn hlt => ?_⟩
    · rw [takeDataRequest_host ho]
    · rw [takeDataRequest_discards ho hk]
    · intro k answers
      have hpos : 0 < k := Nat.lt_min.mpr ⟨hn, Nat.sub_pos_of_lt hlt⟩
      have hanswers (xs : List Sector) (hxs : partPayload (s.bay b) r n = xs) : answers xs := by
        refine congrArg Host.Outcome.next ?_
        rw [takeDataRequest_write ho hk, sendPayload_of_pos b tag r _ k s (length_partPayload _ _ _) hpos, hxs]
      refine ⟨fun p hs hp => hanswers _ ?_, fun hs hp => hanswers _ ?_, fun y hy hone => hanswers _ ?_⟩
      · simp only [partPayload, hs, hp]
        rfl
      · simp only [partPayload, hs, hp]
        rfl
      · have hsent : r.sent = 0 := by omega
        simp [partPayload, hy, hone, hsent, Nat.min_eq_right hn]

end Sys2Proof.Proofs
end

section
/-! SUPPORT. READ DATA and the outcomes of its sectors (R9, R25, R50, R59, R71 to R75); and the statement O31, settled from them. -/

namespace Sys2Proof.Machine

/-! ### An outcome at an LBA (R59, R71 to R75) -/

/-- The state after an outcome has been counted. -/
def State.noted (b : BayIx) (v : Verdict) (s : State) : State := s.modBay b (fun x => { x with counters := x.counters.note v })

theorem bay_noted (b : BayIx) (v : Verdict) (s : State) :
    (s.noted b v).bay b = { s.bay b with counters := (s.bay b).counters.note v } := bay_modBay_same s b _

theorem giveOutcome_counts {b : BayIx} {l : Nat} {v : Verdict} {o : Origin} {passes : Nat} {s : State}
    (h : v.isDefect = false ∨ (s.bay b).zm.z = none) : giveOutcome b l v o passes s = s.noted b v := by
  rcases h with h | h
  · simp only [giveOutcome, h]
    rfl
  · have hz : ((s.noted b v).bay b).zm.zoneOf l = none := by simp [bay_noted, ZoneMap.zoneOf, h]
    unfold giveOutcome
    simp only [show s.modBay b _ = s.noted b v from rfl, hz]
    split <;> rfl

theorem giveOutcome_defect {b : BayIx} {l z : Nat} {v : Verdict} {o : Origin} {passes : Nat} {s : State} (hv : v.isDefect = true)
    (hz : (s.bay b).zm.z = some z) : giveOutcome b l v o passes s = zoneDefect b (l / 2 ^ z) o passes (s.noted b v) := by
  have hzone : ((s.noted b v).bay b).zm.zoneOf l = some (l / 2 ^ z) := by
    simp [bay_noted, ZoneMap.zoneOf, hz, Nat.shiftRight_eq_div_pow]
  simp only [giveOutcome, hv, if_true, show s.modBay b _ = s.noted b v from rfl, hzone]

/-- The bay whose zone n, under rescan, has shown a defect: confirmed, and the rescan's requests withdrawn (R74, R110). -/
def Bay.confirmsZone (n : Nat) (x : Bay) : Bay :=
  { x.modZm (fun m => { (m.hit n).setClass n .confirmed with confirmed := inc32 m.confirmed, rehits := inc32 m.rehits }) with
    tracker := { x.tracker with waiting := x.tracker.waiting.filter (fun k => decide (k.origin ≠ .rescan)) } }

theorem zoneDefect_confirms {b : BayIx} {n : Nat} {o : Origin} {passes : Nat} {u : State} {q : Rescan}
    (hq : (u.bay b).sweep.rescan = some q) (hn : q.zone = n) :
    zoneDefect b n o passes u = rescanEnd b (u.modBay b (Bay.confirmsZone n)) := by
  have hzone : ((u.modBay b (·.modZm (ZoneMap.hit n))).bay b).sweep.rescan.map (·.zone) = some n := by
    rw [bay_modBay_same]
    exact (congrArg (Option.map Rescan.zone) hq).trans (congrArg some hn)
  rw [zoneDefect]
  simp only [if_pos hzone]
  rw [confirmRescan, withdrawRescan, withdraw, modBay_modBay, modBay_modBay]
  refine congrArg (rescanEnd b) (modBay_eq ?_)
  simp only [Bay.confirmsZone, Bay.modZm, Bay.modTracker, ZoneMap.confirm, decide_not]
  rfl

theorem not_underRescan {b : BayIx} {n : Nat} {u : State} (h : ∀ q, (u.bay b).sweep.rescan = some q → q.zone ≠ n) :
    ¬ ((u.modBay b (·.modZm (ZoneMap.hit n))).bay b).sweep.rescan.map (·.zone) = some n := by
  rw [bay_modBay_same]
  intro he
  obtain ⟨q, hq, hn⟩ := Option.map_eq_some_iff.mp he
  exact h q hq hn

theorem mark_afterHit (b : BayIx) (n : Nat) (u : State) :
    (((u.modBay b (·.modZm (ZoneMap.hit n))).bay b).zm.get n).mark = ((u.bay b).zm.get n).mark := by
  rw [bay_modBay_same]
  exact mark_hit _ n

theorem zoneDefect_rehit {b : BayIx} {n : Nat} {o : Origin} {passes : Nat} {u : State}
    (hq : ∀ q, (u.bay b).sweep.rescan = some q → q.zone ≠ n) (hm : ((u.bay b).zm.get n).mark = true) :
    zoneDefect b n o passes u = u.modBay b (·.modZm (fun m => { m.hit n with rehits := inc32 m.rehits })) := by
  rw [zoneDefect]
  simp only [if_neg (not_underRescan hq), mark_afterHit, hm, if_true]
  rw [modBay_modBay]
  rfl

/-- The state after a first hit in zone n has marked it (R72). -/
def State.marked (b : BayIx) (n : Nat) (u : State) : State := u.modBay b (·.modZm (fun m => (m.hit n).setClass n .unconfirmed))

theorem zoneDefect_first {b : BayIx} {n : Nat} {o : Origin} {passes : Nat} {u : State}
    (hq : ∀ q, (u.bay b).sweep.rescan = some q → q.zone ≠ n) (hm : ((u.bay b).zm.get n).mark = false) :
    zoneDefect b n o passes u = if 0 < hitPasses (u.bay b) o passes ∧ (u.bay b).plan.state = .running
      then testRescan b ((u.marked b n).modBay b (·.modZm (ZoneMap.offer n (hitPasses (u.bay b) o passes)))) else u.marked b n := by
  have hpasses : hitPasses ((u.modBay b (·.modZm (ZoneMap.hit n))).bay b) o passes = hitPasses (u.bay b) o passes := by
    rw [bay_modBay_same]
    rfl
  have hmarked : (u.modBay b (·.modZm (ZoneMap.hit n))).modBay b (·.modZm (ZoneMap.setClass n .unconfirmed)) = u.marked b n := by
    rw [modBay_modBay]
    rfl
  have hrun : ((u.marked b n).bay b).running = true ↔ (u.bay b).plan.state = .running := by
    rw [running_iff, State.marked, bay_modBay_same]
    rfl
  rw [zoneDefect]
  simp only [if_neg (not_underRescan hq), mark_afterHit, hm, hpasses, firstHit, hmarked, hrun]
  rfl

theorem giveOutcome_confirms {b : BayIx} {l z : Nat} {v : Verdict} {o : Origin} {passes : Nat} {s : State} {q : Rescan}
    (hv : v.isDefect = true) (hz : (s.bay b).zm.z = some z) (hq : (s.bay b).sweep.rescan = some q) (hn : q.zone = l / 2 ^ z) :
    giveOutcome b l v o passes s = rescanEnd b ((s.noted b v).modBay b (Bay.confirmsZone (l / 2 ^ z))) := by
  rw [giveOutcome_defect hv hz, zoneDefect_confirms (q := q) (by rw [bay_noted]; exact hq) hn]

theorem giveOutcome_rehit {b : BayIx} {l z : Nat} {v : Verdict} {o : Origin} {passes : Nat} {s : State}
    (hv : v.isDefect = true) (hz : (s.bay b).zm.z = some z) (hq : ∀ q, (s.bay b).sweep.rescan = some q → q.zone ≠ l / 2 ^ z)
    (hm : ((s.bay b).zm.get (l / 2 ^ z)).mark = true) : giveOutcome b l v o passes s =
      (s.noted b v).modBay b (·.modZm (fun m => { m.hit (l / 2 ^ z) with rehits := inc32 m.rehits })) := by
  rw [giveOutcome_defect hv hz, zoneDefect_rehit (by rw [bay_noted]; exact hq) (by rw [bay_noted]; exact hm)]

theorem giveOutcome_first {b : BayIx} {l z : Nat} {v : Verdict} {o : Origin} {passes : Nat} {s : State}
    (hv : v.isDefect = true) (hz : (s.bay b).zm.z = some z) (hq : ∀ q, (s.bay b).sweep.rescan = some q → q.zone ≠ l / 2 ^ z)
    (hm : ((s.bay b).zm.get (l / 2 ^ z)).mark = false) : giveOutcome b l v o passes s =
      if 0 < hitPasses (s.bay b) o passes ∧ (s.bay b).plan.state = .running
      then testRescan b (((s.noted b v).marked b (l / 2 ^ z)).modBay b (·.modZm (ZoneMap.offer (l / 2 ^ z) (hitPasses (s.bay b) o passes))))
      else (s.noted b v).marked b (l / 2 ^ z) := by
  rw [giveOutcome_defect hv hz, zoneDefect_first (by rw [bay_noted]; exact hq) (by rw [bay_noted]; exact hm), bay_noted]
  rfl

/-- A first hit that is not offered to the queue. -/
theorem giveOutcome_marks {b : BayIx} {l z : Nat} {v : Verdict} {o : Origin} {passes : Nat} {s : State}
    (hv : v.isDefect = true) (hz : (s.bay b).zm.z = some z) (hq : ∀ q, (s.bay b).sweep.rescan = some q → q.zone ≠ l / 2 ^ z)
    (hm : ((s.bay b).zm.get (l / 2 ^ z)).mark = false) (h : (s.bay b).plan.state ≠ .running ∨ hitPasses (s.bay b) o passes = 0) :
    giveOutcome b l v o passes s = (s.noted b v).marked b (l / 2 ^ z) := by
  rw [giveOutcome_first hv hz hq hm, if_neg]
  rintro ⟨hpos, hrun⟩
  rcases h with h | h
  · exact h hrun
  · exact absurd hpos (by simp [h])

/-- A first hit that is offered to the queue, and the test for a rescan's start. -/
theorem giveOutcome_offers {b : BayIx} {l z : Nat} {v : Verdict} {o : Origin} {passes : Nat} {s : State}
    (hv : v.isDefect = true) (hz : (s.bay b).zm.z = some z) (hq : ∀ q, (s.bay b).sweep.rescan = some q → q.zone ≠ l / 2 ^ z)
    (hm : ((s.bay b).zm.get (l / 2 ^ z)).mark = false) (hrun : (s.bay b).plan.state = .running) (hpos : 0 < hitPasses (s.bay b) o passes) :
    Runs [.rescanStart b] (((s.noted b v).marked b (l / 2 ^ z)).modBay b (·.modZm (ZoneMap.offer (l / 2 ^ z) (hitPasses (s.bay b) o passes))))
      (giveOutcome b l v o passes s) := by
  rw [giveOutcome_first hv hz hq hm, if_pos ⟨hpos, hrun⟩]
  exact ⟨_, rfl, rfl⟩

/-! ### READ DATA (R9, R25, R50) -/

theorem exec_readData_none {b : BayIx} {tag : Tag} {s : State} (payload : List Sector) (h : (s.bay b).tracker.recs[tag] = none) :
    exec (.readData b tag payload) s = .next s := by
  refine congrArg Host.Outcome.next ?_
  simp only [Tracker.rec?, h]

theorem exec_readData_read {b : BayIx} {tag : Tag} {r : Rec} {s : State} (payload : List Sector)
    (h : (s.bay b).tracker.recs[tag] = some r) (hk : r.kind = .read) :
    exec (.readData b tag payload) s = .next (takeReadData b tag r payload s) := by
  refine congrArg Host.Outcome.next ?_
  simp only [Tracker.rec?, h, if_pos hk]

/-- The state after a payload has gone upstream for a HOST record (R9). -/
def State.relays (b : BayIx) (tag : Tag) (o : Origin) (xs : List Sector) (s : State) : State :=
  if o = .host then s.modBay b (·.sends (.readData tag xs)) else s

theorem bay_relays (b : BayIx) (tag : Tag) (o : Origin) (xs : List Sector) (s : State) : (s.relays b tag o xs).bay b =
    { s.bay b with lane := if o = .host then (s.bay b).lane.sendUp (.readData tag xs) else (s.bay b).lane } := by
  unfold State.relays
  split
  · exact bay_modBay_same s b _
  · rfl

/-- A payload within the count: upstream in one frame, then each sector in turn. -/
theorem takeReadData_within {b : BayIx} {tag : Tag} {r : Rec} {payload : List Sector} {s : State} (hne : payload ≠ [])
    (hlen : r.delivered + payload.length ≤ r.count) :
    takeReadData b tag r payload s = payload.foldl (deliverOne b tag) (s.relays b tag r.origin payload) := by
  have htake : payload.take (r.count - r.delivered) = payload := List.take_of_length_le (by omega)
  simp only [takeReadData, htake, relayUp, if_neg hne]
  rfl

theorem takeReadData_take (b : BayIx) (tag : Tag) (r : Rec) (payload : List Sector) (s : State) :
    takeReadData b tag r (payload.take (r.count - r.delivered)) s = takeReadData b tag r payload s := by
  simp only [takeReadData, List.take_take, Nat.min_self]

theorem deliverOne_unjudged {b : BayIx} {tag : Tag} {r : Rec} {s : State} (x : Sector) (h : (s.bay b).tracker.recs[tag] = some r)
    (hj : r.judged = false) (hd : r.delivered < r.count) :
    deliverOne b tag s x = s.modBay b (·.withRec tag (some { r with delivered := r.delivered + 1 })) := by
  simp only [deliverOne, Tracker.rec?, h, if_pos hd, hj]
  rfl

theorem withRec_twice (tag : Tag) (r₁ r₂ : Option Rec) (x : Bay) : (x.withRec tag r₁).withRec tag r₂ = x.withRec tag r₂ := by
  simp only [Bay.withRec, Vector.set_set]

theorem withRec_self {tag : Tag} {r : Option Rec} {x : Bay} (h : x.tracker.recs[tag] = r) : x.withRec tag r = x := by
  subst h
  have hset : x.tracker.recs.set tag x.tracker.recs[tag] = x.tracker.recs := Vector.set_getElem_self _
  rw [Bay.withRec, hset]

/-- The sectors of a payload within the count of a READ that is not judged are counted. -/
theorem deliver_unjudged {b : BayIx} {tag : Tag} : ∀ (xs : List Sector) {r : Rec} {s : State}, r.judged = false →
    (s.bay b).tracker.recs[tag] = some r → r.delivered + xs.length ≤ r.count →
    xs.foldl (deliverOne b tag) s = s.modBay b (·.withRec tag (some { r with delivered := r.delivered + xs.length }))
  | [], _, s, _, h, _ => (modBay_id s b _ (withRec_self h)).symm
  | x :: xs, r, s, hj, h, hlen => by
    rw [List.length_cons] at hlen
    have hone := deliverOne_unjudged x h hj (by omega)
    have hrec : ((s.modBay b (·.withRec tag (some { r with delivered := r.delivered + 1 }))).bay b).tracker.recs[tag] =
        some { r with delivered := r.delivered + 1 } := by
      rw [bay_modBay_same]
      exact Vector.getElem_set_self _
    rw [List.foldl_cons, hone, deliver_unjudged xs (by exact hj) hrec (by simp only; omega), modBay_modBay]
    refine modBay_eq ?_
    simp only [withRec_twice, List.length_cons, Nat.add_assoc, Nat.add_comm 1]

/-- What the judge looks at is not the lane. -/
theorem judge_relays (b : BayIx) (tag : Tag) (o : Origin) (xs : List Sector) (s : State) (tol l : Nat) (sec : Sector) :
    judge ((s.relays b tag o xs).bay b) tol l sec = judge (s.bay b) tol l sec := by
  rw [bay_relays]
  rfl

/-- The state after one sector has been delivered on a READ record: upstream for a HOST record, and counted (R9, R25). -/
def State.delivers (b : BayIx) (tag : Tag) (r : Rec) (sec : Sector) (s : State) : State := s.modBay b (fun x =>
  { x.withRec tag (some { r with delivered := r.delivered + 1 }) with
    lane := if r.origin = .host then x.lane.sendUp (.readData tag [sec]) else x.lane })

theorem bay_delivers (b : BayIx) (tag : Tag) (r : Rec) (sec : Sector) (s : State) : (s.delivers b tag r sec).bay b =
    { (s.bay b).withRec tag (some { r with delivered := r.delivered + 1 }) with
      lane := if r.origin = .host then (s.bay b).lane.sendUp (.readData tag [sec]) else (s.bay b).lane } := bay_modBay_same s b _

/-- One sector on a judged READ. -/
theorem exec_readData_one {b : BayIx} {tag : Tag} {r : Rec} {s : State} (sec : Sector) (h : (s.bay b).tracker.recs[tag] = some r)
    (hk : r.kind = .read) (hj : r.judged = true) (hd : r.delivered < r.count) : exec (.readData b tag [sec]) s =
      .next (giveOutcome b (r.lba + r.delivered) (judge (s.bay b) r.tol (r.lba + r.delivered) sec) r.origin r.rescans
        (s.delivers b tag r sec)) := by
  have hrec : ((s.relays b tag r.origin [sec]).bay b).tracker.recs[tag] = some r := by
    rw [bay_relays]
    exact h
  rw [exec_readData_read [sec] h hk, takeReadData_within (r := r) (payload := [sec]) (List.cons_ne_nil _ _) hd, List.foldl_cons, List.foldl_nil,
    deliverOne_judged b tag r sec _ hrec hj hd, judge_relays]
  refine congrArg (fun t => Host.Outcome.next (giveOutcome b _ _ _ _ t)) ?_
  unfold State.relays State.delivers
  split
  · rw [modBay_modBay]
    rfl
  · rfl

end Sys2Proof.Machine

/-! ### The statement -/

namespace Sys2Proof.Proofs

open Sys2Proof.Machine

/-- Settles O31, by the outcome that each sector of the payload gives. -/
theorem readDataTaken : Obligations.ReadDataTaken := by
  refine ⟨fun b tag r payload s => ⟨exec_readData_none payload, fun hr ho hk hj hne hlen => ?_⟩, fun b tag r sec s hr hk hj hd => ?_,
    fun b tag r sec s z hr hk hj hd => ?_, fun b tag r payload s hr hk => ⟨?_, fun hj hne hlen => ?_⟩, fun b l v o passes s => ?_⟩
  · have hrec : ((s.relays b tag r.origin payload).bay b).tracker.recs[tag] = some r := by
      rw [bay_relays]
      exact hr
    rw [exec_readData_read payload hr hk, takeReadData_within hne hlen, deliver_unjudged payload hj hrec hlen, State.relays, if_pos ho,
      modBay_modBay]
    rfl
  · intro l v u
    have hexec := exec_readData_one sec hr hk hj hd
    have hu : (s.delivers b tag r sec).noted b v = u := modBay_modBay s b _ _
    have hbay := bay_delivers b tag r sec s
    refine ⟨fun h => ?_, fun z hv hz => ?_⟩
    · rw [hexec, giveOutcome_counts (by rw [hbay]; exact h)]
      exact congrArg Host.Outcome.next hu
    · intro n hq hit
      refine ⟨fun hm => ?_, fun hm hrun => ?_⟩
      · rw [hexec, giveOutcome_rehit hv (by rw [hbay]; exact hz) (by rw [hbay]; exact hq) (by rw [hbay]; exact hm)]
        exact congrArg (fun t : State => Host.Outcome.next (t.modBay b _)) hu
      · rw [hexec, giveOutcome_marks hv (by rw [hbay]; exact hz) (by rw [hbay]; exact hq) (by rw [hbay]; exact hm)
          (Or.inl (by rw [hbay]; exact hrun))]
        exact congrArg (fun t : State => Host.Outcome.next (t.marked b n)) hu
  · intro x l v hv hz n up u becomes first passes
    have hexec := exec_readData_one sec hr hk hj hd
    have hu : (s.delivers b tag r sec).noted b v = u := modBay_modBay s b _ _
    have hbay := bay_delivers b tag r sec s
    have hpasses : hitPasses ((s.delivers b tag r sec).bay b) r.origin r.rescans = passes := by
      rw [hbay]
      show _ = match r.origin with | .host => _ | .sweep => _ | _ => 0
      cases r.origin <;> rfl
    refine ⟨fun q hq hn => ?_, fun hq hm => ⟨fun h0 => ?_, fun hrun hpos => ⟨_, hexec, ?_⟩⟩⟩
    · rw [hexec, giveOutcome_confirms hv (by rw [hbay]; exact hz) (by rw [hbay]; exact hq) hn]
      exact congrArg (fun t : State => Host.Outcome.next (rescanEnd b (t.modBay b _))) hu
    · rw [hexec, giveOutcome_marks hv (by rw [hbay]; exact hz) (by rw [hbay]; exact hq) (by rw [hbay]; exact hm)
        (Or.inr (hpasses.trans h0))]
      exact congrArg (fun t : State => Host.Outcome.next (t.marked b n)) hu
    · have hruns := giveOutcome_offers (b := b) (l := l) (o := r.origin) (passes := r.rescans) (s := s.delivers b tag r sec) hv
        (by rw [hbay]; exact hz) (by rw [hbay]; exact hq) (by rw [hbay]; exact hm) (by rw [hbay]; exact hrun) (by rw [hpasses]; exact hpos)
      rw [hpasses, hu] at hruns
      exact hruns
  · rw [exec_readData_read _ hr hk, exec_readData_read _ hr hk, takeReadData_take]
  · intro hpow l sent
    have hbay := bay_relays b tag r.origin payload s
    rw [exec_readData_read payload hr hk, takeReadData_within hne hlen,
      deliver_judged b tag r hj payload 0 _ (by rw [hbay]; exact hpow) (by rw [hbay]; exact hr) hlen]
    rfl
  · intro x u up
    refine ⟨fun h => giveOutcome_counts h, fun z hv hz => ?_⟩
    intro n hit becomes first r
    have hpasses : hitPasses x o passes = r := by
      show _ = match o with | .host => _ | .sweep => _ | _ => 0
      cases o <;> rfl
    refine ⟨fun q hq hn => giveOutcome_confirms hv hz hq hn, fun hq hm => giveOutcome_rehit hv hz hq hm, fun hq hm =>
      ⟨fun h => giveOutcome_marks hv hz hq hm (hpasses ▸ h), fun hrun hpos => ?_⟩⟩
    have hruns := giveOutcome_offers (b := b) (l := l) (o := o) (passes := passes) (s := s) hv hz hq hm hrun (by rw [hpasses]; exact hpos)
    rw [hpasses] at hruns
    exact hruns

end Sys2Proof.Proofs
end

section
/-! SUPPORT. The close of a HOST record, the effects of a close, the unsettled-write list and the idle timer (R26 to R29, R33, R37 to
R39); and the statement O33, settled from them. -/

namespace Sys2Proof.Machine

/-! ### The close of a HOST record (R26) -/

/-- The bay after a HOST record's tag has become free, its completion has gone upstream and the idle timer has been looked at. -/
def Bay.hostDone (tag : Tag) (up : UpStatus) (y : Bay) : Bay :=
  let z := (y.freed tag).sends (.completion tag up)
  { z with tracker := z.tracker.startIdle }

theorem exec_hostClosed {b : BayIx} {tag : Tag} {r : Rec} {st : DriveStatus} {s : State} (hr : (s.bay b).tracker.recs[tag] = some r)
    (ho : r.origin = .host) : exec (.completion b tag st) s = .next ((closeEffects b r st (s.binned b r)).modBay b
      (Bay.hostDone tag (upStatusOf ((closeEffects b r st (s.binned b r)).bay b).lane.rc r.kind st))) := by
  refine congrArg Host.Outcome.next ?_
  simp only [Tracker.rec?, hr, closeRec, ho, if_true, tellOwner, readAtOnce, startPulse, complete, sendUp]
  rw [modBay_modBay, modBay_modBay, modBay_modBay, bay_modBay_same, bay_modBay_same]
  rfl

/-- The close of a HOST record whose own effects are one change of the bay, apart from its latency. -/
theorem exec_hostCloses {b : BayIx} {tag : Tag} {r : Rec} {st : DriveStatus} {s : State} {up : UpStatus} (f : Bay → Bay)
    (hr : (s.bay b).tracker.recs[tag] = some r) (ho : r.origin = .host)
    (heff : closeEffects b r st (s.binned b r) = (s.binned b r).modBay b f)
    (hbin : ∀ x n, f { x with tracker := x.tracker.binLatency r.kind n } = { f x with tracker := (f x).tracker.binLatency r.kind n })
    (hlane : ∀ x, (f x).lane = x.lane) (hup : upStatusOf (s.bay b).lane.rc r.kind st = up) :
    exec (.completion b tag st) s = .next (s.modBay b (fun x => (f x).closesHost tag r.kind (s.rack.us - r.issue).toNat up)) := by
  have hrc : (((s.binned b r).modBay b f).bay b).lane.rc = (s.bay b).lane.rc := by
    rw [bay_modBay_same, hlane, State.binned, bay_modBay_same]
  rw [exec_hostClosed hr ho, heff, hrc, hup, State.binned, modBay_modBay, modBay_modBay]
  refine congrArg Host.Outcome.next (modBay_eq ?_)
  rw [hbin]
  rfl

/-- The close of a HOST record with no effects of its own. -/
theorem exec_hostCloses_quiet {b : BayIx} {tag : Tag} {r : Rec} {st : DriveStatus} {s : State} {up : UpStatus}
    (hr : (s.bay b).tracker.recs[tag] = some r) (ho : r.origin = .host) (heff : ∀ t, closeEffects b r st t = t)
    (hup : upStatusOf (s.bay b).lane.rc r.kind st = up) :
    exec (.completion b tag st) s = .next (s.modBay b (fun x => x.closesHost tag r.kind (s.rack.us - r.issue).toNat up)) :=
  exec_hostCloses id hr ho ((heff _).trans (modBay_id _ b id rfl).symm) (fun _ _ => rfl) (fun _ => rfl) hup

theorem upStatusOf_good {rc : Nat} {kind : CmdKind} {c : Option CapacityAnswer} (h : kind ≠ .capacity) :
    upStatusOf rc kind (.good c) = .good := if_neg h

/-! ### A completion on a free tag (R10, R24) -/

theorem exec_completion_free {b : BayIx} {tag : Tag} {s : State} (st : DriveStatus) (h : (s.bay b).tracker.recs[tag] = none) :
    exec (.completion b tag st) s = .next (unretire b tag s) := by
  refine congrArg Host.Outcome.next ?_
  simp only [Tracker.rec?, h]

theorem unretire_of_not_retired {b : BayIx} {tag : Tag} {s : State} (h : tag ∉ (s.bay b).lane.retired) : unretire b tag s = s :=
  if_neg (by simpa using h)

theorem unretire_of_retired {b : BayIx} {tag : Tag} {s : State} (h : tag ∈ (s.bay b).lane.retired) : unretire b tag s =
    assignAll b (s.modBay b (fun x => { x with lane := { x.lane with retired := x.lane.retired.filter (fun g => g ≠ tag) } })) :=
  if_pos (by simpa using h)

/-! ### The effects of a close (R27, R28, R29) -/

theorem closeEffects_otherError (b : BayIx) (r : Rec) (s : State) : closeEffects b r .otherError s = s := by
  cases hk : r.kind <;> simp only [closeEffects, hk]

theorem closeEffects_other {b : BayIx} {r : Rec} {st : DriveStatus} (s : State) (h : r.kind = .other) : closeEffects b r st s = s := by
  simp only [closeEffects, h]

theorem closeEffects_read_fault {b : BayIx} {r : Rec} (f : Nat) (s : State) (h : r.kind = .read) : closeEffects b r (.mediaError f) s =
    if r.delivered < r.count ∧ r.judged = true then giveFault b (r.lba + r.delivered) .unreadable r s else s := by
  simp only [closeEffects, h]

theorem closeEffects_flush_unmarked {b : BayIx} {r : Rec} (c : Option CapacityAnswer) (s : State) (h : r.kind = .flush)
    (hm : r.flushMark = none) : closeEffects b r (.good c) s = s := by
  simp only [closeEffects, h, hm]

theorem closeEffects_write_counts {b : BayIx} {r : Rec} (c : Option CapacityAnswer) (s : State) (h : r.kind = .write) :
    closeEffects b r (.good c) s = countWritten b r (r.lba + r.count) s := by
  simp only [closeEffects, h]

theorem closeEffects_write_fault {b : BayIx} {r : Rec} (f : Nat) (s : State) (h : r.kind = .write) :
    closeEffects b r (.mediaError f) s = giveFault b (r.failLba f) .writeFault r (countWritten b r (r.failLba f) s) := by
  simp only [closeEffects, h]

theorem giveFault_wiping {b : BayIx} {l : Nat} {v : Verdict} {r : Rec} {s : State} (h : (s.bay b).annex.wipe ≠ none) :
    giveFault b l v r s = s := if_pos (Option.isSome_iff_ne_none.mpr h)

theorem giveFault_gives {b : BayIx} {l : Nat} {v : Verdict} {r : Rec} {s : State} (h : (s.bay b).annex.wipe = none) :
    giveFault b l v r s = giveOutcome b l v r.origin r.rescans s := if_neg (by simp [Bay.wiping, h])

theorem annex_countWritten (b : BayIx) (r : Rec) (hi : Nat) (s : State) : ((countWritten b r hi s).bay b).annex = (s.bay b).annex := by
  unfold countWritten
  split
  · rw [bay_modBay_same]
    rfl
  · rfl

/-! ### The unsettled-write list (R37, R38) -/

theorem insertRange_perm (u : URange) : ∀ l : List URange, (insertRange u l).Perm (u :: l)
  | [] => List.Perm.refl _
  | v :: t => by
    rw [insertRange]
    split
    · exact List.Perm.refl _
    · exact ((insertRange_perm u t).cons v).trans (List.Perm.swap u v t)

/-- Where a written range meets no entry, none is left out. -/
theorem filter_apart {lo hi : Nat} {l : List URange} (h : l.filter (URange.meets lo hi) = []) :
    l.filter (fun u => !URange.meets lo hi u) = l := by
  refine List.filter_eq_self.mpr fun u hu => ?_
  rw [Bool.eq_false_iff.mpr (List.filter_eq_nil_iff.mp h u hu)]
  rfl

theorem join_overflows {lo hi : Nat} {seq : BitVec 64} {l : List URange} (hmet : l.filter (URange.meets lo hi) = [])
    (hlen : unsettledMax ≤ l.length) : (Unsettled.ranges l).join lo hi seq = .whole seq := by
  refine if_pos ⟨hmet, ?_⟩
  rwa [filter_apart hmet]

theorem join_merges {lo hi : Nat} {seq : BitVec 64} {l : List URange}
    (h : l.filter (URange.meets lo hi) ≠ [] ∨ l.length < unsettledMax) : (Unsettled.ranges l).join lo hi seq =
      .ranges (insertRange
        { lo := ((l.filter (URange.meets lo hi)).map (·.lo)).foldl min lo
          hi := ((l.filter (URange.meets lo hi)).map (·.hi)).foldl max hi, seq := seq }
        (l.filter (fun u => !URange.meets lo hi u))) := by
  refine if_neg ?_
  rintro ⟨hmet, hlen⟩
  rw [filter_apart hmet] at hlen
  rcases h with h | h
  · exact h hmet
  · exact absurd hlen (Nat.not_le.mpr h)

/-! ### The idle timer (R33) -/

theorem hostOpen_iff (t : Tracker) : t.hostOpen = true ↔ ∃ (tag : Tag) (r : Rec), t.recs[tag] = some r ∧ r.origin = .host := by
  simp only [Tracker.hostOpen, anyRec_iff, decide_eq_true_eq]

end Sys2Proof.Machine

/-! ### The statement -/

namespace Sys2Proof.Proofs

open Sys2Proof.Machine

/-- Settles O33, by the kind and the status of the record that closes. -/
theorem hostRecordsClose : Obligations.HostRecordsClose := by
  refine ⟨fun b tag r a s => ?_, fun b r f c s => ?_, fun b tag r st s => ?_, fun lo hi seq l => ?_, fun t => ?_⟩
  · intro lat closes
    refine ⟨fun hr hnot st => by rw [exec_completion_free st hr, unretire_of_not_retired hnot], fun hr ho => ?_⟩
    refine ⟨?_, fun hk => ?_, fun hk hj f => ?_, fun hk => ?_, fun hk => ?_, fun mark hk hm => ?_, fun hk hn => ?_⟩
    · exact exec_hostCloses_quiet hr ho (closeEffects_otherError b r) rfl
    · exact exec_hostCloses_quiet hr ho (fun t => closeEffects_read_good a t hk) (upStatusOf_good (by simp [hk]))
    · exact exec_hostCloses_quiet hr ho (fun t => (closeEffects_read_fault f t hk).trans (if_neg (by simp [hj]))) rfl
    · exact exec_hostCloses_quiet hr ho (fun t => closeEffects_other t hk) (upStatusOf_good (by simp [hk]))
    · exact exec_hostCloses_quiet hr ho (fun t => closeEffects_capacity t hk) (if_pos hk)
    · have hup : upStatusOf (s.bay b).lane.rc r.kind (.good a) = .good := upStatusOf_good (by simp [hk])
      refine (exec_hostCloses (·.modTracker (fun t => { t with unsettled := t.unsettled.cover mark })) hr ho
        (closeEffects_flush_good _ hk hm) (fun x n => by rw [hk]; rfl) (fun _ => rfl) hup).trans ?_
      simp only [Bay.modTracker, cover_eq]
      rfl
    · have hup : upStatusOf (s.bay b).lane.rc r.kind (.good a) = .good := upStatusOf_good (by simp [hk])
      refine (exec_hostCloses _ hr ho (closeEffects_write_good a _ hk hn) (fun x n => by rw [hk]; rfl) (fun _ => rfl) hup).trans ?_
      rw [ho]
      rfl
  · intro x judged counts does
    have hcounts (hi : Nat) : countWritten b r hi s = counts hi := rfl
    refine ⟨closeEffects_otherError b r s, fun hk => ?_, fun hk => ⟨closeEffects_read_good c s hk, fun hj => ?_, fun hj => ?_⟩,
      fun hk => ⟨closeEffects_flush_bad s hk nofun, closeEffects_flush_unmarked c s hk, fun mark hm => ?_⟩,
      fun hk => ⟨(closeEffects_write_counts c s hk).trans (hcounts _), ?_⟩⟩
    · rcases hk with hk | hk
      · exact ⟨closeEffects_capacity s hk, closeEffects_capacity s hk⟩
      · exact ⟨closeEffects_other s hk, closeEffects_other s hk⟩
    · refine (closeEffects_read_fault f s hk).trans ?_
      split
      · next h => exact giveFault_wiping fun hw => hj ⟨h.2, h.1, hw⟩
      · rfl
    · obtain ⟨hjudged, hleft, hwipe⟩ := hj
      exact (closeEffects_read_fault f s hk).trans ((if_pos ⟨hleft, hjudged⟩).trans (giveFault_gives hwipe))
    · refine (closeEffects_flush_good s hk hm).trans ?_
      simp only [Bay.modTracker, cover_eq] <;> rfl
    · intro l
      have hannex := annex_countWritten b r (r.failLba f) s
      exact ⟨fun hw => (closeEffects_write_fault f s hk).trans (giveFault_wiping (by rw [hannex]; exact hw)),
        fun hw => (closeEffects_write_fault f s hk).trans (giveFault_gives (by rw [hannex]; exact hw))⟩
  · intro x
    refine ⟨fun hr ho up hup => ?_, fun hr hret t hruns => ?_⟩
    · rw [exec_hostClosed hr ho, hup]
      cases st <;> rfl
    · rw [exec_completion_free st hr, unretire_of_retired hret]
      refine congrArg Host.Outcome.next (assign_runs b _ t ?_).symm
      rw [bay_modBay_same]
      exact hruns
  · intro meets met apart one
    refine ⟨fun q => rfl, fun hmet hlen => join_overflows hmet hlen, fun h => ⟨_, join_merges h, insertRange_perm _ _, fun hle hs => ?_⟩⟩
    rw [← join_merges h]
    exact sound_join lo hi seq _ hle hs
  · intro host
    have hiff : t.hostOpen = true ↔ host := hostOpen_iff t
    exact ⟨fun h => if_pos (hiff.mpr h), fun h => if_neg (mt hiff.mp h)⟩

end Sys2Proof.Proofs
end

section
/-! SUPPORT. The annex WRITE (R7, R164): its arrival, its sectors, and the directive that its signed sector carries (R174, R175); and the
statement O29, settled from them. -/

namespace Sys2Proof.Machine

/-! ### Misuses (R164 steps 1 and 2) -/

/-- The state after `n` more misuses have been counted. -/
def State.misused (b : BayIx) (n : Nat) (s : State) : State := s.modBay b (fun x =>
  { x with annex := { x.annex with misuse := (fun n => if n < 2 ^ 32 - 1 then n + 1 else n)^[n] x.annex.misuse } })

theorem annexWrites_past (b : BayIx) (xs : List Sector) {off : Nat} (s : State) (h : 0 < off) :
    annexWrites b off xs s = s.misused b xs.length := misuse_iter b xs off s h

theorem annexWrite_unsigned (b : BayIx) (off : Nat) {x : Sector} (s : State) (h : isSigned x = false) :
    annexWrite b off x s = misuse b s := if_neg (by simp [h])

theorem annexWrite_signed (b : BayIx) {x : Sector} (s : State) (h : isSigned x = true) :
    annexWrite b 0 x s = takeDirective b (wordOf x 2) (directiveOf x) s := if_pos ⟨rfl, h⟩

/-- Sectors off the mailbox, or of which the first is not signed, are misuses, one each. -/
theorem annexWrites_unsigned {b : BayIx} {off : Nat} {xs : List Sector} (s : State)
    (h : off ≠ 0 ∨ ∀ x ∈ xs.head?, isSigned x = false) : annexWrites b off xs s = s.misused b xs.length := by
  by_cases hoff : off = 0
  · cases xs with
    | nil => exact (modBay_id s b _ rfl).symm
    | cons x t =>
      have hx : isSigned x = false := h.resolve_left (not_not_intro hoff) x rfl
      have hone : annexWrite b 1 x s = misuse b s := annexWrite_unsigned b 1 s hx
      have hrest := annexWrites_past b (x :: t) s Nat.one_pos
      rw [annexWrites, hone, annexWrites_past b t _ (Nat.succ_pos 1)] at hrest
      rw [hoff, annexWrites, annexWrite_unsigned b 0 s hx, annexWrites_past b t _ (Nat.succ_pos 0), hrest]
  · exact annexWrites_past b xs s (Nat.pos_of_ne_zero hoff)

/-- A signed sector at the mailbox, and the sectors after it. -/
theorem annexWrites_signed (b : BayIx) {x : Sector} (xs : List Sector) (s : State) (h : isSigned x = true) :
    annexWrites b 0 (x :: xs) s = (takeDirective b (wordOf x 2) (directiveOf x) s).misused b xs.length := by
  rw [annexWrites, annexWrite_signed b s h, annexWrites_past b xs _ (Nat.succ_pos 0)]

/-! ### The words and bytes of a sector (R174) -/

theorem isSigned_iff (x : Sector) : isSigned x = true ↔ x[0] = 0x454B4438#32 := by
  rw [isSigned, decide_eq_true_iff, wordOf_eq_getElem x 0 (by omega)]
  rfl

/-- `w` bytes of a sector from byte `i`, least significant first. -/
def byteSum (x : Sector) (i w : Nat) : Nat := ((List.range w).map (fun j => (byteOf x (i + j)).toNat * 256 ^ j)).sum

theorem bytesOf_eq (x : Sector) (i w : Nat) : bytesOf x i w = byteSum x i w := bytesOf_sum x w i

theorem wordAt_eq (x : Sector) (i : Nat) : wordAt x i = BitVec.ofNat 32 (byteSum x i 4) := congrArg (BitVec.ofNat 32) (bytesOf_eq x i 4)

/-- The fields of a slot record, by the code of its kind (R175). -/
theorem slotArgOf_eq {x : Sector} {o : Nat} {f : SlotArg}
    (h0 : (byteOf x o).toNat = 0 → f = .empty)
    (h1 : (byteOf x o).toNat = 1 → f = .sweep
      { op := byteOf x (o + 4), order := byteOf x (o + 5), pacing := byteOf x (o + 6), trigger := byteOf x (o + 7)
        start := BitVec.ofNat 48 (byteSum x (o + 8) 6), length := BitVec.ofNat 48 (byteSum x (o + 14) 6)
        chunk := BitVec.ofNat 16 (byteSum x (o + 20) 2), block := byteOf x (o + 22), maxInFlight := byteOf x (o + 23)
        passes := byteOf x (o + 24), tolerance := byteOf x (o + 25), rescans := byteOf x (o + 26)
        interval := BitVec.ofNat 32 (byteSum x (o + 28) 4), limit := BitVec.ofNat 32 (byteSum x (o + 32) 4) })
    (h2 : (byteOf x o).toNat = 2 → f = .dwell (BitVec.ofNat 32 (byteSum x (o + 4) 4)))
    (h3 : (byteOf x o).toNat = 3 → f = .powerCycle (BitVec.ofNat 32 (byteSum x (o + 4) 4)))
    (h4 : (byteOf x o).toNat = 4 → f = .powerOff)
    (h5 : (byteOf x o).toNat = 5 → f = .loop (byteOf x (o + 4)) (byteOf x (o + 5)))
    (h6 : (byteOf x o).toNat = 6 → f = .grade (byteOf x (o + 4)) (byteOf x (o + 5)))
    (h7 : (byteOf x o).toNat = 7 → f = .stamp (BitVec.ofNat 48 (byteSum x (o + 4) 6)))
    (h8 : 8 ≤ (byteOf x o).toNat → f = .unknown (byteOf x o)) : slotArgOf x o = f := by
  unfold slotArgOf
  simp only [wordAt_eq, bytesOf_eq]
  split
  · next h => exact (h0 h).symm
  · next h => exact (h1 h).symm
  · next h => exact (h2 h).symm
  · next h => exact (h3 h).symm
  · next h => exact (h4 h).symm
  · next h => exact (h5 h).symm
  · next h => exact (h6 h).symm
  · next h => exact (h7 h).symm
  · next n0 n1 n2 n3 n4 n5 n6 n7 =>
    simp only [imp_false] at n0 n1 n2 n3 n4 n5 n6 n7
    exact (h8 (by omega)).symm

/-- A code outside 1 to 12 names no directive (R166). -/
theorem directiveOf_bad {x : Sector} (h : (wordOf x 1).toNat = 0 ∨ 13 ≤ (wordOf x 1).toNat) : directiveOf x = .badCode (wordOf x 1) := by
  unfold directiveOf
  split
  case h_13 => rfl
  all_goals omega

/-! ### The annex WRITE in service (R7, R164) -/

/-- The bay after `k` more sectors of an annex WRITE have been dealt with. -/
def Bay.annexMoves (c : AnnexCmd) (k : Nat) (x : Bay) : Bay :=
  if c.done + k < c.count then
    x.modLane (fun l => { l with annexSvc := l.annexSvc.map (fun a => if a.tag = c.tag then { a with done := c.done + k } else a) })
  else (x.modLane (fun l => { l with annexSvc := l.annexSvc.filter (fun a => a.tag ≠ c.tag) })).sends (.completion c.tag .good)

theorem annexTaken_eq (b : BayIx) (c : AnnexCmd) (k : Nat) (s : State) : annexTaken b c k s = s.modBay b (Bay.annexMoves c k) := by
  unfold annexTaken
  split
  · next h => exact modBay_eq (if_pos h).symm
  · next h =>
    rw [complete, sendUp, modBay_modBay]
    exact modBay_eq (if_neg h).symm

/-- WRITE DATA on the tag of an annex WRITE goes to the first such WRITE in service. -/
theorem exec_writeData_annex {b : BayIx} {c : AnnexCmd} {pre post : List AnnexCmd} {s : State} (payload : List Sector)
    (hsvc : (s.bay b).lane.annexSvc = pre ++ c :: post) (hpre : ∀ a ∈ pre, a.tag ≠ c.tag) (hw : c.isWrite = true) :
    exec (.writeData b c.tag payload) s = .next (takeAnnexData b c payload s) := by
  have hfirst : (s.bay b).lane.annexWriteOn c.tag = some c := by
    rw [Lane.annexWriteOn, hsvc]
    exact find_first _ pre post c (fun a ha => by simp [hpre a ha]) (by simp [hw])
  refine congrArg Host.Outcome.next ?_
  simp only [hfirst]

theorem takeAnnexData_unsigned {b : BayIx} {c : AnnexCmd} {payload : List Sector} (s : State)
    (h : c.offset + c.done ≠ 0 ∨ ∀ x ∈ payload.head?, isSigned x = false) : takeAnnexData b c payload s =
      (s.misused b (min payload.length (c.count - c.done))).modBay b (Bay.annexMoves c (min payload.length (c.count - c.done))) := by
  have hhead (x : Sector) (hx : x ∈ (payload.take (c.count - c.done)).head?) : x ∈ payload.head? := by
    rw [List.head?_take] at hx
    split at hx
    · exact absurd hx nofun
    · exact hx
  rw [takeAnnexData, annexTaken_eq, annexWrites_unsigned s (h.imp_right fun hsig x hx => hsig x (hhead x hx)), List.length_take,
    Nat.min_comm]

theorem takeAnnexData_signed {b : BayIx} {c : AnnexCmd} {sec : Sector} {rest : List Sector} (s : State) (hoff : c.offset = 0)
    (hdone : c.done = 0) (hcount : 1 ≤ c.count) (hsig : isSigned sec = true) : takeAnnexData b c (sec :: rest) s =
      ((takeDirective b (wordOf sec 2) (directiveOf sec) s).misused b (min (sec :: rest).length (c.count - c.done) - 1)).modBay b
        (Bay.annexMoves c (min (sec :: rest).length (c.count - c.done))) := by
  obtain ⟨n, hn⟩ : ∃ n, c.count = n + 1 := ⟨c.count - 1, by omega⟩
  have htake : (sec :: rest).take (c.count - c.done) = sec :: rest.take n := by rw [hdone, hn] <;> rfl
  have hlen : min (sec :: rest).length (c.count - c.done) = (rest.take n).length + 1 := by
    rw [List.length_take, List.length_cons]
    omega
  rw [takeAnnexData, annexTaken_eq, htake, hoff, hdone, annexWrites_signed b _ s hsig, ← hdone, hlen] <;> rfl

end Sys2Proof.Machine

/-! ### The statement -/

namespace Sys2Proof.Proofs

open Sys2Proof.Machine

/-- Settles O29, by the sector that stands at the mailbox and the code it carries. -/
theorem annexWritesTaken : Obligations.AnnexWritesTaken := by
  refine ⟨fun b tag lba count s hfree hpos hlo hhi => ?_, fun b tag c pre post payload s hsvc hpre htag hw => ?_, fun b s => rfl⟩
  · rw [exec_write_free hfree, placeWrite, placeOf_annex hpos hlo hhi]
    simp only [beginAnnexWrite, sendUp, beginAnnex]
    rw [modBay_modBay]
    rfl
  · subst htag
    intro k up missed ends takes
    have hexec := exec_writeData_annex payload hsvc hpre hw
    refine ⟨fun h => ?_, fun sec rest hpay hoff hdone hcount hsig => ?_⟩
    · have hunsigned : c.offset + c.done ≠ 0 ∨ ∀ x ∈ payload.head?, isSigned x = false :=
        h.imp_right fun hx x hm => Bool.eq_false_iff.mpr (mt (isSigned_iff x).mp (hx x hm))
      exact hexec.trans (congrArg Host.Outcome.next (takeAnnexData_unsigned s hunsigned))
    · intro does code seq b1 num b2 b4 b6
      have hseq : wordOf sec 2 = seq := wordOf_eq_getElem sec 2 (by omega)
      have hcode : (wordOf sec 1).toNat = code := congrArg BitVec.toNat (wordOf_eq_getElem sec 1 (by omega))
      have htakes {d : Directive} (hd : directiveOf sec = d) : takes (missed (k - 1) (takeDirective b seq d s)) := by
        have hdata := takeAnnexData_signed (b := b) (rest := rest) s hoff hdone hcount ((isSigned_iff sec).mpr hsig)
        rw [hseq, hd, ← hpay] at hdata
        exact hexec.trans (congrArg Host.Outcome.next hdata)
      have hdoes {i : Instr} {d : Directive} (hd : directiveOf sec = d) (hi : exec i s = .next (takeDirective b seq d s)) : does i := by
        intro t ht
        cases hi.symm.trans ht
        exact htakes hd
      have hdirective {n : Nat} (h : code = n) : (wordOf sec 1).toNat = n := hcode.trans h
      refine ⟨fun h => hdoes ?_ rfl, fun h => hdoes ?_ rfl, fun h f h0 h1 h2 h3 h4 h5 h6 h7 h8 => hdoes ?_ rfl, fun h => hdoes ?_ rfl,
        fun h => hdoes ?_ rfl, fun h => hdoes ?_ rfl, fun h => hdoes ?_ rfl, fun h => ?_, fun h => ?_, fun h => hdoes ?_ rfl,
        fun h => hdoes ?_ rfl, fun h => hdoes ?_ rfl, fun h => ?_⟩
      · simp only [directiveOf, hdirective h, wordAt_eq]
        rfl
      · simp only [directiveOf, hdirective h, wordAt_eq]
        rfl
      · simp only [directiveOf, hdirective h]
        rw [slotArgOf_eq h0 h1 h2 h3 h4 h5 h6 h7 h8]
      · simp only [directiveOf, hdirective h, wordAt_eq]
        rfl
      · simp only [directiveOf, hdirective h]
        rfl
      · simp only [directiveOf, hdirective h]
        rfl
      · simp only [directiveOf, hdirective h]
        rfl
      · have hd : directiveOf sec = .power (b1 12) := by
          simp only [directiveOf, hdirective h]
          rfl
        refine ⟨fun hb => hdoes (hd.trans (congrArg _ hb)) rfl, fun hb => hdoes (hd.trans (congrArg _ hb)) rfl, fun hb hidle => ?_⟩
        have hrefused := take_refuse b seq (.power (b1 12)) s .badValue hidle (by simp only [carry, carryPower, boolOf_ge hb])
        exact hrefused ▸ htakes hd
      · have hd : directiveOf sec = .zoneMark (b2 12) (b1 14) := by
          simp only [directiveOf, hdirective h, bytesOf_eq]
          rfl
        refine ⟨fun hb => hdoes (hd.trans (congrArg _ hb)) rfl, fun hb => hdoes (hd.trans (congrArg _ hb)) rfl,
          fun hb => hdoes (hd.trans (congrArg _ hb)) rfl, fun hb => hdoes (hd.trans (congrArg _ hb)) rfl, fun hb hidle => ?_⟩
        have hop : zoneMarkOpOf (b1 14) = none := by
          unfold zoneMarkOpOf
          split
          case h_5 => rfl
          all_goals omega
        have hrefused := take_refuse b seq (.zoneMark (b2 12) (b1 14)) s .badValue hidle (by simp only [carry, carryZoneMark, hop])
        exact hrefused ▸ htakes hd
      · simp only [directiveOf, hdirective h]
      · simp only [directiveOf, hdirective h]
        rfl
      · simp only [directiveOf, hdirective h]
        rfl
      · have hbad : directiveOf sec = .badCode sec[1] := by
          rw [directiveOf_bad (by rw [hcode]; exact h), wordOf_eq_getElem sec 1 (by omega)]
        refine hdoes hbad (if_neg ?_)
        rintro ⟨hlo, hhi⟩
        omega

end Sys2Proof.Proofs
end

section
/-! SUPPORT. What is due on an empty queue (log entry 1), condition by condition, and the passing of time (log entries 2 and 3); and the
statement O2, settled from them. -/

namespace Sys2Proof.Machine

/-! ### The part's own steps -/

theorem everyRec_iff (x : Bay) (p : Rec → Bool) : x.tracker.anyRec p = false ↔ x.everyRec (fun r => ¬ p r = true) := by
  simp only [anyRec_false, Bay.everyRec, Bool.not_eq_true]

/-- R156 step 2. -/
theorem wantsFlush_iff (x : Bay) : x.wantsFlush = true ↔ x.power.state = .settling
    ∧ x.everyRec (fun r => r.kind ≠ .write ∧ r.origin ≠ .settle) ∧ x.tracker.unsettled ≠ .ranges []
    ∧ ∀ r ∈ x.tracker.waiting, r.origin ≠ .settle := by
  have hrecs : (x.tracker.writeOpen = false ∧ x.tracker.anyRec (fun r => r.origin = .settle) = false) ↔
      x.everyRec (fun r => r.kind ≠ .write ∧ r.origin ≠ .settle) := by
    simp only [Tracker.writeOpen, everyRec_iff, decide_eq_true_eq, Bay.everyRec]
    exact ⟨fun ⟨hw, hs⟩ g r hr => ⟨hw g r hr, hs g r hr⟩, fun h => ⟨fun g r hr => (h g r hr).1, fun g r hr => (h g r hr).2⟩⟩
  have hwaits : x.tracker.waiting.any (fun r => r.origin = .settle) = false ↔ ∀ r ∈ x.tracker.waiting, r.origin ≠ .settle := by
    simp only [List.any_eq_false, decide_eq_true_eq, ne_eq]
  have hempty : x.tracker.unsettled.isEmpty = false ↔ x.tracker.unsettled ≠ .ranges [] := by
    rw [← Bool.not_eq_true, noneUnsettled_iff]
  simp only [Bay.wantsFlush, Tracker.settleUnderWay, Bool.and_eq_true, Bool.not_eq_true', Bool.or_eq_false_iff, decide_eq_true_eq,
    hempty, hwaits, ← hrecs]
  tauto

/-- R156 step 3. -/
theorem settled_iff (x : Bay) : x.settled = true ↔
    x.power.state = .settling ∧ x.everyRec (fun _ => False) ∧ x.tracker.unsettled = .ranges [] := by
  have hopen : x.tracker.someOpen = false ↔ x.everyRec (fun _ => False) := by
    simp only [Tracker.someOpen, everyRec_iff, not_true_eq_false]
  simp only [Bay.settled, Bool.and_eq_true, Bool.not_eq_true', decide_eq_true_eq, noneUnsettled_iff, hopen]
  tauto

theorem sweepMayIssue_iff (x : Bay) (a : Active) :
    x.sweepMayIssue a = true ↔ x.sweep.status = .active ∧ x.power.state = .on ∧ a.yielding = false := by
  simp only [Bay.sweepMayIssue, Bool.and_eq_true, Bool.not_eq_true', decide_eq_true_eq, and_assoc]

/-- R93. -/
theorem wantsRead_iff (x : Bay) : x.wantsRead = true ↔
    ∃ a, x.sweep.active = some a ∧ x.sweepMayIssue a = true ∧ ∃ i : Fin 8, a.window[i] = .written := by
  unfold Bay.wantsRead
  cases x.sweep.active with
  | none => simp
  | some a => simp only [Bool.and_eq_true, waitingRead_isSome, Option.some.injEq, exists_eq_left']

/-- R92. -/
theorem visitMayStart_iff (x : Bay) (a : Active) : x.visitMayStart a = true ↔ x.sweepMayIssue a = true
    ∧ (∀ i : Fin 8, a.window[i] ≠ .written) ∧ a.credit ≠ .count 0
    ∧ ((List.finRange 8).filter (fun i => decide (a.window[i] ≠ .notStarted ∧ a.window[i] ≠ .complete))).length < a.cfg.maxInFlight
    ∧ ∃ i : Fin 8, a.window[i] = .notStarted ∧ a.frontier + i.val < a.n := by
  rw [← nextVisit_iff, ← inFlight_eq, ← waitingRead_isNone, ← some_iff]
  simp only [Bay.visitMayStart, Bool.and_eq_true, decide_eq_true_eq]
  tauto

theorem wantsVisit_iff (x : Bay) : x.wantsVisit = true ↔ ∃ a, x.sweep.active = some a ∧ x.visitMayStart a = true := by
  unfold Bay.wantsVisit
  cases x.sweep.active with
  | none => simp
  | some a => simp only [Option.some.injEq, exists_eq_left']

/-- The phases that a rescan may suspend (R105). -/
theorem phaseTakesRescan_iff (s : State) (b : BayIx) : s.phaseTakesRescan b = true ↔ ∃ k, (s.bay b).plan.cursor = some k
    ∧ ((∃ f a, s.rack.slots[k].body = .sweep f ∧ (s.bay b).sweep.status = .active ∧ (s.bay b).sweep.active = some a ∧ a.cfg.op ≠ .erase)
      ∨ ∃ d, s.rack.slots[k].body = .dwell d ∧ (s.bay b).plan.step = .timing) := by
  cases hc : (s.bay b).plan.cursor with
  | none => simp [State.phaseTakesRescan, State.cursorSlot, hc, Slot.init]
  | some k =>
    simp only [State.phaseTakesRescan, cursorSlot_eq hc, Option.some.injEq, exists_eq_left']
    cases s.rack.slots[k].body with
    | sweep f => cases (s.bay b).sweep.active <;> simp
    | dwell d => simp
    | _ => simp

/-- R105. -/
theorem rescanMayStart_iff (s : State) (b : BayIx) : s.rescanMayStart b = true ↔ (s.bay b).plan.state = .running
    ∧ (s.bay b).power.state = .on ∧ (s.bay b).zm.queue ≠ [] ∧ (s.bay b).sweep.rescan = none ∧ s.phaseTakesRescan b = true := by
  simp only [State.rescanMayStart, Bool.and_eq_true, running_iff, decide_eq_true_eq, Bool.not_eq_true', List.isEmpty_eq_false_iff,
    Option.isNone_iff_eq_none, and_assoc]

/-- R108. -/
theorem wantsChunk_iff (x : Bay) : x.wantsChunk = true ↔ ∃ q z c, x.sweep.rescan = some q ∧ x.zm.z = some z ∧ x.power.cap = some c
    ∧ x.power.state = .on ∧ q.awaitLink = false
    ∧ ((∃ j, (j, VisitState.written) ∈ q.chunks)
      ∨ (q.chunks.filter (fun e => decide (e.2 = .writing ∨ e.2 = .reading))).length < q.limit ∧ ∃ j, q.nextChunk = some j) := by
  unfold Bay.wantsChunk
  cases x.sweep.rescan with
  | none => simp
  | some q =>
    cases x.zm.z with
    | none => simp
    | some z =>
      cases x.power.cap with
      | none => simp
      | some c =>
        have hnext : q.nextChunk.isSome = true ↔ ∃ j, q.nextChunk = some j := Option.isSome_iff_exists
        simp only [Bool.and_eq_true, Bool.or_eq_true, decide_eq_true_eq, Option.isSome_some, and_true, rescanWaiting_isSome,
          rescanInFlight_eq, hnext]
        constructor
        · rintro ⟨⟨hon, hlink⟩, h⟩
          exact ⟨q, z, c, rfl, rfl, rfl, hon, hlink, h.imp_right And.symm⟩
        · rintro ⟨_, _, _, ⟨⟩, ⟨⟩, ⟨⟩, hon, hlink, h⟩
          exact ⟨⟨hon, hlink⟩, h.imp_right And.symm⟩

theorem dueWipe_eq (s : State) (b : BayIx) : dueWipe s b = if (s.bay b).annex.wipe = none then [] else [.wipeZoneReset b] := by
  unfold dueWipe Bay.wiping
  cases (s.bay b).annex.wipe <;> simp

/-! ### The timers that have run out -/

theorem dwellRemaining_iff (p : Plan) (st : PhaseStep) :
    p.remaining st = some 0 ↔ p.state = .running ∧ p.step = st ∧ p.timer = some 0 := by
  unfold Plan.remaining
  split
  · next h => simp [h]
  · next h => exact ⟨nofun, fun ⟨hr, hs, _⟩ => absurd ⟨hr, hs⟩ h⟩

theorem spinRemaining_iff (x : Bay) : spinRemaining x = some 0 ↔ x.power.state = .spinningUp ∧ x.power.spinTimer = some 0 := by
  unfold spinRemaining
  split
  · next h => simp [h]
  · next h => exact ⟨nofun, fun ⟨hs, _⟩ => absurd hs h⟩

/-- R17. -/
theorem holdRemaining_iff (s : State) (b : BayIx) : holdRemaining s b = some 0 ↔
    ∃ h rest, (s.bay b).lane.held = h :: rest ∧ s.rack.hold ≤ (s.rack.ms - h.arrival).toNat := by
  unfold holdRemaining heldAge
  cases (s.bay b).lane.held with
  | nil => simp
  | cons h rest => simp [Nat.sub_eq_zero_iff_le]

/-- R34. -/
theorem timeoutDue_iff (s : State) (b : BayIx) : timeoutDue s b = some 0 ↔ ∃ (tag : Tag) (r : Rec),
    (s.bay b).tracker.recs[tag] = some r ∧ (s.bay b).tracker.tw * 1000 ≤ (s.rack.us - r.issue).toNat := by
  rw [timeoutDue_zero, Bay.everyRec]
  push Not
  rfl

/-- R100, R107. -/
theorem limitRemaining_iff (w : Sweep) : w.limitRemaining = some 0 ↔
    (w.status = .active ∨ w.status = .suspended ∧ ∀ v, w.saved = some v → v.timeExpired = false)
      ∧ ∃ a, w.active = some a ∧ a.timeLeft = some 0 := by
  have hmarked : (match w.saved with | some v => v.timeExpired | none => false) = false ↔
      ∀ v, w.saved = some v → v.timeExpired = false := by
    cases w.saved <;> simp
  have htimer : w.active.bind (·.timeLeft) = some 0 ↔ ∃ a, w.active = some a ∧ a.timeLeft = some 0 := Option.bind_eq_some_iff
  by_cases h : w.status = .active ∨ w.status = .suspended ∧ ∀ v, w.saved = some v → v.timeExpired = false
  · have hruns : w.limitRemaining = w.active.bind (·.timeLeft) := if_pos (h.imp_right (And.imp_right hmarked.mpr))
    rw [hruns, htimer, and_iff_right h]
  · have hstands : w.limitRemaining = none := if_neg (mt (Or.imp_right (And.imp_right hmarked.mp)) h)
    rw [hstands]
    exact ⟨nofun, fun hd => absurd hd.1 h⟩

/-! ### The passing of time -/

/-- A bay's timers after `k` ms. -/
theorem elapse_eq (k : Nat) (x : Bay) : x.elapse k = { x with
    tracker := { x.tracker with idle := tickDown k x.tracker.idle }
    plan := { x.plan with timer :=
      if x.plan.state = .running ∧ (x.plan.step = .timing ∨ x.plan.step = .offTime) then tickDown k x.plan.timer else x.plan.timer }
    sweep := x.sweep.elapse k
    power := { x.power with spinTimer := tickDown k x.power.spinTimer }
    lines := { x.lines with
      debounce := tickDown k x.lines.debounce, pulse := tickDown k x.lines.pulse, blink := tickDown k x.lines.blink } } := by
  unfold Bay.elapse Plan.elapse
  split <;> rfl

theorem mapVec_congr {α β : Type} {n : Nat} {f g : α → β} (h : ∀ x, f x = g x) (v : Vector α n) :
    mapVec f v = Vector.ofFn (fun i : Fin n => g v[i]) := by
  rw [show f = g from funext h]
  rfl

end Sys2Proof.Machine

/-! ### The statement -/

namespace Sys2Proof.Proofs

open Sys2Proof.Machine

/-- Settles O2, by the place of each event in the fixed order and its own condition. -/
theorem emptyQueueTakesDueEvent : Obligations.EmptyQueueTakesDueEvent := by
  refine ⟨fun s hp => ⟨fun b c hread => ?_, fun hread => ⟨fun c hdue => ?_, fun hdue => ?_⟩⟩, fun s => ⟨rfl, ?_⟩, fun b s => ?_,
    fun b s => ?_, fun s => ?_⟩
  · simp only [step_nil hp, idle, hread]
  · simp only [step_nil hp, idle, hread, hdue]
  · simp only [step_nil hp, idle, hread, hdue]
  · simp only [dueGrant, State.headFits, decide_eq_true_eq, List.isEmpty_eq_false_iff, ne_eq]
  · intro x issues
    refine ⟨filterMap_sublist _ Prod.snd (fun p => ?_) _, ?_, ?_, ?_, ?_, ?_, ?_, ?_, nextChunk_iff, dueWipe_eq s b⟩
    · cases p.1 <;> simp
    · simp only [dueSteps, mem_steps]
      simpa using wantsFlush_iff x
    · simp only [dueSteps, mem_steps]
      simpa using settled_iff x
    · simp only [dueSteps, mem_steps]
      simp [free_iff, x]
    · simp only [dueSteps, mem_steps]
      simpa [sweepMayIssue_iff, issues, and_assoc] using wantsRead_iff x
    · simp only [dueSteps, mem_steps]
      simpa [visitMayStart_iff, sweepMayIssue_iff, issues, and_assoc] using wantsVisit_iff x
    · simp only [dueSteps, mem_steps]
      simpa [phaseTakesRescan_iff] using rescanMayStart_iff s b
    · simp only [dueSteps, mem_steps]
      simpa using wantsChunk_iff x
  · intro x p
    refine ⟨filterMap_sublist _ Prod.snd (fun p => ?_) _, ?_, ?_, ?_, ?_, ?_, ?_, ?_, ?_, ?_, ?_, ?_⟩
    · split <;> simp
    · simp only [dueExpiries, mem_expiries]
      simpa [@eq_comm _ (some 0)] using timeoutDue_iff s b
    · simp only [dueExpiries, mem_expiries]
      simp [x, @eq_comm _ (some 0)]
    · simp only [dueExpiries, mem_expiries]
      simpa [@eq_comm _ (some 0)] using spinRemaining_iff x
    · simp only [dueExpiries, mem_expiries]
      simpa [@eq_comm _ (some 0)] using holdRemaining_iff s b
    · simp only [dueExpiries, mem_expiries]
      simp [x, @eq_comm _ (some 0)]
    · simp only [dueExpiries, mem_expiries]
      simpa [@eq_comm _ (some 0)] using dwellRemaining_iff p .timing
    · simp only [dueExpiries, mem_expiries]
      simpa [@eq_comm _ (some 0)] using dwellRemaining_iff p .offTime
    · simp only [dueExpiries, mem_expiries]
      simp [x, @eq_comm _ (some 0)]
    · simp only [dueExpiries, mem_expiries]
      simpa [@eq_comm _ (some 0)] using limitRemaining_iff x.sweep
    · simp only [dueExpiries, mem_expiries]
      simp [x, @eq_comm _ (some 0)]
    · simp only [dueExpiries, mem_expiries]
      simp [x, @eq_comm _ (some 0)]
  · intro falls elapsed later
    have helapsed (k : Nat) : mapVec (Bay.elapse k) s.bays = Vector.ofFn (fun b : Fin 8 => elapsed k s.bays[b]) :=
      mapVec_congr (elapse_eq k) s.bays
    have hadvance (n : Nat) : advance n s = later n ((s.rack.sub + n) / 1000) ((s.rack.sub + n) % 1000) := by
      unfold advance
      simp only [helapsed]
      rfl
    refine ⟨hadvance, fun h => advance_within 1 s (by omega), fun h => ?_, rfl, fun k hk hs => ?_⟩
    · rw [hadvance, h]
    · rw [advanceMs_form k s hk hs, helapsed]

end Sys2Proof.Proofs
end
